-- ==== Sys2Proof/Word.lean ====
section
/-! DEFINITION. The value types of the codec core: bytes, counts, node ids and bit sequences (00_scope R8 to R10). -/

namespace Sys2Proof

/-- A byte: 8 bits, unsigned (R8). -/
abbrev Byte := BitVec 8

/-- An occurrence count, a block length or a symbol count: 64 bits, unsigned (R7 CNT_W). -/
abbrev Count := BitVec 64

/-- An index into the node arena (10_state R40). -/
abbrev NodeId := BitVec 9

/-- A command word, format CMD16 (30_encoding R121). -/
abbrev CommandWord := BitVec 16

/-- A bit sequence, first element first (R10). -/
abbrev Bits := List Bool

end Sys2Proof
end

