-- ==== Sys2Proof/Config.lean ====
section
/-! DEFINITION. What is fixed for one instance of the hardware: its constants, its one parameter BLOCK_MAX, and the
free values, which the spec leaves open and nothing in Lean can evaluate (00_scope R7, 93_implementation_defined). -/

namespace Sys2Proof

/-- The parameters of an instance (R7, R53): BLOCK_MAX, the capacity in bytes of IBUF and of OBUF.
Log 1: an argument of the model, held in State and changed by no step. -/
structure Config where
  blockMax : Count
  deriving DecidableEq, Repr

namespace Config

/-- The default parameter value (R7, D33). -/
def default : Config where
  blockMax := 4096

/-- The parameter's range, 1 <= BLOCK_MAX < 2^64 (R7). -/
def legal (c : Config) : Bool := c.blockMax ≠ 0

/-- LEN_MAX: the longest Code (R7). -/
def lenMax : Nat := 255

/-- NSYM: the number of byte values (R7). -/
def nsym : Nat := 256

/-- CNT_BYTES: the bytes of total_symbol_count (R7). -/
def cntBytes : Nat := 8

/-- FREE VALUE (Log 3): the byte an IBUF (memory 1) or OBUF (memory 2) location holds when nothing has written it
since the reset numbered `epoch` (10_state R54, U1). -/
opaque freeByte : (memory epoch address : Nat) → Byte

/-- FREE VALUE (Log 4): what a host read of register space `space`, index `index` finds in the bits of a field that
the spec gives no value: a field of an entry whose valid bit is 0, or a field without meaning for the node's kind
(10_state R40, R54, U1). -/
opaque freeField : (epoch space index : Nat) → BitVec 64

/-- FREE VALUE (Log 5): what a loop counter holds once its loop has ended (10_state R26, U16). -/
opaque freeCounter : (tick : Nat) → BitVec 64

/-- FREE VALUE (Log 18): what PQ holds after the ENCODE numbered `epoch` has ended in FreqOverflow (10_state R41, U16). -/
opaque freeQueue : (epoch : Nat) → List NodeId

/-- FREE VALUE (Log 18): what WSTK holds after such an ENCODE (R46, U16). -/
opaque freeStack : (epoch : Nat) → List (NodeId × Bits)

/-- FREE VALUE (Log 18): what PATH holds after such an ENCODE (R46, U16). -/
opaque freePath : (epoch : Nat) → Bits

/-- FREE VALUE (Log 10): how far an operation had got on a stream when reset ended it (70_reset_and_hazards R321, U6). -/
opaque freeCut : (tick : Nat) → Nat

end Config

end Sys2Proof
end

