-- ==== Sys2Proof/Syntax.lean ====
section
/-! DEFINITION. The instructions: one constructor per row of spec/opcode_table.json. The first seven are the 16-bit
command words (30_encoding R120, R121, R123); the last six are the fields of a block on the wire (R101 to R110). -/

namespace Sys2Proof

/-- What the engine can be given to do. -/
inductive Instr where
  /-- RDBITS n: read n bits from the source into BITBUF (40_bitreader R142). -/
  | rdbits (n : BitVec 8)
  /-- WRBITS n: write BITBUF elements 0 to n-1 to the sink (41_bitwriter R164). -/
  | wrbits (n : BitVec 8)
  /-- FLUSH: pad and write the partial byte (41_bitwriter R163, R164). -/
  | flush
  /-- ENCODE: build tree and code table from FREQ (42_tree_builder R180). -/
  | encode
  /-- COMPRESS: write one block (44_codec_compress R230). -/
  | compress
  /-- DECOMPRESS: read one block (45_codec_decompress R250). -/
  | decompress
  /-- Every other command word, split into its fields (R123). -/
  | illegal (op rsv : BitVec 4) (n : BitVec 8)
  /-- wire.entry_count: k entries follow (R104). -/
  | wireEntryCount (k : Byte)
  /-- wire.entry.byte_value: the symbol this entry gives a Code to (R105). -/
  | wireByteValue (v : Byte)
  /-- wire.entry.code_bit_length: the length of this entry's Code (R106). -/
  | wireCodeBitLength (l : Byte)
  /-- wire.entry.code_bits: the Code itself (R107). -/
  | wireCodeBits (code : Bits)
  /-- wire.total_symbol_count: the decoded bytes of the block (R108). -/
  | wireTotalSymbolCount (count : Count)
  /-- wire.body: Code bits, concatenated (R109). -/
  | wireBody (codes : Bits)
  deriving DecidableEq, Repr

/-- The shape a wire field has on the stream: which field it is and, where the field does not say so itself, how many
bits it has (R101, R112). -/
inductive FieldShape where
  | entryCount
  | byteValue
  | codeBitLength
  | codeBits (n : Nat)
  | totalSymbolCount
  | body (n : Nat)
  deriving DecidableEq, Repr

/-- The bits of a field, pad bits not counted (R101). -/
def FieldShape.bits : FieldShape → Nat
  | .entryCount | .byteValue | .codeBitLength => 8
  | .codeBits n | .body n => n
  | .totalSymbolCount => 64

/-- The shape of a wire field; none for a command. -/
def Instr.shape : Instr → Option FieldShape
  | .rdbits _ | .wrbits _ | .flush | .encode | .compress | .decompress | .illegal _ _ _ => none
  | .wireEntryCount _ => some .entryCount
  | .wireByteValue _ => some .byteValue
  | .wireCodeBitLength _ => some .codeBitLength
  | .wireCodeBits code => some (.codeBits code.length)
  | .wireTotalSymbolCount _ => some .totalSymbolCount
  | .wireBody codes => some (.body codes.length)

/-- A command (a 16-bit word on the command port), as against a wire field. -/
def Instr.isCommand (i : Instr) : Bool := i.shape.isNone

end Sys2Proof
end

