-- ==== Sys2Proof/WellFormed.lean ====
section
/-! DEFINITION. Which terms of `Instr` stand for an encoding of the spec (30_encoding R106, R121, R123). -/

namespace Sys2Proof

/-- A word's fields select one of the six rows of R121: op 1 or 2 with rsv 0, or op 3 to 6 with rsv 0 and n 0. -/
def legalFields (op rsv : BitVec 4) (n : BitVec 8) : Bool :=
  rsv == 0 && (op == 1 || op == 2 || ((op == 3 || op == 4 || op == 5 || op == 6) && n == 0))

/-- The well-formed instructions: an illegal word matches no row of R121; a Code has at most 255 bits (R106). -/
def Instr.wf : Instr → Bool
  | .illegal op rsv n => !legalFields op rsv n
  | .wireCodeBits code => code.length ≤ Config.lenMax
  | .rdbits _ | .wrbits _ | .flush | .encode | .compress | .decompress => true
  | .wireEntryCount _ | .wireByteValue _ | .wireCodeBitLength _ => true
  | .wireTotalSymbolCount _ | .wireBody _ => true

end Sys2Proof
end

