-- ==== Sys2Proof/Decode.lean ====
section
/-! DEFINITION. The two decoders, both total, and the encoder: command words (30_encoding R121, R123) and the fields of
a block (R101 to R111), with the bit and byte order of 20_memory R70 to R73. -/

namespace Sys2Proof

/-! ## Bits of bytes (20_memory R70 to R73) -/

/-- The eight bits of a byte, bit 7 first (R70). -/
def bitsOfByte (v : Byte) : Bits := (List.range 8).map fun i => v.getLsbD (7 - i)

/-- The byte whose bits are given, the first one bit 7 (R73, R145). -/
def byteOfBits (bs : Bits) : Byte := bs.foldl (fun v b => (v <<< 1) ||| (BitVec.ofBool b).setWidth 8) 0

/-- The bits of a sequence of bytes in stream order. -/
def bitsOfBytes (vs : List Byte) : Bits := vs.flatMap bitsOfByte

/-- Pack `count` bytes from bits, zeros where the bits run out (R72). -/
def packCount : Nat → Bits → List Byte
  | 0, _ => []
  | k + 1, bs => byteOfBits ((bs.take 8) ++ List.replicate (8 - (bs.take 8).length) false) :: packCount k (bs.drop 8)

/-- ceil(n/8) (R8). -/
def bytesFor (n : Nat) : Nat := (n + 7) / 8

/-- Bits packed MSB-first into whole bytes, the last one padded with zeros (R72, R101). -/
def packBits (bs : Bits) : List Byte := packCount (bytesFor bs.length) bs

/-- The bytes of the 64-bit count, least significant first (R71). -/
def countBytes (c : Count) : List Byte := (List.range Config.cntBytes).map fun j => (c >>> (8 * j)).setWidth 8

/-- The 64-bit count from its bytes, the first one bits 7:0 (R71, R111). -/
def countOfBytes : List Byte → Count
  | [] => 0
  | v :: vs => v.setWidth 64 ||| (countOfBytes vs <<< 8)

/-- Cut bits into bytes of eight; fewer than eight left over are dropped. -/
def bytesOfBits : Nat → Bits → List Byte
  | 0, _ => []
  | k + 1, bs => byteOfBits (bs.take 8) :: bytesOfBits k (bs.drop 8)

/-! ## Command words -/

/-- One row of the table of R121. -/
structure CommandRow where
  mnemonic : String
  pattern : CommandWord
  mask : CommandWord
  deriving DecidableEq, Repr

/-- The table of R121. -/
def commandRows : List CommandRow :=
  [⟨"RDBITS", 0x1000, 0xFF00⟩, ⟨"WRBITS", 0x2000, 0xFF00⟩, ⟨"FLUSH", 0x3000, 0xFFFF⟩,
   ⟨"ENCODE", 0x4000, 0xFFFF⟩, ⟨"COMPRESS", 0x5000, 0xFFFF⟩, ⟨"DECOMPRESS", 0x6000, 0xFFFF⟩]

/-- A word selects the row for which `w & mask = match` (R121). -/
def CommandRow.selects (r : CommandRow) (w : CommandWord) : Bool := (w &&& r.mask) == r.pattern

/-- The field op, bits 15:12 (R121). -/
def opField (w : CommandWord) : BitVec 4 := w.extractLsb' 12 4

/-- The field rsv, bits 11:8 (R121). -/
def rsvField (w : CommandWord) : BitVec 4 := w.extractLsb' 8 4

/-- The field n, bits 7:0 (R121). -/
def nField (w : CommandWord) : BitVec 8 := w.extractLsb' 0 8

/-- Decode a command word: total, since a word that matches no row is the instruction ILLEGAL (R121, R123). -/
def decodeCommand (w : CommandWord) : Instr :=
  if (w &&& 0xFF00) = 0x1000 then .rdbits (nField w)
  else if (w &&& 0xFF00) = 0x2000 then .wrbits (nField w)
  else if w = 0x3000 then .flush
  else if w = 0x4000 then .encode
  else if w = 0x5000 then .compress
  else if w = 0x6000 then .decompress
  else .illegal (opField w) (rsvField w) (nField w)

/-- The mnemonic of an instruction's row in spec/opcode_table.json. -/
def Instr.mnemonic : Instr → String
  | .rdbits _ => "RDBITS"
  | .wrbits _ => "WRBITS"
  | .flush => "FLUSH"
  | .encode => "ENCODE"
  | .compress => "COMPRESS"
  | .decompress => "DECOMPRESS"
  | .illegal _ _ _ => "ILLEGAL"
  | .wireEntryCount _ => "wire.entry_count"
  | .wireByteValue _ => "wire.entry.byte_value"
  | .wireCodeBitLength _ => "wire.entry.code_bit_length"
  | .wireCodeBits _ => "wire.entry.code_bits"
  | .wireTotalSymbolCount _ => "wire.total_symbol_count"
  | .wireBody _ => "wire.body"

/-! ## Wire fields -/

/-- Why a sequence of bytes is no field of the shape asked for. -/
inductive DecodeError where
  /-- Fewer bytes than the field has (60_exceptions R283). -/
  | truncated (shape : FieldShape)
  deriving DecidableEq, Repr

/-- The field whose bits, exactly as many as its shape says, have been read (R111). -/
def fieldOfBits : FieldShape → Bits → Instr
  | .entryCount, bs => .wireEntryCount (byteOfBits bs)
  | .byteValue, bs => .wireByteValue (byteOfBits bs)
  | .codeBitLength, bs => .wireCodeBitLength (byteOfBits bs)
  | .codeBits _, bs => .wireCodeBits bs
  | .totalSymbolCount, bs => .wireTotalSymbolCount (countOfBytes (bytesOfBits Config.cntBytes bs))
  | .body _, bs => .wireBody bs

/-- Decode a field at the front of a byte sequence: the field and the bytes after it, its pad bits dropped
unexamined (R110), or a rejection by name. -/
def decodeWire (shape : FieldShape) (vs : List Byte) : Except DecodeError (Instr × List Byte) :=
  if vs.length < bytesFor shape.bits then .error (.truncated shape)
  else .ok (fieldOfBits shape ((bitsOfBytes (vs.take (bytesFor shape.bits))).take shape.bits),
    vs.drop (bytesFor shape.bits))

/-! ## The encoder -/

/-- The command word of a command (R121); for ILLEGAL the word its fields make up. A wire field has none. -/
def encodeCommand : Instr → Option CommandWord
  | .rdbits n => some (0x10#8 ++ n)
  | .wrbits n => some (0x20#8 ++ n)
  | .flush => some 0x3000
  | .encode => some 0x4000
  | .compress => some 0x5000
  | .decompress => some 0x6000
  | .illegal op rsv n => some (op ++ rsv ++ n)
  | .wireEntryCount _ | .wireByteValue _ | .wireCodeBitLength _ => none
  | .wireCodeBits _ | .wireTotalSymbolCount _ | .wireBody _ => none

/-- The bytes of a wire field (R101, R102); a command has none on the wire. -/
def encodeWire : Instr → List Byte
  | .wireEntryCount k => [k]
  | .wireByteValue v => [v]
  | .wireCodeBitLength l => [l]
  | .wireCodeBits code => packBits code
  | .wireTotalSymbolCount c => countBytes c
  | .wireBody codes => packBits codes
  | .rdbits _ | .wrbits _ | .flush | .encode | .compress | .decompress | .illegal _ _ _ => []

/-- The image of an instruction: a word for the command port, or bytes for the stream. -/
inductive Image where
  | command (w : CommandWord)
  | wire (shape : FieldShape) (bytes : List Byte)
  deriving DecidableEq, Repr

/-- Encode any instruction. -/
def encode (i : Instr) : Image :=
  match i.shape with
  | some shape => .wire shape (encodeWire i)
  | none => .command ((encodeCommand i).getD 0)

/-- Decode any image: a command word, or bytes that hold exactly one field. -/
def decode : Image → Except DecodeError Instr
  | .command w => .ok (decodeCommand w)
  | .wire shape vs => (decodeWire shape vs).map Prod.fst

/-- The instruction the decoder reads from a table row's word (Log 14): 16 bits are a command word; 8 bits are the
field that stands first in a block, entry_count; 64 bits are total_symbol_count, its bytes in stream order. -/
def decodeTableWord (nbits w : Nat) : Option Instr :=
  if nbits = 16 then some (decodeCommand (BitVec.ofNat 16 w))
  else if nbits = 8 then ((decodeWire .entryCount [BitVec.ofNat 8 w]).toOption).map Prod.fst
  else if nbits = 64 then ((decodeWire .totalSymbolCount (countBytes (BitVec.ofNat 64 w))).toOption).map Prod.fst
  else none

end Sys2Proof
end

