-- ==== Sys2Proof/Machine/State.lean ====
section
/-! DEFINITION. The state of the codec core as plain data (10_state R20 to R56) and its value after reset (R54, R320). -/

namespace Sys2Proof.Machine

/-- The controller state register ST (R25). The reserved values 12 to 14 are never entered and have no constructor
(Log 19). -/
inductive CtrlState where
  | idle
  | readingHeader
  | readingCount
  | readingBody
  | done
  | cleanEOF
  | scanning
  | building
  | writingHeader
  | writingCount
  | writingBody
  | bitOp
  | fault
  deriving DecidableEq, Repr

/-- The fault class register ERR (60_exceptions R281). The reserved values 7 to 15 are never written (Log 19). -/
inductive ErrClass where
  | none
  | malformedStream
  | inconsistentBody
  | entryOverflow
  | capacity
  | freqOverflow
  | illegalCommand
  deriving DecidableEq, Repr

/-- One slot of the node arena NODE (R40). -/
structure Node where
  valid : Bool
  isLeaf : Bool
  freq : Count
  sym : Byte
  left : NodeId
  right : NodeId
  deriving DecidableEq, Repr

/-- One entry of CODE (R44): len is the length of `bits` (Log 12). -/
structure CodeEntry where
  valid : Bool
  bits : Bits
  deriving DecidableEq, Repr

/-- One entry of DEC (R45): len is the length of `bits` (Log 12). -/
structure DecEntry where
  valid : Bool
  bits : Bits
  sym : Byte
  deriving DecidableEq, Repr

/-- A byte memory, IBUF or OBUF (R47, R48): the locations written since reset, by index; canonical form in Ops.lean. -/
abbrev Memory := List Host.Cell

/-- The wire field a DECOMPRESS takes next (45_codec_decompress R250, R256; Log 8). -/
inductive WireField where
  | entryCount
  | byteValue
  | codeBitLength
  | codeBits
  | totalSymbolCount
  | body
  deriving DecidableEq, Repr

/-- What the host can do to the machine (70_reset_and_hazards R320, R322, R327, R337; Log 7). -/
inductive HostAction where
  /-- Offer a command word (R121, R124). -/
  | command (w : CommandWord)
  /-- Read a register (10_state R36, R37). -/
  | regRead (space : BitVec 4) (index : BitVec 32)
  /-- Write a register (R36, R37). -/
  | regWrite (space : BitVec 4) (index : BitVec 32) (data : BitVec 64)
  /-- Assert rst (R320). -/
  | reset
  /-- Offer a command word and, before its operation has ended, assert rst (R321; Log 10). -/
  | commandReset (w : CommandWord)
  /-- Connect a byte source that will deliver these bytes and then end (R322, R327). -/
  | attachSource (bytes : List Byte)
  /-- Connect a fresh byte sink (R322). -/
  | attachSink
  deriving DecidableEq, Repr

/-- The state (R20, R49, R50). -/
structure State where
  /-- The instance's parameters (R7, R53; Log 1). -/
  config : Config
  /-- RD_BYTE (R21). -/
  rdByte : Byte
  /-- RD_LEFT (R22). -/
  rdLeft : BitVec 4
  /-- WR_ACC (R23). -/
  wrAcc : Byte
  /-- WR_N (R24). -/
  wrN : BitVec 3
  /-- ST (R25). -/
  st : CtrlState
  /-- ERR (R32). -/
  err : ErrClass
  /-- ERR_SUB (R32). -/
  errSub : BitVec 4
  /-- ERR_ST (R32). -/
  errSt : CtrlState
  /-- BUSY (R33). -/
  busy : Bool
  /-- LEN (R28). -/
  len : Count
  /-- OUT_LEN (R29). -/
  outLen : Count
  /-- TOTAL (R30). -/
  total : Count
  /-- NENT (R30). -/
  nent : BitVec 9
  /-- DECODED (R26). -/
  decoded : Count
  /-- CAND (R31): CAND_LEN is its length (Log 12). -/
  cand : Bits
  /-- ENT_IX (R26). -/
  entIx : BitVec 9
  /-- BYTE_IX (R26). -/
  byteIx : BitVec 4
  /-- POS (R26). -/
  pos : Count
  /-- BITBUF (R34), element i at bit i. -/
  bitbuf : BitVec 255
  /-- BITCNT (R34). -/
  bitcnt : BitVec 8
  /-- FREQ (R39). -/
  freq : Vector Count 256
  /-- NODE (R40). -/
  node : Vector Node 511
  /-- PQ (R41), its members in order of insertion (Log 13). -/
  pq : List NodeId
  /-- NINT (R42). -/
  nint : BitVec 9
  /-- ROOT.valid (R43). -/
  rootValid : Bool
  /-- ROOT.id (R43). -/
  rootId : NodeId
  /-- CODE (R44). -/
  code : Vector CodeEntry 256
  /-- DEC (R45). -/
  dec : Vector DecEntry 255
  /-- DEC_N (R45). -/
  decN : BitVec 8
  /-- WSTK (R46), the entry pushed last first. -/
  wstk : List (NodeId × Bits)
  /-- PATH (R46). -/
  path : Bits
  /-- IBUF (R47). -/
  ibuf : Memory
  /-- OBUF (R48). -/
  obuf : Memory
  /-- SRC (R49). -/
  src : List Byte
  /-- SNK (R50), the byte written first first. -/
  snk : List Byte
  /-- reg_rdata (R337): the answer of the last host register read. -/
  regRdata : BitVec 64
  /-- The host's actions still to come (Log 7). -/
  pending : List HostAction
  /-- The wire field due next in DECOMPRESS (Log 8). -/
  field : WireField
  /-- The local sym of R254 (Log 8). -/
  symTmp : Byte
  /-- The local L of R254 (Log 8). -/
  lenTmp : Byte
  /-- How often IBUF and OBUF have lost their content: argument of `Config.freeByte` (Log 3). -/
  memEpoch : Nat
  /-- How often NODE, ROOT and CODE have been cleared: argument of `Config.freeField` (Log 4). -/
  encEpoch : Nat
  /-- How often DEC has been cleared: argument of `Config.freeField` (Log 4). -/
  decEpoch : Nat
  /-- Which free loop-counter value comes next: argument of `Config.freeCounter` (Log 5). -/
  freeTick : Nat
  deriving DecidableEq, Repr

/-- Why the machine stops. -/
inductive Fault where
  /-- Raised by `step` alone, in a state with BUSY = 1 in which no field of a DECOMPRESS is due: a state inside another
  operation, which no operation boundary has (R25; Log 9). Safe: the model stops where the hardware would go on. -/
  | midOperation
  deriving DecidableEq, Repr

/-- Why an instruction has no meaning. -/
inductive Refusal where
  /-- Raised by an arm of `exec` for an instruction not yet modelled; none is left. Safe. -/
  | notModelled (mnemonic : String)
  deriving DecidableEq, Repr

/-- A table with every entry the same. -/
def tableOf (n : Nat) {α : Type} (x : α) : Vector α n := ⟨(List.replicate n x).toArray, by simp⟩

/-- An arena slot after reset: not valid; the other fields are the model's choice (R54, Log 2). -/
def Node.blank : Node := ⟨false, false, 0, 0, 0, 0⟩

/-- A CODE entry after reset: not valid; the Code is the model's choice (R54, Log 2). -/
def CodeEntry.blank : CodeEntry := ⟨false, []⟩

/-- A DEC entry after reset: not valid; Code and symbol are the model's choice (R54, Log 2). -/
def DecEntry.blank : DecEntry := ⟨false, [], 0⟩

/-- The machine right after reset (R54, R320), of an instance with the default parameter, nothing connected to its
source and sink, and no action of the host to come (Logs 1, 6, 7). -/
def State.reset : State where
  config := Config.default
  rdByte := 0
  rdLeft := 0
  wrAcc := 0
  wrN := 0
  st := .idle
  err := .none
  errSub := 0
  errSt := .idle
  busy := false
  len := 0
  outLen := 0
  total := 0
  nent := 0
  decoded := 0
  cand := []
  entIx := 0
  byteIx := 0
  pos := 0
  bitbuf := 0
  bitcnt := 0
  freq := tableOf 256 0
  node := tableOf 511 Node.blank
  pq := []
  nint := 0
  rootValid := false
  rootId := 0
  code := tableOf 256 CodeEntry.blank
  dec := tableOf 255 DecEntry.blank
  decN := 0
  wstk := []
  path := []
  ibuf := []
  obuf := []
  src := []
  snk := []
  regRdata := 0
  pending := []
  field := .entryCount
  symTmp := 0
  lenTmp := 0
  memEpoch := 0
  encEpoch := 0
  decEpoch := 0
  freeTick := 0

end Sys2Proof.Machine
end

