-- ==== Sys2Proof/Machine/Flags.lean ====
section
/-! DEFINITION. Outcome state: the codes of ST, ERR and ERR_SUB, the packed STATUS register and the output pins
(10_state R25, R27, R32, R35; 60_exceptions R281). The hardware has no arithmetic flags (R27). -/

namespace Sys2Proof.Machine

/-- The code of a controller state (R25). -/
def CtrlState.toBits : CtrlState → BitVec 4
  | .idle => 0
  | .readingHeader => 1
  | .readingCount => 2
  | .readingBody => 3
  | .done => 4
  | .cleanEOF => 5
  | .scanning => 6
  | .building => 7
  | .writingHeader => 8
  | .writingCount => 9
  | .writingBody => 10
  | .bitOp => 11
  | .fault => 15

/-- The code of a fault class (R281). -/
def ErrClass.toBits : ErrClass → BitVec 4
  | .none => 0
  | .malformedStream => 1
  | .inconsistentBody => 2
  | .entryOverflow => 3
  | .capacity => 4
  | .freqOverflow => 5
  | .illegalCommand => 6

/-- What a line of pseudocode can raise: the rows of R281. -/
inductive Cause where
  | entryCount
  | byteValue
  | codeLength
  | codeBits
  | totalCount
  | bodyTruncated
  | noMatch
  | leftover
  | entryOverflow
  | inputLength
  | outputLength
  | freqOverflow
  | reservedOpcode
  | reservedField
  deriving DecidableEq, Repr

/-- The class of a cause (R281). -/
def Cause.errClass : Cause → ErrClass
  | .entryCount | .byteValue | .codeLength | .codeBits | .totalCount => .malformedStream
  | .bodyTruncated | .noMatch | .leftover => .inconsistentBody
  | .entryOverflow => .entryOverflow
  | .inputLength | .outputLength => .capacity
  | .freqOverflow => .freqOverflow
  | .reservedOpcode | .reservedField => .illegalCommand

/-- The sub-cause code of a cause (R281). -/
def Cause.subCode : Cause → BitVec 4
  | .entryCount => 1
  | .byteValue => 2
  | .codeLength => 3
  | .codeBits => 4
  | .totalCount => 5
  | .bodyTruncated => 1
  | .noMatch => 2
  | .leftover => 3
  | .entryOverflow => 0
  | .inputLength => 1
  | .outputLength => 2
  | .freqOverflow => 0
  | .reservedOpcode => 1
  | .reservedField => 2

/-- The causes raised by DECOMPRESS, for which fault entry clears OUT_LEN (R281, R290). -/
def Cause.inDecompress : Cause → Bool
  | .entryCount | .byteValue | .codeLength | .codeBits | .totalCount => true
  | .bodyTruncated | .noMatch | .leftover | .outputLength => true
  | .entryOverflow | .inputLength | .freqOverflow | .reservedOpcode | .reservedField => false

/-- The sub-cause of an illegal word: op 0 or 7 to 15 decides first (R287). -/
def illegalCause (op : BitVec 4) : Cause :=
  if op = 0 ∨ 7 ≤ op.toNat then .reservedOpcode else .reservedField

/-- STATUS (R35). -/
def statusWord (s : State) : BitVec 64 :=
  0#47 ++ BitVec.ofBool s.busy ++ s.errSt.toBits ++ s.errSub ++ s.err.toBits ++ s.st.toBits

/-- The pin `busy` (R27). -/
def busyPin (s : State) : Bool := s.busy

/-- The pin `done` (R27). -/
def donePin (s : State) : Bool := !s.busy && (s.st == .done || s.st == .cleanEOF)

/-- The pin `fault` (R27). -/
def faultPin (s : State) : Bool := s.st == .fault

/-- The pin `cmd_ready` (R124, R337). -/
def cmdReady (s : State) : Bool := !s.busy

end Sys2Proof.Machine
end

