-- ==== Sys2Proof/Machine/Ops.lean ====
section
/-! DEFINITION. The named operations over tables, memories, streams and the controller that every meaning is written
with: entry access (00_scope R11, R12), byte memories (20_memory R82), beginning and ending an operation (10_state
R33), fault entry (60_exceptions R290) and reset (70_reset_and_hazards R320). -/

namespace Sys2Proof.Machine

/-! ## Tables (R11, R83: one whole entry at a time) -/

/-- `TAB[i]`; `d` stands for an index the table does not have. -/
def tabGet {α : Type} {n : Nat} (t : Vector α n) (d : α) (i : Nat) : α := t.toList.getD i d

/-- `TAB[i] <- x`; nothing happens at an index the table does not have. -/
def tabSet {α : Type} {n : Nat} (t : Vector α n) (i : Nat) (x : α) : Vector α n :=
  ⟨(t.toList.set i x).toArray, by simp⟩

/-- Change every entry of a table. -/
def tabMap {α β : Type} {n : Nat} (f : α → β) (t : Vector α n) : Vector β n :=
  ⟨(t.toList.map f).toArray, by simp⟩

/-- FREQ[b] (R39). -/
def freqAt (s : State) (b : Byte) : Count := tabGet s.freq 0 b.toNat

/-- NODE[n] (R40). -/
def nodeAt (s : State) (n : NodeId) : Node := tabGet s.node Node.blank n.toNat

/-- CODE[b] (R44). -/
def codeAt (s : State) (b : Byte) : CodeEntry := tabGet s.code CodeEntry.blank b.toNat

/-- CODE[b].len (R44; Log 12). -/
def CodeEntry.len (e : CodeEntry) : BitVec 8 := BitVec.ofNat 8 e.bits.length

/-- DEC[e] (R45). -/
def decAt (s : State) (e : Nat) : DecEntry := tabGet s.dec DecEntry.blank e

/-- DEC[e].len (R45; Log 12). -/
def DecEntry.len (e : DecEntry) : BitVec 8 := BitVec.ofNat 8 e.bits.length

/-- The byte values with a nonzero count, ascending (R39, 44_codec_compress R234). -/
def presentBytes (s : State) : List Byte :=
  ((List.range Config.nsym).map (BitVec.ofNat 8)).filter fun b => freqAt s b ≠ 0

/-! ## Byte memories (R47, R48, R82) -/

/-- The byte stored at an index; none where nothing has been written since reset. -/
def memFind : Memory → Nat → Option Byte
  | [], _ => none
  | (a, v) :: m, i => if a = i then some v else memFind m i

/-- Store a byte, keeping the indexes strictly rising. -/
def memStore : Memory → Nat → Byte → Memory
  | [], i, x => [(i, x)]
  | (a, v) :: m, i, x =>
    if i < a then (i, x) :: (a, v) :: m
    else if i = a then (i, x) :: m
    else (a, v) :: memStore m i x

/-- The canonical form: indexes strictly rising. An unlisted index reads as "not written", which no stored byte is,
so no entry repeats what an unlisted index reads as (Log 3). -/
abbrev Memory.wf (m : Memory) : Prop := (m.map Prod.fst).Pairwise (· < ·)

/-- Every index is inside the memory (R82). -/
abbrev Memory.inRange (m : Memory) (c : Config) : Prop := ∀ a ∈ m.map Prod.fst, a < c.blockMax.toNat

/-- `MemRead(IBUF, i, 1)` (R11, R47): a byte not written since reset is a free value, the same at every read until
the next reset (U1, Log 3). -/
def ibufByte (s : State) (i : Nat) : Byte := (memFind s.ibuf i).getD (Config.freeByte 1 s.memEpoch i)

/-- `OBUF[i]` (R48), free where not written since reset (U1, Log 3). -/
def obufByte (s : State) (i : Nat) : Byte := (memFind s.obuf i).getD (Config.freeByte 2 s.memEpoch i)

/-- `IBUF[i] <- v`, only by the host (R47); no location exists from BLOCK_MAX on (R82). -/
def ibufWrite (s : State) (i : Nat) (v : Byte) : State :=
  if i < s.config.blockMax.toNat then { s with ibuf := memStore s.ibuf i v } else s

/-- `MemWrite(OBUF, i, 1, v)` (R11, R48); no location exists from BLOCK_MAX on (R82). -/
def obufWrite (s : State) (i : Nat) (v : Byte) : State :=
  if i < s.config.blockMax.toNat then { s with obuf := memStore s.obuf i v } else s

/-! ## Streams (R12, 20_memory R74 to R79) -/

/-- `SrcRead()` (R12, R74): the next byte, consumed, or none at the end, which consumes nothing (R75). -/
def srcRead (s : State) : Option Byte × State :=
  match s.src with
  | [] => (none, s)
  | v :: vs => (some v, { s with src := vs })

/-- `SnkWrite(v)` (R12, R77). -/
def snkWrite (s : State) (v : Byte) : State := { s with snk := s.snk ++ [v] }

/-! ## Free loop counters (10_state R26, U16; Log 5) -/

/-- The loop over header entries has ended: ENT_IX holds any value. -/
def releaseEntIx (s : State) : State :=
  { s with entIx := (Config.freeCounter s.freeTick).setWidth 9, freeTick := s.freeTick + 1 }

/-- The loop over the count bytes has ended: BYTE_IX holds any value. -/
def releaseByteIx (s : State) : State :=
  { s with byteIx := (Config.freeCounter s.freeTick).setWidth 4, freeTick := s.freeTick + 1 }

/-- The loop over the block has ended: POS holds any value. -/
def releasePos (s : State) : State :=
  { s with pos := Config.freeCounter s.freeTick, freeTick := s.freeTick + 1 }

/-- FreqOverflow has ended an ENCODE: PQ, WSTK and PATH hold any value (U16; Log 18). -/
def releaseQueue (s : State) : State :=
  { s with
    pq := Config.freeQueue s.encEpoch
    wstk := Config.freeStack s.encEpoch
    path := Config.freePath s.encEpoch }

/-! ## Beginning and ending an operation -/

/-- ST <- Done; BUSY <- 0 (R27, R33). -/
def finishDone (s : State) : State := { s with st := .done, busy := false }

/-- ST <- CleanEOF; BUSY <- 0 (45_codec_decompress R252). -/
def finishCleanEOF (s : State) : State := { s with st := .cleanEOF, busy := false }

/-- Fault entry, `raise` (R290). -/
def raise (c : Cause) (s : State) : State :=
  { s with
    errSt := s.st
    err := c.errClass
    errSub := c.subCode
    st := .fault
    outLen := if c.inDecompress then 0 else s.outLen
    busy := false }

/-- Reset (R54, R320, R321): the only way out of ST = Fault (R292), the place of a return from exception. The
parameters, the streams and the host's further actions are not the hardware's and stay; the memories and tables
lose their content (Logs 3, 4). -/
def resetMachine (s : State) : State :=
  { State.reset with
    config := s.config
    src := s.src
    snk := s.snk
    pending := s.pending
    memEpoch := s.memEpoch + 1
    encEpoch := s.encEpoch + 1
    decEpoch := s.decEpoch + 1
    freeTick := s.freeTick }

/-- Reset while an operation runs that would have taken the state `s` to `t` (R321, U6): the hardware is reset; the
source has lost some prefix of what the operation would have consumed, the sink has gained some prefix of what it would
have written, both of any length (Log 10). -/
def resetDuring (s t : State) : State :=
  resetMachine { s with
    src := s.src.drop (min (Config.freeCut s.freeTick) (s.src.length - t.src.length))
    snk := s.snk ++ (t.snk.drop s.snk.length).take (Config.freeCut (s.freeTick + 1))
    freeTick := s.freeTick + 2 }

/-- How a piece of an operation ends: the operation goes on, or it has ended (R13). -/
inductive Flow where
  | go (s : State)
  | ended (s : State)
  deriving DecidableEq, Repr

/-- The state reached, ended or not. -/
def Flow.state : Flow → State
  | .go s => s
  | .ended s => s

/-- Go on with `f` unless the operation has ended. -/
def Flow.andThen : Flow → (State → Flow) → Flow
  | .go s, f => f s
  | .ended s, _ => .ended s

/-- Run the operation of an accepted command: BUSY <- 1 (R33), unless ST = Fault, when the command is accepted and
discarded (R291). -/
def acceptCommand (op : State → State) (s : State) : Host.Outcome State Fault Refusal :=
  .next (if s.st = .fault then s else op { s with busy := true })

/-- What a step answers when reset has ended the operation early (R321). -/
def resetOutcome (s : State) : Host.Outcome State Fault Refusal → Host.Outcome State Fault Refusal
  | .next t => .next (resetDuring s t)
  | .fault r => .fault r
  | .refused r => .refused r

/-- Let the engine take a wire field; in ST = Fault nothing executes (R292). -/
def acceptField (take : State → Flow) (s : State) : Host.Outcome State Fault Refusal :=
  .next (if s.st = .fault then s else (take s).state)

end Sys2Proof.Machine
end

