-- ==== Sys2Proof/Machine/Operands.lean ====
section
/-! DEFINITION. The operand forms of the commands: the bit count n of the command word and the host bit buffer BITBUF
(30_encoding R121, R122; 10_state R34). All other operands are named state (R121). -/

namespace Sys2Proof.Machine

/-- The number whose binary digits are given, least significant first. -/
def natOfBits : Bits → Nat
  | [] => 0
  | b :: bs => b.toNat + 2 * natOfBits bs

/-- A bit sequence as BITBUF holds it: element i at bit i, zeros beyond its length (R34, 40_bitreader R142). -/
def bitbufOfBits (bs : Bits) : BitVec 255 := BitVec.ofNat 255 (natOfBits bs)

/-- BITBUF elements 0 to n-1 (R34, 41_bitwriter R161). -/
def bitbufBits (s : State) (n : BitVec 8) : Bits := (List.range n.toNat).map fun i => s.bitbuf.getLsbD i

/-- The field n of a command word as a count: unsigned, as it stands (R122). -/
def bitCount (n : BitVec 8) : Nat := n.toNat

end Sys2Proof.Machine
end

