-- ==== Sys2Proof/Machine/BitWriter.lean ====
section
/-! DEFINITION. The BitWriter (41_bitwriter R160 to R167), WRBITS and FLUSH. -/

namespace Sys2Proof.Machine

/-- WR_ACC with one more bit: it enters at bit 0, earlier bits move up (R161). -/
def accWith (acc : Byte) (b : Bool) : Byte := (acc <<< 1) ||| (BitVec.ofBool b).setWidth 8

/-- One bit of `write_bits`: the eighth bit sends the byte to the sink in the same step (R161, 10_state R24). -/
def writeBit (s : State) (b : Bool) : State :=
  if s.wrN.toNat + 1 = 8 then { snkWrite s (accWith s.wrAcc b) with wrAcc := 0, wrN := 0 }
  else { s with wrAcc := accWith s.wrAcc b, wrN := s.wrN + 1 }

/-- `write_bits(bits)` (R161). -/
def writeBits (bs : Bits) (s : State) : State := bs.foldl writeBit s

/-- `write_byte(v)` (R162). -/
def writeByte (v : Byte) (s : State) : State := writeBits (bitsOfByte v) s

/-- `flush()` (R163): a partial byte is left-aligned, padded with zeros and written; else nothing. -/
def flush (s : State) : State :=
  if 0 < s.wrN.toNat then { snkWrite s (s.wrAcc <<< (8 - s.wrN.toNat)) with wrAcc := 0, wrN := 0 } else s

/-- The operation of WRBITS n (R164). -/
def wrbitsOp (n : BitVec 8) (s : State) : State :=
  finishDone (writeBits (bitbufBits s n) { s with st := .bitOp })

/-- WRBITS n (R164): always ends Done. -/
def execWrbits (n : BitVec 8) (s : State) : Host.Outcome State Fault Refusal := acceptCommand (wrbitsOp n) s

/-- The operation of FLUSH (R164). -/
def flushOp (s : State) : State := finishDone (flush { s with st := .bitOp })

/-- FLUSH (R163, R164): always ends Done. -/
def execFlush (s : State) : Host.Outcome State Fault Refusal := acceptCommand flushOp s

end Sys2Proof.Machine
end

