-- ==== Sys2Proof/Machine/TreeBuilder.lean ====
section
/-! DEFINITION. The Huffman tree builder (42_tree_builder R181 to R187): leaves, priority queue, merge loop. -/

namespace Sys2Proof.Machine

/-- `clear_tables()` (R181). The other fields of an entry whose valid bit is cleared hold any value from here on
(U1): the host reads them through a new epoch (Log 4). -/
def clearTables (s : State) : State :=
  { s with
    node := tabMap (fun n => { n with valid := false }) s.node
    code := tabMap (fun c => { c with valid := false }) s.code
    pq := []
    nint := 0
    rootValid := false
    encEpoch := s.encEpoch + 1 }

/-- The leaf of byte value b (R40, R181); left and right have no meaning in a leaf. -/
def leafNode (s : State) (b : Byte) : Node := ⟨true, true, freqAt s b, b, 0, 0⟩

/-- The node id of the leaf of byte value b (R40). -/
def leafId (b : Byte) : NodeId := b.setWidth 9

/-- NODE[b] <- the leaf of b; PQ.insert(b) (R181). -/
def makeLeaf (s : State) (b : Byte) : State :=
  { s with node := tabSet s.node b.toNat (leafNode s b), pq := s.pq ++ [leafId b] }

/-- `make_leaves()` (R181). -/
def makeLeaves (s : State) : State := (presentBytes s).foldl makeLeaf s

/-- The key order of the queue: frequency first, then node id, both unsigned (R41, R182). -/
def keyLess (s : State) (a b : NodeId) : Bool :=
  (nodeAt s a).freq.toNat < (nodeAt s b).freq.toNat ||
    ((nodeAt s a).freq == (nodeAt s b).freq && a.toNat < b.toNat)

/-- The member with the least key among `m` and `ids` (R182). -/
def leastOf (s : State) : NodeId → List NodeId → NodeId
  | m, [] => m
  | m, x :: xs => leastOf s (if keyLess s x m then x else m) xs

/-- `PQ.extract_min()` (R41, R182); none on an empty queue. -/
def extractMin (s : State) : Option (NodeId × State) :=
  match s.pq with
  | [] => none
  | x :: xs => some (leastOf s x xs, { s with pq := s.pq.erase (leastOf s x xs) })

/-- The internal node over a (left) and b (right) (R183, R184); sym has no meaning in it. -/
def innerNode (sum : Count) (a b : NodeId) : Node := ⟨true, false, sum, 0, a, b⟩

/-- The id of the next internal node, 256 + NINT (R42, R183). -/
def nextInner (s : State) : NodeId := 256 + s.nint

/-- Join the two nodes just extracted, a before b (R183, R184); the sum is exact and 2^64 or more raises
FreqOverflow (R185). -/
def joinNodes (a b : NodeId) (s : State) : Flow :=
  if 2 ^ 64 ≤ (nodeAt s a).freq.toNat + (nodeAt s b).freq.toNat then .ended (raise .freqOverflow (releaseQueue s))
  else .go { s with
    node := tabSet s.node (nextInner s).toNat (innerNode ((nodeAt s a).freq + (nodeAt s b).freq) a b)
    nint := s.nint + 1
    pq := s.pq ++ [nextInner s] }

/-- One pass of the merge loop: extract the two least, join them (R183). -/
def mergeTwo (s : State) : Flow :=
  match extractMin s with
  | none => .go s
  | some (a, s1) =>
    match extractMin s1 with
    | none => .go s
    | some (b, s2) => joinNodes a b s2

/-- `while |PQ| >= 2` (R183); every pass shortens the queue by one, so its length bounds the passes (Log 13). -/
def mergeLoop : Nat → State → Flow
  | 0, s => .go s
  | k + 1, s => if 2 ≤ s.pq.length then (mergeTwo s).andThen (mergeLoop k) else .go s

/-- What stands after the loop in R183: the remaining node is the root; no node, no root. -/
def setRoot (s : State) : State :=
  match extractMin s with
  | none => { s with rootValid := false }
  | some (r, s') => { s' with rootValid := true, rootId := r }

/-- `merge_all()` (R183). -/
def mergeAll (s : State) : Flow := (mergeLoop s.pq.length s).andThen fun s' => .go (setRoot s')

end Sys2Proof.Machine
end

