-- ==== Sys2Proof/Machine/CodeGenerator.lean ====
section
/-! DEFINITION. The code generator (43_code_generator R210 to R214) and ENCODE (42_tree_builder R180). -/

namespace Sys2Proof.Machine

/-- CODE[sym] <- a valid entry with the Code `bits` (R44, R210, R212). -/
def setCode (sym : Byte) (bits : Bits) (s : State) : State :=
  { s with code := tabSet s.code sym.toNat ⟨true, bits⟩ }

/-- What the walk does with the entry popped: a leaf gets its path as Code; an internal node pushes right with 0,
then left with 1 (R211, R212). -/
def visit (n : NodeId) (s : State) : State :=
  if (nodeAt s n).isLeaf then setCode (nodeAt s n).sym s.path s
  else { s with wstk :=
    ((nodeAt s n).left, s.path ++ [true]) :: ((nodeAt s n).right, s.path ++ [false]) :: s.wstk }

/-- `while WSTK not empty` (R212); each of the at most 511 nodes is popped once (Log 13). -/
def walkLoop : Nat → State → State
  | 0, s => s
  | k + 1, s =>
    match s.wstk with
    | [] => s
    | (n, p) :: rest => walkLoop k (visit n { s with wstk := rest, path := p })

/-- `walk(r)` (R212); PATH is empty again at its end (R46; Log 20). -/
def walk (r : NodeId) (s : State) : State :=
  { walkLoop 511 { s with wstk := [(r, [])] } with path := [] }

/-- `assign_codes()` (R210): no root, no Code; a root that is a leaf gets the Code [1] (R213); else the walk. -/
def assignCodes (s : State) : State :=
  if s.rootValid then
    if (nodeAt s s.rootId).isLeaf then setCode (nodeAt s s.rootId).sym [true] s
    else walk s.rootId s
  else s

/-- `encode()` without its ending (R180), as ENCODE and COMPRESS call it. -/
def encodeTables (s : State) : Flow :=
  (mergeAll (makeLeaves (clearTables { s with st := .building }))).andThen fun s' => .go (assignCodes s')

/-- The operation of ENCODE (R180): Done, or FreqOverflow (R286). -/
def encodeOp (s : State) : State := ((encodeTables s).andThen fun s' => .ended (finishDone s')).state

/-- ENCODE (R180). -/
def execEncode (s : State) : Host.Outcome State Fault Refusal := acceptCommand encodeOp s

end Sys2Proof.Machine
end

