-- ==== Sys2Proof/Machine/Compress.lean ====
section
/-! DEFINITION. The block codec controller, COMPRESS (44_codec_compress R230 to R237). -/

namespace Sys2Proof.Machine

/-- `check_len()` (R231). -/
def checkLen (s : State) : Flow :=
  if s.config.blockMax.toNat < s.len.toNat then .ended (raise .inputLength s) else .go s

/-- The bytes of the block, IBUF[0..LEN-1], in order (R47, R230). -/
def blockBytes (s : State) : List Byte := (List.range s.len.toNat).map (ibufByte s)

/-- One step of the scan: FREQ[v] <- FREQ[v] + 1 (R232). -/
def countByte (t : Vector Count 256) (v : Byte) : Vector Count 256 :=
  tabSet t v.toNat (tabGet t 0 v.toNat + 1)

/-- `scan()` (R232): FREQ is cleared, then counts the block's bytes. -/
def scan (s : State) : State :=
  releasePos { s with freq := (blockBytes s).foldl countByte (tableOf 256 0) }

/-- `count_entries()` (R233). -/
def countEntries (s : State) : Flow :=
  let s' := { s with nent := BitVec.ofNat 9 (presentBytes s).length }
  if (presentBytes s).length = 256 then .ended (raise .entryOverflow s') else .go s'

/-- One entry of the header (R234). -/
def writeEntry (s : State) (b : Byte) : State :=
  flush (writeBits (codeAt s b).bits (writeByte (codeAt s b).len (writeByte b s)))

/-- `write_header()` (R234): ENT_IX runs over the byte values, ascending, those with a nonzero count write. -/
def writeHeader (s : State) : State :=
  releaseEntIx ((presentBytes s).foldl writeEntry (writeByte (s.nent.setWidth 8) s))

/-- `write_count()` (R235): the count little-endian. -/
def writeCount (s : State) : State :=
  releaseByteIx ((countBytes s.len).foldl (fun s' v => writeByte v s') { s with total := s.len })

/-- `write_body()` (R236), the second pass. -/
def writeBody (s : State) : State :=
  releasePos ((blockBytes s).foldl (fun s' v => writeBits (codeAt s' v).bits s') s)

/-- The part of R230 after the last place that can fault: header, count, body, closing flush (R237). -/
def writeBlock (s : State) : State :=
  flush (writeBody { writeCount { writeHeader { s with st := .writingHeader } with st := .writingCount } with
    st := .writingBody })

/-- The operation of COMPRESS (R230). -/
def compressOp (s : State) : State :=
  ((checkLen s).andThen fun s1 =>
    (encodeTables (scan { s1 with st := .scanning })).andThen fun s2 =>
      (countEntries s2).andThen fun s3 => .ended (finishDone (writeBlock s3))).state

/-- COMPRESS (R230). -/
def execCompress (s : State) : Host.Outcome State Fault Refusal := acceptCommand compressOp s

end Sys2Proof.Machine
end

