-- ==== Sys2Proof/Machine/Illegal.lean ====
section
/-! DEFINITION. ILLEGAL: a command word that matches no row (30_encoding R123, 60_exceptions R287). -/

namespace Sys2Proof.Machine

/-- ILLEGAL: fault entry with IllegalCommand; op alone decides the sub-cause, rsv and n hold anything (R287). -/
def execIllegal (op : BitVec 4) (s : State) : Host.Outcome State Fault Refusal :=
  acceptCommand (raise (illegalCause op)) s

end Sys2Proof.Machine
end

