-- ==== Sys2Proof/Machine/BitReader.lean ====
section
/-! DEFINITION. The BitReader (40_bitreader R140 to R146) and RDBITS. -/

namespace Sys2Proof.Machine

/-- The refill step of R141: with RD_LEFT = 0 one byte is taken from the source; none at the end of the source. -/
def refill (s : State) : Option State :=
  if s.rdLeft = 0 then
    match srcRead s with
    | (none, _) => none
    | (some v, s') => some { s' with rdByte := v, rdLeft := 8 }
  else some s

/-- The bit-extraction step of R141: the most significant unconsumed bit. -/
def takeBit (s : State) : Bool × State :=
  (s.rdByte.getLsbD (s.rdLeft.toNat - 1), { s with rdLeft := s.rdLeft - 1 })

/-- `read_bits(count)` (R141): the bits read and the state after; n is their number, short when the source ends. -/
def readBits : Nat → State → Bits × State
  | 0, s => ([], s)
  | n + 1, s =>
    match refill s with
    | none => ([], s)
    | some s' => ((takeBit s').1 :: (readBits n (takeBit s').2).1, (readBits n (takeBit s').2).2)

/-- `align()` (R146): discard the unconsumed bits of the buffered byte. -/
def align (s : State) : State := (readBits s.rdLeft.toNat s).2

/-- The bits the reader can still deliver before the source ends (10_state R52). -/
def bitsLeft (s : State) : Nat := s.rdLeft.toNat + 8 * s.src.length

/-- The operation of RDBITS n (R142). -/
def rdbitsOp (n : BitVec 8) (s : State) : State :=
  let r := readBits (bitCount n) { s with st := .bitOp }
  finishDone { r.2 with bitbuf := bitbufOfBits r.1, bitcnt := BitVec.ofNat 8 r.1.length }

/-- RDBITS n (R142, R143): always ends Done. -/
def execRdbits (n : BitVec 8) (s : State) : Host.Outcome State Fault Refusal := acceptCommand (rdbitsOp n) s

end Sys2Proof.Machine
end

