-- ==== Sys2Proof/Machine/Decompress.lean ====
section
/-! DEFINITION. The block codec controller, DECOMPRESS (45_codec_decompress R250 to R261). Each field is got from the
BitReader (`get…`, which ends the operation when the source is short) and then taken (`take…`); the wire-field
instructions of Wire.lean are the same `take…` operations (Log 8). -/

namespace Sys2Proof.Machine

/-! ## Getting a field -/

/-- What a read of a field's bits gives: the bits, or the operation has ended. -/
inductive Got where
  | bits (bs : Bits) (s : State)
  | ended (s : State)
  deriving DecidableEq, Repr

/-- Take the field that was got, unless the operation has ended. -/
def Got.andTake : Got → (Bits → State → Flow) → Flow
  | .bits bs s, take => take bs s
  | .ended s, _ => .ended s

/-- Read n bits; `short` says how the operation ends when fewer arrive (40_bitreader R143). -/
def getBits (n : Nat) (short : Bits → State → State) (s : State) : Got :=
  if (readBits n s).1.length < n then .ended (short (readBits n s).1 (readBits n s).2)
  else .bits (readBits n s).1 (readBits n s).2

/-- The read of R252: no bit at all is CleanEOF, 1 to 7 bits are MalformedStream(EntryCount). -/
def getEntryCount (s : State) : Got :=
  getBits 8 (fun bs s' => if bs = [] then finishCleanEOF s' else raise .entryCount s') s

/-- The first read of R254. -/
def getByteValue (s : State) : Got := getBits 8 (fun _ => raise .byteValue) s

/-- The second read of R254. -/
def getCodeBitLength (s : State) : Got := getBits 8 (fun _ => raise .codeLength) s

/-- The third read of R254, of L bits. -/
def getCodeBits (s : State) : Got := getBits s.lenTmp.toNat (fun _ => raise .codeBits) s

/-- The loop of R255, `k` bytes to go, byte `j` next, `acc` the bits of the bytes before: TOTAL grows byte by byte. -/
def countLoop : Nat → Nat → Bits → State → Got
  | 0, _, acc, s => .bits acc s
  | k + 1, j, acc, s =>
    match getBits 8 (fun _ => raise .totalCount) { s with byteIx := BitVec.ofNat 4 j } with
    | .ended s' => .ended s'
    | .bits bs s' =>
      countLoop k (j + 1) (acc ++ bs) { s' with total := s'.total ||| ((byteOfBits bs).setWidth 64 <<< (8 * j)) }

/-- The reads of R255. -/
def getTotalCount (s : State) : Got := countLoop Config.cntBytes 0 [] { s with total := 0 }

/-- The read of R258: one bit. -/
def getBodyBit (s : State) : Got := getBits 1 (fun _ => raise .bodyTruncated) s

/-! ## Taking a field -/

/-- All entries are read: ENT_IX has done its work, ST <- ReadingCount (R250, R256). -/
def leaveHeader (s : State) : State := { releaseEntIx s with st := .readingCount, field := .totalSymbolCount }

/-- entry_count is in: NENT <- v, and the entries begin, if there are any (R252, R253). -/
def takeEntryCount (k : Byte) (s : State) : Flow :=
  let s' := { s with nent := k.setWidth 9, entIx := 0 }
  .go (if k = 0 then leaveHeader s' else { s' with field := .byteValue })

/-- byte_value is in (R254). -/
def takeByteValue (v : Byte) (s : State) : Flow := .go { s with symTmp := v, field := .codeBitLength }

/-- code_bit_length is in (R254). -/
def takeCodeBitLength (l : Byte) (s : State) : Flow := .go { s with lenTmp := l, field := .codeBits }

/-- DEC[e] <- the entry; DEC_N <- e + 1 (R254). -/
def storeDec (code : Bits) (s : State) : State :=
  { s with
    dec := tabSet s.dec s.entIx.toNat ⟨true, code, s.symTmp⟩
    decN := BitVec.ofNat 8 (s.entIx.toNat + 1)
    entIx := s.entIx + 1 }

/-- code_bits is in: align, store the entry, go to the next one or leave the header (R253, R254). -/
def takeCodeBits (code : Bits) (s : State) : Flow :=
  let s' := storeDec code (align s)
  .go (if s'.entIx = s'.nent then leaveHeader s' else { s' with field := .byteValue })

/-- `finish()` (R261). -/
def finishBlock (s : State) : Flow :=
  if s.cand ≠ [] then .ended (raise .leftover s)
  else .ended (finishDone { align s with outLen := s.decoded })

/-- total_symbol_count is in: ST <- ReadingBody, `check_capacity()` (R257), and with nothing to decode the block ends
(R258, R261). -/
def takeTotalCount (c : Count) (s : State) : Flow :=
  let s' := { releaseByteIx s with total := c, st := .readingBody, field := .body }
  if s'.config.blockMax.toNat < c.toNat then .ended (raise .outputLength s')
  else if s'.decoded.toNat < c.toNat then .go s' else finishBlock s'

/-- `lookup(c)` (R259): the symbol of the last stored entry whose Code is c. -/
def lookup (s : State) (c : Bits) : Option Byte :=
  ((List.range s.decN.toNat).reverse.find? fun e => (decAt s e).valid && (decAt s e).bits == c).map
    fun e => (decAt s e).sym

/-- The candidate has matched: the symbol goes to OBUF, the candidate is emptied (R258). -/
def emitSymbol (sym : Byte) (s : State) : State :=
  { obufWrite s s.decoded.toNat sym with decoded := s.decoded + 1, cand := [] }

/-- One body bit is in (R258): a hit emits; a miss at 255 bits raises NoMatch. -/
def takeBodyBit (b : Bool) (s : State) : Flow :=
  match lookup s (s.cand ++ [b]) with
  | some sym => .go (emitSymbol sym s)
  | none =>
    let s' := { s with cand := s.cand ++ [b] }
    if s'.cand.length = Config.lenMax then .ended (raise .noMatch s') else .go s'

/-- Body bits are in, one after the other, while DECODED < TOTAL; what follows the last Code is pad (R110, R258). -/
def takeBody : Bits → State → Flow
  | [], s => if s.decoded.toNat < s.total.toNat then .go s else finishBlock s
  | b :: bs, s =>
    if s.decoded.toNat < s.total.toNat then (takeBodyBit b s).andThen (takeBody bs) else finishBlock s

/-! ## The whole operation -/

/-- `init()` (R251) and ST <- ReadingHeader (R250). -/
def startDecompress (s : State) : State :=
  { s with
    decN := 0
    dec := tabMap (fun e => { e with valid := false }) s.dec
    cand := []
    decoded := 0
    outLen := 0
    nent := 0
    total := 0
    st := .readingHeader
    field := .entryCount
    decEpoch := s.decEpoch + 1 }

/-- `read_entry_count()` (R252). -/
def readEntryCount (s : State) : Flow := (getEntryCount s).andTake fun bs => takeEntryCount (byteOfBits bs)

/-- `read_entry(e)` (R254). -/
def readEntry (s : State) : Flow :=
  (((getByteValue s).andTake fun bs => takeByteValue (byteOfBits bs)).andThen fun s1 =>
    (getCodeBitLength s1).andTake fun bs => takeCodeBitLength (byteOfBits bs)).andThen fun s2 =>
      (getCodeBits s2).andTake takeCodeBits

/-- `for ENT_IX in 0 .. NENT-1` (R253), `k` entries to go. -/
def readEntriesLoop : Nat → State → Flow
  | 0, s => .go s
  | k + 1, s => (readEntry s).andThen (readEntriesLoop k)

/-- `read_entries()` (R253). -/
def readEntries (s : State) : Flow := readEntriesLoop s.nent.toNat s

/-- `read_count()` (R255) and `check_capacity()` (R257). -/
def readCount (s : State) : Flow :=
  (getTotalCount s).andTake fun bs => takeTotalCount (countOfBytes (bytesOfBits Config.cntBytes bs))

/-- `while DECODED < TOTAL` (R258), then `finish()`; every pass reads one bit, so the bits left bound the passes
(Log 13). -/
def readBodyLoop : Nat → State → Flow
  | 0, s => .go s
  | k + 1, s =>
    if s.decoded.toNat < s.total.toNat then
      ((getBodyBit s).andTake fun bs => takeBodyBit (bs.headD false)).andThen (readBodyLoop k)
    else finishBlock s

/-- `read_body()` and `finish()` (R258, R261). -/
def readBody (s : State) : Flow := readBodyLoop (bitsLeft s + 1) s

/-- The operation of DECOMPRESS (R250). -/
def decompressOp (s : State) : State :=
  ((((readEntryCount (startDecompress s)).andThen readEntries).andThen readCount).andThen readBody).state

/-- DECOMPRESS (R250). -/
def execDecompress (s : State) : Host.Outcome State Fault Refusal := acceptCommand decompressOp s

end Sys2Proof.Machine
end

