-- ==== Sys2Proof/Machine/Wire.lean ====
section
/-! DEFINITION. The wire fields as instructions (30_encoding R104 to R110): what the engine does on taking the field
from the stream, whose bits the fetch has read (45_codec_decompress R252 to R261; Log 8). -/

namespace Sys2Proof.Machine

/-- wire.entry_count (R104, R252). -/
def execWireEntryCount (k : Byte) (s : State) : Host.Outcome State Fault Refusal :=
  acceptField (takeEntryCount k) s

/-- wire.entry.byte_value (R105, R254). -/
def execWireByteValue (v : Byte) (s : State) : Host.Outcome State Fault Refusal :=
  acceptField (takeByteValue v) s

/-- wire.entry.code_bit_length (R106, R254). -/
def execWireCodeBitLength (l : Byte) (s : State) : Host.Outcome State Fault Refusal :=
  acceptField (takeCodeBitLength l) s

/-- wire.entry.code_bits (R107, R110, R254). -/
def execWireCodeBits (code : Bits) (s : State) : Host.Outcome State Fault Refusal :=
  acceptField (takeCodeBits code) s

/-- wire.total_symbol_count (R108, R255, R257). -/
def execWireTotalSymbolCount (count : Count) (s : State) : Host.Outcome State Fault Refusal :=
  acceptField (takeTotalCount count) s

/-- wire.body (R109, R258, R261): a run of body bits. -/
def execWireBody (codes : Bits) (s : State) : Host.Outcome State Fault Refusal :=
  acceptField (takeBody codes) s

end Sys2Proof.Machine
end

