-- ==== Sys2Proof/Machine/Dispatch.lean ====
section
/-! DEFINITION. One arm per instruction. -/

namespace Sys2Proof.Machine

def exec (i : Instr) (s : State) : Host.Outcome State Fault Refusal :=
  match i with
  | .rdbits n => Sys2Proof.Machine.execRdbits n s
  | .wrbits n => Sys2Proof.Machine.execWrbits n s
  | .flush => Sys2Proof.Machine.execFlush s
  | .encode => Sys2Proof.Machine.execEncode s
  | .compress => Sys2Proof.Machine.execCompress s
  | .decompress => Sys2Proof.Machine.execDecompress s
  | .illegal op _ _ => Sys2Proof.Machine.execIllegal op s
  | .wireEntryCount k => Sys2Proof.Machine.execWireEntryCount k s
  | .wireByteValue v => Sys2Proof.Machine.execWireByteValue v s
  | .wireCodeBitLength l => Sys2Proof.Machine.execWireCodeBitLength l s
  | .wireCodeBits code => Sys2Proof.Machine.execWireCodeBits code s
  | .wireTotalSymbolCount count => Sys2Proof.Machine.execWireTotalSymbolCount count s
  | .wireBody codes => Sys2Proof.Machine.execWireBody codes s

end Sys2Proof.Machine
end

