-- ==== Sys2Proof/Machine/HostPort.lean ====
section
/-! DEFINITION. The host's side of the machine: the register map and its access rules (10_state R36, R37, R38), reset
and the connection of source and sink (70_reset_and_hazards R320, R322, R327). -/

namespace Sys2Proof.Machine

/-- Word w of a stored bit sequence: bit j is element 64w+j; elements from 255 on do not exist (R36). -/
def bitsWord (bs : Bits) (w : Nat) : BitVec 64 := BitVec.ofNat 64 (natOfBits (((bs.take 255).drop (64 * w)).take 64))

/-- Word w of BITBUF (R36): bit 63 of word 3 reads 0. -/
def bitbufWord (s : State) (w : Nat) : BitVec 64 := (s.bitbuf >>> (64 * w)).setWidth 64

/-- What a host read finds in a field without value of the encode-side tables (U1, Log 4). -/
def freeEnc (s : State) (space index : Nat) : BitVec 64 := Config.freeField s.encEpoch space index

/-- What a host read finds in a field without value of DEC (U1, Log 4). -/
def freeDec (s : State) (space index : Nat) : BitVec 64 := Config.freeField s.decEpoch space index

/-- CSR 9: ROOT (R36, R43); the id of an invalid root is any value (U1). -/
def rootWord (s : State) : BitVec 64 :=
  0#54 ++ BitVec.ofBool s.rootValid ++ (if s.rootValid then s.rootId else (freeEnc s 0 9).setWidth 9)

/-- Space 0 (R36). -/
def csrRead (s : State) (index : Nat) : BitVec 64 :=
  match index with
  | 0 => statusWord s
  | 1 => s.len
  | 2 => s.outLen
  | 3 => s.total
  | 4 => s.nent.setWidth 64
  | 5 => s.bitcnt.setWidth 64
  | 6 => 0#52 ++ s.rdLeft ++ s.rdByte
  | 7 => 0#53 ++ s.wrN ++ s.wrAcc
  | 8 => s.decoded
  | 9 => rootWord s
  | 10 => s.nint.setWidth 64
  | 11 => s.config.blockMax
  | _ => 0

/-- Space 4: CODEINFO[b] (R36); the length of an invalid entry is any value (U1). -/
def codeInfoWord (s : State) (b : Nat) : BitVec 64 :=
  let e := tabGet s.code CodeEntry.blank b
  0#55 ++ BitVec.ofBool e.valid ++ (if e.valid then e.len else (freeEnc s 4 b).setWidth 8)

/-- Space 5: CODEBITS, index 4b+w (R36); an invalid entry's bits are any value (U1). -/
def codeBitsWord (s : State) (index : Nat) : BitVec 64 :=
  let e := tabGet s.code CodeEntry.blank (index / 4)
  if e.valid then bitsWord e.bits (index % 4)
  else if index % 4 = 3 then (freeEnc s 5 index).setWidth 63 |>.setWidth 64 else freeEnc s 5 index

/-- Space 7, word 0: NODE[n].freq (R36), any value for an invalid slot (U1). -/
def nodeFreqWord (s : State) (n : Nat) : BitVec 64 :=
  let e := tabGet s.node Node.blank n
  if e.valid then e.freq else freeEnc s 7 (2 * n)

/-- Space 7, word 1 (R36): left and right have a value in a valid internal node, sym in a valid leaf, is_leaf in a
valid slot (R40, U1). -/
def nodeInfoWord (s : State) (n : Nat) : BitVec 64 :=
  let e := tabGet s.node Node.blank n
  let any := freeEnc s 7 (2 * n + 1)
  0#36 ++ BitVec.ofBool e.valid ++ (if e.valid then BitVec.ofBool e.isLeaf else any.extractLsb' 26 1) ++
    (if e.valid && e.isLeaf then e.sym else any.extractLsb' 18 8) ++
    (if e.valid && !e.isLeaf then e.right else any.extractLsb' 9 9) ++
    (if e.valid && !e.isLeaf then e.left else any.extractLsb' 0 9)

/-- Space 8: DECINFO[e] (R36); length and symbol of an invalid entry are any value (U1). -/
def decInfoWord (s : State) (i : Nat) : BitVec 64 :=
  let e := decAt s i
  0#47 ++ BitVec.ofBool e.valid ++ (if e.valid then e.sym ++ e.len else (freeDec s 8 i).setWidth 16)

/-- Space 9: DECBITS, index 4e+w (R36); an invalid entry's bits are any value (U1). -/
def decBitsWord (s : State) (index : Nat) : BitVec 64 :=
  let e := decAt s (index / 4)
  if e.valid then bitsWord e.bits (index % 4)
  else if index % 4 = 3 then (freeDec s 9 index).setWidth 63 |>.setWidth 64 else freeDec s 9 index

/-- A host register read (R36, R37): a reserved or out-of-range location reads 0. -/
def hostRead (s : State) (space : BitVec 4) (index : BitVec 32) : BitVec 64 :=
  match space.toNat with
  | 0 => csrRead s index.toNat
  | 1 => if index.toNat < s.config.blockMax.toNat then (ibufByte s index.toNat).setWidth 64 else 0
  | 2 => if index.toNat < s.config.blockMax.toNat then (obufByte s index.toNat).setWidth 64 else 0
  | 3 => if index.toNat < 256 then tabGet s.freq 0 index.toNat else 0
  | 4 => if index.toNat < 256 then codeInfoWord s index.toNat else 0
  | 5 => if index.toNat < 1024 then codeBitsWord s index.toNat else 0
  | 6 => if index.toNat < 4 then bitbufWord s index.toNat else 0
  | 7 =>
    if index.toNat < 1022 then
      if index.toNat % 2 = 0 then nodeFreqWord s (index.toNat / 2) else nodeInfoWord s (index.toNat / 2)
    else 0
  | 8 => if index.toNat < 255 then decInfoWord s index.toNat else 0
  | 9 => if index.toNat < 1020 then decBitsWord s index.toNat else 0
  | _ => 0

/-- Write word w of BITBUF; the bit of element 255 is lost (R36). -/
def bitbufWrite (s : State) (w : Nat) (data : BitVec 64) : State :=
  { s with bitbuf :=
    (s.bitbuf &&& ~~~(0xFFFFFFFFFFFFFFFF#255 <<< (64 * w))) ||| (data.setWidth 255 <<< (64 * w)) }

/-- A host register write (R36, R37, R38): LEN, IBUF, FREQ and BITBUF take it, everything else ignores it. -/
def hostWrite (s : State) (space : BitVec 4) (index : BitVec 32) (data : BitVec 64) : State :=
  match space.toNat with
  | 0 => if index.toNat = 1 then { s with len := data } else s
  | 1 => ibufWrite s index.toNat (data.setWidth 8)
  | 3 => if index.toNat < 256 then { s with freq := tabSet s.freq index.toNat data } else s
  | 6 => if index.toNat < 4 then bitbufWrite s index.toNat data else s
  | _ => s

/-- What an action of the host does that offers no command; commands go through the decoder (Fetch.lean). -/
def hostAction : HostAction → State → State
  | .command _, s | .commandReset _, s => s
  | .regRead space index, s => { s with regRdata := hostRead s space index }
  | .regWrite space index data, s => hostWrite s space index data
  | .reset, s => resetMachine s
  | .attachSource bytes, s => { s with src := bytes }
  | .attachSink, s => { s with snk := [] }

end Sys2Proof.Machine
end

