-- ==== Sys2Proof/Machine/Fetch.lean ====
section
/-! DEFINITION. What a step works on: the host's next action, or, inside a DECOMPRESS, the wire field due (10_state
R33, 30_encoding R124, 70_reset_and_hazards R320, R325; Logs 7, 8, 9). -/

namespace Sys2Proof.Machine

/-- What a step works on. -/
inductive Fetched where
  /-- The host does nothing more: the machine waits (R320). -/
  | idle
  /-- A host action other than a command. -/
  | action (a : HostAction) (s : State)
  /-- An instruction, and the state after its fetch. -/
  | instr (i : Instr) (s : State)
  /-- An instruction that reset will not let end (R321; Log 10). -/
  | cutShort (i : Instr) (s : State)
  /-- Reading the field has ended the operation, in CleanEOF or a fault. -/
  | ended (s : State)
  /-- Nothing can be fetched. -/
  | stuck (r : Fault)
  deriving DecidableEq, Repr

/-- The shape of the wire field due (R256). -/
def shapeDue (s : State) : FieldShape :=
  match s.field with
  | .entryCount => .entryCount
  | .byteValue => .byteValue
  | .codeBitLength => .codeBitLength
  | .codeBits => .codeBits s.lenTmp.toNat
  | .totalSymbolCount => .totalSymbolCount
  | .body => .body 1

/-- Read the wire field due from the BitReader; the body is read one bit at a time (R258). -/
def getField (s : State) : Got :=
  match s.field with
  | .entryCount => getEntryCount s
  | .byteValue => getByteValue s
  | .codeBitLength => getCodeBitLength s
  | .codeBits => getCodeBits s
  | .totalSymbolCount => getTotalCount s
  | .body => getBodyBit s

/-- Fetch and decode the wire field due. -/
def fetchField (s : State) : Fetched :=
  match getField s with
  | .ended s' => .ended s'
  | .bits bs s' => .instr (fieldOfBits (shapeDue s) bs) s'

/-- Inside a DECOMPRESS a wire field is due (R25, R256). -/
def fieldDue (s : State) : Bool :=
  s.busy && (s.st == .readingHeader || s.st == .readingCount || s.st == .readingBody)

/-- The host's next action is taken: a command word is decoded, anything else performed as it stands. -/
def fetchAction (s : State) : Fetched :=
  match s.pending with
  | [] => .idle
  | .command w :: rest => .instr (decodeCommand w) { s with pending := rest }
  | .commandReset w :: rest => .cutShort (decodeCommand w) { s with pending := rest }
  | a :: rest => .action a { s with pending := rest }

/-- The host's next action is to assert rst, with nothing else. -/
def resetPending (s : State) : Bool :=
  match s.pending with
  | .reset :: _ => true
  | _ => false

/-- The host's next action ends in reset, alone or inside the operation it starts. -/
def endsInReset (s : State) : Bool :=
  match s.pending with
  | .reset :: _ | .commandReset _ :: _ => true
  | _ => false

/-- Fetch. Reset comes first, whatever runs (R320, R321); while BUSY = 1 every other action of the host waits (R33,
R37, R325). -/
def fetch (s : State) : Fetched :=
  if resetPending s then fetchAction s
  else if fieldDue s then fetchField s
  else if s.busy then .stuck .midOperation
  else fetchAction s

/-- Put the word of a table row where the next step takes it from (Log 14): a command word becomes the host's next
action; an 8-bit word is the entry_count byte, a 64-bit word the count field, of a DECOMPRESS that is due to take it. -/
def placeWord (s : State) (nbits w : Nat) : State :=
  if nbits = 8 then
    { s with busy := true, st := .readingHeader, field := .entryCount, rdLeft := 0, src := BitVec.ofNat 8 w :: s.src }
  else if nbits = 64 then
    { s with busy := true, st := .readingCount, field := .totalSymbolCount, rdLeft := 0,
             src := countBytes (BitVec.ofNat 64 w) ++ s.src }
  else { s with busy := false, pending := .command (BitVec.ofNat 16 w) :: s.pending }

end Sys2Proof.Machine
end

