-- ==== Sys2Proof/Machine/Step.lean ====
section
/-! DEFINITION. One step of the machine (00_scope R14, R18). -/

namespace Sys2Proof.Machine

/-- One step: the host's next action, one whole command (R18), or one wire field of a DECOMPRESS under way (Log 8). -/
def step (s : State) : Host.Outcome State Fault Refusal :=
  match fetch s with
  | .idle => .next s
  | .action a s' => .next (hostAction a s')
  | .instr i s' => exec i s'
  | .cutShort i s' => resetOutcome s' (exec i s')
  | .ended s' => .next s'
  | .stuck r => .fault r

/-- `s` with a table row's word where the next step takes it from (Log 14). -/
def State.withFetchWord (s : State) (nbits w : Nat) : State := placeWord s nbits w

end Sys2Proof.Machine
end

