-- ==== Sys2Proof/Machine/Assembly.lean ====
section
/-! DEFINITION. The textual syntax of the commands (30_encoding R125) and the pseudo-operations, which expand to host
actions and commands and add no behaviour (R126). Lines are lists of characters (Log 17). -/

namespace Sys2Proof.Machine

/-! ## Text (R125) -/

/-- The mnemonic of a command in capitals. -/
def mnemonicText : Instr → Option (List Char)
  | .rdbits _ => some ['R', 'D', 'B', 'I', 'T', 'S']
  | .wrbits _ => some ['W', 'R', 'B', 'I', 'T', 'S']
  | .flush => some ['F', 'L', 'U', 'S', 'H']
  | .encode => some ['E', 'N', 'C', 'O', 'D', 'E']
  | .compress => some ['C', 'O', 'M', 'P', 'R', 'E', 'S', 'S']
  | .decompress => some ['D', 'E', 'C', 'O', 'M', 'P', 'R', 'E', 'S', 'S']
  | .illegal _ _ _ | .wireEntryCount _ | .wireByteValue _ | .wireCodeBitLength _ => none
  | .wireCodeBits _ | .wireTotalSymbolCount _ | .wireBody _ => none

/-- A decimal digit. -/
def digitChar (d : Nat) : Char := Char.ofNat (48 + d)

/-- A count 0 to 255 in decimal. -/
def decimalText (n : BitVec 8) : List Char :=
  let k := n.toNat
  if k < 10 then [digitChar k]
  else if k < 100 then [digitChar (k / 10), digitChar (k % 10)]
  else [digitChar (k / 100), digitChar (k / 10 % 10), digitChar (k % 10)]

/-- A command as text: its mnemonic, and for RDBITS and WRBITS the count (R125). -/
def textOf : Instr → Option (List Char)
  | .rdbits n => (mnemonicText (.rdbits n)).map (· ++ [' '] ++ decimalText n)
  | .wrbits n => (mnemonicText (.wrbits n)).map (· ++ [' '] ++ decimalText n)
  | i => mnemonicText i

/-- The words of a line, in order: runs of characters other than a space. -/
def lineWords : List Char → List (List Char)
  | [] => []
  | c :: cs =>
    if c = ' ' then lineWords cs
    else
      match cs with
      | [] => [[c]]
      | d :: _ =>
        if d = ' ' then [c] :: lineWords cs
        else
          match lineWords cs with
          | [] => [[c]]
          | w :: ws => (c :: w) :: ws

/-- A decimal numeral. -/
def decimalValue (cs : List Char) : Option Nat :=
  if cs = [] then none
  else cs.foldl (fun v c =>
    v.bind fun k => if 48 ≤ c.toNat ∧ c.toNat ≤ 57 then some (10 * k + (c.toNat - 48)) else none) (some 0)

/-- A bit count 0 to 255 (R122). -/
def countValue (cs : List Char) : Option (BitVec 8) :=
  (decimalValue cs).bind fun k => if k ≤ 255 then some (BitVec.ofNat 8 k) else none

/-- Read one line: `;` starts a comment (R125); none where the line holds no command. -/
def assembleLine (line : List Char) : Option Instr :=
  match lineWords (line.takeWhile (· ≠ ';')) with
  | [m] =>
    if some m = mnemonicText .flush then some .flush
    else if some m = mnemonicText .encode then some .encode
    else if some m = mnemonicText .compress then some .compress
    else if some m = mnemonicText .decompress then some .decompress
    else none
  | [m, k] =>
    if some m = mnemonicText (.rdbits 0) then (countValue k).map .rdbits
    else if some m = mnemonicText (.wrbits 0) then (countValue k).map .wrbits
    else none
  | _ => none

/-! ## Pseudo-operations (R126) -/

/-- The pseudo-operations that expand to a fixed list of host actions. -/
inductive Pseudo where
  | rdbyte
  | wrbyte (v : Byte)
  | align
  | setbits (bs : Bits)
  | ldibuf (bytes : List Byte)
  | setfreq (b : Byte) (f : Count)
  | clrfreq
  deriving DecidableEq, Repr

/-- SETBITS: the four words of BITBUF (R36, R126). -/
def setbitsActions (bs : Bits) : List HostAction :=
  (List.range 4).map fun w => .regWrite 6 (BitVec.ofNat 32 w) (bitsWord bs w)

/-- LDIBUF: the bytes to IBUF[0..], their number to LEN (R126). -/
def ldibufActions (bytes : List Byte) : List HostAction :=
  (bytes.zipIdx.map fun p => .regWrite 1 (BitVec.ofNat 32 p.2) (p.1.setWidth 64)) ++
    [.regWrite 0 1 (BitVec.ofNat 64 bytes.length)]

/-- The command RDBITS n as the host issues it. -/
def rdbitsCommand (n : BitVec 8) : HostAction := .command (0x10#8 ++ n)

/-- The command WRBITS n as the host issues it. -/
def wrbitsCommand (n : BitVec 8) : HostAction := .command (0x20#8 ++ n)

/-- The expansion of a pseudo-operation; ALIGN depends on what the host reads in RDSTATE (R126). -/
def Pseudo.expand (s : State) : Pseudo → List HostAction
  | .rdbyte => [rdbitsCommand 8]
  | .wrbyte v => setbitsActions (bitsOfByte v) ++ [wrbitsCommand 8]
  | .align => [.regRead 0 6, rdbitsCommand (((hostRead s 0 6).extractLsb' 8 4).setWidth 8)]
  | .setbits bs => setbitsActions bs
  | .ldibuf bytes => ldibufActions bytes
  | .setfreq b f => [.regWrite 3 (b.setWidth 32) f]
  | .clrfreq => (List.range 256).map fun b => .regWrite 3 (BitVec.ofNat 32 b) 0

/-- The byte RDBYTE delivered, once BITCNT = 8 (R126, 40_bitreader R145). -/
def rdbyteResult (s : State) : Option Byte := if s.bitcnt = 8 then some (byteOfBits (bitbufBits s 8)) else none

/-- The decoded block, OBUF[0..OUT_LEN-1] (R29, R48). -/
def outBlock (s : State) : List Byte := (List.range s.outLen.toNat).map (obufByte s)

/-- DECOMPRESS_ALL (R126): repeat DECOMPRESS, collect the block after each Done, stop at CleanEOF or Fault; at most
`k` commands. -/
def decompressAll : Nat → State → List (List Byte) × State
  | 0, s => ([], s)
  | k + 1, s =>
    match execDecompress s with
    | .next t =>
      if t.st = .done then (outBlock t :: (decompressAll k t).1, (decompressAll k t).2) else ([], t)
    | .fault _ => ([], s)
    | .refused _ => ([], s)

end Sys2Proof.Machine
end

