-- ==== Sys2Proof/Safety.lean ====
section
/-! DEFINITION. The terms the statements are made in: what reader and writer hold as bit sequences, what a block is,
the invariant of an operation boundary, and what leaves a part of the state unchanged. -/

namespace Sys2Proof.Machine

/-! ## Streams as bit sequences (20_memory R70, 10_state R52, R56) -/

/-- The bits buffered in RD_BYTE, the next one first (10_state R21, R22). -/
def bufferedBits (s : State) : Bits :=
  (List.range s.rdLeft.toNat).map fun i => s.rdByte.getLsbD (s.rdLeft.toNat - 1 - i)

/-- Every bit the reader can still deliver: the buffered bits, then the source's (R52). -/
def readerStream (s : State) : Bits := bufferedBits s ++ bitsOfBytes s.src

/-- Reads one after the other: the bits of all of them, and the state after (40_bitreader R144). -/
def readSeq : List Nat → State → Bits × State
  | [], s => ([], s)
  | n :: ns, s =>
    ((readBits n s).1 ++ (readSeq ns (readBits n s).2).1, (readSeq ns (readBits n s).2).2)

/-- The bits pending in WR_ACC, the oldest first (10_state R23, R24). -/
def pendingBits (s : State) : Bits :=
  (List.range s.wrN.toNat).map fun i => s.wrAcc.getLsbD (s.wrN.toNat - 1 - i)

/-- Every bit given to the writer so far: the sink's, then the pending ones (R56). -/
def writerStream (s : State) : Bits := bitsOfBytes s.snk ++ pendingBits s

/-- WR_ACC[7:WR_N] = 0 (10_state R23, R55). -/
def writerClean (s : State) : Prop := s.wrAcc.toNat < 2 ^ s.wrN.toNat

/-! ## Blocks (30_encoding R101) -/

/-- One entry of a header as the fields of the wire (R101, R105 to R107). -/
def entryFields (sym : Byte) (code : Bits) : List Instr :=
  [.wireByteValue sym, .wireCodeBitLength (BitVec.ofNat 8 code.length), .wireCodeBits code]

/-- A block as the fields of the wire (R101): entry_count, the entries, total_symbol_count, body. -/
def blockFields (entries : List (Byte × Bits)) (total : Count) (codes : Bits) : List Instr :=
  .wireEntryCount (BitVec.ofNat 8 entries.length) ::
    (entries.flatMap fun e => entryFields e.1 e.2) ++ [.wireTotalSymbolCount total, .wireBody codes]

/-- The bytes of a sequence of wire fields. -/
def fieldBytes (fields : List Instr) : List Byte := fields.flatMap encodeWire

/-- The header entries COMPRESS writes from the tables of a state (44_codec_compress R234). -/
def tableEntries (s : State) : List (Byte × Bits) := (presentBytes s).map fun b => (b, (codeAt s b).bits)

/-- The body COMPRESS writes from the tables and the block of a state (R236). -/
def blockBody (s : State) : Bits := (blockBytes s).flatMap fun v => (codeAt s v).bits

/-- The sum of all frequencies, exact (R185). -/
def freqSum (s : State) : Nat := ((List.range 256).map fun b => (freqAt s (BitVec.ofNat 8 b)).toNat).sum

/-- How often a byte value occurs in the block (R232). -/
def blockCount (s : State) (b : Byte) : Nat := (blockBytes s).count b

/-- The bytes a COMPRESS issued in a state writes; none where it does not end Done. -/
def compressedBytes (s : State) : Option (List Byte) :=
  match exec .compress s with
  | .next t => if t.st = .done then some (t.snk.drop s.snk.length) else none
  | .fault _ => none
  | .refused _ => none

/-- Entry e of DEC holds the Code c (45_codec_decompress R259). -/
def decMatches (s : State) (e : Nat) (c : Bits) : Prop := (decAt s e).valid = true ∧ (decAt s e).bits = c

/-- The entries of a header that decodes without ambiguity: at most 255, every Code 1 to 255 bits long, none a prefix
of another (30_encoding R104, R106, 43_code_generator R215). -/
structure PrefixFreeHeader (entries : List (Byte × Bits)) : Prop where
  count : entries.length ≤ 255
  lengths : ∀ e ∈ entries, 1 ≤ e.2.length ∧ e.2.length ≤ 255
  noPrefix : entries.Pairwise fun a b => ¬ a.2 <+: b.2 ∧ ¬ b.2 <+: a.2

/-- The bytes of the block with these header entries whose body is the Codes of `ps` (R101, R102). -/
def blockOf (entries ps : List (Byte × Bits)) : List Byte :=
  fieldBytes (blockFields entries (BitVec.ofNat 64 ps.length) (ps.flatMap Prod.snd))

/-- Zeros up to the next byte boundary of the stream, as flush adds them (41_bitwriter R163). -/
def padToByte (bs : Bits) : Bits := bs ++ List.replicate ((8 - bs.length % 8) % 8) false

/-- One entry of a header after the stream `w` (44_codec_compress R234). -/
def entryStream (w : Bits) (e : Byte × Bits) : Bits :=
  padToByte (w ++ bitsOfByte e.1 ++ bitsOfByte (BitVec.ofNat 8 e.2.length) ++ e.2)

/-- A block written after the stream `w`, which may end inside a byte (R234 to R237, 20_memory R81): every field
follows the one before it, and each flush pads to the next byte boundary of the whole stream. -/
def blockStream (entries : List (Byte × Bits)) (total : Count) (codes w : Bits) : Bits :=
  padToByte (entries.foldl entryStream (w ++ bitsOfByte (BitVec.ofNat 8 entries.length)) ++
    bitsOfBytes (countBytes total) ++ codes)

/-- Two states hold the same tree and the same Codes, as far as the spec gives the fields a value (10_state R40, R43,
R44, U1). -/
structure SameTree (s t : State) : Prop where
  st : t.st = s.st
  nint : t.nint = s.nint
  rootValid : t.rootValid = s.rootValid
  rootId : s.rootValid = true → t.rootId = s.rootId
  nodeValid : ∀ n, (nodeAt t n).valid = (nodeAt s n).valid
  nodeKind : ∀ n, (nodeAt s n).valid = true →
    (nodeAt t n).isLeaf = (nodeAt s n).isLeaf ∧ (nodeAt t n).freq = (nodeAt s n).freq
  nodeLeaf : ∀ n, (nodeAt s n).valid = true → (nodeAt s n).isLeaf = true → (nodeAt t n).sym = (nodeAt s n).sym
  nodeInner : ∀ n, (nodeAt s n).valid = true → (nodeAt s n).isLeaf = false →
    (nodeAt t n).left = (nodeAt s n).left ∧ (nodeAt t n).right = (nodeAt s n).right
  codeValid : ∀ b, (codeAt t b).valid = (codeAt s b).valid
  codeBits : ∀ b, (codeAt s b).valid = true → (codeAt t b).bits = (codeAt s b).bits

/-! ## The host's register map (10_state R36, R37) -/

/-- The locations a host write reaches. -/
def hostWritable (s : State) (space : BitVec 4) (index : BitVec 32) : Bool :=
  (space == 0 && index == 1) || (space == 1 && decide (index.toNat < s.config.blockMax.toNat)) ||
    (space == 3 && decide (index.toNat < 256)) || (space == 6 && decide (index.toNat < 4))

/-- The locations that exist: neither reserved nor out of range. -/
def hostMapped (s : State) (space : BitVec 4) (index : BitVec 32) : Bool :=
  match space.toNat with
  | 0 => index.toNat < 12
  | 1 | 2 => index.toNat < s.config.blockMax.toNat
  | 3 | 4 => index.toNat < 256
  | 5 => index.toNat < 1024
  | 6 => index.toNat < 4
  | 7 => index.toNat < 1022
  | 8 => index.toNat < 255
  | 9 => index.toNat < 1020
  | _ => false

/-- The codes of ST, as the table of R25 lists them. -/
def stateCodes : List (CtrlState × BitVec 4) :=
  [(.idle, 0), (.readingHeader, 1), (.readingCount, 2), (.readingBody, 3), (.done, 4), (.cleanEOF, 5), (.scanning, 6),
   (.building, 7), (.writingHeader, 8), (.writingCount, 9), (.writingBody, 10), (.bitOp, 11), (.fault, 15)]

/-- The codes of ERR, as the table of 60_exceptions R281 lists them. -/
def classCodes : List (ErrClass × BitVec 4) :=
  [(.none, 0), (.malformedStream, 1), (.inconsistentBody, 2), (.entryOverflow, 3), (.capacity, 4), (.freqOverflow, 5),
   (.illegalCommand, 6)]

/-- Word w of a bit sequence: bit j is element 64w+j, 0 where there is none; no element from 255 on exists (R36). -/
def ShowsBits (word : BitVec 64) (bits : Bits) (w : Nat) : Prop :=
  ∀ j < 64, word.getLsbD j = (decide (64 * w + j < 255) && bits.getD (64 * w + j) false)

/-! ## The invariant of an operation boundary (10_state R25, R55) -/

/-- What holds whenever no operation runs (R25, R27, R41, R44 to R46, R55, R82, 60_exceptions R290 to R292). -/
structure BoundaryInv (s : State) : Prop where
  /-- No operation runs (R33). -/
  notBusy : s.busy = false
  /-- ST is one of the values a host can read (R25). -/
  atRest : s.st = .idle ∨ s.st = .done ∨ s.st = .cleanEOF ∨ s.st = .fault
  /-- ST = Fault exactly when a class is recorded (R32, R290, R291). -/
  faultRecorded : s.st = .fault ↔ s.err ≠ .none
  /-- 0 <= RD_LEFT <= 8 (R22, R55). -/
  readerCount : s.rdLeft.toNat ≤ 8
  /-- WR_ACC[7:WR_N] = 0 (R23, R55). -/
  writerZero : writerClean s
  /-- CAND has at most 255 bits (R31). -/
  candLength : s.cand.length ≤ 255
  /-- CAND is empty unless a fault has left it (45_codec_decompress R258, R261, 60_exceptions R290). -/
  candEmpty : s.st ≠ .fault → s.cand = []
  /-- Every stored decode Code has at most 255 bits (R45). -/
  decLength : ∀ e < 255, (decAt s e).bits.length ≤ 255
  /-- Every stored Code has at most 255 bits (R44). -/
  codeLength : ∀ b, (codeAt s b).bits.length ≤ 255
  /-- NENT is 0 to 256 (R30). -/
  entryRange : s.nent.toNat ≤ 256
  /-- PQ is empty between operations (R41) unless FreqOverflow has left it (U16). -/
  queueEmpty : s.st ≠ .fault → s.pq = []
  /-- PATH is empty between operations (R46) unless FreqOverflow has left it (U16). -/
  pathEmpty : s.st ≠ .fault → s.path = []
  /-- WSTK is empty between operations (R46) unless FreqOverflow has left it (U16). -/
  stackEmpty : s.st ≠ .fault → s.wstk = []
  /-- A result fits OBUF (R29, R257). -/
  resultRange : s.outLen.toNat ≤ s.config.blockMax.toNat
  /-- IBUF is in canonical form, inside its range (R47, R82). -/
  ibufForm : Memory.wf s.ibuf ∧ Memory.inRange s.ibuf s.config
  /-- OBUF is in canonical form, inside its range (R48, R82). -/
  obufForm : Memory.wf s.obuf ∧ Memory.inRange s.obuf s.config
  /-- 1 <= BLOCK_MAX (R7). -/
  configLegal : s.config.legal = true

/-- The values the spec gives for reset (10_state R54, 70_reset_and_hazards R320). -/
structure ResetValues (t : State) : Prop where
  reader : t.rdByte = 0 ∧ t.rdLeft = 0
  writer : t.wrAcc = 0 ∧ t.wrN = 0
  status : t.st = .idle ∧ t.err = .none ∧ t.errSub = 0 ∧ t.errSt = .idle ∧ t.busy = false
  lengths : t.len = 0 ∧ t.outLen = 0 ∧ t.total = 0 ∧ t.nent = 0 ∧ t.decoded = 0
  counters : t.entIx = 0 ∧ t.byteIx = 0 ∧ t.pos = 0
  candidate : t.cand = []
  bitBuffer : t.bitbuf = 0 ∧ t.bitcnt = 0
  freq : ∀ b, freqAt t b = 0
  nodes : ∀ n, (nodeAt t n).valid = false
  queue : t.pq = [] ∧ t.nint = 0 ∧ t.rootValid = false ∧ t.wstk = [] ∧ t.path = []
  codes : ∀ b, (codeAt t b).valid = false
  decTable : (∀ e, (decAt t e).valid = false) ∧ t.decN = 0

/-! ## Frames: what leaves a part of the state unchanged -/

/-- The BitReader's registers and the source. -/
structure SameReader (s t : State) : Prop where
  rdByte : t.rdByte = s.rdByte
  rdLeft : t.rdLeft = s.rdLeft
  src : t.src = s.src

/-- The BitWriter's registers and the sink. -/
structure SameWriter (s t : State) : Prop where
  wrAcc : t.wrAcc = s.wrAcc
  wrN : t.wrN = s.wrN
  snk : t.snk = s.snk

/-- The fault registers. -/
structure SameError (s t : State) : Prop where
  err : t.err = s.err
  errSub : t.errSub = s.errSub
  errSt : t.errSt = s.errSt

/-- The host's bit buffer. -/
structure SameBitBuffer (s t : State) : Prop where
  bitbuf : t.bitbuf = s.bitbuf
  bitcnt : t.bitcnt = s.bitcnt

/-- The encode-side tables other than FREQ, with queue and walk registers. -/
structure SameEncodeTables (s t : State) : Prop where
  node : t.node = s.node
  pq : t.pq = s.pq
  nint : t.nint = s.nint
  rootValid : t.rootValid = s.rootValid
  rootId : t.rootId = s.rootId
  code : t.code = s.code
  wstk : t.wstk = s.wstk
  path : t.path = s.path

/-- The decode-side table and the decoder's registers. -/
structure SameDecoder (s t : State) : Prop where
  dec : t.dec = s.dec
  decN : t.decN = s.decN
  cand : t.cand = s.cand
  decoded : t.decoded = s.decoded
  outLen : t.outLen = s.outLen

/-- The loop counters. -/
structure SameCounters (s t : State) : Prop where
  entIx : t.entIx = s.entIx
  byteIx : t.byteIx = s.byteIx
  pos : t.pos = s.pos

/-- What belongs to the host and to the instance: parameter, operand LEN, the register port, the actions to come. -/
structure SameHost (s t : State) : Prop where
  config : t.config = s.config
  len : t.len = s.len
  regRdata : t.regRdata = s.regRdata
  pending : t.pending = s.pending

/-- Every byte of IBUF reads as before. -/
def SameIbuf (s t : State) : Prop := ∀ i, ibufByte t i = ibufByte s i

/-- Every byte of OBUF reads as before. -/
def SameObuf (s t : State) : Prop := ∀ i, obufByte t i = obufByte s i

end Sys2Proof.Machine
end

