-- ==== Sys2Proof/Certificates/Slice0/Obligations.lean ====
section
/-! DEFINITION. The statements about the codec core, from the numbered rules of spec/. OBLIGATIONS.json gives each its
rules, tier and kind. -/

open Sys2Proof Sys2Proof.Machine

/-! ## Encodings (30_encoding) -/

/-- Every operand of every well-formed instruction survives encoding and decoding (R101 to R111, R121). -/
def Obligations.DecodeOfEncodeIsIdentity : Prop :=
  ∀ i : Instr, i.wf = true → decode (encode i) = .ok i

/-- R121, R123: a word selects at most one row of the table and decodes to that row's command; a word that selects no
row is ILLEGAL; no bit of a word is lost. -/
def Obligations.CommandWordsFollowTheTable : Prop :=
  ∀ w : CommandWord,
    (commandRows.filter fun r => r.selects w).length ≤ 1 ∧
      (∀ r ∈ commandRows, r.selects w = true → (decodeCommand w).mnemonic = r.mnemonic) ∧
      ((∀ r ∈ commandRows, r.selects w = false) → (decodeCommand w).mnemonic = "ILLEGAL") ∧
      (decodeCommand w).wf = true ∧ encodeCommand (decodeCommand w) = some w

/-- Words written out from the table of R121 and the fields of R102 decode to what they stand for. -/
def Obligations.WrittenWordsDecode : Prop :=
  decodeCommand 0x1003 = .rdbits 3 ∧ decodeCommand 0x20FF = .wrbits 255 ∧ decodeCommand 0x3000 = .flush ∧
    decodeCommand 0x4000 = .encode ∧ decodeCommand 0x5000 = .compress ∧ decodeCommand 0x6000 = .decompress ∧
    decodeCommand 0x3001 = .illegal 3 0 1 ∧ decodeCommand 0x0F00 = .illegal 0 15 0 ∧
    decode (.wire (.codeBits 9) [0x00, 0x80]) =
      .ok (.wireCodeBits [false, false, false, false, false, false, false, false, true]) ∧
    decode (.wire .totalSymbolCount [0x02, 0x01, 0, 0, 0, 0, 0, 0]) = .ok (.wireTotalSymbolCount 258)

/-- R125: the text of a command reads back as the command. -/
def Obligations.CommandTextReadsBack : Prop :=
  ∀ i : Instr, ∀ line, textOf i = some line → assembleLine line = some i

/-! ## A step (00_scope R14, R18; 30_encoding R124) -/

/-- Between operations the next step is the decoded command; inside a DECOMPRESS it is the decoded wire field
(the model's finer step, Log 8). -/
def Obligations.StepRunsDecodedInstruction : Prop :=
  (∀ s w rest, s.busy = false → s.pending = .command w :: rest →
      step s = exec (decodeCommand w) { s with pending := rest }) ∧
    (∀ s bs s', fieldDue s = true → resetPending s = false → getField s = .bits bs s' →
      step s = exec (fieldOfBits (shapeDue s) bs) s')

/-- Inside a DECOMPRESS, at a byte boundary, the step runs what the byte decoder reads from the source, and what stands
after the field is what is left of the source (the model's finer step, Log 8). -/
def Obligations.WireFetchAgreesWithByteDecoder : Prop :=
  ∀ s i vs, fieldDue s = true → resetPending s = false → s.rdLeft = 0 →
    decodeWire (shapeDue s) s.src = .ok (i, vs) → ∃ s', step s = exec i s' ∧ s'.src = vs

/-- R320, R325, R37: with nothing to do the machine waits; while BUSY = 1 commands and register accesses wait; reset
is taken at any step (the host as a list of actions: Log 7). -/
def Obligations.HostActionsWaitWhileBusy : Prop :=
  (∀ s, s.busy = false → s.pending = [] → step s = .next s) ∧
    (∀ s t, s.busy = true → resetPending s = false → step s = .next t → t.pending = s.pending) ∧
    (∀ s rest, s.pending = .reset :: rest → step s = .next (resetMachine { s with pending := rest }))

/-! ## BitReader (40_bitreader) -/

/-- R142: RDBITS n delivers the next n bits of the stream, or all that are left, then zeros; nothing else changes. -/
def Obligations.RdbitsDeliversStreamBits : Prop :=
  ∀ n s, s.st ≠ .fault → s.rdLeft.toNat ≤ 8 →
    ∃ rb rl sr t, exec (.rdbits n) s = .next t ∧
      t = { s with
        rdByte := rb
        rdLeft := rl
        src := sr
        bitbuf := t.bitbuf
        bitcnt := BitVec.ofNat 8 ((readerStream s).take n.toNat).length
        st := .done
        busy := false } ∧
      (∀ i, t.bitbuf.getLsbD i = ((readerStream s).take n.toNat).getD i false) ∧
      readerStream t = (readerStream s).drop n.toNat ∧ rl.toNat ≤ 8

/-- R144: bits returned and bytes delivered agree over any sequence of reads that starts with an empty buffer, and a
short count leaves no bit behind. -/
def Obligations.ReaderAccounting : Prop :=
  (∀ ns s, s.rdLeft = 0 →
      (readSeq ns s).1.length + (readSeq ns s).2.rdLeft.toNat =
        8 * (s.src.length - (readSeq ns s).2.src.length)) ∧
    (∀ n s, (readBits n s).1.length < n → (readBits n s).2.rdLeft = 0)

/-- 20_memory R76: a read takes exactly the bytes its bits lie in, none ahead of need. -/
def Obligations.ReadsTakeBytesOnDemand : Prop :=
  ∀ n s, s.rdLeft.toNat ≤ 8 →
    (readBits n s).2.src = s.src.drop ((n - s.rdLeft.toNat + 7) / 8) ∧
      (readBits n s).1 = (readerStream s).take n

/-- R145: eight bits make a byte, the first one bit 7; an aligned read gives the next source byte unchanged, or nothing;
a partial result needs bits left in the buffer. -/
def Obligations.ReadByteIsMsbFirst : Prop :=
  (∀ bs : Bits, bs.length = 8 →
      (byteOfBits bs).toNat = ((List.range 8).map fun i => (bs.getD i false).toNat * 2 ^ (7 - i)).sum) ∧
    (∀ s v vs, s.rdLeft = 0 → s.src = v :: vs →
      byteOfBits (readBits 8 s).1 = v ∧ (readBits 8 s).2 = { s with rdByte := v, rdLeft := 0, src := vs }) ∧
    (∀ s, s.rdLeft = 0 → s.src = [] → readBits 8 s = ([], s)) ∧
    (∀ s, 1 ≤ (readBits 8 s).1.length → (readBits 8 s).1.length ≤ 7 → s.rdLeft ≠ 0)

/-- R146: align drops the buffered bits, takes nothing from the source and changes nothing else. -/
def Obligations.AlignOnlyEmptiesTheBuffer : Prop :=
  ∀ s, align s = { s with rdLeft := 0 }

/-! ## BitWriter (41_bitwriter) -/

/-- R164: WRBITS n appends the first n elements of BITBUF to the stream written; FLUSH pads what is pending with zeros
and writes it; both end Done and change nothing else. -/
def Obligations.WrbitsAndFlushWriteTheStream : Prop :=
  (∀ n s, s.st ≠ .fault → writerClean s →
      ∃ a k vs t, exec (.wrbits n) s = .next t ∧
        t = { s with wrAcc := a, wrN := k, snk := s.snk ++ vs, st := .done, busy := false } ∧
        writerStream t = writerStream s ++ bitbufBits s n ∧ writerClean t) ∧
    (∀ s, s.st ≠ .fault → writerClean s →
      exec .flush s = .next { s with
        wrAcc := 0
        wrN := 0
        snk := s.snk ++ packBits (pendingBits s)
        st := .done
        busy := false })

/-- R167: what is written, flushed and given to a reader comes back bit for bit, in whatever pieces it is read, and at
most seven zero bits follow. -/
def Obligations.ReaderInvertsWriter : Prop :=
  ∀ (bss : List Bits) (ns : List Nat) (s r : State) (vs : List Byte),
    s.wrN = 0 → s.wrAcc = 0 → (flush (bss.foldl (fun u bs => writeBits bs u) s)).snk = s.snk ++ vs →
    r.rdLeft = 0 → r.src = vs → ns.sum = bss.flatten.length →
    (readSeq ns r).1 = bss.flatten ∧
      ∃ k < 8, readerStream (readSeq ns r).2 = List.replicate k false

/-- 20_memory R74, R79: an instruction takes source bytes from the front and gives none back; it takes no byte back
from the sink, and one that faults has written none. -/
def Obligations.StreamsAreNeverTakenBack : Prop :=
  ∀ i s t, exec i s = .next t →
    t.src <:+ s.src ∧ s.snk <+: t.snk ∧ (s.st ≠ .fault → t.st = .fault → t.snk = s.snk)

/-! ## Tree builder and code generator (42_tree_builder, 43_code_generator) -/

/-- R182: extract_min returns and removes the member with the least (frequency, id). -/
def Obligations.ExtractMinReturnsLeastKey : Prop :=
  ∀ s, (s.pq = [] → extractMin s = none) ∧
    (s.pq ≠ [] → ∃ m ∈ s.pq, extractMin s = some (m, { s with pq := s.pq.erase m }) ∧
      ∀ x ∈ s.pq, (nodeAt s m).freq.toNat < (nodeAt s x).freq.toNat ∨
        ((nodeAt s m).freq = (nodeAt s x).freq ∧ m.toNat ≤ x.toNat))

/-- R183, R184, R185: a merge joins the two least, the first as left child, under the next internal id, with their
exact sum; a sum of 2^64 or more raises FreqOverflow and stores nothing (PQ is then free, Log 18). -/
def Obligations.MergeJoinsTheTwoLeast : Prop :=
  ∀ s, 2 ≤ s.pq.length → s.nint.toNat ≤ 254 →
    ∃ a b s1 s2, extractMin s = some (a, s1) ∧ extractMin s1 = some (b, s2) ∧
      ((nodeAt s a).freq.toNat + (nodeAt s b).freq.toNat < 2 ^ 64 →
        ∃ t, mergeTwo s = .go t ∧
          (nodeAt t (nextInner s)).valid = true ∧ (nodeAt t (nextInner s)).isLeaf = false ∧
          (nodeAt t (nextInner s)).freq.toNat = (nodeAt s a).freq.toNat + (nodeAt s b).freq.toNat ∧
          (nodeAt t (nextInner s)).left = a ∧ (nodeAt t (nextInner s)).right = b ∧
          (∀ x, x ≠ nextInner s → nodeAt t x = nodeAt s x) ∧
          t.nint = s.nint + 1 ∧ t.pq = s2.pq ++ [nextInner s]) ∧
      (2 ^ 64 ≤ (nodeAt s a).freq.toNat + (nodeAt s b).freq.toNat →
        mergeTwo s = .ended (raise .freqOverflow (releaseQueue s2)))

/-- R180, R286, U17: ENCODE ends Done exactly when the frequencies sum to less than 2^64; otherwise FreqOverflow from
Building, with no root and no valid Code. -/
def Obligations.EncodeCompletesBelowTwoToThe64 : Prop :=
  ∀ s, s.st ≠ .fault →
    (freqSum s < 2 ^ 64 →
      ∃ t, exec .encode s = .next t ∧ t.st = .done ∧ t.busy = false ∧ SameError s t) ∧
    (2 ^ 64 ≤ freqSum s →
      ∃ t, exec .encode s = .next t ∧ t.st = .fault ∧ t.busy = false ∧ t.err = .freqOverflow ∧ t.errSub = 0 ∧
        t.errSt = .building ∧ t.rootValid = false ∧ ∀ b, (codeAt t b).valid = false)

/-- R214: after a completed ENCODE exactly the byte values with a nonzero frequency have a Code. -/
def Obligations.CodesExistExactlyForPresentBytes : Prop :=
  ∀ s t, exec .encode s = .next t → t.st = .done → ∀ b, (codeAt t b).valid = true ↔ freqAt s b ≠ 0

/-- R215: no valid Code is a prefix of another valid Code, and no two are equal. -/
def Obligations.CodesArePrefixFree : Prop :=
  ∀ s t, exec .encode s = .next t → t.st = .done →
    ∀ b c, b ≠ c → (codeAt t b).valid = true → (codeAt t c).valid = true →
      ¬ (codeAt t b).bits <+: (codeAt t c).bits ∧ (codeAt t b).bits ≠ (codeAt t c).bits

/-- R216: a valid Code has at least one bit, at most n - 1 with n >= 2 leaves, at most 255 in ENCODE and at most 254
in a block COMPRESS accepts. -/
def Obligations.CodeLengthsAreBounded : Prop :=
  (∀ s t, exec .encode s = .next t → t.st = .done →
      ∀ b, (codeAt t b).valid = true →
        1 ≤ (codeAt t b).bits.length ∧ (codeAt t b).bits.length ≤ 255 ∧
          (2 ≤ (presentBytes s).length → (codeAt t b).bits.length ≤ (presentBytes s).length - 1)) ∧
    (∀ s t, exec .compress s = .next t → t.st = .done →
      ∀ b, (codeAt t b).valid = true → 1 ≤ (codeAt t b).bits.length ∧ (codeAt t b).bits.length ≤ 254)

/-- R186 (with the Code of R213): ENCODE on no, one and two nonzero frequencies. -/
def Obligations.EncodeAtTheEndsOfTheRange : Prop :=
  (∀ s, s.st ≠ .fault → (∀ b, freqAt s b = 0) →
      ∃ t, exec .encode s = .next t ∧ t.st = .done ∧ t.rootValid = false ∧ t.nint = 0 ∧
        (∀ n, (nodeAt t n).valid = false) ∧ ∀ b, (codeAt t b).valid = false) ∧
    (∀ s b, s.st ≠ .fault → freqAt s b ≠ 0 → (∀ c, c ≠ b → freqAt s c = 0) →
      ∃ t, exec .encode s = .next t ∧ t.st = .done ∧ t.rootValid = true ∧ t.rootId = leafId b ∧ t.nint = 0 ∧
        (∀ n, (nodeAt t n).valid = true ↔ n = leafId b) ∧ codeAt t b = ⟨true, [true]⟩) ∧
    (∀ s b c, s.st ≠ .fault → b.toNat < c.toNat → freqAt s b ≠ 0 → freqAt s c ≠ 0 →
      (∀ d, d ≠ b → d ≠ c → freqAt s d = 0) → (freqAt s b).toNat + (freqAt s c).toNat < 2 ^ 64 →
      ∃ t, exec .encode s = .next t ∧ t.st = .done ∧ t.rootValid = true ∧ t.rootId = 256 ∧ t.nint = 1 ∧
        (nodeAt t 256).left = (if (freqAt s b).toNat ≤ (freqAt s c).toNat then leafId b else leafId c) ∧
        (nodeAt t 256).right = (if (freqAt s b).toNat ≤ (freqAt s c).toNat then leafId c else leafId b) ∧
        (codeAt t b).bits = [decide ((freqAt s b).toNat ≤ (freqAt s c).toNat)] ∧
        (codeAt t c).bits = [decide (¬ (freqAt s b).toNat ≤ (freqAt s c).toNat)])

/-- 10_state R40, R43: after a completed ENCODE every internal node's frequency is the sum of its children's, its
children are valid and older, no node is a child twice, and the root carries the sum of all frequencies. -/
def Obligations.EncodeBuildsAProperTree : Prop :=
  ∀ s t, exec .encode s = .next t → t.st = .done →
    (∀ n, (nodeAt t n).valid = true → (nodeAt t n).isLeaf = false →
      (nodeAt t n).freq.toNat =
          (nodeAt t (nodeAt t n).left).freq.toNat + (nodeAt t (nodeAt t n).right).freq.toNat ∧
        (nodeAt t (nodeAt t n).left).valid = true ∧ (nodeAt t (nodeAt t n).right).valid = true ∧
        (nodeAt t n).left.toNat < n.toNat ∧ (nodeAt t n).right.toNat < n.toNat ∧
        (nodeAt t n).left ≠ (nodeAt t n).right) ∧
    (∀ m n, (nodeAt t m).valid = true → (nodeAt t m).isLeaf = false → (nodeAt t n).valid = true →
      (nodeAt t n).isLeaf = false → m ≠ n →
      (nodeAt t m).left ≠ (nodeAt t n).left ∧ (nodeAt t m).left ≠ (nodeAt t n).right ∧
        (nodeAt t m).right ≠ (nodeAt t n).right) ∧
    (t.rootValid = true → (nodeAt t t.rootId).freq.toNat = freqSum s)

/-- R187: the frequencies of the internal nodes are non-decreasing in order of creation. -/
def Obligations.InternalFrequenciesDoNotDecrease : Prop :=
  ∀ s t, exec .encode s = .next t → t.st = .done →
    ∀ i j, i ≤ j → j < t.nint.toNat →
      (nodeAt t (BitVec.ofNat 9 (256 + i))).freq.toNat ≤ (nodeAt t (BitVec.ofNat 9 (256 + j))).freq.toNat

/-- R188: tree and Codes are a function of FREQ alone. -/
def Obligations.EncodeDependsOnFrequenciesAlone : Prop :=
  ∀ s s', s.st ≠ .fault → s'.st ≠ .fault → s.freq = s'.freq →
    ∃ t t', exec .encode s = .next t ∧ exec .encode s' = .next t' ∧ SameTree t t'

/-- The frame of ENCODE: FREQ, streams, host buffer, decoder, counters, host registers and every byte of memory stay. -/
def Obligations.EncodeFrame : Prop :=
  ∀ s t, exec .encode s = .next t →
    SameReader s t ∧ SameWriter s t ∧ SameBitBuffer s t ∧ SameDecoder s t ∧ SameCounters s t ∧ SameHost s t ∧
      SameIbuf s t ∧ SameObuf s t ∧ t.freq = s.freq ∧ t.total = s.total ∧ t.nent = s.nent

/-! ## COMPRESS (44_codec_compress) -/

/-- R101, R230 to R237, R81: a block that fits and misses a byte value is written as entry_count, the entries in
ascending byte value, the count and the body, after whatever the writer holds, and COMPRESS ends Done on a byte
boundary; one that starts on a byte boundary is written as the bytes of these fields. -/
def Obligations.CompressWritesTheBlock : Prop :=
  ∀ s, s.st ≠ .fault → s.len.toNat ≤ s.config.blockMax.toNat → (∃ b, blockCount s b = 0) →
    writerClean s →
    ∃ t, exec .compress s = .next t ∧ t.st = .done ∧ t.busy = false ∧ t.wrN = 0 ∧ t.wrAcc = 0 ∧ SameError s t ∧
      t.total = s.len ∧ t.nent.toNat = (tableEntries t).length ∧ blockBytes t = blockBytes s ∧
      bitsOfBytes t.snk = blockStream (tableEntries t) s.len (blockBody t) (writerStream s) ∧
      (s.wrN = 0 → t.snk = s.snk ++ fieldBytes (blockFields (tableEntries t) s.len (blockBody t)))

/-- R232: the scan counts the block. -/
def Obligations.CompressCountsTheBlock : Prop :=
  ∀ s, s.st ≠ .fault → s.len.toNat ≤ s.config.blockMax.toNat →
    ∃ t, exec .compress s = .next t ∧ (∀ b, (freqAt t b).toNat = blockCount s b) ∧ freqSum t = s.len.toNat

/-- R231: a block longer than BLOCK_MAX raises Capacity(InputLength) and changes nothing else; any other, the empty
one too, does not. -/
def Obligations.CompressRefusesLongBlocks : Prop :=
  (∀ s, s.st ≠ .fault → s.config.blockMax.toNat < s.len.toNat →
      exec .compress s = .next { s with
        errSt := s.st
        err := .capacity
        errSub := 1
        st := .fault
        busy := false }) ∧
    (∀ s, s.st ≠ .fault → s.len.toNat ≤ s.config.blockMax.toNat →
      ∃ t, exec .compress s = .next t ∧ (t.st = .fault → t.err ≠ .capacity))

/-- R233: NENT is the number of distinct byte values; 256 of them raise EntryOverflow with nothing written. -/
def Obligations.CompressRefusesAll256Values : Prop :=
  ∀ s, s.st ≠ .fault → s.len.toNat ≤ s.config.blockMax.toNat →
    ∃ t, exec .compress s = .next t ∧
      t.nent.toNat = ((List.range 256).filter fun b => blockCount s (BitVec.ofNat 8 b) ≠ 0).length ∧
      ((∀ b, blockCount s b ≠ 0) →
        t.nent = 256 ∧ t.st = .fault ∧ t.err = .entryOverflow ∧ t.errSub = 0 ∧ t.errSt = .building ∧ t.busy = false ∧
          SameWriter s t) ∧
      ((∃ b, blockCount s b = 0) → t.nent ≠ 256 ∧ t.st = .done)

/-- R238: how many bytes a COMPRESS that starts on a byte boundary appends, and that it ends on one. -/
def Obligations.CompressOutputSize : Prop :=
  ∀ s t, s.wrN = 0 → s.wrAcc = 0 → exec .compress s = .next t → s.st ≠ .fault → t.st = .done →
    t.wrN = 0 ∧
      t.snk.length = s.snk.length + 1 + ((presentBytes t).map fun b => 2 + bytesFor (codeAt t b).bits.length).sum + 8 +
        bytesFor ((presentBytes t).map fun b => (freqAt t b).toNat * (codeAt t b).bits.length).sum ∧
      t.snk = s.snk ++ fieldBytes (blockFields (tableEntries t) s.len (blockBody t))

/-- R230: COMPRESS uses the tree and the Codes that ENCODE gives for its counts. -/
def Obligations.CompressUsesTheTablesOfEncode : Prop :=
  ∀ s t, exec .compress s = .next t → s.st ≠ .fault → t.st = .done →
    ∃ u, exec .encode { s with freq := t.freq } = .next u ∧ SameTree u t

/-- R188, R85: what COMPRESS writes depends on the block, the capacity and the writer alone, not on earlier blocks. -/
def Obligations.CompressDependsOnTheBlockAlone : Prop :=
  ∀ s s', s.st ≠ .fault → s'.st ≠ .fault → s.config = s'.config → s.len = s'.len → blockBytes s = blockBytes s' →
    s.wrN = s'.wrN → s.wrAcc = s'.wrAcc →
    ∃ t t' vs, exec .compress s = .next t ∧ exec .compress s' = .next t' ∧ t.st = t'.st ∧
      t.snk = s.snk ++ vs ∧ t'.snk = s'.snk ++ vs ∧ t.wrN = t'.wrN ∧ t.wrAcc = t'.wrAcc

/-- The frame of COMPRESS: reader, host buffer, decoder, host registers and every byte of memory stay. -/
def Obligations.CompressFrame : Prop :=
  ∀ s t, exec .compress s = .next t →
    SameReader s t ∧ SameBitBuffer s t ∧ SameDecoder s t ∧ SameHost s t ∧ SameIbuf s t ∧ SameObuf s t

/-! ## DECOMPRESS (45_codec_decompress) -/

/-- R282: zero bits where a block would begin are CleanEOF, not an error; nothing is consumed, ERR stays, OUT_LEN is 0,
and the next command is executed, whichever it is: DECOMPRESS takes a byte where the source has one, every other
command comes to its own end. That a DECOMPRESS with no source attached in between ends CleanEOF again rests on the
sticky end of the source (R75), which the model has by a finite SRC (Log 6). -/
def Obligations.CleanEndIsNoError : Prop :=
  ∀ s, s.st ≠ .fault → s.rdLeft = 0 → s.src = [] →
    ∃ t, exec .decompress s = .next t ∧ t.st = .cleanEOF ∧ t.busy = false ∧ t.outLen = 0 ∧ SameError s t ∧
      SameReader s t ∧
      (∀ i : Instr, i.isCommand = true → i ≠ .decompress →
        ∃ u, exec i t = .next u ∧ (u.st = .done ∨ u.st = .fault)) ∧
      (∀ v vs, ∃ u, exec .decompress { t with src := v :: vs } = .next u ∧ u.src <:+ vs) ∧
      ∃ u, exec .decompress t = .next u ∧ u.st = .cleanEOF

/-- R252, R256 to R261: a source that begins with a block whose table is prefix-free is decoded: Done, the block in
OBUF, the source exactly behind the block, the reader empty. -/
def Obligations.DecompressDecodesWellFormedBlocks : Prop :=
  ∀ s entries ps rest, s.st ≠ .fault → s.rdLeft = 0 → PrefixFreeHeader entries → (∀ p ∈ ps, p ∈ entries) →
    ps.length ≤ s.config.blockMax.toNat → s.src = blockOf entries ps ++ rest →
    ∃ t, exec .decompress s = .next t ∧ t.st = .done ∧ t.busy = false ∧ outBlock t = ps.map Prod.fst ∧
      t.outLen.toNat = ps.length ∧ t.total = t.outLen ∧ t.decoded = t.outLen ∧ t.nent.toNat = entries.length ∧
      t.rdLeft = 0 ∧ t.src = rest ∧ SameError s t

/-- R283, R284, R79: a block cut anywhere is reported: CleanEOF before its first byte, else a fault with everything
consumed; a truncated block is never Done. -/
def Obligations.TruncatedBlocksAreReported : Prop :=
  ∀ s entries ps vs ws, s.st ≠ .fault → s.rdLeft = 0 → PrefixFreeHeader entries → (∀ p ∈ ps, p ∈ entries) →
    ps.length ≤ s.config.blockMax.toNat → blockOf entries ps = vs ++ ws → ws ≠ [] → s.src = vs →
    ∃ t, exec .decompress s = .next t ∧ t.rdLeft = 0 ∧ t.src = [] ∧ t.outLen = 0 ∧
      (vs = [] → t.st = .cleanEOF) ∧
      (vs ≠ [] → t.st = .fault ∧
        ((t.err = .malformedStream ∧ t.errSub ≠ 1) ∨ (t.err = .inconsistentBody ∧ t.errSub = 1)))

/-- R264: blocks written by COMPRESS, one after the other, decode back to themselves in order, and CleanEOF follows. -/
def Obligations.RoundTrip : Prop :=
  ∀ (ss : List State) (r : State),
    (∀ s ∈ ss, s.wrN = 0 ∧ s.wrAcc = 0 ∧ s.st ≠ .fault ∧ (compressedBytes s).isSome = true ∧
      s.len.toNat ≤ r.config.blockMax.toNat) →
    r.st ≠ .fault → r.rdLeft = 0 → r.src = ss.flatMap (fun s => (compressedBytes s).getD []) →
    ∃ u, decompressAll (ss.length + 1) r = (ss.map blockBytes, u) ∧ u.st = .cleanEOF ∧ u.src = []

/-- R259: lookup answers the symbol of the last stored entry that equals the candidate, and misses without one. -/
def Obligations.LookupTakesTheLastMatch : Prop :=
  ∀ s c, c ≠ [] →
    (lookup s c = none ↔ ∀ e < s.decN.toNat, ¬ decMatches s e c) ∧
      (∀ v, lookup s c = some v ↔
        ∃ e < s.decN.toNat, decMatches s e c ∧ (decAt s e).sym = v ∧
          ∀ e', e < e' → e' < s.decN.toNat → ¬ decMatches s e' c) ∧
      (∀ e, (decAt s e).bits = [] → ¬ decMatches s e c)

/-- 10_state R29: OUT_LEN is the decoded length after a DECOMPRESS that ended Done and 0 after any other DECOMPRESS; no
other command changes it. -/
def Obligations.OutLenOnlyAfterDone : Prop :=
  (∀ s, s.st ≠ .fault →
      ∃ t, exec .decompress s = .next t ∧ (t.st = .done → t.outLen = t.decoded ∧ t.outLen = t.total) ∧
        (t.st ≠ .done → t.outLen = 0)) ∧
    (∀ i s t, i.isCommand = true → i ≠ .decompress → exec i s = .next t → t.outLen = s.outLen)

/-- R256, R261, 60_exceptions R281: every DECOMPRESS ends Done, CleanEOF, or in one of the eight faults of its rows;
Leftover is unreachable. -/
def Obligations.DecompressOutcomes : Prop :=
  ∀ s, s.st ≠ .fault →
    ∃ t, exec .decompress s = .next t ∧ t.busy = false ∧
      ((t.st = .done ∧ SameError s t) ∨ (t.st = .cleanEOF ∧ SameError s t) ∨
        (t.st = .fault ∧
          ((t.err = .malformedStream ∧ (t.errSub = 1 ∨ t.errSub = 2 ∨ t.errSub = 3 ∨ t.errSub = 4) ∧
              t.errSt = .readingHeader) ∨
            (t.err = .malformedStream ∧ t.errSub = 5 ∧ t.errSt = .readingCount) ∨
            (t.err = .inconsistentBody ∧ (t.errSub = 1 ∨ t.errSub = 2) ∧ t.errSt = .readingBody) ∨
            (t.err = .capacity ∧ t.errSub = 2 ∧ t.errSt = .readingBody))))

/-- 20_memory R81: with 1 to 7 bits in the buffer and the source at its end DECOMPRESS raises
MalformedStream(EntryCount), not CleanEOF. -/
def Obligations.MisalignedEndIsMalformed : Prop :=
  ∀ s, s.st ≠ .fault → 1 ≤ s.rdLeft.toNat → s.rdLeft.toNat ≤ 7 → s.src = [] →
    ∃ t, exec .decompress s = .next t ∧ t.st = .fault ∧ t.err = .malformedStream ∧ t.errSub = 1 ∧
      t.errSt = .readingHeader ∧ t.rdLeft = 0 ∧ t.outLen = 0

/-- R251: nothing of what came before survives into a DECOMPRESS: its result depends on the reader, the source and the
capacity alone. -/
def Obligations.DecompressIgnoresEarlierBlocks : Prop :=
  ∀ s s', s.st ≠ .fault → s'.st ≠ .fault → s.config = s'.config → s.rdByte = s'.rdByte → s.rdLeft = s'.rdLeft →
    s.src = s'.src →
    ∃ t t', exec .decompress s = .next t ∧ exec .decompress s' = .next t' ∧ t.st = t'.st ∧ t.outLen = t'.outLen ∧
      outBlock t = outBlock t' ∧ t.nent = t'.nent ∧ t.total = t'.total ∧ t.decoded = t'.decoded ∧ SameReader t t' ∧
      t.decN = t'.decN ∧ (∀ e < t.decN.toNat, decAt t e = decAt t' e) ∧ (t.st = .fault → SameError t t')

/-- The frame of DECOMPRESS: writer, host buffer, FREQ and the encode-side tables, POS, the host's registers, IBUF and
every OBUF byte from DECODED on stay. -/
def Obligations.DecompressFrame : Prop :=
  ∀ s t, exec .decompress s = .next t →
    SameWriter s t ∧ SameBitBuffer s t ∧ SameEncodeTables s t ∧ SameHost s t ∧ SameIbuf s t ∧ t.freq = s.freq ∧
      t.pos = s.pos ∧ (s.st ≠ .fault → ∀ i, t.decoded.toNat ≤ i → obufByte t i = obufByte s i)

/-- R256: the field-by-field steps of a DECOMPRESS under way reach the state of the whole operation (the finer step
is the model's, Log 8). -/
def Obligations.FieldStepsRefineDecompress : Prop :=
  ∀ s, s.st ≠ .fault → resetPending s = false →
    ∃ k t, exec .decompress s = .next t ∧
      Host.Core.run Sys2Proof.core k (startDecompress { s with busy := true }) = .next t

/-! ## The wire fields one by one (30_encoding R104 to R109) -/

/-- R252, R254: entry_count, byte_value and code_bit_length are taken, and nothing else changes but, with no entry to
come, the loop counter that ends, a free value (Log 5; `field`, `symTmp` and `lenTmp` are the model's, Log 8). -/
def Obligations.HeaderBytesAreTaken : Prop :=
  (∀ k s, s.st ≠ .fault → k ≠ 0 →
      exec (.wireEntryCount k) s = .next { s with nent := k.setWidth 9, entIx := 0, field := .byteValue }) ∧
    (∀ s, s.st ≠ .fault →
      ∃ x, exec (.wireEntryCount 0) s = .next { s with
        nent := 0
        entIx := x
        st := .readingCount
        field := .totalSymbolCount
        freeTick := s.freeTick + 1 }) ∧
    (∀ v s, s.st ≠ .fault →
      exec (.wireByteValue v) s = .next { s with symTmp := v, field := .codeBitLength }) ∧
    (∀ l s, s.st ≠ .fault → exec (.wireCodeBitLength l) s = .next { s with lenTmp := l, field := .codeBits })

/-- R254, R110: code_bits is stored in header order with the symbol read before it, the pad bits are dropped, and the
header goes on or ends (`field` is the model's, Log 8). -/
def Obligations.CodeBitsStoreTheEntry : Prop :=
  ∀ code s, s.st ≠ .fault → s.entIx.toNat < s.nent.toNat → s.nent.toNat ≤ 255 →
    ∃ t, exec (.wireCodeBits code) s = .next t ∧
      decAt t s.entIx.toNat = ⟨true, code, s.symTmp⟩ ∧ (∀ e, e ≠ s.entIx.toNat → decAt t e = decAt s e) ∧
      t.decN.toNat = s.entIx.toNat + 1 ∧ t.rdLeft = 0 ∧ t.src = s.src ∧ t.rdByte = s.rdByte ∧
      (s.entIx.toNat + 1 < s.nent.toNat → t.entIx = s.entIx + 1 ∧ t.field = .byteValue ∧ t.st = s.st) ∧
      (s.entIx.toNat + 1 = s.nent.toNat → t.field = .totalSymbolCount ∧ t.st = .readingCount) ∧
      SameWriter s t ∧ SameError s t ∧ SameBitBuffer s t ∧ SameEncodeTables s t ∧ SameHost s t ∧ SameIbuf s t ∧
      SameObuf s t ∧ t.freq = s.freq ∧ t.nent = s.nent ∧ t.total = s.total ∧ t.cand = s.cand ∧
      t.decoded = s.decoded ∧ t.outLen = s.outLen ∧ t.busy = s.busy ∧ t.byteIx = s.byteIx ∧ t.pos = s.pos

/-- R255, R257, R258, R261: total_symbol_count opens the body; with nothing to decode it ends the block; above
BLOCK_MAX it raises Capacity(OutputLength) with no body bit read (`field` is the model's, Log 8). -/
def Obligations.CountOpensTheBody : Prop :=
  ∀ c s, s.st ≠ .fault →
    ∃ t, exec (.wireTotalSymbolCount c) s = .next t ∧ t.total = c ∧
      (s.config.blockMax.toNat < c.toNat →
        t.st = .fault ∧ t.err = .capacity ∧ t.errSub = 2 ∧ t.errSt = .readingBody ∧ t.outLen = 0 ∧ t.busy = false ∧
          SameReader s t) ∧
      (c.toNat ≤ s.config.blockMax.toNat → s.decoded.toNat < c.toNat →
        t.st = .readingBody ∧ t.field = .body ∧ t.busy = s.busy ∧ SameReader s t ∧ SameDecoder s t ∧ SameError s t) ∧
      (c.toNat ≤ s.config.blockMax.toNat → c.toNat ≤ s.decoded.toNat → s.cand = [] →
        t.st = .done ∧ t.busy = false ∧ t.outLen = s.decoded ∧ t.rdLeft = 0 ∧ t.src = s.src ∧ SameError s t) ∧
      (c.toNat ≤ s.config.blockMax.toNat → c.toNat ≤ s.decoded.toNat → s.cand ≠ [] →
        t.st = .fault ∧ t.err = .inconsistentBody ∧ t.errSub = 3 ∧ t.errSt = .readingBody ∧ t.outLen = 0 ∧
          t.busy = false ∧ SameReader s t) ∧
      SameWriter s t ∧ SameBitBuffer s t ∧ SameEncodeTables s t ∧ SameHost s t ∧ SameIbuf s t ∧ SameObuf s t ∧
      t.freq = s.freq ∧ t.nent = s.nent ∧ t.dec = s.dec ∧ t.decN = s.decN ∧ t.decoded = s.decoded ∧
      t.entIx = s.entIx ∧ t.pos = s.pos

/-- R109, R258: the bits of one Code of the body emit its symbol at OBUF[DECODED], and nothing else changes while
symbols remain. -/
def Obligations.BodyCodeEmitsItsSymbol : Prop :=
  ∀ code v s, s.st ≠ .fault → s.cand = [] → code ≠ [] → code.length ≤ 255 → lookup s code = some v →
    (∀ c, c <+: code → c ≠ [] → c ≠ code → lookup s c = none) →
    s.decoded.toNat + 1 < s.total.toNat → s.decoded.toNat < s.config.blockMax.toNat →
    ∃ t, exec (.wireBody code) s = .next t ∧
      t = { s with obuf := t.obuf, decoded := s.decoded + 1 } ∧ obufByte t s.decoded.toNat = v ∧
      ∀ i, i ≠ s.decoded.toNat → obufByte t i = obufByte s i

/-- R258, R261, R281: what one body bit does: the symbol that is the last one ends the block; a miss lets the candidate
grow, up to 254 bits; a miss at 255 bits raises NoMatch. -/
def Obligations.BodyBitIsTested : Prop :=
  ∀ b s, s.st ≠ .fault → s.decoded.toNat < s.total.toNat →
    (∀ v, lookup s (s.cand ++ [b]) = some v → s.decoded.toNat + 1 = s.total.toNat →
      s.decoded.toNat < s.config.blockMax.toNat →
      ∃ t, exec (.wireBody [b]) s = .next t ∧
        t = { s with
          obuf := t.obuf
          decoded := s.total
          cand := []
          rdLeft := 0
          outLen := s.total
          st := .done
          busy := false } ∧
        obufByte t s.decoded.toNat = v ∧ ∀ i, i ≠ s.decoded.toNat → obufByte t i = obufByte s i) ∧
      (lookup s (s.cand ++ [b]) = none → s.cand.length ≠ 254 →
        exec (.wireBody [b]) s = .next { s with cand := s.cand ++ [b] }) ∧
      (lookup s (s.cand ++ [b]) = none → s.cand.length = 254 →
        exec (.wireBody [b]) s = .next { s with
          cand := s.cand ++ [b]
          errSt := s.st
          err := .inconsistentBody
          errSub := 2
          st := .fault
          outLen := 0
          busy := false })

/-! ## Faults, reset, host (60_exceptions, 70_reset_and_hazards, 10_state) -/

/-- R123, R287: a word that selects no row raises IllegalCommand, the field op deciding the sub-cause, and changes no
other state. -/
def Obligations.IllegalWordsRaiseIllegalCommand : Prop :=
  ∀ w s, (∀ r ∈ commandRows, r.selects w = false) → s.st ≠ .fault →
    exec (decodeCommand w) s = .next { s with
      errSt := s.st
      err := .illegalCommand
      errSub := if opField w = 0 ∨ 7 ≤ (opField w).toNat then 1 else 2
      st := .fault
      busy := false }

/-- R291: while ST = Fault every command word is discarded, host accesses work, BUSY stays 0, and only reset leaves. -/
def Obligations.FaultIsStickyUntilReset : Prop :=
  (∀ s w rest, s.st = .fault → s.busy = false → s.pending = .command w :: rest →
      step s = .next { s with pending := rest }) ∧
    (∀ s space index rest, s.st = .fault → s.busy = false → s.pending = .regRead space index :: rest →
      step s = .next { s with pending := rest, regRdata := hostRead s space index }) ∧
    (∀ s space index data rest, s.st = .fault → s.busy = false → s.pending = .regWrite space index data :: rest →
      step s = .next (hostWrite { s with pending := rest } space index data)) ∧
    (∀ s t, s.st = .fault → s.busy = false → step s = .next t → endsInReset s = false →
      t.st = .fault ∧ t.busy = false ∧ SameError s t) ∧
    (∀ s t, s.st = .fault → s.busy = false → endsInReset s = true → step s = .next t → t.st = .idle)

/-- 10_state R54, 70_reset_and_hazards R320, R321: what reset leaves, from any state: the values the spec gives, and
the streams untouched. A reset that ends a command early leaves the same, but the source has lost some prefix of what
the command would have consumed and the sink has gained some prefix of what it would have written
(the lengths are free values, Log 10). -/
def Obligations.ResetGivesTheTabledValues : Prop :=
  (∀ s rest, s.pending = .reset :: rest →
      ∃ t, step s = .next t ∧ ResetValues t ∧ t.src = s.src ∧ t.snk = s.snk ∧ t.config = s.config ∧
        t.pending = rest) ∧
    (∀ s w rest, s.busy = false → s.pending = .commandReset w :: rest →
      ∃ t u gone left new lost, step s = .next t ∧ exec (decodeCommand w) { s with pending := rest } = .next u ∧
        ResetValues t ∧ s.src = gone ++ t.src ∧ t.src = left ++ u.src ∧ t.snk = s.snk ++ new ∧ u.snk = t.snk ++ lost ∧
        t.config = s.config ∧ t.pending = rest)

/-- The state after reset satisfies the invariant. -/
def Obligations.ResetStateSatisfiesInvariant : Prop := BoundaryInv State.reset

/-- 10_state R55 and the whole of `BoundaryInv` (its clause on PATH rests on Log 20): every step from a state that satisfies the invariant keeps it. -/
def Obligations.EveryStepKeepsTheInvariant : Prop :=
  ∀ s t, BoundaryInv s → step s = .next t → BoundaryInv t

/-- From a state that satisfies the invariant the machine never stops: every step answers a next state (R14, R280;
the invariant rules out the stop of Log 9). -/
def Obligations.NoStepStopsAtABoundary : Prop :=
  ∀ s, BoundaryInv s → ∃ t, step s = .next t

/-- 10_state R37: register accesses wait while BUSY = 1; a write elsewhere than at a writable location has no effect; a
reserved or out-of-range location reads 0; a read has no side effect; a write changes its location only; all in any ST. -/
def Obligations.HostAccessRules : Prop :=
  (∀ s space index data, hostWritable s space index = false → hostWrite s space index data = s) ∧
    (∀ s space index, hostMapped s space index = false → hostRead s space index = 0) ∧
    (∀ s space index data space' index', hostWritable s space index = true →
      ¬ (space' = space ∧ index' = index) →
      hostRead (hostWrite s space index data) space' index' = hostRead s space' index') ∧
    (∀ s space index data, ∃ l m f b,
      hostWrite s space index data = { s with len := l, ibuf := m, freq := f, bitbuf := b }) ∧
    (∀ s space index rest, s.busy = false → s.pending = .regRead space index :: rest →
      step s = .next { s with pending := rest, regRdata := hostRead s space index }) ∧
    (∀ s space index data rest, s.busy = false → s.pending = .regWrite space index data :: rest →
      step s = .next (hostWrite { s with pending := rest } space index data)) ∧
    (∀ s t a rest, s.busy = true → s.pending = a :: rest → a ≠ .reset → step s = .next t → t.pending = a :: rest)

/-- 10_state R36, R38: LEN and FREQ read back all 64 bits written, IBUF 8, BITBUF 255. -/
def Obligations.HostWritesReadBack : Prop :=
  (∀ s data, hostRead (hostWrite s 0 1 data) 0 1 = data) ∧
    (∀ s (index : BitVec 32) data, index.toNat < s.config.blockMax.toNat →
      hostRead (hostWrite s 1 index data) 1 index = (data.setWidth 8).setWidth 64) ∧
    (∀ s (index : BitVec 32) data, index.toNat < 256 → hostRead (hostWrite s 3 index data) 3 index = data) ∧
    (∀ s (index : BitVec 32) data, index.toNat < 3 → hostRead (hostWrite s 6 index data) 6 index = data) ∧
    (∀ s data, hostRead (hostWrite s 6 3 data) 6 3 = (data.setWidth 63).setWidth 64)

/-- 10_state R35, R36, with the codes of R25 and 60_exceptions R281: what a host reads of STATUS, of the other control
and status registers, and of every table and memory. A valid bit shows always; the fields it covers show where they
have a value (any value elsewhere, U1, Log 4); bits not listed read 0. -/
def Obligations.StatusLayout : Prop :=
  ((∀ x, ∃ p ∈ stateCodes, p.1 = x) ∧ ∀ x, ∃ p ∈ classCodes, p.1 = x) ∧
    ∀ s,
      ((∀ p ∈ stateCodes, s.st = p.1 → (hostRead s 0 0).extractLsb' 0 4 = p.2) ∧
        (∀ p ∈ classCodes, s.err = p.1 → (hostRead s 0 0).extractLsb' 4 4 = p.2) ∧
        (hostRead s 0 0).extractLsb' 8 4 = s.errSub ∧
        (∀ p ∈ stateCodes, s.errSt = p.1 → (hostRead s 0 0).extractLsb' 12 4 = p.2) ∧
        (hostRead s 0 0).extractLsb' 16 1 = BitVec.ofBool s.busy ∧ (hostRead s 0 0).extractLsb' 17 47 = 0) ∧
      (hostRead s 0 1 = s.len ∧ hostRead s 0 2 = s.outLen ∧ hostRead s 0 3 = s.total ∧
        (hostRead s 0 4).toNat = s.nent.toNat ∧ (hostRead s 0 5).toNat = s.bitcnt.toNat ∧
        (hostRead s 0 6).extractLsb' 0 8 = s.rdByte ∧ (hostRead s 0 6).extractLsb' 8 4 = s.rdLeft ∧
        (hostRead s 0 6).extractLsb' 12 52 = 0 ∧
        (hostRead s 0 7).extractLsb' 0 8 = s.wrAcc ∧ (hostRead s 0 7).extractLsb' 8 3 = s.wrN ∧
        (hostRead s 0 7).extractLsb' 11 53 = 0 ∧ hostRead s 0 8 = s.decoded ∧
        (s.rootValid = true → (hostRead s 0 9).extractLsb' 0 9 = s.rootId) ∧
        (hostRead s 0 9).extractLsb' 9 1 = BitVec.ofBool s.rootValid ∧ (hostRead s 0 9).extractLsb' 10 54 = 0 ∧
        (hostRead s 0 10).toNat = s.nint.toNat ∧ hostRead s 0 11 = s.config.blockMax) ∧
      (∀ i : BitVec 32, i.toNat < s.config.blockMax.toNat →
        (hostRead s 1 i).toNat = (ibufByte s i.toNat).toNat ∧ (hostRead s 2 i).toNat = (obufByte s i.toNat).toNat) ∧
      (∀ b : Byte, hostRead s 3 (b.setWidth 32) = freqAt s b) ∧
      (∀ b : Byte,
        (hostRead s 4 (b.setWidth 32)).extractLsb' 8 1 = BitVec.ofBool (codeAt s b).valid ∧
          (hostRead s 4 (b.setWidth 32)).extractLsb' 9 55 = 0 ∧
          ((codeAt s b).valid = true →
            (hostRead s 4 (b.setWidth 32)).extractLsb' 0 8 = BitVec.ofNat 8 (codeAt s b).bits.length ∧
              ∀ w < 4, ShowsBits (hostRead s 5 (BitVec.ofNat 32 (4 * b.toNat + w))) (codeAt s b).bits w)) ∧
      (∀ w < 4, ∀ j < 64, (hostRead s 6 (BitVec.ofNat 32 w)).getLsbD j = s.bitbuf.getLsbD (64 * w + j)) ∧
      (∀ n : NodeId, n.toNat < 511 →
        let word := hostRead s 7 (BitVec.ofNat 32 (2 * n.toNat + 1))
        word.extractLsb' 27 1 = BitVec.ofBool (nodeAt s n).valid ∧ word.extractLsb' 28 36 = 0 ∧
          ((nodeAt s n).valid = true →
            hostRead s 7 (BitVec.ofNat 32 (2 * n.toNat)) = (nodeAt s n).freq ∧
              word.extractLsb' 26 1 = BitVec.ofBool (nodeAt s n).isLeaf ∧
              ((nodeAt s n).isLeaf = true → word.extractLsb' 18 8 = (nodeAt s n).sym) ∧
              ((nodeAt s n).isLeaf = false →
                word.extractLsb' 0 9 = (nodeAt s n).left ∧ word.extractLsb' 9 9 = (nodeAt s n).right))) ∧
      ∀ e < 255,
        (hostRead s 8 (BitVec.ofNat 32 e)).extractLsb' 16 1 = BitVec.ofBool (decAt s e).valid ∧
          (hostRead s 8 (BitVec.ofNat 32 e)).extractLsb' 17 47 = 0 ∧
          ((decAt s e).valid = true →
            (hostRead s 8 (BitVec.ofNat 32 e)).extractLsb' 0 8 = BitVec.ofNat 8 (decAt s e).bits.length ∧
              (hostRead s 8 (BitVec.ofNat 32 e)).extractLsb' 8 8 = (decAt s e).sym ∧
              ∀ w < 4, ShowsBits (hostRead s 9 (BitVec.ofNat 32 (4 * e + w))) (decAt s e).bits w)

/-- 30_encoding R126: LDIBUF, run step by step, puts the bytes into IBUF[0..] and their number into LEN, and changes
nothing else. -/
def Obligations.LdibufLoadsTheBlock : Prop :=
  ∀ s bytes rest, s.busy = false → bytes.length ≤ s.config.blockMax.toNat → bytes.length < 2 ^ 32 →
    s.pending = ldibufActions bytes ++ rest →
    ∃ t, Host.Core.run Sys2Proof.core (bytes.length + 1) s = .next t ∧ t.pending = rest ∧ blockBytes t = bytes ∧
      t.len.toNat = bytes.length ∧ t = { s with pending := rest, len := t.len, ibuf := t.ibuf } ∧
      ∀ i, bytes.length ≤ i → ibufByte t i = ibufByte s i
end

