-- ==== Sys2Proof/Laws/Bits.lean ====
section
/-! SUPPORT. Bit sequences as numbers, as host words, and padded to bytes. -/

namespace Sys2Proof.Machine

/-- The binary digits of `natOfBits` are the bits it was given. -/
theorem natOfBits_testBit (bs : Bits) (j : Nat) : (natOfBits bs).testBit j = bs.getD j false := by
  induction bs generalizing j with
  | nil => simp [natOfBits]
  | cons b bs ih =>
    cases j with
    | zero => cases b <;> simp [natOfBits, Nat.testBit_zero, Nat.add_mod]
    | succ j =>
      rw [Nat.testBit_succ, show natOfBits (b :: bs) / 2 = natOfBits bs by
        cases b <;> (simp [natOfBits]; try omega), ih]
      simp

/-- A host word of a bit sequence shows it (10_state R36). -/
theorem bitsWord_shows (bs : Bits) (w : Nat) : ShowsBits (bitsWord bs w) bs w := by
  intro j hj
  simp only [bitsWord, BitVec.getLsbD_ofNat, natOfBits_testBit, hj, decide_true, Bool.true_and, List.getD_eq_getElem?_getD,
    List.getElem?_take, List.getElem?_drop, if_true]
  by_cases h : 64 * w + j < 255 <;> simp [h]

/-- Padding ends on a byte boundary (41_bitwriter R163). -/
theorem padToByte_length (bs : Bits) : (padToByte bs).length % 8 = 0 := by
  simp [padToByte]
  omega

/-- On a byte boundary nothing is padded (R163). -/
theorem padToByte_aligned {bs : Bits} (h : bs.length % 8 = 0) : padToByte bs = bs := by simp [padToByte, h]

end Sys2Proof.Machine
end

