-- ==== Sys2Proof/Laws/State.lean ====
section
/-! SUPPORT. One lemma per field of State for each of the model's named updates, true by rfl, so that no later proof
unfolds a record update. -/

namespace Sys2Proof.Machine

/-! ## finishDone -/

@[simp] theorem finishDone_config (s : State) : (finishDone s).config = s.config := rfl
@[simp] theorem finishDone_rdByte (s : State) : (finishDone s).rdByte = s.rdByte := rfl
@[simp] theorem finishDone_rdLeft (s : State) : (finishDone s).rdLeft = s.rdLeft := rfl
@[simp] theorem finishDone_wrAcc (s : State) : (finishDone s).wrAcc = s.wrAcc := rfl
@[simp] theorem finishDone_wrN (s : State) : (finishDone s).wrN = s.wrN := rfl
@[simp] theorem finishDone_st (s : State) : (finishDone s).st = .done := rfl
@[simp] theorem finishDone_err (s : State) : (finishDone s).err = s.err := rfl
@[simp] theorem finishDone_errSub (s : State) : (finishDone s).errSub = s.errSub := rfl
@[simp] theorem finishDone_errSt (s : State) : (finishDone s).errSt = s.errSt := rfl
@[simp] theorem finishDone_busy (s : State) : (finishDone s).busy = false := rfl
@[simp] theorem finishDone_len (s : State) : (finishDone s).len = s.len := rfl
@[simp] theorem finishDone_outLen (s : State) : (finishDone s).outLen = s.outLen := rfl
@[simp] theorem finishDone_total (s : State) : (finishDone s).total = s.total := rfl
@[simp] theorem finishDone_nent (s : State) : (finishDone s).nent = s.nent := rfl
@[simp] theorem finishDone_decoded (s : State) : (finishDone s).decoded = s.decoded := rfl
@[simp] theorem finishDone_cand (s : State) : (finishDone s).cand = s.cand := rfl
@[simp] theorem finishDone_entIx (s : State) : (finishDone s).entIx = s.entIx := rfl
@[simp] theorem finishDone_byteIx (s : State) : (finishDone s).byteIx = s.byteIx := rfl
@[simp] theorem finishDone_pos (s : State) : (finishDone s).pos = s.pos := rfl
@[simp] theorem finishDone_bitbuf (s : State) : (finishDone s).bitbuf = s.bitbuf := rfl
@[simp] theorem finishDone_bitcnt (s : State) : (finishDone s).bitcnt = s.bitcnt := rfl
@[simp] theorem finishDone_freq (s : State) : (finishDone s).freq = s.freq := rfl
@[simp] theorem finishDone_node (s : State) : (finishDone s).node = s.node := rfl
@[simp] theorem finishDone_pq (s : State) : (finishDone s).pq = s.pq := rfl
@[simp] theorem finishDone_nint (s : State) : (finishDone s).nint = s.nint := rfl
@[simp] theorem finishDone_rootValid (s : State) : (finishDone s).rootValid = s.rootValid := rfl
@[simp] theorem finishDone_rootId (s : State) : (finishDone s).rootId = s.rootId := rfl
@[simp] theorem finishDone_code (s : State) : (finishDone s).code = s.code := rfl
@[simp] theorem finishDone_dec (s : State) : (finishDone s).dec = s.dec := rfl
@[simp] theorem finishDone_decN (s : State) : (finishDone s).decN = s.decN := rfl
@[simp] theorem finishDone_wstk (s : State) : (finishDone s).wstk = s.wstk := rfl
@[simp] theorem finishDone_path (s : State) : (finishDone s).path = s.path := rfl
@[simp] theorem finishDone_ibuf (s : State) : (finishDone s).ibuf = s.ibuf := rfl
@[simp] theorem finishDone_obuf (s : State) : (finishDone s).obuf = s.obuf := rfl
@[simp] theorem finishDone_src (s : State) : (finishDone s).src = s.src := rfl
@[simp] theorem finishDone_snk (s : State) : (finishDone s).snk = s.snk := rfl
@[simp] theorem finishDone_regRdata (s : State) : (finishDone s).regRdata = s.regRdata := rfl
@[simp] theorem finishDone_pending (s : State) : (finishDone s).pending = s.pending := rfl
@[simp] theorem finishDone_field (s : State) : (finishDone s).field = s.field := rfl
@[simp] theorem finishDone_symTmp (s : State) : (finishDone s).symTmp = s.symTmp := rfl
@[simp] theorem finishDone_lenTmp (s : State) : (finishDone s).lenTmp = s.lenTmp := rfl
@[simp] theorem finishDone_memEpoch (s : State) : (finishDone s).memEpoch = s.memEpoch := rfl
@[simp] theorem finishDone_encEpoch (s : State) : (finishDone s).encEpoch = s.encEpoch := rfl
@[simp] theorem finishDone_decEpoch (s : State) : (finishDone s).decEpoch = s.decEpoch := rfl
@[simp] theorem finishDone_freeTick (s : State) : (finishDone s).freeTick = s.freeTick := rfl

/-! ## finishCleanEOF -/

@[simp] theorem finishCleanEOF_config (s : State) : (finishCleanEOF s).config = s.config := rfl
@[simp] theorem finishCleanEOF_rdByte (s : State) : (finishCleanEOF s).rdByte = s.rdByte := rfl
@[simp] theorem finishCleanEOF_rdLeft (s : State) : (finishCleanEOF s).rdLeft = s.rdLeft := rfl
@[simp] theorem finishCleanEOF_wrAcc (s : State) : (finishCleanEOF s).wrAcc = s.wrAcc := rfl
@[simp] theorem finishCleanEOF_wrN (s : State) : (finishCleanEOF s).wrN = s.wrN := rfl
@[simp] theorem finishCleanEOF_st (s : State) : (finishCleanEOF s).st = .cleanEOF := rfl
@[simp] theorem finishCleanEOF_err (s : State) : (finishCleanEOF s).err = s.err := rfl
@[simp] theorem finishCleanEOF_errSub (s : State) : (finishCleanEOF s).errSub = s.errSub := rfl
@[simp] theorem finishCleanEOF_errSt (s : State) : (finishCleanEOF s).errSt = s.errSt := rfl
@[simp] theorem finishCleanEOF_busy (s : State) : (finishCleanEOF s).busy = false := rfl
@[simp] theorem finishCleanEOF_len (s : State) : (finishCleanEOF s).len = s.len := rfl
@[simp] theorem finishCleanEOF_outLen (s : State) : (finishCleanEOF s).outLen = s.outLen := rfl
@[simp] theorem finishCleanEOF_total (s : State) : (finishCleanEOF s).total = s.total := rfl
@[simp] theorem finishCleanEOF_nent (s : State) : (finishCleanEOF s).nent = s.nent := rfl
@[simp] theorem finishCleanEOF_decoded (s : State) : (finishCleanEOF s).decoded = s.decoded := rfl
@[simp] theorem finishCleanEOF_cand (s : State) : (finishCleanEOF s).cand = s.cand := rfl
@[simp] theorem finishCleanEOF_entIx (s : State) : (finishCleanEOF s).entIx = s.entIx := rfl
@[simp] theorem finishCleanEOF_byteIx (s : State) : (finishCleanEOF s).byteIx = s.byteIx := rfl
@[simp] theorem finishCleanEOF_pos (s : State) : (finishCleanEOF s).pos = s.pos := rfl
@[simp] theorem finishCleanEOF_bitbuf (s : State) : (finishCleanEOF s).bitbuf = s.bitbuf := rfl
@[simp] theorem finishCleanEOF_bitcnt (s : State) : (finishCleanEOF s).bitcnt = s.bitcnt := rfl
@[simp] theorem finishCleanEOF_freq (s : State) : (finishCleanEOF s).freq = s.freq := rfl
@[simp] theorem finishCleanEOF_node (s : State) : (finishCleanEOF s).node = s.node := rfl
@[simp] theorem finishCleanEOF_pq (s : State) : (finishCleanEOF s).pq = s.pq := rfl
@[simp] theorem finishCleanEOF_nint (s : State) : (finishCleanEOF s).nint = s.nint := rfl
@[simp] theorem finishCleanEOF_rootValid (s : State) : (finishCleanEOF s).rootValid = s.rootValid := rfl
@[simp] theorem finishCleanEOF_rootId (s : State) : (finishCleanEOF s).rootId = s.rootId := rfl
@[simp] theorem finishCleanEOF_code (s : State) : (finishCleanEOF s).code = s.code := rfl
@[simp] theorem finishCleanEOF_dec (s : State) : (finishCleanEOF s).dec = s.dec := rfl
@[simp] theorem finishCleanEOF_decN (s : State) : (finishCleanEOF s).decN = s.decN := rfl
@[simp] theorem finishCleanEOF_wstk (s : State) : (finishCleanEOF s).wstk = s.wstk := rfl
@[simp] theorem finishCleanEOF_path (s : State) : (finishCleanEOF s).path = s.path := rfl
@[simp] theorem finishCleanEOF_ibuf (s : State) : (finishCleanEOF s).ibuf = s.ibuf := rfl
@[simp] theorem finishCleanEOF_obuf (s : State) : (finishCleanEOF s).obuf = s.obuf := rfl
@[simp] theorem finishCleanEOF_src (s : State) : (finishCleanEOF s).src = s.src := rfl
@[simp] theorem finishCleanEOF_snk (s : State) : (finishCleanEOF s).snk = s.snk := rfl
@[simp] theorem finishCleanEOF_regRdata (s : State) : (finishCleanEOF s).regRdata = s.regRdata := rfl
@[simp] theorem finishCleanEOF_pending (s : State) : (finishCleanEOF s).pending = s.pending := rfl
@[simp] theorem finishCleanEOF_field (s : State) : (finishCleanEOF s).field = s.field := rfl
@[simp] theorem finishCleanEOF_symTmp (s : State) : (finishCleanEOF s).symTmp = s.symTmp := rfl
@[simp] theorem finishCleanEOF_lenTmp (s : State) : (finishCleanEOF s).lenTmp = s.lenTmp := rfl
@[simp] theorem finishCleanEOF_memEpoch (s : State) : (finishCleanEOF s).memEpoch = s.memEpoch := rfl
@[simp] theorem finishCleanEOF_encEpoch (s : State) : (finishCleanEOF s).encEpoch = s.encEpoch := rfl
@[simp] theorem finishCleanEOF_decEpoch (s : State) : (finishCleanEOF s).decEpoch = s.decEpoch := rfl
@[simp] theorem finishCleanEOF_freeTick (s : State) : (finishCleanEOF s).freeTick = s.freeTick := rfl

/-! ## raise -/

@[simp] theorem raise_config (c : Cause) (s : State) : (raise c s).config = s.config := rfl
@[simp] theorem raise_rdByte (c : Cause) (s : State) : (raise c s).rdByte = s.rdByte := rfl
@[simp] theorem raise_rdLeft (c : Cause) (s : State) : (raise c s).rdLeft = s.rdLeft := rfl
@[simp] theorem raise_wrAcc (c : Cause) (s : State) : (raise c s).wrAcc = s.wrAcc := rfl
@[simp] theorem raise_wrN (c : Cause) (s : State) : (raise c s).wrN = s.wrN := rfl
@[simp] theorem raise_st (c : Cause) (s : State) : (raise c s).st = .fault := rfl
@[simp] theorem raise_err (c : Cause) (s : State) : (raise c s).err = c.errClass := rfl
@[simp] theorem raise_errSub (c : Cause) (s : State) : (raise c s).errSub = c.subCode := rfl
@[simp] theorem raise_errSt (c : Cause) (s : State) : (raise c s).errSt = s.st := rfl
@[simp] theorem raise_busy (c : Cause) (s : State) : (raise c s).busy = false := rfl
@[simp] theorem raise_len (c : Cause) (s : State) : (raise c s).len = s.len := rfl
@[simp] theorem raise_outLen (c : Cause) (s : State) : (raise c s).outLen = if c.inDecompress then 0 else s.outLen := rfl
@[simp] theorem raise_total (c : Cause) (s : State) : (raise c s).total = s.total := rfl
@[simp] theorem raise_nent (c : Cause) (s : State) : (raise c s).nent = s.nent := rfl
@[simp] theorem raise_decoded (c : Cause) (s : State) : (raise c s).decoded = s.decoded := rfl
@[simp] theorem raise_cand (c : Cause) (s : State) : (raise c s).cand = s.cand := rfl
@[simp] theorem raise_entIx (c : Cause) (s : State) : (raise c s).entIx = s.entIx := rfl
@[simp] theorem raise_byteIx (c : Cause) (s : State) : (raise c s).byteIx = s.byteIx := rfl
@[simp] theorem raise_pos (c : Cause) (s : State) : (raise c s).pos = s.pos := rfl
@[simp] theorem raise_bitbuf (c : Cause) (s : State) : (raise c s).bitbuf = s.bitbuf := rfl
@[simp] theorem raise_bitcnt (c : Cause) (s : State) : (raise c s).bitcnt = s.bitcnt := rfl
@[simp] theorem raise_freq (c : Cause) (s : State) : (raise c s).freq = s.freq := rfl
@[simp] theorem raise_node (c : Cause) (s : State) : (raise c s).node = s.node := rfl
@[simp] theorem raise_pq (c : Cause) (s : State) : (raise c s).pq = s.pq := rfl
@[simp] theorem raise_nint (c : Cause) (s : State) : (raise c s).nint = s.nint := rfl
@[simp] theorem raise_rootValid (c : Cause) (s : State) : (raise c s).rootValid = s.rootValid := rfl
@[simp] theorem raise_rootId (c : Cause) (s : State) : (raise c s).rootId = s.rootId := rfl
@[simp] theorem raise_code (c : Cause) (s : State) : (raise c s).code = s.code := rfl
@[simp] theorem raise_dec (c : Cause) (s : State) : (raise c s).dec = s.dec := rfl
@[simp] theorem raise_decN (c : Cause) (s : State) : (raise c s).decN = s.decN := rfl
@[simp] theorem raise_wstk (c : Cause) (s : State) : (raise c s).wstk = s.wstk := rfl
@[simp] theorem raise_path (c : Cause) (s : State) : (raise c s).path = s.path := rfl
@[simp] theorem raise_ibuf (c : Cause) (s : State) : (raise c s).ibuf = s.ibuf := rfl
@[simp] theorem raise_obuf (c : Cause) (s : State) : (raise c s).obuf = s.obuf := rfl
@[simp] theorem raise_src (c : Cause) (s : State) : (raise c s).src = s.src := rfl
@[simp] theorem raise_snk (c : Cause) (s : State) : (raise c s).snk = s.snk := rfl
@[simp] theorem raise_regRdata (c : Cause) (s : State) : (raise c s).regRdata = s.regRdata := rfl
@[simp] theorem raise_pending (c : Cause) (s : State) : (raise c s).pending = s.pending := rfl
@[simp] theorem raise_field (c : Cause) (s : State) : (raise c s).field = s.field := rfl
@[simp] theorem raise_symTmp (c : Cause) (s : State) : (raise c s).symTmp = s.symTmp := rfl
@[simp] theorem raise_lenTmp (c : Cause) (s : State) : (raise c s).lenTmp = s.lenTmp := rfl
@[simp] theorem raise_memEpoch (c : Cause) (s : State) : (raise c s).memEpoch = s.memEpoch := rfl
@[simp] theorem raise_encEpoch (c : Cause) (s : State) : (raise c s).encEpoch = s.encEpoch := rfl
@[simp] theorem raise_decEpoch (c : Cause) (s : State) : (raise c s).decEpoch = s.decEpoch := rfl
@[simp] theorem raise_freeTick (c : Cause) (s : State) : (raise c s).freeTick = s.freeTick := rfl

/-! ## releaseEntIx -/

@[simp] theorem releaseEntIx_config (s : State) : (releaseEntIx s).config = s.config := rfl
@[simp] theorem releaseEntIx_rdByte (s : State) : (releaseEntIx s).rdByte = s.rdByte := rfl
@[simp] theorem releaseEntIx_rdLeft (s : State) : (releaseEntIx s).rdLeft = s.rdLeft := rfl
@[simp] theorem releaseEntIx_wrAcc (s : State) : (releaseEntIx s).wrAcc = s.wrAcc := rfl
@[simp] theorem releaseEntIx_wrN (s : State) : (releaseEntIx s).wrN = s.wrN := rfl
@[simp] theorem releaseEntIx_st (s : State) : (releaseEntIx s).st = s.st := rfl
@[simp] theorem releaseEntIx_err (s : State) : (releaseEntIx s).err = s.err := rfl
@[simp] theorem releaseEntIx_errSub (s : State) : (releaseEntIx s).errSub = s.errSub := rfl
@[simp] theorem releaseEntIx_errSt (s : State) : (releaseEntIx s).errSt = s.errSt := rfl
@[simp] theorem releaseEntIx_busy (s : State) : (releaseEntIx s).busy = s.busy := rfl
@[simp] theorem releaseEntIx_len (s : State) : (releaseEntIx s).len = s.len := rfl
@[simp] theorem releaseEntIx_outLen (s : State) : (releaseEntIx s).outLen = s.outLen := rfl
@[simp] theorem releaseEntIx_total (s : State) : (releaseEntIx s).total = s.total := rfl
@[simp] theorem releaseEntIx_nent (s : State) : (releaseEntIx s).nent = s.nent := rfl
@[simp] theorem releaseEntIx_decoded (s : State) : (releaseEntIx s).decoded = s.decoded := rfl
@[simp] theorem releaseEntIx_cand (s : State) : (releaseEntIx s).cand = s.cand := rfl
@[simp] theorem releaseEntIx_entIx (s : State) : (releaseEntIx s).entIx = (Config.freeCounter s.freeTick).setWidth 9 := rfl
@[simp] theorem releaseEntIx_byteIx (s : State) : (releaseEntIx s).byteIx = s.byteIx := rfl
@[simp] theorem releaseEntIx_pos (s : State) : (releaseEntIx s).pos = s.pos := rfl
@[simp] theorem releaseEntIx_bitbuf (s : State) : (releaseEntIx s).bitbuf = s.bitbuf := rfl
@[simp] theorem releaseEntIx_bitcnt (s : State) : (releaseEntIx s).bitcnt = s.bitcnt := rfl
@[simp] theorem releaseEntIx_freq (s : State) : (releaseEntIx s).freq = s.freq := rfl
@[simp] theorem releaseEntIx_node (s : State) : (releaseEntIx s).node = s.node := rfl
@[simp] theorem releaseEntIx_pq (s : State) : (releaseEntIx s).pq = s.pq := rfl
@[simp] theorem releaseEntIx_nint (s : State) : (releaseEntIx s).nint = s.nint := rfl
@[simp] theorem releaseEntIx_rootValid (s : State) : (releaseEntIx s).rootValid = s.rootValid := rfl
@[simp] theorem releaseEntIx_rootId (s : State) : (releaseEntIx s).rootId = s.rootId := rfl
@[simp] theorem releaseEntIx_code (s : State) : (releaseEntIx s).code = s.code := rfl
@[simp] theorem releaseEntIx_dec (s : State) : (releaseEntIx s).dec = s.dec := rfl
@[simp] theorem releaseEntIx_decN (s : State) : (releaseEntIx s).decN = s.decN := rfl
@[simp] theorem releaseEntIx_wstk (s : State) : (releaseEntIx s).wstk = s.wstk := rfl
@[simp] theorem releaseEntIx_path (s : State) : (releaseEntIx s).path = s.path := rfl
@[simp] theorem releaseEntIx_ibuf (s : State) : (releaseEntIx s).ibuf = s.ibuf := rfl
@[simp] theorem releaseEntIx_obuf (s : State) : (releaseEntIx s).obuf = s.obuf := rfl
@[simp] theorem releaseEntIx_src (s : State) : (releaseEntIx s).src = s.src := rfl
@[simp] theorem releaseEntIx_snk (s : State) : (releaseEntIx s).snk = s.snk := rfl
@[simp] theorem releaseEntIx_regRdata (s : State) : (releaseEntIx s).regRdata = s.regRdata := rfl
@[simp] theorem releaseEntIx_pending (s : State) : (releaseEntIx s).pending = s.pending := rfl
@[simp] theorem releaseEntIx_field (s : State) : (releaseEntIx s).field = s.field := rfl
@[simp] theorem releaseEntIx_symTmp (s : State) : (releaseEntIx s).symTmp = s.symTmp := rfl
@[simp] theorem releaseEntIx_lenTmp (s : State) : (releaseEntIx s).lenTmp = s.lenTmp := rfl
@[simp] theorem releaseEntIx_memEpoch (s : State) : (releaseEntIx s).memEpoch = s.memEpoch := rfl
@[simp] theorem releaseEntIx_encEpoch (s : State) : (releaseEntIx s).encEpoch = s.encEpoch := rfl
@[simp] theorem releaseEntIx_decEpoch (s : State) : (releaseEntIx s).decEpoch = s.decEpoch := rfl
@[simp] theorem releaseEntIx_freeTick (s : State) : (releaseEntIx s).freeTick = s.freeTick + 1 := rfl

/-! ## releaseByteIx -/

@[simp] theorem releaseByteIx_config (s : State) : (releaseByteIx s).config = s.config := rfl
@[simp] theorem releaseByteIx_rdByte (s : State) : (releaseByteIx s).rdByte = s.rdByte := rfl
@[simp] theorem releaseByteIx_rdLeft (s : State) : (releaseByteIx s).rdLeft = s.rdLeft := rfl
@[simp] theorem releaseByteIx_wrAcc (s : State) : (releaseByteIx s).wrAcc = s.wrAcc := rfl
@[simp] theorem releaseByteIx_wrN (s : State) : (releaseByteIx s).wrN = s.wrN := rfl
@[simp] theorem releaseByteIx_st (s : State) : (releaseByteIx s).st = s.st := rfl
@[simp] theorem releaseByteIx_err (s : State) : (releaseByteIx s).err = s.err := rfl
@[simp] theorem releaseByteIx_errSub (s : State) : (releaseByteIx s).errSub = s.errSub := rfl
@[simp] theorem releaseByteIx_errSt (s : State) : (releaseByteIx s).errSt = s.errSt := rfl
@[simp] theorem releaseByteIx_busy (s : State) : (releaseByteIx s).busy = s.busy := rfl
@[simp] theorem releaseByteIx_len (s : State) : (releaseByteIx s).len = s.len := rfl
@[simp] theorem releaseByteIx_outLen (s : State) : (releaseByteIx s).outLen = s.outLen := rfl
@[simp] theorem releaseByteIx_total (s : State) : (releaseByteIx s).total = s.total := rfl
@[simp] theorem releaseByteIx_nent (s : State) : (releaseByteIx s).nent = s.nent := rfl
@[simp] theorem releaseByteIx_decoded (s : State) : (releaseByteIx s).decoded = s.decoded := rfl
@[simp] theorem releaseByteIx_cand (s : State) : (releaseByteIx s).cand = s.cand := rfl
@[simp] theorem releaseByteIx_entIx (s : State) : (releaseByteIx s).entIx = s.entIx := rfl
@[simp] theorem releaseByteIx_byteIx (s : State) : (releaseByteIx s).byteIx = (Config.freeCounter s.freeTick).setWidth 4 := rfl
@[simp] theorem releaseByteIx_pos (s : State) : (releaseByteIx s).pos = s.pos := rfl
@[simp] theorem releaseByteIx_bitbuf (s : State) : (releaseByteIx s).bitbuf = s.bitbuf := rfl
@[simp] theorem releaseByteIx_bitcnt (s : State) : (releaseByteIx s).bitcnt = s.bitcnt := rfl
@[simp] theorem releaseByteIx_freq (s : State) : (releaseByteIx s).freq = s.freq := rfl
@[simp] theorem releaseByteIx_node (s : State) : (releaseByteIx s).node = s.node := rfl
@[simp] theorem releaseByteIx_pq (s : State) : (releaseByteIx s).pq = s.pq := rfl
@[simp] theorem releaseByteIx_nint (s : State) : (releaseByteIx s).nint = s.nint := rfl
@[simp] theorem releaseByteIx_rootValid (s : State) : (releaseByteIx s).rootValid = s.rootValid := rfl
@[simp] theorem releaseByteIx_rootId (s : State) : (releaseByteIx s).rootId = s.rootId := rfl
@[simp] theorem releaseByteIx_code (s : State) : (releaseByteIx s).code = s.code := rfl
@[simp] theorem releaseByteIx_dec (s : State) : (releaseByteIx s).dec = s.dec := rfl
@[simp] theorem releaseByteIx_decN (s : State) : (releaseByteIx s).decN = s.decN := rfl
@[simp] theorem releaseByteIx_wstk (s : State) : (releaseByteIx s).wstk = s.wstk := rfl
@[simp] theorem releaseByteIx_path (s : State) : (releaseByteIx s).path = s.path := rfl
@[simp] theorem releaseByteIx_ibuf (s : State) : (releaseByteIx s).ibuf = s.ibuf := rfl
@[simp] theorem releaseByteIx_obuf (s : State) : (releaseByteIx s).obuf = s.obuf := rfl
@[simp] theorem releaseByteIx_src (s : State) : (releaseByteIx s).src = s.src := rfl
@[simp] theorem releaseByteIx_snk (s : State) : (releaseByteIx s).snk = s.snk := rfl
@[simp] theorem releaseByteIx_regRdata (s : State) : (releaseByteIx s).regRdata = s.regRdata := rfl
@[simp] theorem releaseByteIx_pending (s : State) : (releaseByteIx s).pending = s.pending := rfl
@[simp] theorem releaseByteIx_field (s : State) : (releaseByteIx s).field = s.field := rfl
@[simp] theorem releaseByteIx_symTmp (s : State) : (releaseByteIx s).symTmp = s.symTmp := rfl
@[simp] theorem releaseByteIx_lenTmp (s : State) : (releaseByteIx s).lenTmp = s.lenTmp := rfl
@[simp] theorem releaseByteIx_memEpoch (s : State) : (releaseByteIx s).memEpoch = s.memEpoch := rfl
@[simp] theorem releaseByteIx_encEpoch (s : State) : (releaseByteIx s).encEpoch = s.encEpoch := rfl
@[simp] theorem releaseByteIx_decEpoch (s : State) : (releaseByteIx s).decEpoch = s.decEpoch := rfl
@[simp] theorem releaseByteIx_freeTick (s : State) : (releaseByteIx s).freeTick = s.freeTick + 1 := rfl

/-! ## releasePos -/

@[simp] theorem releasePos_config (s : State) : (releasePos s).config = s.config := rfl
@[simp] theorem releasePos_rdByte (s : State) : (releasePos s).rdByte = s.rdByte := rfl
@[simp] theorem releasePos_rdLeft (s : State) : (releasePos s).rdLeft = s.rdLeft := rfl
@[simp] theorem releasePos_wrAcc (s : State) : (releasePos s).wrAcc = s.wrAcc := rfl
@[simp] theorem releasePos_wrN (s : State) : (releasePos s).wrN = s.wrN := rfl
@[simp] theorem releasePos_st (s : State) : (releasePos s).st = s.st := rfl
@[simp] theorem releasePos_err (s : State) : (releasePos s).err = s.err := rfl
@[simp] theorem releasePos_errSub (s : State) : (releasePos s).errSub = s.errSub := rfl
@[simp] theorem releasePos_errSt (s : State) : (releasePos s).errSt = s.errSt := rfl
@[simp] theorem releasePos_busy (s : State) : (releasePos s).busy = s.busy := rfl
@[simp] theorem releasePos_len (s : State) : (releasePos s).len = s.len := rfl
@[simp] theorem releasePos_outLen (s : State) : (releasePos s).outLen = s.outLen := rfl
@[simp] theorem releasePos_total (s : State) : (releasePos s).total = s.total := rfl
@[simp] theorem releasePos_nent (s : State) : (releasePos s).nent = s.nent := rfl
@[simp] theorem releasePos_decoded (s : State) : (releasePos s).decoded = s.decoded := rfl
@[simp] theorem releasePos_cand (s : State) : (releasePos s).cand = s.cand := rfl
@[simp] theorem releasePos_entIx (s : State) : (releasePos s).entIx = s.entIx := rfl
@[simp] theorem releasePos_byteIx (s : State) : (releasePos s).byteIx = s.byteIx := rfl
@[simp] theorem releasePos_pos (s : State) : (releasePos s).pos = Config.freeCounter s.freeTick := rfl
@[simp] theorem releasePos_bitbuf (s : State) : (releasePos s).bitbuf = s.bitbuf := rfl
@[simp] theorem releasePos_bitcnt (s : State) : (releasePos s).bitcnt = s.bitcnt := rfl
@[simp] theorem releasePos_freq (s : State) : (releasePos s).freq = s.freq := rfl
@[simp] theorem releasePos_node (s : State) : (releasePos s).node = s.node := rfl
@[simp] theorem releasePos_pq (s : State) : (releasePos s).pq = s.pq := rfl
@[simp] theorem releasePos_nint (s : State) : (releasePos s).nint = s.nint := rfl
@[simp] theorem releasePos_rootValid (s : State) : (releasePos s).rootValid = s.rootValid := rfl
@[simp] theorem releasePos_rootId (s : State) : (releasePos s).rootId = s.rootId := rfl
@[simp] theorem releasePos_code (s : State) : (releasePos s).code = s.code := rfl
@[simp] theorem releasePos_dec (s : State) : (releasePos s).dec = s.dec := rfl
@[simp] theorem releasePos_decN (s : State) : (releasePos s).decN = s.decN := rfl
@[simp] theorem releasePos_wstk (s : State) : (releasePos s).wstk = s.wstk := rfl
@[simp] theorem releasePos_path (s : State) : (releasePos s).path = s.path := rfl
@[simp] theorem releasePos_ibuf (s : State) : (releasePos s).ibuf = s.ibuf := rfl
@[simp] theorem releasePos_obuf (s : State) : (releasePos s).obuf = s.obuf := rfl
@[simp] theorem releasePos_src (s : State) : (releasePos s).src = s.src := rfl
@[simp] theorem releasePos_snk (s : State) : (releasePos s).snk = s.snk := rfl
@[simp] theorem releasePos_regRdata (s : State) : (releasePos s).regRdata = s.regRdata := rfl
@[simp] theorem releasePos_pending (s : State) : (releasePos s).pending = s.pending := rfl
@[simp] theorem releasePos_field (s : State) : (releasePos s).field = s.field := rfl
@[simp] theorem releasePos_symTmp (s : State) : (releasePos s).symTmp = s.symTmp := rfl
@[simp] theorem releasePos_lenTmp (s : State) : (releasePos s).lenTmp = s.lenTmp := rfl
@[simp] theorem releasePos_memEpoch (s : State) : (releasePos s).memEpoch = s.memEpoch := rfl
@[simp] theorem releasePos_encEpoch (s : State) : (releasePos s).encEpoch = s.encEpoch := rfl
@[simp] theorem releasePos_decEpoch (s : State) : (releasePos s).decEpoch = s.decEpoch := rfl
@[simp] theorem releasePos_freeTick (s : State) : (releasePos s).freeTick = s.freeTick + 1 := rfl

/-! ## snkWrite -/

@[simp] theorem snkWrite_config (s : State) (v : Byte) : (snkWrite s v).config = s.config := rfl
@[simp] theorem snkWrite_rdByte (s : State) (v : Byte) : (snkWrite s v).rdByte = s.rdByte := rfl
@[simp] theorem snkWrite_rdLeft (s : State) (v : Byte) : (snkWrite s v).rdLeft = s.rdLeft := rfl
@[simp] theorem snkWrite_wrAcc (s : State) (v : Byte) : (snkWrite s v).wrAcc = s.wrAcc := rfl
@[simp] theorem snkWrite_wrN (s : State) (v : Byte) : (snkWrite s v).wrN = s.wrN := rfl
@[simp] theorem snkWrite_st (s : State) (v : Byte) : (snkWrite s v).st = s.st := rfl
@[simp] theorem snkWrite_err (s : State) (v : Byte) : (snkWrite s v).err = s.err := rfl
@[simp] theorem snkWrite_errSub (s : State) (v : Byte) : (snkWrite s v).errSub = s.errSub := rfl
@[simp] theorem snkWrite_errSt (s : State) (v : Byte) : (snkWrite s v).errSt = s.errSt := rfl
@[simp] theorem snkWrite_busy (s : State) (v : Byte) : (snkWrite s v).busy = s.busy := rfl
@[simp] theorem snkWrite_len (s : State) (v : Byte) : (snkWrite s v).len = s.len := rfl
@[simp] theorem snkWrite_outLen (s : State) (v : Byte) : (snkWrite s v).outLen = s.outLen := rfl
@[simp] theorem snkWrite_total (s : State) (v : Byte) : (snkWrite s v).total = s.total := rfl
@[simp] theorem snkWrite_nent (s : State) (v : Byte) : (snkWrite s v).nent = s.nent := rfl
@[simp] theorem snkWrite_decoded (s : State) (v : Byte) : (snkWrite s v).decoded = s.decoded := rfl
@[simp] theorem snkWrite_cand (s : State) (v : Byte) : (snkWrite s v).cand = s.cand := rfl
@[simp] theorem snkWrite_entIx (s : State) (v : Byte) : (snkWrite s v).entIx = s.entIx := rfl
@[simp] theorem snkWrite_byteIx (s : State) (v : Byte) : (snkWrite s v).byteIx = s.byteIx := rfl
@[simp] theorem snkWrite_pos (s : State) (v : Byte) : (snkWrite s v).pos = s.pos := rfl
@[simp] theorem snkWrite_bitbuf (s : State) (v : Byte) : (snkWrite s v).bitbuf = s.bitbuf := rfl
@[simp] theorem snkWrite_bitcnt (s : State) (v : Byte) : (snkWrite s v).bitcnt = s.bitcnt := rfl
@[simp] theorem snkWrite_freq (s : State) (v : Byte) : (snkWrite s v).freq = s.freq := rfl
@[simp] theorem snkWrite_node (s : State) (v : Byte) : (snkWrite s v).node = s.node := rfl
@[simp] theorem snkWrite_pq (s : State) (v : Byte) : (snkWrite s v).pq = s.pq := rfl
@[simp] theorem snkWrite_nint (s : State) (v : Byte) : (snkWrite s v).nint = s.nint := rfl
@[simp] theorem snkWrite_rootValid (s : State) (v : Byte) : (snkWrite s v).rootValid = s.rootValid := rfl
@[simp] theorem snkWrite_rootId (s : State) (v : Byte) : (snkWrite s v).rootId = s.rootId := rfl
@[simp] theorem snkWrite_code (s : State) (v : Byte) : (snkWrite s v).code = s.code := rfl
@[simp] theorem snkWrite_dec (s : State) (v : Byte) : (snkWrite s v).dec = s.dec := rfl
@[simp] theorem snkWrite_decN (s : State) (v : Byte) : (snkWrite s v).decN = s.decN := rfl
@[simp] theorem snkWrite_wstk (s : State) (v : Byte) : (snkWrite s v).wstk = s.wstk := rfl
@[simp] theorem snkWrite_path (s : State) (v : Byte) : (snkWrite s v).path = s.path := rfl
@[simp] theorem snkWrite_ibuf (s : State) (v : Byte) : (snkWrite s v).ibuf = s.ibuf := rfl
@[simp] theorem snkWrite_obuf (s : State) (v : Byte) : (snkWrite s v).obuf = s.obuf := rfl
@[simp] theorem snkWrite_src (s : State) (v : Byte) : (snkWrite s v).src = s.src := rfl
@[simp] theorem snkWrite_snk (s : State) (v : Byte) : (snkWrite s v).snk = s.snk ++ [v] := rfl
@[simp] theorem snkWrite_regRdata (s : State) (v : Byte) : (snkWrite s v).regRdata = s.regRdata := rfl
@[simp] theorem snkWrite_pending (s : State) (v : Byte) : (snkWrite s v).pending = s.pending := rfl
@[simp] theorem snkWrite_field (s : State) (v : Byte) : (snkWrite s v).field = s.field := rfl
@[simp] theorem snkWrite_symTmp (s : State) (v : Byte) : (snkWrite s v).symTmp = s.symTmp := rfl
@[simp] theorem snkWrite_lenTmp (s : State) (v : Byte) : (snkWrite s v).lenTmp = s.lenTmp := rfl
@[simp] theorem snkWrite_memEpoch (s : State) (v : Byte) : (snkWrite s v).memEpoch = s.memEpoch := rfl
@[simp] theorem snkWrite_encEpoch (s : State) (v : Byte) : (snkWrite s v).encEpoch = s.encEpoch := rfl
@[simp] theorem snkWrite_decEpoch (s : State) (v : Byte) : (snkWrite s v).decEpoch = s.decEpoch := rfl
@[simp] theorem snkWrite_freeTick (s : State) (v : Byte) : (snkWrite s v).freeTick = s.freeTick := rfl

/-! ## leaveHeader -/

@[simp] theorem leaveHeader_config (s : State) : (leaveHeader s).config = s.config := rfl
@[simp] theorem leaveHeader_rdByte (s : State) : (leaveHeader s).rdByte = s.rdByte := rfl
@[simp] theorem leaveHeader_rdLeft (s : State) : (leaveHeader s).rdLeft = s.rdLeft := rfl
@[simp] theorem leaveHeader_wrAcc (s : State) : (leaveHeader s).wrAcc = s.wrAcc := rfl
@[simp] theorem leaveHeader_wrN (s : State) : (leaveHeader s).wrN = s.wrN := rfl
@[simp] theorem leaveHeader_st (s : State) : (leaveHeader s).st = .readingCount := rfl
@[simp] theorem leaveHeader_err (s : State) : (leaveHeader s).err = s.err := rfl
@[simp] theorem leaveHeader_errSub (s : State) : (leaveHeader s).errSub = s.errSub := rfl
@[simp] theorem leaveHeader_errSt (s : State) : (leaveHeader s).errSt = s.errSt := rfl
@[simp] theorem leaveHeader_busy (s : State) : (leaveHeader s).busy = s.busy := rfl
@[simp] theorem leaveHeader_len (s : State) : (leaveHeader s).len = s.len := rfl
@[simp] theorem leaveHeader_outLen (s : State) : (leaveHeader s).outLen = s.outLen := rfl
@[simp] theorem leaveHeader_total (s : State) : (leaveHeader s).total = s.total := rfl
@[simp] theorem leaveHeader_nent (s : State) : (leaveHeader s).nent = s.nent := rfl
@[simp] theorem leaveHeader_decoded (s : State) : (leaveHeader s).decoded = s.decoded := rfl
@[simp] theorem leaveHeader_cand (s : State) : (leaveHeader s).cand = s.cand := rfl
@[simp] theorem leaveHeader_entIx (s : State) : (leaveHeader s).entIx = (Config.freeCounter s.freeTick).setWidth 9 := rfl
@[simp] theorem leaveHeader_byteIx (s : State) : (leaveHeader s).byteIx = s.byteIx := rfl
@[simp] theorem leaveHeader_pos (s : State) : (leaveHeader s).pos = s.pos := rfl
@[simp] theorem leaveHeader_bitbuf (s : State) : (leaveHeader s).bitbuf = s.bitbuf := rfl
@[simp] theorem leaveHeader_bitcnt (s : State) : (leaveHeader s).bitcnt = s.bitcnt := rfl
@[simp] theorem leaveHeader_freq (s : State) : (leaveHeader s).freq = s.freq := rfl
@[simp] theorem leaveHeader_node (s : State) : (leaveHeader s).node = s.node := rfl
@[simp] theorem leaveHeader_pq (s : State) : (leaveHeader s).pq = s.pq := rfl
@[simp] theorem leaveHeader_nint (s : State) : (leaveHeader s).nint = s.nint := rfl
@[simp] theorem leaveHeader_rootValid (s : State) : (leaveHeader s).rootValid = s.rootValid := rfl
@[simp] theorem leaveHeader_rootId (s : State) : (leaveHeader s).rootId = s.rootId := rfl
@[simp] theorem leaveHeader_code (s : State) : (leaveHeader s).code = s.code := rfl
@[simp] theorem leaveHeader_dec (s : State) : (leaveHeader s).dec = s.dec := rfl
@[simp] theorem leaveHeader_decN (s : State) : (leaveHeader s).decN = s.decN := rfl
@[simp] theorem leaveHeader_wstk (s : State) : (leaveHeader s).wstk = s.wstk := rfl
@[simp] theorem leaveHeader_path (s : State) : (leaveHeader s).path = s.path := rfl
@[simp] theorem leaveHeader_ibuf (s : State) : (leaveHeader s).ibuf = s.ibuf := rfl
@[simp] theorem leaveHeader_obuf (s : State) : (leaveHeader s).obuf = s.obuf := rfl
@[simp] theorem leaveHeader_src (s : State) : (leaveHeader s).src = s.src := rfl
@[simp] theorem leaveHeader_snk (s : State) : (leaveHeader s).snk = s.snk := rfl
@[simp] theorem leaveHeader_regRdata (s : State) : (leaveHeader s).regRdata = s.regRdata := rfl
@[simp] theorem leaveHeader_pending (s : State) : (leaveHeader s).pending = s.pending := rfl
@[simp] theorem leaveHeader_field (s : State) : (leaveHeader s).field = .totalSymbolCount := rfl
@[simp] theorem leaveHeader_symTmp (s : State) : (leaveHeader s).symTmp = s.symTmp := rfl
@[simp] theorem leaveHeader_lenTmp (s : State) : (leaveHeader s).lenTmp = s.lenTmp := rfl
@[simp] theorem leaveHeader_memEpoch (s : State) : (leaveHeader s).memEpoch = s.memEpoch := rfl
@[simp] theorem leaveHeader_encEpoch (s : State) : (leaveHeader s).encEpoch = s.encEpoch := rfl
@[simp] theorem leaveHeader_decEpoch (s : State) : (leaveHeader s).decEpoch = s.decEpoch := rfl
@[simp] theorem leaveHeader_freeTick (s : State) : (leaveHeader s).freeTick = s.freeTick + 1 := rfl

/-! ## resetMachine -/

@[simp] theorem resetMachine_config (s : State) : (resetMachine s).config = s.config := rfl
@[simp] theorem resetMachine_rdByte (s : State) : (resetMachine s).rdByte = State.reset.rdByte := rfl
@[simp] theorem resetMachine_rdLeft (s : State) : (resetMachine s).rdLeft = State.reset.rdLeft := rfl
@[simp] theorem resetMachine_wrAcc (s : State) : (resetMachine s).wrAcc = State.reset.wrAcc := rfl
@[simp] theorem resetMachine_wrN (s : State) : (resetMachine s).wrN = State.reset.wrN := rfl
@[simp] theorem resetMachine_st (s : State) : (resetMachine s).st = State.reset.st := rfl
@[simp] theorem resetMachine_err (s : State) : (resetMachine s).err = State.reset.err := rfl
@[simp] theorem resetMachine_errSub (s : State) : (resetMachine s).errSub = State.reset.errSub := rfl
@[simp] theorem resetMachine_errSt (s : State) : (resetMachine s).errSt = State.reset.errSt := rfl
@[simp] theorem resetMachine_busy (s : State) : (resetMachine s).busy = State.reset.busy := rfl
@[simp] theorem resetMachine_len (s : State) : (resetMachine s).len = State.reset.len := rfl
@[simp] theorem resetMachine_outLen (s : State) : (resetMachine s).outLen = State.reset.outLen := rfl
@[simp] theorem resetMachine_total (s : State) : (resetMachine s).total = State.reset.total := rfl
@[simp] theorem resetMachine_nent (s : State) : (resetMachine s).nent = State.reset.nent := rfl
@[simp] theorem resetMachine_decoded (s : State) : (resetMachine s).decoded = State.reset.decoded := rfl
@[simp] theorem resetMachine_cand (s : State) : (resetMachine s).cand = State.reset.cand := rfl
@[simp] theorem resetMachine_entIx (s : State) : (resetMachine s).entIx = State.reset.entIx := rfl
@[simp] theorem resetMachine_byteIx (s : State) : (resetMachine s).byteIx = State.reset.byteIx := rfl
@[simp] theorem resetMachine_pos (s : State) : (resetMachine s).pos = State.reset.pos := rfl
@[simp] theorem resetMachine_bitbuf (s : State) : (resetMachine s).bitbuf = State.reset.bitbuf := rfl
@[simp] theorem resetMachine_bitcnt (s : State) : (resetMachine s).bitcnt = State.reset.bitcnt := rfl
@[simp] theorem resetMachine_freq (s : State) : (resetMachine s).freq = State.reset.freq := rfl
@[simp] theorem resetMachine_node (s : State) : (resetMachine s).node = State.reset.node := rfl
@[simp] theorem resetMachine_pq (s : State) : (resetMachine s).pq = State.reset.pq := rfl
@[simp] theorem resetMachine_nint (s : State) : (resetMachine s).nint = State.reset.nint := rfl
@[simp] theorem resetMachine_rootValid (s : State) : (resetMachine s).rootValid = State.reset.rootValid := rfl
@[simp] theorem resetMachine_rootId (s : State) : (resetMachine s).rootId = State.reset.rootId := rfl
@[simp] theorem resetMachine_code (s : State) : (resetMachine s).code = State.reset.code := rfl
@[simp] theorem resetMachine_dec (s : State) : (resetMachine s).dec = State.reset.dec := rfl
@[simp] theorem resetMachine_decN (s : State) : (resetMachine s).decN = State.reset.decN := rfl
@[simp] theorem resetMachine_wstk (s : State) : (resetMachine s).wstk = State.reset.wstk := rfl
@[simp] theorem resetMachine_path (s : State) : (resetMachine s).path = State.reset.path := rfl
@[simp] theorem resetMachine_ibuf (s : State) : (resetMachine s).ibuf = State.reset.ibuf := rfl
@[simp] theorem resetMachine_obuf (s : State) : (resetMachine s).obuf = State.reset.obuf := rfl
@[simp] theorem resetMachine_src (s : State) : (resetMachine s).src = s.src := rfl
@[simp] theorem resetMachine_snk (s : State) : (resetMachine s).snk = s.snk := rfl
@[simp] theorem resetMachine_regRdata (s : State) : (resetMachine s).regRdata = State.reset.regRdata := rfl
@[simp] theorem resetMachine_pending (s : State) : (resetMachine s).pending = s.pending := rfl
@[simp] theorem resetMachine_field (s : State) : (resetMachine s).field = State.reset.field := rfl
@[simp] theorem resetMachine_symTmp (s : State) : (resetMachine s).symTmp = State.reset.symTmp := rfl
@[simp] theorem resetMachine_lenTmp (s : State) : (resetMachine s).lenTmp = State.reset.lenTmp := rfl
@[simp] theorem resetMachine_memEpoch (s : State) : (resetMachine s).memEpoch = s.memEpoch + 1 := rfl
@[simp] theorem resetMachine_encEpoch (s : State) : (resetMachine s).encEpoch = s.encEpoch + 1 := rfl
@[simp] theorem resetMachine_decEpoch (s : State) : (resetMachine s).decEpoch = s.decEpoch + 1 := rfl
@[simp] theorem resetMachine_freeTick (s : State) : (resetMachine s).freeTick = s.freeTick := rfl

end Sys2Proof.Machine
end

