-- ==== Sys2Proof/Laws/Table.lean ====
section
/-! SUPPORT. Read after write of the tables, and the byte memories: read after write, and that every operation keeps
the canonical form and the range. -/

namespace Sys2Proof.Machine

/-! ## Tables -/

theorem tabGet_tabSet {α : Type} {n : Nat} (t : Vector α n) (d x : α) (i j : Nat) :
    tabGet (tabSet t i x) d j = if i = j ∧ i < n then x else tabGet t d j := by
  have hl : t.toList.length = n := by simp
  simp only [tabGet, tabSet, List.getD_eq_getElem?_getD]
  show ((t.toList.set i x)[j]?).getD d = _
  rw [List.getElem?_set]
  by_cases hij : i = j
  · subst hij
    by_cases hi : i < n
    · simp [hl, hi]
    · simp [hl, hi]
  · simp [hij]

theorem tabGet_tabSet_same {α : Type} {n : Nat} (t : Vector α n) (d x : α) {i : Nat} (h : i < n) :
    tabGet (tabSet t i x) d i = x := by simp [tabGet_tabSet, h]

theorem tabGet_tabSet_other {α : Type} {n : Nat} (t : Vector α n) (d x : α) {i j : Nat} (h : i ≠ j) :
    tabGet (tabSet t i x) d j = tabGet t d j := by simp [tabGet_tabSet, h]

theorem tabGet_tabMap {α β : Type} {n : Nat} (f : α → β) (t : Vector α n) (d : α) (e : β) {i : Nat} (h : i < n) :
    tabGet (tabMap f t) e i = f (tabGet t d i) := by
  have hl : i < t.toList.length := by simpa using h
  simp only [tabGet, tabMap, List.getD_eq_getElem?_getD]
  show ((t.toList.map f)[i]?).getD e = _
  simp [List.getElem?_map, List.getElem?_eq_getElem hl]

theorem tabGet_outside {α : Type} {n : Nat} (t : Vector α n) (d : α) {i : Nat} (h : n ≤ i) : tabGet t d i = d := by
  have hl : t.toList.length = n := by simp
  simp [tabGet, List.getD_eq_getElem?_getD, List.getElem?_eq_none (by omega : t.toList.length ≤ i)]

theorem tabGet_tableOf {α : Type} (n : Nat) (x d : α) {i : Nat} (h : i < n) : tabGet (tableOf n x) d i = x := by
  simp only [tabGet, tableOf, List.getD_eq_getElem?_getD]
  show ((List.replicate n x)[i]?).getD d = _
  simp [h]

/-! ## Byte memories -/

theorem memFind_memStore (m : Memory) (i j : Nat) (x : Byte) :
    memFind (memStore m i x) j = if i = j then some x else memFind m j := by
  induction m with
  | nil => simp [memStore, memFind]
  | cons c m ih =>
    obtain ⟨a, v⟩ := c
    simp only [memStore]
    by_cases h1 : i < a
    · simp [h1, memFind]
    · by_cases h2 : i = a
      · subst h2
        by_cases hij : i = j <;> simp [memFind, hij]
      · simp only [h1, h2, if_false, memFind, ih]
        by_cases haj : a = j
        · subst haj; simp [h2]
        · simp [haj]

theorem mem_memStore (m : Memory) (i : Nat) (x : Byte) {b : Nat} (h : b ∈ (memStore m i x).map Prod.fst) :
    b = i ∨ b ∈ m.map Prod.fst := by
  induction m with
  | nil => simpa [memStore] using h
  | cons c m ih =>
    obtain ⟨a, v⟩ := c
    simp only [memStore] at h
    split at h
    · simpa using h
    · split at h
      · simp only [List.map_cons, List.mem_cons] at h ⊢
        tauto
      · simp only [List.map_cons, List.mem_cons] at h ⊢
        rcases h with h | h
        · exact .inr (.inl h)
        · rcases ih h with h | h
          · exact .inl h
          · exact .inr (.inr h)

theorem memStore_wf (m : Memory) (hm : Memory.wf m) (i : Nat) (x : Byte) : Memory.wf (memStore m i x) := by
  induction m with
  | nil => simp [memStore, Memory.wf]
  | cons c m ih =>
    obtain ⟨a, v⟩ := c
    have hm' : Memory.wf m := (List.pairwise_cons.mp hm).2
    have hlt : ∀ b ∈ m.map Prod.fst, a < b := (List.pairwise_cons.mp hm).1
    simp only [memStore]
    split
    · rename_i h
      refine List.pairwise_cons.mpr ⟨fun b hb => ?_, hm⟩
      rcases List.mem_cons.mp hb with hb | hb
      · omega
      · exact Nat.lt_trans h (hlt b hb)
    · split
      · rename_i h1 h2
        subst h2
        exact List.pairwise_cons.mpr ⟨hlt, hm'⟩
      · refine List.pairwise_cons.mpr ⟨fun b hb => ?_, ih hm'⟩
        rcases mem_memStore m i x hb with hb | hb
        · omega
        · exact hlt b hb

theorem memStore_inRange (m : Memory) (c : Config) (hm : Memory.inRange m c) {i : Nat} (hi : i < c.blockMax.toNat)
    (x : Byte) : Memory.inRange (memStore m i x) c := by
  intro b hb
  rcases mem_memStore m i x hb with rfl | hb
  · exact hi
  · exact hm b hb

theorem reset_memories_wf : Memory.wf State.reset.ibuf ∧ Memory.wf State.reset.obuf :=
  ⟨List.Pairwise.nil, List.Pairwise.nil⟩

/-- What a write to OBUF does: the cell is stored, or the location does not exist. -/
theorem obufWrite_cases (s : State) (i : Nat) (v : Byte) :
    (i < s.config.blockMax.toNat ∧ obufWrite s i v = { s with obuf := memStore s.obuf i v }) ∨
      (s.config.blockMax.toNat ≤ i ∧ obufWrite s i v = s) := by
  unfold obufWrite
  split
  · exact .inl ⟨‹_›, rfl⟩
  · exact .inr ⟨by omega, rfl⟩

/-- What a host write to IBUF does. -/
theorem ibufWrite_cases (s : State) (i : Nat) (v : Byte) :
    (i < s.config.blockMax.toNat ∧ ibufWrite s i v = { s with ibuf := memStore s.ibuf i v }) ∨
      (s.config.blockMax.toNat ≤ i ∧ ibufWrite s i v = s) := by
  unfold ibufWrite
  split
  · exact .inl ⟨‹_›, rfl⟩
  · exact .inr ⟨by omega, rfl⟩

end Sys2Proof.Machine
end

