-- ==== Sys2Proof/Laws/Streams.lean ====
section
/-! SUPPORT. What the reader and the writer can do: which registers they change, and how long a read is. -/

namespace Sys2Proof.Machine

/-! ## Reader -/

/-- What the refill step can do (40_bitreader R141). -/
theorem refill_cases (s : State) :
    (s.rdLeft ≠ 0 ∧ refill s = some s) ∨
      (s.rdLeft = 0 ∧ s.src = [] ∧ refill s = none) ∨
      (∃ v vs, s.rdLeft = 0 ∧ s.src = v :: vs ∧
        refill s = some { s with rdByte := v, rdLeft := 8, src := vs }) := by
  unfold refill srcRead
  by_cases h : s.rdLeft = 0
  · cases hs : s.src with
    | nil => simp [h]
    | cons v vs => simp [h]
  · exact .inl ⟨h, if_neg h⟩

@[simp] theorem readBits_zero (s : State) : readBits 0 s = ([], s) := rfl

/-- A state that differs from `s` in the reader's registers and in the source alone. -/
def ReaderOnly (s t : State) : Prop := ∃ v k vs, t = { s with rdByte := v, rdLeft := k, src := vs }

theorem ReaderOnly.refl (s : State) : ReaderOnly s s := ⟨s.rdByte, s.rdLeft, s.src, rfl⟩

theorem ReaderOnly.trans {s t u : State} (h : ReaderOnly s t) (h' : ReaderOnly t u) : ReaderOnly s u := by
  obtain ⟨_, _, _, rfl⟩ := h
  obtain ⟨v, k, vs, rfl⟩ := h'
  exact ⟨v, k, vs, rfl⟩

theorem takeBit_only (s : State) : ReaderOnly s (takeBit s).2 := ⟨s.rdByte, s.rdLeft - 1, s.src, rfl⟩

/-- Reading changes the reader's registers and the source, nothing else. -/
theorem readBits_only (n : Nat) (s : State) : ReaderOnly s (readBits n s).2 := by
  induction n generalizing s with
  | zero => exact ReaderOnly.refl s
  | succ n ih =>
    simp only [readBits]
    rcases refill_cases s with ⟨_, h⟩ | ⟨_, _, h⟩ | ⟨v, vs, _, _, h⟩ <;> rw [h]
    · exact (takeBit_only s).trans (ih _)
    · exact ReaderOnly.refl s
    · exact ReaderOnly.trans ⟨v, 8, vs, rfl⟩ ((takeBit_only _).trans (ih _))

theorem align_only (s : State) : ReaderOnly s (align s) := readBits_only _ s

/-- A read returns at most what was asked for (40_bitreader R141). -/
theorem readBits_length_le (n : Nat) (s : State) : (readBits n s).1.length ≤ n := by
  induction n generalizing s with
  | zero => simp
  | succ n ih =>
    simp only [readBits]
    cases refill s with
    | none => simp
    | some s' => simpa using ih (takeBit s').2

/-- A read in two parts: the second goes on where the first ended. -/
theorem readBits_add (m n : Nat) (s : State) (h : (readBits m s).1.length = m) :
    readBits (m + n) s =
      ((readBits m s).1 ++ (readBits n (readBits m s).2).1, (readBits n (readBits m s).2).2) := by
  induction m generalizing s with
  | zero => simp
  | succ m ih =>
    rw [Nat.add_right_comm]
    simp only [readBits] at h ⊢
    cases hr : refill s with
    | none => simp [hr] at h
    | some s' =>
      simp only [hr, List.length_cons, Nat.add_right_cancel_iff] at h
      simp [ih (takeBit s').2 h]

/-! ## Writer -/

/-- One bit changes the writer's registers and the sink, nothing else. -/
theorem writeBit_frame (s : State) (b : Bool) :
    ∃ a k vs, writeBit s b = { s with wrAcc := a, wrN := k, snk := s.snk ++ vs } := by
  unfold writeBit
  split
  · exact ⟨0, 0, [accWith s.wrAcc b], rfl⟩
  · exact ⟨accWith s.wrAcc b, s.wrN + 1, [], by simp⟩

@[simp] theorem writeBits_nil (s : State) : writeBits [] s = s := rfl

theorem writeBits_append (bs cs : Bits) (s : State) : writeBits (bs ++ cs) s = writeBits cs (writeBits bs s) := by
  simp [writeBits, List.foldl_append]

/-- Writing changes the writer's registers and appends to the sink, nothing else (20_memory R77). -/
theorem writeBits_frame (bs : Bits) (s : State) :
    ∃ a k vs, writeBits bs s = { s with wrAcc := a, wrN := k, snk := s.snk ++ vs } := by
  induction bs generalizing s with
  | nil => exact ⟨s.wrAcc, s.wrN, [], by simp⟩
  | cons b bs ih =>
    obtain ⟨a, k, vs, h⟩ := writeBit_frame s b
    obtain ⟨a', k', vs', h'⟩ := ih (writeBit s b)
    refine ⟨a', k', vs ++ vs', ?_⟩
    show writeBits bs (writeBit s b) = _
    rw [h] at h' ⊢
    rw [h']
    simp

/-- `flush()` changes the writer's registers and appends at most one byte (41_bitwriter R163). -/
theorem flush_frame (s : State) :
    ∃ a k vs, flush s = { s with wrAcc := a, wrN := k, snk := s.snk ++ vs } ∧ vs.length ≤ 1 := by
  unfold flush
  split
  · exact ⟨0, 0, [s.wrAcc <<< (8 - s.wrN.toNat)], rfl, by simp⟩
  · exact ⟨s.wrAcc, s.wrN, [], by simp, by simp⟩

/-- A state that differs from `s` in the writer's registers and in what was appended to the sink. -/
def WriterOnly (s t : State) : Prop :=
  ∃ a k vs, t = { s with wrAcc := a, wrN := k, snk := s.snk ++ vs }

theorem WriterOnly.refl (s : State) : WriterOnly s s := ⟨s.wrAcc, s.wrN, [], by simp⟩

theorem WriterOnly.trans {s t u : State} (h : WriterOnly s t) (h' : WriterOnly t u) : WriterOnly s u := by
  obtain ⟨a, k, vs, rfl⟩ := h
  obtain ⟨a', k', vs', rfl⟩ := h'
  exact ⟨a', k', vs ++ vs', by simp⟩

theorem writeBits_only (bs : Bits) (s : State) : WriterOnly s (writeBits bs s) := writeBits_frame bs s

theorem flush_only (s : State) : WriterOnly s (flush s) := by
  obtain ⟨a, k, vs, h, _⟩ := flush_frame s
  exact ⟨a, k, vs, h⟩

/-- A fold of steps each of which only writes only writes. -/
theorem foldl_only {α : Type} (f : State → α → State) (hf : ∀ s x, WriterOnly s (f s x)) (xs : List α) (s : State) :
    WriterOnly s (xs.foldl f s) := by
  induction xs generalizing s with
  | nil => exact WriterOnly.refl s
  | cons x xs ih => exact (hf s x).trans (ih (f s x))

end Sys2Proof.Machine
end

