-- ==== Sys2Proof/Laws/Encode.lean ====
section
/-! SUPPORT. What the tree builder, the code generator and COMPRESS can do: the outcomes, and the registers each may
change. -/

namespace Sys2Proof.Machine

/-! ## Flow -/

@[simp] theorem Flow.state_go (s : State) : (Flow.go s).state = s := rfl
@[simp] theorem Flow.state_ended (s : State) : (Flow.ended s).state = s := rfl
@[simp] theorem Flow.andThen_go (s : State) (f : State → Flow) : (Flow.go s).andThen f = f s := rfl
@[simp] theorem Flow.andThen_ended (s : State) (f : State → Flow) : (Flow.ended s).andThen f = .ended s := rfl

/-- A property of states that every piece keeps is kept by pieces run one after the other. -/
theorem Flow.andThen_state {P : State → Prop} {x : Flow} {f : State → Flow} (hx : P x.state)
    (hf : ∀ s, P s → P (f s).state) : P (x.andThen f).state := by
  cases x with
  | go s => exact hf s hx
  | ended s => exact hx

/-! ## The encode-side tables -/

/-- A state that differs from `s` in the encode-side tables (FREQ apart) and their epoch alone. -/
def TablesOnly (s t : State) : Prop :=
  ∃ nd q ni rv ri cd ws pa ep,
    t = { s with node := nd, pq := q, nint := ni, rootValid := rv, rootId := ri, code := cd, wstk := ws, path := pa,
                 encEpoch := ep }

theorem TablesOnly.refl (s : State) : TablesOnly s s :=
  ⟨s.node, s.pq, s.nint, s.rootValid, s.rootId, s.code, s.wstk, s.path, s.encEpoch, rfl⟩

theorem TablesOnly.trans {s t u : State} (h : TablesOnly s t) (h' : TablesOnly t u) : TablesOnly s u := by
  obtain ⟨_, _, _, _, _, _, _, _, _, rfl⟩ := h
  obtain ⟨a, b, c, d, e, f, g, i, j, rfl⟩ := h'
  exact ⟨a, b, c, d, e, f, g, i, j, rfl⟩

theorem clearTables_only (s : State) : TablesOnly s (clearTables s) :=
  ⟨_, _, _, _, s.rootId, _, s.wstk, s.path, _, rfl⟩

theorem makeLeaf_only (s : State) (b : Byte) : TablesOnly s (makeLeaf s b) :=
  ⟨_, _, s.nint, s.rootValid, s.rootId, s.code, s.wstk, s.path, s.encEpoch, rfl⟩

theorem foldl_tables {α : Type} (f : State → α → State) (hf : ∀ s x, TablesOnly s (f s x)) (xs : List α) (s : State) :
    TablesOnly s (xs.foldl f s) := by
  induction xs generalizing s with
  | nil => exact TablesOnly.refl s
  | cons x xs ih => exact (hf s x).trans (ih (f s x))

theorem makeLeaves_only (s : State) : TablesOnly s (makeLeaves s) := foldl_tables makeLeaf makeLeaf_only _ s

/-- `extract_min()` answers on a nonempty queue alone, with a member of it, which leaves it (42_tree_builder R182). -/
theorem extractMin_cases (s : State) :
    (s.pq = [] ∧ extractMin s = none) ∨
      (∃ x xs, s.pq = x :: xs ∧
        extractMin s = some (leastOf s x xs, { s with pq := s.pq.erase (leastOf s x xs) })) := by
  unfold extractMin
  cases h : s.pq with
  | nil => exact .inl ⟨rfl, by simp⟩
  | cons x xs => exact .inr ⟨x, xs, rfl, by simp⟩

theorem extractMin_only {s t : State} {m : NodeId} (h : extractMin s = some (m, t)) : TablesOnly s t := by
  rcases extractMin_cases s with ⟨_, h'⟩ | ⟨x, xs, _, h'⟩
  · simp [h'] at h
  · rw [h'] at h
    obtain ⟨_, rfl⟩ := Prod.mk.inj (Option.some.inj h)
    exact ⟨s.node, _, s.nint, s.rootValid, s.rootId, s.code, s.wstk, s.path, s.encEpoch, rfl⟩

theorem releaseQueue_only (s : State) : TablesOnly s (releaseQueue s) :=
  ⟨s.node, _, s.nint, s.rootValid, s.rootId, s.code, _, _, s.encEpoch, rfl⟩

/-- Joining two nodes goes on with the tables changed, or raises FreqOverflow with nothing stored (R185). -/
theorem joinNodes_cases (a b : NodeId) (s : State) :
    (2 ^ 64 ≤ (nodeAt s a).freq.toNat + (nodeAt s b).freq.toNat ∧ joinNodes a b s = .ended (raise .freqOverflow (releaseQueue s))) ∨
      (∃ t, joinNodes a b s = .go t ∧ TablesOnly s t) := by
  unfold joinNodes
  split
  · exact .inl ⟨‹_›, rfl⟩
  · exact .inr ⟨_, rfl, ⟨_, _, _, s.rootValid, s.rootId, s.code, s.wstk, s.path, s.encEpoch, rfl⟩⟩

/-- The outcomes of a piece of the tree builder: on with the tables changed, or FreqOverflow (R185). -/
def BuildOutcome (s : State) (x : Flow) : Prop :=
  ∃ t, TablesOnly s t ∧ (x = .go t ∨ x = .ended (raise .freqOverflow t))

theorem BuildOutcome.andThen {s : State} {x : Flow} {f : State → Flow} (hx : BuildOutcome s x)
    (hf : ∀ t, BuildOutcome t (f t)) : BuildOutcome s (x.andThen f) := by
  obtain ⟨t, ht, rfl | rfl⟩ := hx
  · obtain ⟨u, hu, h⟩ := hf t
    exact ⟨u, ht.trans hu, h⟩
  · exact ⟨t, ht, .inr rfl⟩

theorem mergeTwo_outcome (s : State) : BuildOutcome s (mergeTwo s) := by
  unfold mergeTwo
  cases h1 : extractMin s with
  | none => exact ⟨s, TablesOnly.refl s, .inl rfl⟩
  | some p =>
    obtain ⟨a, s1⟩ := p
    cases h2 : extractMin s1 with
    | none => exact ⟨s, TablesOnly.refl s, .inl (by simp [h2])⟩
    | some q =>
      obtain ⟨b, s2⟩ := q
      have hs := (extractMin_only h1).trans (extractMin_only h2)
      simp only [h2]
      rcases joinNodes_cases a b s2 with ⟨_, h⟩ | ⟨t, h, ht⟩
      · exact ⟨releaseQueue s2, hs.trans (releaseQueue_only s2), .inr h⟩
      · exact ⟨t, hs.trans ht, .inl h⟩

theorem mergeLoop_outcome (k : Nat) (s : State) : BuildOutcome s (mergeLoop k s) := by
  induction k generalizing s with
  | zero => exact ⟨s, TablesOnly.refl s, .inl rfl⟩
  | succ k ih =>
    simp only [mergeLoop]
    split
    · exact (mergeTwo_outcome s).andThen ih
    · exact ⟨s, TablesOnly.refl s, .inl rfl⟩

theorem setRoot_only (s : State) : TablesOnly s (setRoot s) := by
  unfold setRoot
  cases h : extractMin s with
  | none => exact ⟨s.node, s.pq, s.nint, false, s.rootId, s.code, s.wstk, s.path, s.encEpoch, rfl⟩
  | some p =>
    exact (extractMin_only h).trans
      ⟨p.2.node, p.2.pq, p.2.nint, true, p.1, p.2.code, p.2.wstk, p.2.path, p.2.encEpoch, rfl⟩

theorem setCode_only (v : Byte) (bs : Bits) (s : State) : TablesOnly s (setCode v bs s) :=
  ⟨s.node, s.pq, s.nint, s.rootValid, s.rootId, _, s.wstk, s.path, s.encEpoch, rfl⟩

theorem visit_only (n : NodeId) (s : State) : TablesOnly s (visit n s) := by
  unfold visit
  split
  · exact setCode_only _ _ s
  · exact ⟨s.node, s.pq, s.nint, s.rootValid, s.rootId, s.code, _, s.path, s.encEpoch, rfl⟩

theorem walkLoop_only (k : Nat) (s : State) : TablesOnly s (walkLoop k s) := by
  induction k generalizing s with
  | zero => exact TablesOnly.refl s
  | succ k ih =>
    unfold walkLoop
    cases h : s.wstk with
    | nil => exact TablesOnly.refl s
    | cons e rest =>
      exact TablesOnly.trans
        ⟨s.node, s.pq, s.nint, s.rootValid, s.rootId, s.code, rest, e.2, s.encEpoch, rfl⟩
        ((visit_only e.1 _).trans (ih _))

theorem walk_only (r : NodeId) (s : State) : TablesOnly s (walk r s) := by
  have h1 : TablesOnly s { s with wstk := [(r, [])] } :=
    ⟨s.node, s.pq, s.nint, s.rootValid, s.rootId, s.code, _, s.path, s.encEpoch, rfl⟩
  have h2 := h1.trans (walkLoop_only 511 _)
  exact h2.trans ⟨_, _, _, _, _, _, _, [], _, rfl⟩

theorem assignCodes_only (s : State) : TablesOnly s (assignCodes s) := by
  unfold assignCodes
  split
  · split
    · exact setCode_only _ _ s
    · exact walk_only _ s
  · exact TablesOnly.refl s

/-- `encode()` goes on with the encode-side tables changed and ST = Building, or raises FreqOverflow from there
(42_tree_builder R180, R185). -/
theorem encodeTables_outcome (s : State) : BuildOutcome { s with st := .building } (encodeTables s) := by
  have h : BuildOutcome { s with st := .building }
      (.go (makeLeaves (clearTables { s with st := .building }))) :=
    ⟨_, (clearTables_only _).trans (makeLeaves_only _), .inl rfl⟩
  have h2 := h.andThen fun t => (mergeLoop_outcome t.pq.length t).andThen fun u =>
    (⟨setRoot u, setRoot_only u, .inl rfl⟩ : BuildOutcome u (.go (setRoot u)))
  exact h2.andThen fun t => ⟨assignCodes t, assignCodes_only t, .inl rfl⟩

/-- The two outcomes of ENCODE (R180). -/
theorem encodeOp_cases (s : State) :
    ∃ t, TablesOnly { s with st := .building } t ∧
      (encodeOp s = finishDone t ∨ encodeOp s = raise .freqOverflow t) := by
  obtain ⟨t, ht, h | h⟩ := encodeTables_outcome s
  · exact ⟨t, ht, .inl (by simp [encodeOp, h])⟩
  · exact ⟨t, ht, .inr (by simp [encodeOp, h])⟩

/-! ## COMPRESS -/

theorem writeEntry_only (s : State) (b : Byte) : WriterOnly s (writeEntry s b) :=
  (writeBits_only _ s).trans <| (writeBits_only _ _).trans <| (writeBits_only _ _).trans (flush_only _)

/-- A state that differs from `s` in the writer, the sink, TOTAL, ST, the loop counters and their tick alone. -/
def BlockOnly (s t : State) : Prop :=
  ∃ a k vs tot c ei bi po ft,
    t = { s with wrAcc := a, wrN := k, snk := s.snk ++ vs, total := tot, st := c, entIx := ei, byteIx := bi, pos := po,
                 freeTick := ft }

theorem BlockOnly.trans {s t u : State} (h : BlockOnly s t) (h' : BlockOnly t u) : BlockOnly s u := by
  obtain ⟨_, _, vs, _, _, _, _, _, _, rfl⟩ := h
  obtain ⟨a, k, vs', b, c, d, e, f, g, rfl⟩ := h'
  exact ⟨a, k, vs ++ vs', b, c, d, e, f, g, by simp⟩

theorem WriterOnly.block {s t : State} (h : WriterOnly s t) : BlockOnly s t := by
  obtain ⟨a, k, vs, rfl⟩ := h
  exact ⟨a, k, vs, s.total, s.st, s.entIx, s.byteIx, s.pos, s.freeTick, rfl⟩

theorem blockOnly_st (s : State) (c : CtrlState) : BlockOnly s { s with st := c } :=
  ⟨s.wrAcc, s.wrN, [], s.total, c, s.entIx, s.byteIx, s.pos, s.freeTick, by simp⟩

theorem releaseEntIx_block (s : State) : BlockOnly s (releaseEntIx s) :=
  ⟨s.wrAcc, s.wrN, [], s.total, s.st, (releaseEntIx s).entIx, s.byteIx, s.pos, s.freeTick + 1, by
    simp [releaseEntIx]⟩

theorem releaseByteIx_block (s : State) : BlockOnly s (releaseByteIx s) :=
  ⟨s.wrAcc, s.wrN, [], s.total, s.st, s.entIx, (releaseByteIx s).byteIx, s.pos, s.freeTick + 1, by
    simp [releaseByteIx]⟩

theorem releasePos_block (s : State) : BlockOnly s (releasePos s) :=
  ⟨s.wrAcc, s.wrN, [], s.total, s.st, s.entIx, s.byteIx, (releasePos s).pos, s.freeTick + 1, by
    simp [releasePos]⟩

theorem writeHeader_block (s : State) : BlockOnly s (writeHeader s) :=
  ((writeBits_only _ s).trans (foldl_only writeEntry writeEntry_only _ _)).block.trans (releaseEntIx_block _)

theorem writeCount_block (s : State) : BlockOnly s (writeCount s) := by
  have h0 : BlockOnly s { s with total := s.len } :=
    ⟨s.wrAcc, s.wrN, [], s.len, s.st, s.entIx, s.byteIx, s.pos, s.freeTick, by simp⟩
  exact (h0.trans (foldl_only (fun s' v => writeByte v s') (fun s' _ => writeBits_only _ s') _ _).block).trans
    (releaseByteIx_block _)

theorem writeBody_block (s : State) : BlockOnly s (writeBody s) :=
  (foldl_only (fun s' v => writeBits (codeAt s' v).bits s') (fun s' _ => writeBits_only _ s') _ s).block.trans
    (releasePos_block _)

/-- Writing a block changes the writer, the sink, TOTAL, ST and the loop counters (44_codec_compress R234 to R237). -/
theorem writeBlock_block (s : State) : BlockOnly s (writeBlock s) :=
  (blockOnly_st s _).trans <| (writeHeader_block _).trans <| (blockOnly_st _ _).trans <|
    (writeCount_block _).trans <| (blockOnly_st _ _).trans <| (writeBody_block _).trans (flush_only _).block

/-- The outcomes of COMPRESS (44_codec_compress R230): too long, FreqOverflow of the builder, 256 values, or a block
written. -/
theorem compressOp_cases (s : State) :
    (s.config.blockMax.toNat < s.len.toNat ∧ compressOp s = raise .inputLength s) ∨
      (s.len.toNat ≤ s.config.blockMax.toNat ∧
        ∃ t, TablesOnly { scan { s with st := .scanning } with st := .building } t ∧
          (compressOp s = raise .freqOverflow t ∨
            ((presentBytes t).length = 256 ∧ compressOp s = raise .entryOverflow { t with nent := 256 }) ∨
            ((presentBytes t).length ≠ 256 ∧
              compressOp s =
                finishDone (writeBlock { t with nent := BitVec.ofNat 9 (presentBytes t).length })))) := by
  unfold compressOp checkLen
  split
  · exact .inl ⟨‹_›, rfl⟩
  · rename_i hlen
    refine .inr ⟨by omega, ?_⟩
    obtain ⟨t, ht, h | h⟩ := encodeTables_outcome (scan { s with st := .scanning })
    · refine ⟨t, ht, .inr ?_⟩
      simp only [Flow.andThen_go, h, countEntries]
      by_cases hp : (presentBytes t).length = 256
      · exact .inl ⟨hp, by simp [hp]⟩
      · exact .inr ⟨hp, by simp [hp]⟩
    · exact ⟨t, ht, .inl (by simp [h])⟩

end Sys2Proof.Machine
end

