-- ==== Sys2Proof/Laws/Decompress.lean ====
section
/-! SUPPORT. What DECOMPRESS and its pieces can do: the registers they may change, the outcomes of getting a field,
and what a step of the machine can be. -/

namespace Sys2Proof.Machine

/-- A state that differs from `s` in the reader, the source, the decoder's registers, DEC, OBUF and the outcome
registers alone: LEN, the writer, the sink, the host's buffer, the encode-side tables, IBUF and POS are as before. -/
def DecodeOnly (s t : State) : Prop :=
  ∃ rb rl sr st er es et bu ol tot ne dd cd ei bi de dn ob fi sy le ep ft,
    t = { s with rdByte := rb, rdLeft := rl, src := sr, st := st, err := er, errSub := es, errSt := et, busy := bu,
                 outLen := ol, total := tot, nent := ne, decoded := dd, cand := cd, entIx := ei, byteIx := bi,
                 dec := de, decN := dn, obuf := ob, field := fi, symTmp := sy, lenTmp := le, decEpoch := ep,
                 freeTick := ft }

/-- A state change written as an update of decoder registers is a `DecodeOnly` change. -/
theorem DecodeOnly.of {s t : State}
    (h : t = { s with rdByte := t.rdByte, rdLeft := t.rdLeft, src := t.src, st := t.st, err := t.err,
                      errSub := t.errSub, errSt := t.errSt, busy := t.busy, outLen := t.outLen, total := t.total,
                      nent := t.nent, decoded := t.decoded, cand := t.cand, entIx := t.entIx, byteIx := t.byteIx,
                      dec := t.dec, decN := t.decN, obuf := t.obuf, field := t.field, symTmp := t.symTmp,
                      lenTmp := t.lenTmp, decEpoch := t.decEpoch, freeTick := t.freeTick }) : DecodeOnly s t :=
  ⟨_, _, _, _, _, _, _, _, _, _, _, _, _, _, _, _, _, _, _, _, _, _, _, h⟩

theorem DecodeOnly.refl (s : State) : DecodeOnly s s := .of rfl

theorem DecodeOnly.trans {s t u : State} (h : DecodeOnly s t) (h' : DecodeOnly t u) : DecodeOnly s u := by
  obtain ⟨_, _, _, _, _, _, _, _, _, _, _, _, _, _, _, _, _, _, _, _, _, _, _, rfl⟩ := h
  obtain ⟨_, _, _, _, _, _, _, _, _, _, _, _, _, _, _, _, _, _, _, _, _, _, _, rfl⟩ := h'
  exact .of rfl

theorem ReaderOnly.decode {s t : State} (h : ReaderOnly s t) : DecodeOnly s t := by
  obtain ⟨_, _, _, rfl⟩ := h
  exact .of rfl

theorem raise_decode (c : Cause) (s : State) : DecodeOnly s (raise c s) := .of rfl

theorem finishDone_decode (s : State) : DecodeOnly s (finishDone s) := .of rfl

theorem finishCleanEOF_decode (s : State) : DecodeOnly s (finishCleanEOF s) := .of rfl

theorem leaveHeader_decode (s : State) : DecodeOnly s (leaveHeader s) := .of rfl

theorem releaseByteIx_decode (s : State) : DecodeOnly s (releaseByteIx s) := .of rfl

theorem obufWrite_decode (s : State) (i : Nat) (v : Byte) : DecodeOnly s (obufWrite s i v) := by
  rcases obufWrite_cases s i v with ⟨_, h⟩ | ⟨_, h⟩ <;> rw [h]
  · exact .of rfl
  · exact .refl s

/-! ## Getting a field -/

/-- The state a read leaves. -/
def Got.state : Got → State
  | .bits _ s => s
  | .ended s => s

/-- Getting bits gives all of them, or ends the operation as `short` says (40_bitreader R143). -/
theorem getBits_cases (n : Nat) (short : Bits → State → State) (s : State) :
    ((readBits n s).1.length = n ∧ getBits n short s = .bits (readBits n s).1 (readBits n s).2) ∨
      ((readBits n s).1.length < n ∧ getBits n short s = .ended (short (readBits n s).1 (readBits n s).2)) := by
  unfold getBits
  have := readBits_length_le n s
  split
  · exact .inr ⟨‹_›, rfl⟩
  · exact .inl ⟨by omega, rfl⟩

theorem getBits_decode (n : Nat) (short : Bits → State → State) (hs : ∀ bs t, DecodeOnly t (short bs t)) (s : State) :
    DecodeOnly s (getBits n short s).state := by
  rcases getBits_cases n short s with ⟨_, h⟩ | ⟨_, h⟩ <;> rw [h]
  · exact (readBits_only n s).decode
  · exact (readBits_only n s).decode.trans (hs _ _)

theorem Got.andTake_decode {s : State} {g : Got} {take : Bits → State → Flow} (hg : DecodeOnly s g.state)
    (ht : ∀ bs t, DecodeOnly t (take bs t).state) : DecodeOnly s (g.andTake take).state := by
  cases g with
  | bits bs t => exact hg.trans (ht bs t)
  | ended t => exact hg

theorem Flow.andThen_decode {s : State} {x : Flow} {f : State → Flow} (hx : DecodeOnly s x.state)
    (hf : ∀ t, DecodeOnly t (f t).state) : DecodeOnly s (x.andThen f).state :=
  Flow.andThen_state (P := DecodeOnly s) hx fun t ht => ht.trans (hf t)

theorem getEntryCount_decode (s : State) : DecodeOnly s (getEntryCount s).state :=
  getBits_decode 8 _ (fun bs t => by
    show DecodeOnly t (if bs = [] then finishCleanEOF t else raise .entryCount t)
    split
    · exact finishCleanEOF_decode t
    · exact raise_decode _ t) s

theorem getByteValue_decode (s : State) : DecodeOnly s (getByteValue s).state :=
  getBits_decode 8 _ (fun _ t => raise_decode _ t) s

theorem getCodeBitLength_decode (s : State) : DecodeOnly s (getCodeBitLength s).state :=
  getBits_decode 8 _ (fun _ t => raise_decode _ t) s

theorem getCodeBits_decode (s : State) : DecodeOnly s (getCodeBits s).state :=
  getBits_decode _ _ (fun _ t => raise_decode _ t) s

theorem countLoop_decode (k j : Nat) (acc : Bits) (s : State) : DecodeOnly s (countLoop k j acc s).state := by
  induction k generalizing j acc s with
  | zero => exact .refl s
  | succ k ih =>
    have h0 : DecodeOnly s { s with byteIx := BitVec.ofNat 4 j } := .of rfl
    have h := h0.trans (getBits_decode 8 (fun _ => raise .totalCount) (fun _ t => raise_decode _ t)
      { s with byteIx := BitVec.ofNat 4 j })
    unfold countLoop
    cases hg : getBits 8 (fun _ => raise .totalCount) { s with byteIx := BitVec.ofNat 4 j } with
    | ended t => simpa [hg, Got.state] using h
    | bits bs t =>
      rw [hg] at h
      have h1 : DecodeOnly t { t with total := t.total ||| ((byteOfBits bs).setWidth 64 <<< (8 * j)) } := .of rfl
      exact (h.trans h1).trans (ih _ _ _)

theorem getTotalCount_decode (s : State) : DecodeOnly s (getTotalCount s).state :=
  DecodeOnly.trans (.of rfl : DecodeOnly s { s with total := 0 }) (countLoop_decode _ _ _ _)

theorem getBodyBit_decode (s : State) : DecodeOnly s (getBodyBit s).state :=
  getBits_decode 1 _ (fun _ t => raise_decode _ t) s

/-! ## Taking a field -/

theorem takeEntryCount_decode (k : Byte) (s : State) : DecodeOnly s (takeEntryCount k s).state := by
  unfold takeEntryCount
  by_cases h : k = 0 <;> simp only [h, if_true, if_false, Flow.state_go]
  · exact DecodeOnly.trans (.of rfl : DecodeOnly s { s with nent := _, entIx := 0 }) (leaveHeader_decode _)
  · exact .of rfl

theorem takeByteValue_decode (v : Byte) (s : State) : DecodeOnly s (takeByteValue v s).state := .of rfl

theorem takeCodeBitLength_decode (l : Byte) (s : State) : DecodeOnly s (takeCodeBitLength l s).state := .of rfl

theorem storeDec_decode (code : Bits) (s : State) : DecodeOnly s (storeDec code s) := .of rfl

theorem takeCodeBits_decode (code : Bits) (s : State) : DecodeOnly s (takeCodeBits code s).state := by
  have h := (align_only s).decode.trans (storeDec_decode code (align s))
  unfold takeCodeBits
  simp only [Flow.state_go]
  split
  · exact h.trans (leaveHeader_decode _)
  · exact h.trans (.of rfl)

theorem finishBlock_decode (s : State) : DecodeOnly s (finishBlock s).state := by
  unfold finishBlock
  split
  · exact raise_decode _ s
  · exact (align_only s).decode.trans (.of rfl)

theorem takeTotalCount_decode (c : Count) (s : State) : DecodeOnly s (takeTotalCount c s).state := by
  have h : DecodeOnly s { releaseByteIx s with total := c, st := .readingBody, field := .body } := .of rfl
  unfold takeTotalCount
  simp only
  split
  · exact h.trans (raise_decode _ _)
  · split
    · exact h
    · exact h.trans (finishBlock_decode _)

theorem emitSymbol_decode (v : Byte) (s : State) : DecodeOnly s (emitSymbol v s) :=
  (obufWrite_decode s _ v).trans (.of rfl)

theorem takeBodyBit_decode (b : Bool) (s : State) : DecodeOnly s (takeBodyBit b s).state := by
  unfold takeBodyBit
  cases lookup s (s.cand ++ [b]) with
  | some v => exact emitSymbol_decode v s
  | none =>
    simp only
    split
    · exact DecodeOnly.trans (.of rfl : DecodeOnly s { s with cand := s.cand ++ [b] }) (raise_decode _ _)
    · exact .of rfl

theorem takeBody_decode (bs : Bits) (s : State) : DecodeOnly s (takeBody bs s).state := by
  induction bs generalizing s with
  | nil =>
    unfold takeBody
    split
    · exact .refl s
    · exact finishBlock_decode s
  | cons b bs ih =>
    unfold takeBody
    split
    · exact Flow.andThen_decode (takeBodyBit_decode b s) ih
    · exact finishBlock_decode s

/-! ## The whole operation -/

theorem startDecompress_decode (s : State) : DecodeOnly s (startDecompress s) := .of rfl

theorem readEntry_decode (s : State) : DecodeOnly s (readEntry s).state :=
  Flow.andThen_decode (Flow.andThen_decode
    (Got.andTake_decode (getByteValue_decode s) fun _ t => takeByteValue_decode _ t)
    fun t => Got.andTake_decode (getCodeBitLength_decode t) fun _ u => takeCodeBitLength_decode _ u)
    fun t => Got.andTake_decode (getCodeBits_decode t) takeCodeBits_decode

theorem readEntriesLoop_decode (k : Nat) (s : State) : DecodeOnly s (readEntriesLoop k s).state := by
  induction k generalizing s with
  | zero => exact .refl s
  | succ k ih => exact Flow.andThen_decode (readEntry_decode s) ih

theorem readBodyLoop_decode (k : Nat) (s : State) : DecodeOnly s (readBodyLoop k s).state := by
  induction k generalizing s with
  | zero => exact .refl s
  | succ k ih =>
    unfold readBodyLoop
    split
    · exact Flow.andThen_decode
        (Got.andTake_decode (getBodyBit_decode s) fun _ t => takeBodyBit_decode _ t) ih
    · exact finishBlock_decode s

/-- DECOMPRESS changes the reader, the decoder's registers, DEC, OBUF and the outcome alone
(45_codec_decompress R250). -/
theorem decompressOp_decode (s : State) : DecodeOnly s (decompressOp s) :=
  Flow.andThen_decode (Flow.andThen_decode (Flow.andThen_decode
    ((startDecompress_decode s).trans
      (Got.andTake_decode (getEntryCount_decode _) fun _ t => takeEntryCount_decode _ t))
    fun t => readEntriesLoop_decode _ t)
    fun t => Got.andTake_decode (getTotalCount_decode t) fun _ u => takeTotalCount_decode _ u)
    fun t => readBodyLoop_decode _ t

/-! ## exec and step -/

theorem acceptCommand_fault {op : State → State} {s : State} (h : s.st = .fault) : acceptCommand op s = .next s := by
  simp [acceptCommand, h]

theorem acceptCommand_run {op : State → State} {s : State} (h : s.st ≠ .fault) :
    acceptCommand op s = .next (op { s with busy := true }) := by simp [acceptCommand, h]

theorem acceptField_fault {take : State → Flow} {s : State} (h : s.st = .fault) :
    acceptField take s = .next s := by simp [acceptField, h]

theorem acceptField_run {take : State → Flow} {s : State} (h : s.st ≠ .fault) :
    acceptField take s = .next (take s).state := by simp [acceptField, h]

/-- Between operations a step is idle, a host action, or the next command (30_encoding R124, 70 R325). -/
theorem step_boundary_cases {s : State} (h : s.busy = false) :
    (s.pending = [] ∧ step s = .next s) ∨
      (∃ w rest, s.pending = .command w :: rest ∧ step s = exec (decodeCommand w) { s with pending := rest }) ∨
      (∃ w rest, s.pending = .commandReset w :: rest ∧
        step s = resetOutcome { s with pending := rest } (exec (decodeCommand w) { s with pending := rest })) ∨
      (∃ a rest, s.pending = a :: rest ∧ (∀ w, a ≠ .command w) ∧ (∀ w, a ≠ .commandReset w) ∧
        step s = .next (hostAction a { s with pending := rest })) := by
  have hf : fetch s = fetchAction s := by simp [fetch, fieldDue, h]
  unfold step
  rw [hf]
  cases hp : s.pending with
  | nil => exact .inl ⟨rfl, by simp [fetchAction, hp]⟩
  | cons a rest =>
    cases a with
    | command w => exact .inr (.inl ⟨w, rest, rfl, by simp [fetchAction, hp]⟩)
    | commandReset w => exact .inr (.inr (.inl ⟨w, rest, rfl, by simp [fetchAction, hp]⟩))
    | regRead sp ix => exact .inr (.inr (.inr ⟨_, rest, rfl, by simp, by simp, by simp [fetchAction, hp]⟩))
    | regWrite sp ix d => exact .inr (.inr (.inr ⟨_, rest, rfl, by simp, by simp, by simp [fetchAction, hp]⟩))
    | reset => exact .inr (.inr (.inr ⟨_, rest, rfl, by simp, by simp, by simp [fetchAction, hp]⟩))
    | attachSource bs => exact .inr (.inr (.inr ⟨_, rest, rfl, by simp, by simp, by simp [fetchAction, hp]⟩))
    | attachSink => exact .inr (.inr (.inr ⟨_, rest, rfl, by simp, by simp, by simp [fetchAction, hp]⟩))

end Sys2Proof.Machine
end

