-- ==== Sys2Proof/Laws/PerInstr.lean ====
section
/-! SUPPORT. What holds of every instruction as syntax, one lemma per constructor (30_encoding R101, R107, R124): a
command is one 16-bit word and nothing on the wire; a wire field is no word and takes whole bytes. -/

namespace Sys2Proof.Laws.EncodedSize

open Sys2Proof

/-- The size of an instruction's encoding. -/
def Statement (i : Instr) : Prop :=
  i.wf = true →
    match i.shape with
    | none => (encodeCommand i).isSome = true ∧ encodeWire i = []
    | some shape => encodeCommand i = none ∧ (encodeWire i).length = bytesFor shape.bits

theorem packCount_length (k : Nat) (bs : Bits) : (packCount k bs).length = k := by
  induction k generalizing bs with
  | zero => rfl
  | succ k ih => simp [packCount, ih]

theorem packBits_length (bs : Bits) : (packBits bs).length = bytesFor bs.length := packCount_length _ _

theorem rdbits (n : BitVec 8) : Statement (.rdbits n) := fun _ => ⟨rfl, rfl⟩
theorem wrbits (n : BitVec 8) : Statement (.wrbits n) := fun _ => ⟨rfl, rfl⟩
theorem flush : Statement .flush := fun _ => ⟨rfl, rfl⟩
theorem encode : Statement .encode := fun _ => ⟨rfl, rfl⟩
theorem compress : Statement .compress := fun _ => ⟨rfl, rfl⟩
theorem decompress : Statement .decompress := fun _ => ⟨rfl, rfl⟩
theorem illegal (op rsv : BitVec 4) (n : BitVec 8) : Statement (.illegal op rsv n) := fun _ => ⟨rfl, rfl⟩
theorem wireEntryCount (k : Byte) : Statement (.wireEntryCount k) := fun _ => ⟨rfl, rfl⟩
theorem wireByteValue (v : Byte) : Statement (.wireByteValue v) := fun _ => ⟨rfl, rfl⟩
theorem wireCodeBitLength (l : Byte) : Statement (.wireCodeBitLength l) := fun _ => ⟨rfl, rfl⟩
theorem wireCodeBits (code : Bits) : Statement (.wireCodeBits code) := fun _ => ⟨rfl, packBits_length code⟩
theorem wireTotalSymbolCount (count : Count) : Statement (.wireTotalSymbolCount count) :=
  fun _ => ⟨rfl, by simp [encodeWire, countBytes, Config.cntBytes, bytesFor, FieldShape.bits]⟩
theorem wireBody (codes : Bits) : Statement (.wireBody codes) := fun _ => ⟨rfl, packBits_length codes⟩

end Sys2Proof.Laws.EncodedSize
end

