-- ==== Sys2Proof/Tests/Slice0.lean ====
section
/-! SUPPORT. The model's own tests: ill-formed terms, words written out from the spec's encodings, single operations
against the vectors of 95_test_vectors (V<n>), and for every statement with hypotheses a state and operands that meet
them (the `witness_` theorems). -/

namespace Sys2Proof.Tests

set_option Elab.async false

open Sys2Proof Sys2Proof.Machine

/-! ## WellFormed: what it refuses -/

theorem test_wf_refuses_illegal_with_a_legal_word : (Instr.illegal 1 0 3).wf = false := by decide
theorem test_wf_refuses_illegal_flush : (Instr.illegal 3 0 0).wf = false := by decide
theorem test_wf_refuses_code_of_256_bits : (Instr.wireCodeBits (List.replicate 256 true)).wf = false := by decide +kernel
theorem test_wf_accepts_code_of_255_bits : (Instr.wireCodeBits (List.replicate 255 true)).wf = true := by decide +kernel

/-! ## Decoding, from the table of R121, R123 and V70 to V72 -/

theorem test_decode_rdbits : decodeCommand 0b0001_0000_0000_0011 = .rdbits 3 := by decide
theorem test_decode_rdbits_largest : decodeCommand 0b0001_0000_1111_1111 = .rdbits 255 := by decide
theorem test_decode_wrbits : decodeCommand 0b0010_0000_0000_0110 = .wrbits 6 := by decide
theorem test_decode_flush : decodeCommand 0b0011_0000_0000_0000 = .flush := by decide
theorem test_decode_encode : decodeCommand 0b0100_0000_0000_0000 = .encode := by decide
theorem test_decode_compress : decodeCommand 0b0101_0000_0000_0000 = .compress := by decide
theorem test_decode_decompress : decodeCommand 0b0110_0000_0000_0000 = .decompress := by decide
theorem test_decode_op_0 : decodeCommand 0x0000 = .illegal 0 0 0 := by decide
theorem test_decode_op_15 : decodeCommand 0xF0FF = .illegal 15 0 255 := by decide
theorem test_decode_rsv : decodeCommand 0x1100 = .illegal 1 1 0 := by decide
theorem test_decode_n : decodeCommand 0x6080 = .illegal 6 0 128 := by decide

/-! Wire fields, from R101, R102 and the bytes of V30 and V55. -/

theorem test_decode_entry_count : decode (.wire .entryCount [0b00000100]) = .ok (.wireEntryCount 4) := by
  decide +kernel
theorem test_decode_byte_value : decode (.wire .byteValue [0x61]) = .ok (.wireByteValue 0x61) := by decide +kernel
theorem test_decode_code_bit_length : decode (.wire .codeBitLength [2]) = .ok (.wireCodeBitLength 2) := by
  decide +kernel
theorem test_decode_code_bits : decode (.wire (.codeBits 2) [0b10000000]) = .ok (.wireCodeBits [true, false]) := by
  decide +kernel
theorem test_decode_pad_bits_unexamined :
    decode (.wire (.codeBits 1) [0xFF]) = .ok (.wireCodeBits [true]) := by decide +kernel
theorem test_decode_total_symbol_count :
    decode (.wire .totalSymbolCount [0x02, 0x01, 0, 0, 0, 0, 0, 0]) = .ok (.wireTotalSymbolCount 258) := by
  decide +kernel
theorem test_decode_body : decode (.wire (.body 3) [0b00100000]) = .ok (.wireBody [false, false, true]) := by
  decide +kernel
theorem test_decode_short_count :
    decode (.wire .totalSymbolCount [1, 0, 0]) = .error (.truncated .totalSymbolCount) := by decide +kernel

/-! ## States the tests run on -/

/-- The state after reset with these bytes in the source. -/
def onSource (vs : List Byte) : State := { State.reset with src := vs }

/-- The state after reset with these bytes in IBUF and their number in LEN. -/
def onBlock (vs : List Byte) : State :=
  { State.reset with
    len := BitVec.ofNat 64 vs.length
    ibuf := vs.zipIdx.map fun p => (p.2, p.1) }

/-- The state after reset with these frequencies. -/
def onFreq (fs : List (Byte × Count)) : State :=
  { State.reset with freq := fs.foldl (fun t p => tabSet t p.1.toNat p.2) State.reset.freq }

/-- The state after reset with these bits at the front of BITBUF. -/
def onBits (bs : Bits) : State := { State.reset with bitbuf := bitbufOfBits bs }

/-- The next state satisfies `p`. -/
def after (o : Host.Outcome State Fault Refusal) (p : State → Bool) : Bool :=
  match o with
  | .next t => p t
  | .fault _ => false
  | .refused _ => false

/-- "ciao" (V30). -/
def ciao : List Byte := [0x63, 0x69, 0x61, 0x6F]

/-- The block of "ciao" on the wire (V30). -/
def ciaoWire : List Byte :=
  [0x04, 0x61, 0x02, 0xC0, 0x63, 0x02, 0x80, 0x69, 0x02, 0x40, 0x6F, 0x02, 0x00,
   0x04, 0, 0, 0, 0, 0, 0, 0, 0x9C]

/-! ## One operation each -/

/-- V1. -/
theorem test_rdbits_3 : after (exec (.rdbits 3) (onSource [0xA5, 0x0F])) (fun t =>
    t.bitbuf == 5 && t.bitcnt == 3 && t.rdByte == 0xA5 && t.rdLeft == 5 && t.src == [0x0F]) = true := by
  decide +kernel

/-- V4. -/
theorem test_rdbits_short : after (exec (.rdbits 12) (onSource [0xA5])) (fun t =>
    t.bitbuf == 0xA5 && t.bitcnt == 8 && t.rdLeft == 0 && t.st == .done) = true := by decide +kernel

/-- V10a. -/
theorem test_wrbits_holds_bits : after (exec (.wrbits 3) (onBits [true, false, true])) (fun t =>
    t.snk == [] && t.wrAcc == 5 && t.wrN == 3 && t.bitbuf == 5) = true := by decide +kernel

/-- V10b. -/
theorem test_wrbits_eighth_bit :
    after (exec (.wrbits 6) { onBits [true, true, true, true, true, false] with wrAcc := 5, wrN := 3 }) (fun t =>
      t.snk == [0xBF] && t.wrAcc == 0 && t.wrN == 1) = true := by decide +kernel

/-- V11b. -/
theorem test_flush_left_aligns : after (exec .flush { State.reset with wrAcc := 5, wrN := 3 }) (fun t =>
    t.snk == [0xA0] && t.wrAcc == 0 && t.wrN == 0) = true := by decide +kernel

/-- V12. -/
theorem test_flush_empty : after (exec .flush State.reset) (fun t => t.snk == [] && t.st == .done) = true := by
  decide +kernel

/-- V22: a leaf comes before an internal node of equal frequency. -/
theorem test_encode_tie : after (exec .encode (onFreq [(0x61, 1), (0x62, 1), (0x63, 2)])) (fun t =>
    t.rootId == 257 && t.nint == 2 && codeAt t 0x61 == ⟨true, [false, true]⟩ &&
      codeAt t 0x62 == ⟨true, [false, false]⟩ && codeAt t 0x63 == ⟨true, [true]⟩ &&
      hostRead t 0 9 == 0x301) = true := by decide +kernel

/-- V27b: FreqOverflow at the second merge. -/
theorem test_encode_overflow :
    after (exec .encode (onFreq [(0, 1), (1, 0x8000000000000000), (2, 0x7FFFFFFFFFFFFFFF)])) (fun t =>
      statusWord t == 0x705F && t.nint == 1 && !t.rootValid) = true := by decide +kernel

/-- V30. -/
theorem test_compress_ciao : after (exec .compress (onBlock ciao)) (fun t =>
    t.snk == ciaoWire && t.nent == 4 && t.total == 4 && t.nint == 3 && hostRead t 0 9 == 0x302) = true := by
  decide +kernel

/-- V35. -/
theorem test_compress_too_long :
    after (exec .compress { onBlock [0x41, 0x41, 0x41, 0x41, 0x41] with config := ⟨4⟩ }) (fun t =>
      statusWord t == 0x014F && t.snk == [] && freqAt t 0x41 == 0) = true := by decide +kernel

/-- V40. -/
theorem test_decompress_ciao : after (exec .decompress (onSource ciaoWire)) (fun t =>
    outBlock t == ciao && t.total == 4 && t.nent == 4 && t.decoded == 4 && t.rdLeft == 0 && t.src == [] &&
      statusWord t == 4) = true := by decide +kernel

/-- V52. -/
theorem test_decompress_misaligned :
    after (exec .decompress { State.reset with rdByte := 0xFF, rdLeft := 5 }) (fun t =>
      statusWord t == 0x111F) = true := by decide +kernel

/-- V72, and V73 for ERR_ST. -/
theorem test_illegal_flush_word :
    after (exec (decodeCommand 0x3001) { State.reset with st := .done }) (fun t => statusWord t == 0x426F) = true := by
  decide +kernel

/-- V71. -/
theorem test_illegal_reserved_op : after (exec (decodeCommand 0x0F00) State.reset) (fun t =>
    statusWord t == 0x016F) = true := by decide +kernel

/-- A DECOMPRESS under way in state ReadingHeader. -/
def inHeader : State := { State.reset with busy := true, st := .readingHeader }

/-- R252: NENT takes the byte. -/
theorem test_wire_entry_count : after (exec (.wireEntryCount 4) inHeader) (fun t =>
    t.nent == 4 && t.st == .readingHeader) = true := by decide +kernel

/-- R253: with no entry the count follows. -/
theorem test_wire_entry_count_zero : after (exec (.wireEntryCount 0) inHeader) (fun t =>
    t.nent == 0 && t.st == .readingCount) = true := by decide +kernel

/-- R254: the symbol of the entry. -/
theorem test_wire_byte_value : after (exec (.wireByteValue 0x61) inHeader) (fun t => t.symTmp == 0x61) = true := by
  decide +kernel

/-- R254: the length of the entry's Code. -/
theorem test_wire_code_bit_length : after (exec (.wireCodeBitLength 2) inHeader) (fun t => t.lenTmp == 2) = true := by
  decide +kernel

/-- R254, first entry of V30, the pad bits still buffered. -/
theorem test_wire_code_bits :
    after (exec (.wireCodeBits [true, true]) { inHeader with nent := 4, symTmp := 0x61, rdLeft := 6 }) (fun t =>
      decAt t 0 == ⟨true, [true, true], 0x61⟩ && t.decN == 1 && t.rdLeft == 0 && hostRead t 8 0 == 0x16102) = true := by
  decide +kernel

/-- V47: TOTAL = 4097. -/
theorem test_wire_total_symbol_count :
    after (exec (.wireTotalSymbolCount 4097) { inHeader with st := .readingCount }) (fun t =>
      statusWord t == 0x324F) = true := by decide +kernel

/-- A DECOMPRESS under way in state ReadingBody, with the table 41 -> `1`, 42 -> `1` (V48) and two bytes to come. -/
def inBody : State :=
  { State.reset with
    busy := true
    st := .readingBody
    field := .body
    total := 2
    nent := 2
    decN := 2
    dec := tabSet (tabSet State.reset.dec 0 ⟨true, [true], 0x41⟩) 1 ⟨true, [true], 0x42⟩ }

/-- V48: the later entry wins. -/
theorem test_wire_body : after (exec (.wireBody [true, true]) inBody) (fun t =>
    outBlock t == [0x42, 0x42] && t.st == .done && t.outLen == 2) = true := by decide +kernel

/-- V45: a miss at 255 bits. -/
theorem test_wire_body_no_match :
    after (exec (.wireBody [false]) { inBody with cand := List.replicate 254 false }) (fun t =>
      t.st == .fault && t.err == .inconsistentBody && t.errSub == 2) = true := by decide +kernel

/-! ## Host accesses, reset, text -/

/-- V79: element 255 does not exist. -/
theorem test_bitbuf_word_3 : hostRead (hostWrite State.reset 6 3 0xFFFFFFFFFFFFFFFF) 6 3 = 0x7FFFFFFFFFFFFFFF := by
  decide +kernel

/-- V75, V78. -/
theorem test_host_reads_after_reset :
    hostRead State.reset 0 11 = 4096 ∧ hostRead State.reset 0 12 = 0 ∧ hostRead State.reset 3 256 = 0 ∧
      hostRead State.reset 15 0 = 0 := by decide +kernel

/-- R291, R320: in ST = Fault a command is discarded, reset is not. -/
theorem test_fault_is_left_by_reset :
    after (step { State.reset with st := .fault, err := .capacity, errSub := 1, pending := [.command 0x3000] })
        (fun t => t.st == .fault) = true ∧
      after (step { State.reset with st := .fault, err := .capacity, errSub := 1, pending := [.reset] })
        (fun t => t.st == .idle && t.err == .none) = true := by decide +kernel

/-- R125. -/
theorem test_text : assembleLine "  RDBITS 12 ; three and nine".toList = some (.rdbits 12) := by decide +kernel

/-- R125: a count above 255 is no command (R122). -/
theorem test_text_count : assembleLine "WRBITS 256".toList = none := by decide +kernel

/-! ## The host's table words -/

theorem test_table_word_compress : decodeTableWord 16 0x5000 = some .compress := by decide +kernel
theorem test_table_word_entry_count : decodeTableWord 8 0x04 = some (.wireEntryCount 4) := by decide +kernel
theorem test_fetch_word_runs_rdbits :
    after (step (State.reset.withFetchWord 16 0x1003)) (fun t => t.st == .done && t.bitcnt == 0) = true := by
  decide +kernel
theorem test_fetch_word_takes_count :
    after (step (State.reset.withFetchWord 64 258)) (fun t => t.st == .readingBody && t.total == 258) = true := by
  decide +kernel

/-! ## Witnesses: what the hypotheses of a statement ask for exists -/

theorem witness_DecodeOfEncodeIsIdentity : ∃ i : Instr, i.wf = true ∧ i = .wireCodeBits (List.replicate 255 true) :=
  ⟨_, by decide +kernel, rfl⟩

theorem witness_CommandWordsFollowTheTable :
    (∃ r ∈ commandRows, r.selects 0x20FF = true) ∧ ∀ r ∈ commandRows, r.selects 0x3001 = false := by decide +kernel

theorem witness_CommandTextReadsBack : ∃ line, textOf (.rdbits 255) = some line := ⟨_, rfl⟩

/-- Inside a DECOMPRESS on "ciao", the entry_count byte due. -/
def underway : State := { inHeader with src := ciaoWire }

theorem getBits_complete {n : Nat} {s : State} (short : Bits → State → State) (h : ¬ (readBits n s).1.length < n) :
    getBits n short s = .bits (readBits n s).1 (readBits n s).2 := if_neg h

theorem witness_StepRunsDecodedInstruction :
    (∃ (s : State) (w : CommandWord) (rest : List HostAction), s.busy = false ∧ s.pending = .command w :: rest) ∧
      ∃ s bs s', fieldDue s = true ∧ resetPending s = false ∧ getField s = .bits bs s' :=
  ⟨⟨{ State.reset with pending := [.command 0x3000] }, _, _, rfl, rfl⟩,
    underway, _, _, by decide, by decide,
    getBits_complete (n := 8) (s := underway) (fun bs s' => if bs = [] then finishCleanEOF s' else raise .entryCount s')
      (by decide +kernel)⟩

theorem witness_WireFetchAgreesWithByteDecoder :
    fieldDue underway = true ∧ resetPending underway = false ∧ underway.rdLeft = 0 ∧
      decodeWire (shapeDue underway) underway.src = .ok (.wireEntryCount 4, ciaoWire.tail) := by decide +kernel

theorem witness_HostActionsWaitWhileBusy :
    (State.reset.busy = false ∧ State.reset.pending = []) ∧
      (∃ t, underway.busy = true ∧ resetPending underway = false ∧ step underway = .next t) ∧
      ∃ (s : State) (rest : List HostAction), s.pending = .reset :: rest ∧ s.busy = true :=
  ⟨by decide, ⟨_, by decide, by decide, rfl⟩, { underway with pending := [.reset] }, _, rfl, rfl⟩

/-- V1 after the first read: five bits buffered, one byte in the source. -/
def midByte : State := { onSource [0x0F] with rdByte := 0xA5, rdLeft := 5 }

theorem witness_RdbitsDeliversStreamBits : midByte.st ≠ .fault ∧ midByte.rdLeft.toNat ≤ 8 := by decide

theorem witness_ReaderAccounting :
    (onSource [0xA5, 0x0F]).rdLeft = 0 ∧ (readBits 12 (onSource [0xA5])).1.length < 12 := by decide +kernel

theorem witness_ReadsTakeBytesOnDemand : ({ midByte with rdLeft := 8 } : State).rdLeft.toNat ≤ 8 := by decide

theorem witness_ReadByteIsMsbFirst :
    (bitsOfByte 0xA5).length = 8 ∧ ((onSource [0xC3]).rdLeft = 0 ∧ (onSource [0xC3]).src = 0xC3 :: []) ∧
      ((onSource []).rdLeft = 0 ∧ (onSource []).src = []) ∧
      1 ≤ (readBits 8 { midByte with src := [] }).1.length ∧
        (readBits 8 { midByte with src := [] }).1.length ≤ 7 := by decide +kernel

/-- Seven bits pending in the writer. -/
def sevenPending : State := { onBits [true] with wrAcc := 0x7F, wrN := 7 }

theorem witness_WrbitsAndFlushWriteTheStream : sevenPending.st ≠ .fault ∧ writerClean sevenPending :=
  ⟨by decide, by show _ < _; decide⟩

/-- V16. -/
theorem witness_ReaderInvertsWriter :
    (flush ([[true, false, true, true, false, false, true, true], [true, false]].foldl (fun u bs => writeBits bs u)
        State.reset)).snk = State.reset.snk ++ [0xB3, 0x80] ∧
      State.reset.wrN = 0 ∧ State.reset.wrAcc = 0 ∧ (onSource [0xB3, 0x80]).rdLeft = 0 ∧
      (onSource [0xB3, 0x80]).src = [0xB3, 0x80] ∧
      [3, 0, 7].sum = [[true, false, true, true, false, false, true, true], [true, false]].flatten.length := by
  decide +kernel

theorem witness_StreamsAreNeverTakenBack :
    ∃ s t, exec .compress s = .next t ∧ s.st ≠ .fault ∧ t.st = .fault :=
  ⟨{ onBlock [0x41, 0x41] with config := ⟨1⟩ }, _, rfl, by decide, by decide +kernel⟩

/-- Two leaves in the queue, of equal frequency `f`. -/
def twoLeaves (f : Count) : State := makeLeaves (onFreq [(5, f), (0x10, f)])

theorem witness_ExtractMinReturnsLeastKey : State.reset.pq = [] ∧ (twoLeaves 7).pq ≠ [] := by decide +kernel

theorem witness_MergeJoinsTheTwoLeast :
    (2 ≤ (twoLeaves 7).pq.length ∧ (twoLeaves 7).nint.toNat ≤ 254 ∧
        (nodeAt (twoLeaves 7) 5).freq.toNat + (nodeAt (twoLeaves 7) 0x10).freq.toNat < 2 ^ 64) ∧
      2 ^ 64 ≤ (nodeAt (twoLeaves 0x8000000000000000) 5).freq.toNat +
        (nodeAt (twoLeaves 0x8000000000000000) 0x10).freq.toNat := by decide +kernel

theorem witness_EncodeCompletesBelowTwoToThe64 :
    (∃ s : State, s.st ≠ .fault ∧ freqSum s = 2 ^ 64 - 1) ∧ ∃ s : State, s.st ≠ .fault ∧ freqSum s = 2 ^ 64 :=
  ⟨⟨onFreq [(0, 0x8000000000000000), (1, 0x7FFFFFFFFFFFFFFF)], by decide, by decide +kernel⟩,
    onFreq [(0, 0x8000000000000000), (1, 0x8000000000000000)], by decide, by decide +kernel⟩

/-- Three leaves (V22). -/
def threeLeaves : State := onFreq [(0x61, 1), (0x62, 1), (0x63, 2)]

theorem encode_threeLeaves :
    ∃ t, exec .encode threeLeaves = .next t ∧ t.st = .done ∧ (codeAt t 0x61).valid = true ∧
      (codeAt t 0x62).valid = true ∧ 2 ≤ (presentBytes threeLeaves).length ∧ t.rootValid = true ∧
      ((nodeAt t 256).valid = true ∧ (nodeAt t 256).isLeaf = false) ∧
      ((nodeAt t 257).valid = true ∧ (nodeAt t 257).isLeaf = false) ∧ 1 < t.nint.toNat := ⟨_, rfl, by decide +kernel⟩

/-- A block of one byte. -/
theorem compress_one_byte :
    ∃ t, exec .compress (onBlock [0x61]) = .next t ∧ t.st = .done ∧ (codeAt t 0x61).valid = true :=
  ⟨_, rfl, by decide +kernel⟩

theorem witness_CodesExistExactlyForPresentBytes : ∃ s t, exec .encode s = .next t ∧ t.st = .done :=
  let ⟨t, h, hd, _⟩ := encode_threeLeaves
  ⟨_, t, h, hd⟩

theorem witness_CodesArePrefixFree :
    ∃ s t, exec .encode s = .next t ∧ t.st = .done ∧ (codeAt t 0x61).valid = true ∧ (codeAt t 0x62).valid = true :=
  let ⟨t, h, hd, h1, h2, _⟩ := encode_threeLeaves
  ⟨_, t, h, hd, h1, h2⟩

theorem witness_CodeLengthsAreBounded :
    (∃ s t, exec .encode s = .next t ∧ t.st = .done ∧ (codeAt t 0x61).valid = true ∧ 2 ≤ (presentBytes s).length) ∧
      ∃ s t, exec .compress s = .next t ∧ t.st = .done ∧ (codeAt t 0x61).valid = true :=
  let ⟨t, h, hd, h1, _, h2, _⟩ := encode_threeLeaves
  ⟨⟨_, t, h, hd, h1, h2⟩, _, compress_one_byte⟩

theorem witness_EncodeAtTheEndsOfTheRange :
    (State.reset.st ≠ .fault ∧ ∀ b, freqAt State.reset b = 0) ∧
      (freqAt (onFreq [(0x41, 5)]) 0x41 ≠ 0 ∧ ∀ c, c ≠ 0x41 → freqAt (onFreq [(0x41, 5)]) c = 0) ∧
      (freqAt (onFreq [(5, 7), (0x10, 3)]) 5 ≠ 0 ∧ freqAt (onFreq [(5, 7), (0x10, 3)]) 0x10 ≠ 0 ∧
        (∀ d, d ≠ 5 → d ≠ 0x10 → freqAt (onFreq [(5, 7), (0x10, 3)]) d = 0) ∧ (7 : Nat) + 3 < 2 ^ 64) := by
  decide +kernel

theorem witness_EncodeBuildsAProperTree :
    ∃ s t, exec .encode s = .next t ∧ t.st = .done ∧ t.rootValid = true ∧
      ((nodeAt t 256).valid = true ∧ (nodeAt t 256).isLeaf = false) ∧
      ((nodeAt t 257).valid = true ∧ (nodeAt t 257).isLeaf = false) :=
  let ⟨t, h, hd, _, _, _, hr, h1, h2, _⟩ := encode_threeLeaves
  ⟨_, t, h, hd, hr, h1, h2⟩

theorem witness_InternalFrequenciesDoNotDecrease :
    ∃ s t, exec .encode s = .next t ∧ t.st = .done ∧ 0 ≤ 1 ∧ 1 < t.nint.toNat :=
  let ⟨t, h, hd, _, _, _, _, _, _, hn⟩ := encode_threeLeaves
  ⟨_, t, h, hd, Nat.zero_le 1, hn⟩

theorem witness_EncodeDependsOnFrequenciesAlone :
    ∃ s s' : State, s ≠ s' ∧ s.st ≠ .fault ∧ s'.st ≠ .fault ∧ s.freq = s'.freq :=
  ⟨State.reset, midByte, by decide, by decide, by decide, rfl⟩

theorem witness_EncodeFrame : ∃ t, exec .encode midByte = .next t := ⟨_, rfl⟩

/-- A block with a byte value missing, on a byte boundary and with seven bits pending. -/
theorem witness_CompressWritesTheBlock :
    (∃ s : State, s.st ≠ .fault ∧ s.len.toNat ≤ s.config.blockMax.toNat ∧ (∃ b, blockCount s b = 0) ∧
        writerClean s ∧ s.wrN = 0) ∧
      ∃ s : State, s.st ≠ .fault ∧ s.len.toNat ≤ s.config.blockMax.toNat ∧ (∃ b, blockCount s b = 0) ∧
        writerClean s ∧ s.wrN = 7 :=
  ⟨⟨onBlock ciao, by decide, by decide +kernel, ⟨0, by decide +kernel⟩, by show _ < _; decide, rfl⟩,
    { onBlock ciao with wrAcc := 0x7F, wrN := 7 }, by decide, by decide +kernel, ⟨0, by decide +kernel⟩,
    by show _ < _; decide, rfl⟩

theorem witness_CompressCountsTheBlock : ∃ s : State, s.st ≠ .fault ∧ s.len.toNat = s.config.blockMax.toNat :=
  ⟨{ onBlock ciao with config := ⟨4⟩ }, by decide, by decide +kernel⟩

theorem witness_CompressRefusesLongBlocks :
    (∃ s : State, s.st ≠ .fault ∧ s.len.toNat = s.config.blockMax.toNat + 1) ∧
      ∃ s : State, s.st ≠ .fault ∧ s.len.toNat = s.config.blockMax.toNat :=
  ⟨⟨{ onBlock ciao with config := ⟨3⟩ }, by decide, by decide +kernel⟩,
    { onBlock ciao with config := ⟨4⟩ }, by decide, by decide +kernel⟩

theorem memFind_zipIdx (vs : List Byte) (k i : Nat) :
    memFind ((vs.zipIdx k).map fun p => (p.2, p.1)) i = if k ≤ i then vs[i - k]? else none := by
  induction vs generalizing k with
  | nil => simp [memFind]
  | cons v vs ih =>
    simp only [List.zipIdx_cons, List.map_cons, memFind, ih]
    by_cases hk : k = i
    · simp [hk]
    · by_cases hlt : k + 1 ≤ i
      · obtain ⟨d, rfl⟩ := Nat.le.dest hlt
        have e : k + 1 + d - k = d + 1 := by omega
        simp [hk, e, show ¬ k + 1 + d < k by omega]
      · simp [hk, hlt, show ¬ k ≤ i by omega]

theorem blockBytes_onBlock (vs : List Byte) (h : vs.length < 2 ^ 64) : blockBytes (onBlock vs) = vs := by
  apply List.ext_getElem
  · simpa [blockBytes, onBlock] using h
  · intro i h1 h2
    simp [blockBytes, ibufByte, onBlock, memFind_zipIdx, h2]

/-- All byte values (V36). -/
def allBytes : List Byte := (List.range 256).map (BitVec.ofNat 8)

theorem allBytes_in_block : blockBytes (onBlock allBytes) = allBytes := blockBytes_onBlock _ (by decide +kernel)

theorem allBytes_present (b : Byte) : allBytes.count b ≠ 0 :=
  Nat.pos_iff_ne_zero.mp (List.count_pos_iff.mpr
    (List.mem_map.mpr ⟨b.toNat, List.mem_range.mpr b.isLt, by simp⟩))

/-- V36, and V33 for the other clause. -/
theorem witness_CompressRefusesAll256Values :
    (∃ s : State, s.st ≠ .fault ∧ s.len.toNat ≤ s.config.blockMax.toNat ∧ ∀ b, blockCount s b ≠ 0) ∧
      ∃ s : State, s.st ≠ .fault ∧ s.len.toNat ≤ s.config.blockMax.toNat ∧ ∃ b, blockCount s b = 0 :=
  ⟨⟨onBlock allBytes, by decide, by decide +kernel, fun b => by
      rw [blockCount, allBytes_in_block]
      exact allBytes_present b⟩,
    onBlock [0x41], by decide, by decide +kernel, 0, by decide +kernel⟩

theorem witness_CompressOutputSize :
    ∃ s t, s.wrN = 0 ∧ s.wrAcc = 0 ∧ exec .compress s = .next t ∧ s.st ≠ .fault ∧ t.st = .done :=
  let ⟨t, h, hd, _⟩ := compress_one_byte
  ⟨_, t, rfl, rfl, h, by decide, hd⟩

theorem witness_CompressUsesTheTablesOfEncode :
    ∃ s t, exec .compress s = .next t ∧ s.st ≠ .fault ∧ t.st = .done :=
  let ⟨t, h, hd, _⟩ := compress_one_byte
  ⟨_, t, h, by decide, hd⟩

theorem witness_CompressDependsOnTheBlockAlone :
    ∃ s s' : State, s ≠ s' ∧ s.st ≠ .fault ∧ s'.st ≠ .fault ∧ s.config = s'.config ∧ s.len = s'.len ∧
      blockBytes s = blockBytes s' ∧ s.wrN = s'.wrN ∧ s.wrAcc = s'.wrAcc :=
  ⟨onBlock ciao, { onBlock ciao with rdLeft := 5 }, by decide, by decide, by decide, rfl, rfl, by decide +kernel, rfl,
    rfl⟩

theorem witness_CompressFrame : ∃ t, exec .compress (onBlock ciao) = .next t := ⟨_, rfl⟩

theorem witness_CleanEndIsNoError :
    (State.reset.st ≠ .fault ∧ State.reset.rdLeft = 0 ∧ State.reset.src = []) ∧
      (Instr.illegal 15 0 0).isCommand = true ∧ Instr.illegal 15 0 0 ≠ .decompress := by decide

/-- The header entries of "ciao" (V20). -/
def ciaoEntries : List (Byte × Bits) :=
  [(0x61, [true, true]), (0x63, [true, false]), (0x69, [false, true]), (0x6F, [false, false])]

theorem ciaoEntries_prefixFree : PrefixFreeHeader ciaoEntries :=
  ⟨by decide, by decide, by decide⟩

/-- The Codes of "ci". -/
def ciCodes : List (Byte × Bits) := [(0x63, [true, false]), (0x69, [false, true])]

theorem witness_DecompressDecodesWellFormedBlocks :
    ∃ s : State, s.st ≠ .fault ∧ s.rdLeft = 0 ∧ PrefixFreeHeader ciaoEntries ∧ (∀ p ∈ ciCodes, p ∈ ciaoEntries) ∧
      ciCodes.length = s.config.blockMax.toNat ∧ s.src = blockOf ciaoEntries ciCodes ++ [0x05] :=
  ⟨{ onSource (blockOf ciaoEntries ciCodes ++ [0x05]) with config := ⟨2⟩ }, by decide, rfl, ciaoEntries_prefixFree,
    by decide, by decide +kernel, rfl⟩

theorem witness_TruncatedBlocksAreReported :
    ∃ (s : State) (vs ws : List Byte), s.st ≠ .fault ∧ s.rdLeft = 0 ∧ PrefixFreeHeader ciaoEntries ∧
      (∀ p ∈ ciCodes, p ∈ ciaoEntries) ∧ ciCodes.length ≤ s.config.blockMax.toNat ∧
      blockOf ciaoEntries ciCodes = vs ++ ws ∧ ws ≠ [] ∧ vs ≠ [] ∧ s.src = vs :=
  ⟨onSource ((blockOf ciaoEntries ciCodes).take 21), (blockOf ciaoEntries ciCodes).take 21,
    (blockOf ciaoEntries ciCodes).drop 21, by decide, rfl, ciaoEntries_prefixFree, by decide, by decide +kernel,
    (List.take_append_drop _ _).symm, by decide +kernel, by decide +kernel, rfl⟩

theorem witness_TruncatedBlocksAreReported_at_the_start :
    ∃ ws, blockOf ciaoEntries ciCodes = [] ++ ws ∧ ws ≠ [] ∧ State.reset.src = [] :=
  ⟨_, rfl, by decide +kernel, rfl⟩

/-- Two blocks, "a" and the empty one. -/
def twoBlocks : List State := [onBlock [0x61], onBlock []]

theorem onSource_src (vs : List Byte) : (onSource vs).src = vs := rfl

theorem witness_RoundTrip :
    ∃ r : State,
      (∀ s ∈ twoBlocks, s.wrN = 0 ∧ s.wrAcc = 0 ∧ s.st ≠ .fault ∧ (compressedBytes s).isSome = true ∧
        s.len.toNat ≤ r.config.blockMax.toNat) ∧
      r.st ≠ .fault ∧ r.rdLeft = 0 ∧ r.src = twoBlocks.flatMap (fun s => (compressedBytes s).getD []) :=
  ⟨onSource (twoBlocks.flatMap fun s => (compressedBytes s).getD []), by decide +kernel, nofun, rfl,
    onSource_src _⟩

theorem witness_LookupTakesTheLastMatch :
    lookup inBody [true] = some 0x42 ∧ lookup inBody [false] = none ∧ ([true] : Bits) ≠ [] ∧
      (decAt inBody 5).bits = [] := by decide +kernel

theorem witness_OutLenOnlyAfterDone :
    (∃ s t, s.st ≠ .fault ∧ exec .decompress s = .next t ∧ t.st = .done) ∧
      (∃ s t, s.st ≠ .fault ∧ exec .decompress s = .next t ∧ t.st ≠ .done) ∧
      ∃ i s t, i.isCommand = true ∧ i ≠ .decompress ∧ exec i s = .next t :=
  ⟨⟨onSource ciaoWire, _, by decide, rfl, by decide +kernel⟩, ⟨State.reset, _, by decide, rfl, by decide +kernel⟩,
    .flush, State.reset, _, rfl, by decide, rfl⟩

theorem witness_DecompressOutcomes : (onSource [4]).st ≠ .fault := by decide

theorem witness_MisalignedEndIsMalformed :
    (∃ s : State, s.st ≠ .fault ∧ s.rdLeft.toNat = 1 ∧ s.src = []) ∧
      ∃ s : State, s.st ≠ .fault ∧ s.rdLeft.toNat = 7 ∧ s.src = [] :=
  ⟨⟨{ State.reset with rdLeft := 1 }, by decide, by decide, rfl⟩,
    { State.reset with rdLeft := 7 }, by decide, by decide, rfl⟩

theorem witness_DecompressIgnoresEarlierBlocks :
    ∃ s s' : State, s ≠ s' ∧ s.st ≠ .fault ∧ s'.st ≠ .fault ∧ s.config = s'.config ∧ s.rdByte = s'.rdByte ∧
      s.rdLeft = s'.rdLeft ∧ s.src = s'.src :=
  ⟨onSource ciaoWire, { inBody with src := ciaoWire }, by decide +kernel, by decide, by decide, rfl, rfl, rfl, rfl⟩

theorem witness_DecompressFrame : ∃ t, exec .decompress (onSource ciaoWire) = .next t := ⟨_, rfl⟩

theorem witness_FieldStepsRefineDecompress :
    (onSource ciaoWire).st ≠ .fault ∧ resetPending (onSource ciaoWire) = false := by decide

theorem witness_HeaderBytesAreTaken : inHeader.st ≠ .fault ∧ (255 : Byte) ≠ 0 := by decide

/-- The last of 255 entries, and one before it. -/
theorem witness_CodeBitsStoreTheEntry :
    (∃ s : State, s.st ≠ .fault ∧ s.entIx.toNat + 1 = s.nent.toNat ∧ s.nent.toNat = 255) ∧
      ∃ s : State, s.st ≠ .fault ∧ s.entIx.toNat + 1 < s.nent.toNat ∧ s.nent.toNat ≤ 255 :=
  ⟨⟨{ inHeader with nent := 255, entIx := 254 }, by decide, by decide, by decide⟩,
    { inHeader with nent := 255, entIx := 253 }, by decide, by decide, by decide⟩

/-- Each clause, at the values where they meet. -/
theorem witness_CountOpensTheBody :
    inHeader.st ≠ .fault ∧ inHeader.config.blockMax.toNat < (4097 : Count).toNat ∧
      ((4096 : Count).toNat ≤ inHeader.config.blockMax.toNat ∧ inHeader.decoded.toNat < (4096 : Count).toNat) ∧
      ((0 : Count).toNat ≤ inHeader.decoded.toNat ∧ inHeader.cand = []) ∧
      ({ inHeader with cand := [true] } : State).cand ≠ [] := by decide +kernel

theorem witness_BodyCodeEmitsItsSymbol :
    inBody.st ≠ .fault ∧ inBody.cand = [] ∧ ([true] : Bits) ≠ [] ∧ ([true] : Bits).length ≤ 255 ∧
      lookup inBody [true] = some 0x42 ∧
      (∀ c, c <+: [true] → c ≠ [] → c ≠ [true] → lookup inBody c = none) ∧
      inBody.decoded.toNat + 1 < inBody.total.toNat ∧ inBody.decoded.toNat < inBody.config.blockMax.toNat := by
  refine ⟨by decide, rfl, by decide, by decide, by decide +kernel, ?_, by decide, by decide +kernel⟩
  intro c hc h0 h1
  rcases List.prefix_cons_iff.mp hc with h | ⟨l, rfl, h⟩
  · exact absurd h h0
  · rw [List.prefix_nil.mp h] at h1
    exact absurd rfl h1

/-- The last symbol, a candidate that grows to 254 bits, and one that reaches 255. -/
theorem witness_BodyBitIsTested :
    (∃ s : State, s.st ≠ .fault ∧ s.decoded.toNat < s.total.toNat ∧ lookup s (s.cand ++ [true]) = some 0x42 ∧
        s.decoded.toNat + 1 = s.total.toNat ∧ s.decoded.toNat < s.config.blockMax.toNat) ∧
      (∃ s : State, s.st ≠ .fault ∧ s.decoded.toNat < s.total.toNat ∧ lookup s (s.cand ++ [false]) = none ∧
        s.cand.length = 253) ∧
      ∃ s : State, s.st ≠ .fault ∧ s.decoded.toNat < s.total.toNat ∧ lookup s (s.cand ++ [false]) = none ∧
        s.cand.length = 254 :=
  ⟨⟨{ inBody with decoded := 1 }, by decide, by decide, by decide +kernel, by decide, by decide +kernel⟩,
    ⟨{ inBody with cand := List.replicate 253 false }, by decide, by decide, by decide +kernel, by decide +kernel⟩,
    { inBody with cand := List.replicate 254 false }, by decide, by decide, by decide +kernel, by decide +kernel⟩

theorem witness_IllegalWordsRaiseIllegalCommand :
    (∀ r ∈ commandRows, r.selects 0x3001 = false) ∧ (∀ r ∈ commandRows, r.selects 0x7000 = false) ∧
      State.reset.st ≠ .fault := by decide +kernel

/-- Stopped by a fault, these actions of the host to come. -/
def stopped (acts : List HostAction) : State :=
  { State.reset with st := .fault, err := .capacity, errSub := 1, pending := acts }

theorem witness_FaultIsStickyUntilReset :
    (stopped [.command 0x5000]).st = .fault ∧ (stopped [.command 0x5000]).busy = false ∧
      (∃ t, step (stopped [.command 0x5000]) = .next t) ∧ (∃ t, step (stopped [.regRead 0 0]) = .next t) ∧
      (∃ t, step (stopped [.regWrite 0 1 7]) = .next t) ∧ endsInReset (stopped [.reset]) = true ∧
      ∃ t, step (stopped [.reset]) = .next t :=
  ⟨rfl, rfl, ⟨_, rfl⟩, ⟨_, rfl⟩, ⟨_, rfl⟩, rfl, _, rfl⟩

theorem witness_ResetGivesTheTabledValues :
    (∃ s : State, s.pending = .reset :: [] ∧ s.st = .fault) ∧
      ∃ s : State, s.busy = false ∧ s.pending = .commandReset 0x6000 :: [] ∧ s.src ≠ [] :=
  ⟨⟨stopped [.reset], rfl, rfl⟩, { onSource ciaoWire with pending := [.commandReset 0x6000] }, rfl, rfl, by decide⟩

/-- Between operations, a COMPRESS about to be issued, bits left in reader and writer. -/
def boundary : State := { onBlock [0x61] with rdLeft := 8, wrAcc := 5, wrN := 3, pending := [.command 0x5000] }

theorem boundary_satisfies_the_invariant : BoundaryInv boundary :=
  { notBusy := rfl
    atRest := .inl rfl
    faultRecorded := by decide
    readerCount := by decide
    writerZero := by show _ < _; decide
    candLength := by decide
    candEmpty := by decide
    decLength := by decide +kernel
    codeLength := by decide +kernel
    entryRange := by decide
    queueEmpty := by decide
    pathEmpty := by decide
    stackEmpty := by decide
    resultRange := by decide +kernel
    ibufForm := ⟨by decide +kernel, by decide +kernel⟩
    obufForm := ⟨by decide +kernel, by decide +kernel⟩
    configLegal := by decide }

theorem witness_EveryStepKeepsTheInvariant : ∃ s t, BoundaryInv s ∧ step s = .next t ∧ t.st = .done :=
  ⟨boundary, _, boundary_satisfies_the_invariant, rfl, by decide +kernel⟩

theorem witness_NoStepStopsAtABoundary : ∃ s, BoundaryInv s := ⟨_, boundary_satisfies_the_invariant⟩

theorem witness_HostAccessRules :
    hostWritable State.reset 1 4096 = false ∧ hostMapped State.reset 9 1020 = false ∧
      (hostWritable State.reset 1 4095 = true ∧ ¬ ((2 : BitVec 4) = 1 ∧ (4095 : BitVec 32) = 4095)) ∧
      (∃ s : State, s.busy = false ∧ s.pending = .regRead 0 0 :: []) ∧
      (∃ s : State, s.busy = false ∧ s.pending = .regWrite 0 1 7 :: []) ∧
      ∃ s t a, s.busy = true ∧ s.pending = a :: [] ∧ a ≠ HostAction.reset ∧ step s = .next t :=
  ⟨by decide +kernel, by decide +kernel, by decide +kernel, ⟨{ State.reset with pending := [_] }, rfl, rfl⟩,
    ⟨{ State.reset with pending := [_] }, rfl, rfl⟩, { underway with pending := [.regRead 0 0] }, _, .regRead 0 0, rfl,
    rfl, by decide, rfl⟩

theorem witness_HostWritesReadBack :
    (4095 : BitVec 32).toNat < State.reset.config.blockMax.toNat ∧ (255 : BitVec 32).toNat < 256 ∧
      (2 : BitVec 32).toNat < 3 := by decide +kernel

/-- A root and, at the ends of their tables, a Code of 255 bits, a leaf, an internal node and a decode entry, all valid;
the words R36 gives them are written out from its table (a NODE info word holds free bits and cannot be evaluated). -/
def shown : State :=
  { State.reset with
    st := .fault
    err := .capacity
    rootValid := true
    rootId := 510
    code := tabSet State.reset.code 255 ⟨true, List.replicate 255 true⟩
    node := tabSet (tabSet State.reset.node 255 ⟨true, true, 7, 0xFF, 0, 0⟩) 510 ⟨true, false, 9, 0, 508, 509⟩
    dec := tabSet State.reset.dec 254 ⟨true, [true, false], 0x41⟩ }

theorem test_host_words_of_tables :
    hostRead shown 0 9 = 0x3FE ∧ hostRead shown 4 255 = 0x1FF ∧ hostRead shown 5 1023 = 0x7FFFFFFFFFFFFFFF ∧
      hostRead shown 7 1020 = 9 ∧ hostRead shown 8 254 = 0x14102 ∧ hostRead shown 9 1016 = 1 := by decide +kernel

theorem witness_StatusLayout :
    ((.fault, 15) ∈ stateCodes ∧ shown.st = .fault) ∧ ((.capacity, 4) ∈ classCodes ∧ shown.err = .capacity) ∧
      shown.rootValid = true ∧ (4095 : BitVec 32).toNat < shown.config.blockMax.toNat ∧
      (codeAt shown 255).valid = true ∧
      ((510 : NodeId).toNat < 511 ∧ (nodeAt shown 510).valid = true ∧ (nodeAt shown 510).isLeaf = false) ∧
      ((nodeAt shown 255).valid = true ∧ (nodeAt shown 255).isLeaf = true) ∧ (decAt shown 254).valid = true := by
  decide +kernel

theorem witness_LdibufLoadsTheBlock :
    ∃ s : State, s.busy = false ∧ ciao.length ≤ s.config.blockMax.toNat ∧ ciao.length < 2 ^ 32 ∧
      s.pending = ldibufActions ciao ++ [.command 0x5000] :=
  ⟨{ State.reset with pending := ldibufActions ciao ++ [.command 0x5000] }, rfl, by decide +kernel, by decide, rfl⟩

end Sys2Proof.Tests
end

section
/-! SUPPORT. The statements of 00_scope: a step runs what was fetched, no step stops at an operation boundary, and how a
DECOMPRESS can end. The last is a Hoare-style proof: `Flow.Meets P E` says that a piece of DECOMPRESS goes on in a state
with `P` or ends in one with `E`; each field has one such lemma, and the whole operation composes them. -/

namespace Sys2Proof.Machine

/-! ## A step runs what was fetched (00_scope R14, R18) -/

theorem fetch_command {s : State} {w : CommandWord} {rest : List HostAction} (hb : s.busy = false)
    (hp : s.pending = .command w :: rest) : fetch s = .instr (decodeCommand w) { s with pending := rest } := by
  simp [fetch, resetPending, fieldDue, fetchAction, hb, hp]

theorem fetch_field {s s' : State} {bs : Bits} (hd : fieldDue s = true) (hr : resetPending s = false)
    (hg : getField s = .bits bs s') : fetch s = .instr (fieldOfBits (shapeDue s) bs) s' := by
  simp [fetch, fetchField, hd, hr, hg]

theorem step_of_fetch_instr {s s' : State} {i : Instr} (h : fetch s = .instr i s') : step s = exec i s' := by
  unfold step
  rw [h]

/-- Settles O5: in both clauses the fetch answers the decoded instruction, which the step executes. -/
theorem stepRunsDecodedInstruction : Obligations.StepRunsDecodedInstruction :=
  ⟨fun _ _ _ hb hp => step_of_fetch_instr (fetch_command hb hp),
    fun _ _ _ hd hr hg => step_of_fetch_instr (fetch_field hd hr hg)⟩

/-! ## No step stops at an operation boundary (00_scope R14, 60_exceptions R280) -/

theorem acceptCommand_answers (op : State → State) (s : State) : ∃ t, acceptCommand op s = .next t := ⟨_, rfl⟩

theorem acceptField_answers (take : State → Flow) (s : State) : ∃ t, acceptField take s = .next t := ⟨_, rfl⟩

/-- Every instruction answers a next state: each arm of `exec` is an accepted command or an accepted field. -/
theorem exec_answers (i : Instr) (s : State) : ∃ t, exec i s = .next t := by
  cases i with
  | rdbits n => exact acceptCommand_answers (rdbitsOp n) s
  | wrbits n => exact acceptCommand_answers (wrbitsOp n) s
  | flush => exact acceptCommand_answers flushOp s
  | encode => exact acceptCommand_answers encodeOp s
  | compress => exact acceptCommand_answers compressOp s
  | decompress => exact acceptCommand_answers decompressOp s
  | illegal op _ _ => exact acceptCommand_answers (raise (illegalCause op)) s
  | wireEntryCount k => exact acceptField_answers (takeEntryCount k) s
  | wireByteValue v => exact acceptField_answers (takeByteValue v) s
  | wireCodeBitLength l => exact acceptField_answers (takeCodeBitLength l) s
  | wireCodeBits code => exact acceptField_answers (takeCodeBits code) s
  | wireTotalSymbolCount c => exact acceptField_answers (takeTotalCount c) s
  | wireBody codes => exact acceptField_answers (takeBody codes) s

/-- With BUSY = 0 every step answers a next state: only a state inside an operation can stop (Log 9). -/
theorem step_answers_of_not_busy {s : State} (hb : s.busy = false) : ∃ t, step s = .next t := by
  rcases step_boundary_cases hb with ⟨_, h⟩ | ⟨w, rest, _, h⟩ | ⟨w, rest, _, h⟩ | ⟨a, rest, _, _, _, h⟩
  · exact ⟨_, h⟩
  · obtain ⟨t, ht⟩ := exec_answers (decodeCommand w) { s with pending := rest }
    exact ⟨t, h.trans ht⟩
  · obtain ⟨t, ht⟩ := exec_answers (decodeCommand w) { s with pending := rest }
    exact ⟨resetDuring { s with pending := rest } t, by rw [h, ht]; rfl⟩
  · exact ⟨_, h⟩

/-- Settles O56: the invariant rules out BUSY = 1. -/
theorem noStepStopsAtABoundary : Obligations.NoStepStopsAtABoundary :=
  fun _ hs => step_answers_of_not_busy hs.notBusy

/-! ## Pieces of an operation with a postcondition -/

/-- The piece goes on in a state with `P`, or has ended the operation in a state with `E`. -/
def Flow.Meets (P E : State → Prop) : Flow → Prop
  | .go s => P s
  | .ended s => E s

/-- The read of a field delivers it in a state with `P`, or has ended the operation in a state with `E`. -/
def Got.Meets (P E : State → Prop) : Got → Prop
  | .bits _ s => P s
  | .ended s => E s

section Meets
variable {P Q E : State → Prop}

theorem Flow.Meets.andThen {x : Flow} {f : State → Flow} (hx : x.Meets Q E) (hf : ∀ t, Q t → (f t).Meets P E) :
    (x.andThen f).Meets P E := by
  cases x with
  | go t => exact hf t hx
  | ended t => exact hx

theorem Got.Meets.andTake {g : Got} {take : Bits → State → Flow} (hg : g.Meets Q E)
    (ht : ∀ bs t, Q t → (take bs t).Meets P E) : (g.andTake take).Meets P E := by
  cases g with
  | bits bs t => exact ht bs t hg
  | ended t => exact hg

/-- A piece that never goes on has ended the operation. -/
theorem Flow.Meets.state_ended {x : Flow} (hx : x.Meets (fun _ => False) E) : E x.state := by
  cases x with
  | go t => exact hx.elim
  | ended t => exact hx

/-- The rule for a field of n bits: all of them arrive, or the read is short (40_bitreader R143). -/
theorem getBits_meets {n : Nat} {short : Bits → State → State} {s : State}
    (hfull : (readBits n s).1.length = n → P (readBits n s).2)
    (hshort : ∀ bs, E (short bs (readBits n s).2)) : (getBits n short s).Meets P E := by
  rcases getBits_cases n short s with ⟨hn, h⟩ | ⟨_, h⟩ <;> rw [h]
  · exact hfull hn
  · exact hshort _

end Meets

/-! ## The bits a read uses up (10_state R52) -/

/-- With a bit in the buffer, taking it uses up one bit. -/
theorem bitsLeft_takeBit {s : State} (h : s.rdLeft ≠ 0) : bitsLeft (takeBit s).2 + 1 = bitsLeft s := by
  simp only [bitsLeft, takeBit]
  have : s.rdLeft.toNat ≠ 0 := fun h0 => h (BitVec.eq_of_toNat_eq h0)
  have : (s.rdLeft - 1).toNat = s.rdLeft.toNat - 1 := by bv_omega
  omega

/-- The refill step leaves a bit in the buffer and uses up none (40_bitreader R141). -/
theorem refill_bitsLeft {s s' : State} (h : refill s = some s') : s'.rdLeft ≠ 0 ∧ bitsLeft s' = bitsLeft s := by
  rcases refill_cases s with ⟨h0, h'⟩ | ⟨_, _, h'⟩ | ⟨v, vs, h0, hs, h'⟩ <;> rw [h'] at h
  · cases h
    exact ⟨h0, rfl⟩
  · cases h
  · cases h
    refine ⟨(by decide : (8 : BitVec 4) ≠ 0), ?_⟩
    simp [bitsLeft, h0, hs, Nat.mul_add, Nat.add_comm]

/-- A read uses up as many bits as it delivers. -/
theorem bitsLeft_readBits (n : Nat) (s : State) :
    bitsLeft (readBits n s).2 + (readBits n s).1.length = bitsLeft s := by
  induction n generalizing s with
  | zero => rfl
  | succ n ih =>
    simp only [readBits]
    cases hr : refill s with
    | none => rfl
    | some s' =>
      obtain ⟨h0, hleft⟩ := refill_bitsLeft hr
      have htake := bitsLeft_takeBit h0
      have hrest := ih (takeBit s').2
      simp only [List.length_cons]
      omega

/-! ## How a DECOMPRESS can end (45_codec_decompress R256, R261, 60_exceptions R281) -/

/-- The causes DECOMPRESS raises and the ST each is raised in (R281); Leftover is not among them. -/
inductive RaisedIn : CtrlState → Cause → Prop
  | entryCount : RaisedIn .readingHeader .entryCount
  | byteValue : RaisedIn .readingHeader .byteValue
  | codeLength : RaisedIn .readingHeader .codeLength
  | codeBits : RaisedIn .readingHeader .codeBits
  | totalCount : RaisedIn .readingCount .totalCount
  | bodyTruncated : RaisedIn .readingBody .bodyTruncated
  | noMatch : RaisedIn .readingBody .noMatch
  | outputLength : RaisedIn .readingBody .outputLength

/-- The states in which a DECOMPRESS issued in `s` ends: Done or CleanEOF with the fault registers kept, or fault entry
for one of the eight causes. -/
inductive DecompressEnd (s : State) : State → Prop
  | done {u : State} (herr : SameError s u) : DecompressEnd s (finishDone u)
  | cleanEOF {u : State} (herr : SameError s u) : DecompressEnd s (finishCleanEOF u)
  | fault {c : Cause} {u : State} (hc : RaisedIn u.st c) : DecompressEnd s (raise c u)

theorem SameError.trans {s t u : State} (h : SameError s t) (h' : SameError t u) : SameError s u :=
  ⟨h'.err.trans h.err, h'.errSub.trans h.errSub, h'.errSt.trans h.errSt⟩

theorem ReaderOnly.sameError {s t : State} (h : ReaderOnly s t) : SameError s t := by
  obtain ⟨_, _, _, rfl⟩ := h
  exact ⟨rfl, rfl, rfl⟩

/-- A DECOMPRESS issued in `s` is under way in `t` with ST = c, before its body: no fault has been recorded and no
candidate begun. -/
structure Underway (s : State) (c : CtrlState) (t : State) : Prop where
  st : t.st = c
  err : SameError s t
  cand : t.cand = []

section Fields
variable {s t u : State} {c : CtrlState} {k : Nat}

theorem Underway.keep (h : Underway s c t) (hst : u.st = t.st) (herr : SameError t u) (hcand : u.cand = t.cand) :
    Underway s c u :=
  ⟨hst.trans h.st, h.err.trans herr, hcand.trans h.cand⟩

theorem Underway.reader (h : Underway s c t) (hr : ReaderOnly t u) : Underway s c u := by
  obtain ⟨_, _, _, rfl⟩ := hr
  exact h.keep rfl ⟨rfl, rfl, rfl⟩ rfl

/-- Leaving the header, ST becomes ReadingCount (R256). -/
theorem Underway.leaveHeader (h : Underway s c t) : Underway s .readingCount (leaveHeader t) :=
  ⟨rfl, h.err.trans ⟨rfl, rfl, rfl⟩, h.cand⟩

/-- Fault entry ends a DECOMPRESS under way for a cause of its ST. -/
theorem Underway.raise_end {cause : Cause} (h : Underway s c t) (hc : RaisedIn c cause) :
    DecompressEnd s (raise cause t) :=
  .fault (h.st ▸ hc)

/-! ### The header (R252 to R254) -/

/-- `k` entries are still to be read: the header is left as soon as there are none (R250, R253). -/
def EntriesDue (s : State) : Nat → State → Prop
  | 0, t => Underway s .readingCount t
  | k + 1, t => Underway s .readingHeader t ∧ t.entIx.toNat + (k + 1) = t.nent.toNat

theorem EntriesDue.reader (h : EntriesDue s (k + 1) t) (hr : ReaderOnly t u) : EntriesDue s (k + 1) u := by
  obtain ⟨hu, hix⟩ := h
  refine ⟨hu.reader hr, ?_⟩
  obtain ⟨_, _, _, rfl⟩ := hr
  exact hix

theorem startDecompress_underway (s : State) : Underway s .readingHeader (startDecompress s) :=
  ⟨rfl, ⟨rfl, rfl, rfl⟩, rfl⟩

theorem takeEntryCount_meets (v : Byte) (h : Underway s .readingHeader t) :
    (takeEntryCount v t).Meets (fun u => EntriesDue s u.nent.toNat u) (DecompressEnd s) := by
  unfold takeEntryCount
  by_cases hv : v = 0
  · subst hv
    show Underway s .readingCount (leaveHeader { t with nent := (0 : Byte).setWidth 9, entIx := 0 })
    exact Underway.leaveHeader (h.keep rfl ⟨rfl, rfl, rfl⟩ rfl)
  · obtain ⟨k, hk⟩ : ∃ k, (v.setWidth 9).toNat = k + 1 :=
      Nat.exists_eq_succ_of_ne_zero fun h0 => hv (by bv_omega)
    simp only [if_neg hv, Flow.Meets, hk]
    exact ⟨h.keep rfl ⟨rfl, rfl, rfl⟩ rfl, by simp [hk]⟩

/-- `read_entry_count()` (R252): CleanEOF, MalformedStream(EntryCount), or the entries are due. -/
theorem readEntryCount_meets (h : Underway s .readingHeader t) :
    (readEntryCount t).Meets (fun u => EntriesDue s u.nent.toNat u) (DecompressEnd s) := by
  have hu := h.reader (readBits_only 8 t)
  refine Got.Meets.andTake (Q := Underway s .readingHeader) (getBits_meets (fun _ => hu) fun bs => ?_)
    fun bs _ => takeEntryCount_meets (byteOfBits bs)
  split
  · exact .cleanEOF hu.err
  · exact hu.raise_end .entryCount

/-- A read inside an entry delivers the bits with as many entries due, or raises the cause of its field. -/
theorem getBits_entry_meets {n : Nat} {cause : Cause} (hc : RaisedIn .readingHeader cause)
    (h : EntriesDue s (k + 1) t) :
    (getBits n (fun _ => raise cause) t).Meets (EntriesDue s (k + 1)) (DecompressEnd s) :=
  getBits_meets (fun _ => h.reader (readBits_only n t)) fun _ =>
    (h.reader (readBits_only n t)).1.raise_end hc

theorem takeByteValue_meets (v : Byte) (h : EntriesDue s (k + 1) t) :
    (takeByteValue v t).Meets (EntriesDue s (k + 1)) (DecompressEnd s) := by
  obtain ⟨hu, hix⟩ := h
  exact ⟨hu.keep rfl ⟨rfl, rfl, rfl⟩ rfl, hix⟩

theorem takeCodeBitLength_meets (l : Byte) (h : EntriesDue s (k + 1) t) :
    (takeCodeBitLength l t).Meets (EntriesDue s (k + 1)) (DecompressEnd s) := by
  obtain ⟨hu, hix⟩ := h
  exact ⟨hu.keep rfl ⟨rfl, rfl, rfl⟩ rfl, hix⟩

/-- Storing an entry leaves one fewer to read, and the header is left exactly with the last one (R253, R254). -/
theorem takeCodeBits_meets (code : Bits) (h : EntriesDue s (k + 1) t) :
    (takeCodeBits code t).Meets (EntriesDue s k) (DecompressEnd s) := by
  obtain ⟨hu, hix⟩ := h.reader (align_only t)
  have hnext : ((align t).entIx + 1).toNat = (align t).entIx.toNat + 1 := by bv_omega
  unfold takeCodeBits
  cases k with
  | zero =>
    have hlast : (storeDec code (align t)).entIx = (storeDec code (align t)).nent :=
      BitVec.eq_of_toNat_eq (hnext.trans hix)
    simp only [if_pos hlast]
    exact Underway.leaveHeader (hu.keep rfl ⟨rfl, rfl, rfl⟩ rfl)
  | succ k =>
    have hmore : (storeDec code (align t)).entIx ≠ (storeDec code (align t)).nent := fun he => by
      have : ((align t).entIx + 1).toNat = (align t).nent.toNat := congrArg BitVec.toNat he
      omega
    simp only [if_neg hmore]
    refine ⟨hu.keep rfl ⟨rfl, rfl, rfl⟩ rfl, ?_⟩
    show ((align t).entIx + 1).toNat + (k + 1) = (align t).nent.toNat
    omega

/-- `read_entry(e)` (R254). -/
theorem readEntry_meets (h : EntriesDue s (k + 1) t) :
    (readEntry t).Meets (EntriesDue s k) (DecompressEnd s) :=
  Flow.Meets.andThen
    (Flow.Meets.andThen
      ((getBits_entry_meets .byteValue h).andTake fun bs _ => takeByteValue_meets (byteOfBits bs))
      fun _ h1 => (getBits_entry_meets .codeLength h1).andTake fun bs _ => takeCodeBitLength_meets (byteOfBits bs))
    fun _ h2 => (getBits_entry_meets .codeBits h2).andTake fun bs _ => takeCodeBits_meets bs

/-- The loop over the entries ends with the count due (R253). -/
theorem readEntriesLoop_meets (k : Nat) (h : EntriesDue s k t) :
    (readEntriesLoop k t).Meets (Underway s .readingCount) (DecompressEnd s) := by
  induction k generalizing t with
  | zero => exact h
  | succ k ih => exact (readEntry_meets h).andThen fun _ => ih

/-! ### The count (R255, R257) -/

theorem countLoop_meets (k j : Nat) (acc : Bits) (h : Underway s .readingCount t) :
    (countLoop k j acc t).Meets (Underway s .readingCount) (DecompressEnd s) := by
  induction k generalizing j acc t with
  | zero => exact h
  | succ k ih =>
    have hread : (getBits 8 (fun _ => raise .totalCount) { t with byteIx := BitVec.ofNat 4 j }).Meets
        (Underway s .readingCount) (DecompressEnd s) := by
      have hu := (h.keep rfl ⟨rfl, rfl, rfl⟩ rfl : Underway s .readingCount { t with byteIx := BitVec.ofNat 4 j })
      have hu' := hu.reader (readBits_only 8 _)
      exact getBits_meets (fun _ => hu') fun _ => hu'.raise_end .totalCount
    unfold countLoop
    cases hg : getBits 8 (fun _ => raise .totalCount) { t with byteIx := BitVec.ofNat 4 j } with
    | ended u =>
      rw [hg] at hread
      exact hread
    | bits bs u =>
      rw [hg] at hread
      exact ih _ _ (Underway.keep hread rfl ⟨rfl, rfl, rfl⟩ rfl)

theorem getTotalCount_meets (h : Underway s .readingCount t) :
    (getTotalCount t).Meets (Underway s .readingCount) (DecompressEnd s) :=
  countLoop_meets _ _ _ (h.keep rfl ⟨rfl, rfl, rfl⟩ rfl)

/-! ### The body (R258, R261) -/

/-- A body is under way with fewer than `k` bits left to read: a candidate is open only while symbols are missing,
which is why Leftover cannot occur (R261). -/
structure BodyDue (s : State) (k : Nat) (t : State) : Prop where
  st : t.st = .readingBody
  err : SameError s t
  candOpen : t.cand = [] ∨ t.decoded.toNat < t.total.toNat
  bits : bitsLeft t < k

/-- With no candidate open, `finish()` ends Done (R261). -/
theorem finishBlock_meets {P : State → Prop} (herr : SameError s t) (hcand : t.cand = []) :
    (finishBlock t).Meets P (DecompressEnd s) := by
  simp only [finishBlock, hcand, ne_eq, not_true_eq_false, if_false]
  exact .done ((herr.trans (align_only t).sameError).trans ⟨rfl, rfl, rfl⟩)

/-- total_symbol_count is too large, or opens a body, or ends the block (R257, R258). -/
theorem takeTotalCount_meets (n : Count) (h : Underway s .readingCount t) :
    (takeTotalCount n t).Meets (fun u => BodyDue s (bitsLeft u + 1) u) (DecompressEnd s) := by
  have herr : SameError s { releaseByteIx t with total := n, st := .readingBody, field := .body } :=
    h.err.trans ⟨rfl, rfl, rfl⟩
  unfold takeTotalCount
  simp only
  split
  · exact .fault .outputLength
  · split
    · exact ⟨rfl, herr, .inl h.cand, Nat.lt_succ_self _⟩
    · exact finishBlock_meets herr h.cand

/-- `read_count()` and `check_capacity()` (R255, R257). -/
theorem readCount_meets (h : Underway s .readingCount t) :
    (readCount t).Meets (fun u => BodyDue s (bitsLeft u + 1) u) (DecompressEnd s) :=
  (getTotalCount_meets h).andTake fun _ _ => takeTotalCount_meets _

/-- The read of a body bit uses up one bit, or raises InconsistentBody(BodyTruncated) (R258). -/
theorem getBodyBit_meets (h : BodyDue s (k + 1) t) (hlt : t.decoded.toNat < t.total.toNat) :
    (getBodyBit t).Meets (fun u => BodyDue s k u ∧ u.decoded.toNat < u.total.toNat) (DecompressEnd s) := by
  have hleft := bitsLeft_readBits 1 t
  have hbits := h.bits
  have hr := readBits_only 1 t
  refine getBits_meets (fun hlen => ?_) fun _ => .fault ?_
  · have hk : bitsLeft (readBits 1 t).2 < k := by omega
    obtain ⟨_, _, _, hr⟩ := hr
    rw [hr] at hk ⊢
    exact ⟨⟨h.st, h.err.trans ⟨rfl, rfl, rfl⟩, .inr hlt, hk⟩, hlt⟩
  · obtain ⟨_, _, _, hr⟩ := hr
    rw [hr]
    exact h.st ▸ .bodyTruncated

/-- Emitting a symbol closes the candidate and reads no bit (R258). -/
theorem emitSymbol_bodyDue (v : Byte) (h : BodyDue s k t) : BodyDue s k (emitSymbol v t) := by
  unfold emitSymbol
  rcases obufWrite_cases t t.decoded.toNat v with ⟨_, hw⟩ | ⟨_, hw⟩ <;> rw [hw] <;>
    exact ⟨h.st, h.err.trans ⟨rfl, rfl, rfl⟩, .inl rfl, h.bits⟩

/-- A body bit hits, grows the candidate, or raises InconsistentBody(NoMatch) (R258). -/
theorem takeBodyBit_meets (b : Bool) (h : BodyDue s k t) (hlt : t.decoded.toNat < t.total.toNat) :
    (takeBodyBit b t).Meets (BodyDue s k) (DecompressEnd s) := by
  unfold takeBodyBit
  cases lookup t (t.cand ++ [b]) with
  | some v => exact emitSymbol_bodyDue v h
  | none =>
    simp only
    split
    · exact .fault (h.st ▸ .noMatch)
    · exact ⟨h.st, h.err.trans ⟨rfl, rfl, rfl⟩, .inr hlt, h.bits⟩

/-- The body loop always ends the operation: its bound outlasts the bits left (R258; Log 13). -/
theorem readBodyLoop_meets (k : Nat) (h : BodyDue s k t) :
    (readBodyLoop k t).Meets (fun _ => False) (DecompressEnd s) := by
  induction k generalizing t with
  | zero => exact absurd h.bits (Nat.not_lt_zero _)
  | succ k ih =>
    unfold readBodyLoop
    split
    · rename_i hlt
      exact ((getBodyBit_meets h hlt).andTake fun _ _ ⟨hu, hlt'⟩ => takeBodyBit_meets _ hu hlt').andThen fun _ => ih
    · rename_i hge
      exact finishBlock_meets h.err (h.candOpen.resolve_right hge)

end Fields

/-- A whole DECOMPRESS ends in one of the states of `DecompressEnd` (R250). -/
theorem decompressOp_end (s : State) : DecompressEnd s (decompressOp s) := by
  have hentries := (readEntryCount_meets (startDecompress_underway s)).andThen fun _ => readEntriesLoop_meets _
  exact ((hentries.andThen fun _ => readCount_meets).andThen fun _ => readBodyLoop_meets _).state_ended

/-- Settles O41: each way a DECOMPRESS ends is one of the outcomes listed. -/
theorem decompressOutcomes : Obligations.DecompressOutcomes := by
  intro s hs
  refine ⟨decompressOp { s with busy := true }, acceptCommand_run hs, ?_⟩
  have hend := decompressOp_end { s with busy := true }
  generalize decompressOp { s with busy := true } = t at hend ⊢
  cases hend with
  | done herr => exact ⟨rfl, .inl ⟨rfl, herr.err, herr.errSub, herr.errSt⟩⟩
  | cleanEOF herr => exact ⟨rfl, .inr (.inl ⟨rfl, herr.err, herr.errSub, herr.errSt⟩)⟩
  | fault hc =>
    refine ⟨rfl, .inr (.inr ⟨rfl, ?_⟩)⟩
    simp only [raise_err, raise_errSub, raise_errSt]
    generalize State.st _ = c at hc ⊢
    cases hc <;> simp [Cause.errClass, Cause.subCode]

end Sys2Proof.Machine
end

section
/-! SUPPORT. The statements of 10_state, first part: the clauses of the invariant that hold inside an operation too,
what ending an operation makes of them, and that the reset state and the host's accesses keep them. -/

namespace Sys2Proof.Machine

/-! ## The clauses of the invariant that hold whether or not a fault is recorded (10_state R55) -/

/-- Every stored decode Code has at most 255 bits (R45). -/
def DecShort (s : State) : Prop := ∀ e < 255, (decAt s e).bits.length ≤ 255

/-- Every stored Code has at most 255 bits (R44). -/
def CodesShort (s : State) : Prop := ∀ b, (codeAt s b).bits.length ≤ 255

/-- A byte memory is in canonical form and inside its range (R82). -/
def MemForm (m : Memory) (c : Config) : Prop := Memory.wf m ∧ Memory.inRange m c

/-- The clauses of `BoundaryInv` that do not depend on ST: they hold inside an operation and survive fault entry. -/
structure Kept (s : State) : Prop where
  readerCount : s.rdLeft.toNat ≤ 8
  writerZero : writerClean s
  candLength : s.cand.length ≤ 255
  decLength : DecShort s
  codeLength : CodesShort s
  entryRange : s.nent.toNat ≤ 256
  resultRange : s.outLen.toNat ≤ s.config.blockMax.toNat
  ibufForm : MemForm s.ibuf s.config
  obufForm : MemForm s.obuf s.config
  configLegal : s.config.legal = true

/-- An operation has been started at a boundary and can end Done: no fault is recorded, and candidate, queue, walk stack
and path are empty. -/
structure Running (s : State) : Prop where
  kept : Kept s
  err : s.err = .none
  cand : s.cand = []
  queue : s.pq = []
  path : s.path = []
  stack : s.wstk = []

theorem BoundaryInv.kept {s : State} (h : BoundaryInv s) : Kept s := { h with }

/-- A command accepted at a boundary starts its operation in a `Running` state. -/
theorem BoundaryInv.running {s : State} (h : BoundaryInv s) (hst : s.st ≠ .fault) : Running { s with busy := true } :=
  { kept := { h.kept with }
    err := not_not.mp fun he => hst (h.faultRecorded.mpr he)
    cand := h.candEmpty hst
    queue := h.queueEmpty hst
    path := h.pathEmpty hst
    stack := h.stackEmpty hst }

/-! ## Ending an operation (10_state R33, 60_exceptions R290) -/

theorem Running.boundary {s : State} (h : Running s) (hb : s.busy = false)
    (hst : s.st = .idle ∨ s.st = .done ∨ s.st = .cleanEOF) : BoundaryInv s :=
  { h.kept with
    notBusy := hb
    atRest := by tauto
    faultRecorded := by
      rcases hst with hst | hst | hst <;> simp [hst, h.err]
    candEmpty := fun _ => h.cand
    queueEmpty := fun _ => h.queue
    pathEmpty := fun _ => h.path
    stackEmpty := fun _ => h.stack }

theorem Running.finishDone {s : State} (h : Running s) : BoundaryInv (finishDone s) :=
  Running.boundary { h with kept := { h.kept with } } rfl (.inr (.inl rfl))

theorem Running.finishCleanEOF {s : State} (h : Running s) : BoundaryInv (finishCleanEOF s) :=
  Running.boundary { h with kept := { h.kept with } } rfl (.inr (.inr rfl))

/-- Every cause records a class (R281). -/
theorem Cause.errClass_ne_none (c : Cause) : c.errClass ≠ .none := by cases c <;> decide

/-- Fault entry asks nothing of candidate, queue, stack and path (R290, 93 U16). -/
theorem Kept.raise {s : State} (h : Kept s) (c : Cause) : BoundaryInv (raise c s) :=
  { h with
    notBusy := rfl
    atRest := .inr (.inr (.inr rfl))
    faultRecorded := iff_of_true rfl c.errClass_ne_none
    candEmpty := fun hst => absurd rfl hst
    queueEmpty := fun hst => absurd rfl hst
    pathEmpty := fun hst => absurd rfl hst
    stackEmpty := fun hst => absurd rfl hst
    resultRange := by
      show (if c.inDecompress then 0 else s.outLen).toNat ≤ _
      split
      · exact Nat.zero_le _
      · exact h.resultRange }

/-- A command accepted in ST = Fault is discarded (R291), any other runs its operation with BUSY = 1 (R33). -/
theorem acceptCommand_cases {op : State → State} {s t : State} (ht : acceptCommand op s = .next t) :
    (s.st = .fault ∧ t = s) ∨ (s.st ≠ .fault ∧ t = op { s with busy := true }) := by
  by_cases hst : s.st = .fault
  · rw [acceptCommand_fault hst] at ht
    cases ht
    exact .inl ⟨hst, rfl⟩
  · rw [acceptCommand_run hst] at ht
    cases ht
    exact .inr ⟨hst, rfl⟩

/-- An accepted command keeps the invariant if its operation, started at a boundary, ends at one. -/
theorem acceptCommand_boundary {op : State → State} (hop : ∀ s, Running s → BoundaryInv (op s)) {s t : State}
    (h : BoundaryInv s) (ht : acceptCommand op s = .next t) : BoundaryInv t := by
  rcases acceptCommand_cases ht with ⟨-, rfl⟩ | ⟨hst, rfl⟩
  · exact h
  · exact hop _ (h.running hst)

/-! ## Reset (10_state R54, 70_reset_and_hazards R320) -/

/-- A table filled with its default shows the default at every index. -/
theorem tabGet_tableOf_default {α : Type} (n : Nat) (x : α) (i : Nat) : tabGet (tableOf n x) x i = x := by
  by_cases h : i < n
  · exact tabGet_tableOf n x x h
  · exact tabGet_outside _ x (Nat.le_of_not_lt h)

@[simp] theorem resetMachine_freqAt (s : State) (b : Byte) : freqAt (resetMachine s) b = 0 :=
  tabGet_tableOf_default 256 0 _

@[simp] theorem resetMachine_nodeAt (s : State) (n : NodeId) : nodeAt (resetMachine s) n = Node.blank :=
  tabGet_tableOf_default 511 Node.blank _

@[simp] theorem resetMachine_codeAt (s : State) (b : Byte) : codeAt (resetMachine s) b = CodeEntry.blank :=
  tabGet_tableOf_default 256 CodeEntry.blank _

@[simp] theorem resetMachine_decAt (s : State) (e : Nat) : decAt (resetMachine s) e = DecEntry.blank :=
  tabGet_tableOf_default 255 DecEntry.blank e

/-- Whatever state it is asserted in, reset gives the values of R54. -/
theorem resetMachine_values (s : State) : ResetValues (resetMachine s) :=
  { reader := ⟨rfl, rfl⟩
    writer := ⟨rfl, rfl⟩
    status := ⟨rfl, rfl, rfl, rfl, rfl⟩
    lengths := ⟨rfl, rfl, rfl, rfl, rfl⟩
    counters := ⟨rfl, rfl, rfl⟩
    candidate := rfl
    bitBuffer := ⟨rfl, rfl⟩
    freq := resetMachine_freqAt s
    nodes := fun n => congrArg Node.valid (resetMachine_nodeAt s n)
    queue := ⟨rfl, rfl, rfl, rfl, rfl⟩
    codes := fun b => congrArg CodeEntry.valid (resetMachine_codeAt s b)
    decTable := ⟨fun e => congrArg DecEntry.valid (resetMachine_decAt s e), rfl⟩ }

theorem memForm_nil (c : Config) : MemForm [] c := ⟨List.Pairwise.nil, fun _ h => nomatch h⟩

/-- Reset leaves an operation boundary, whatever it ends (R320). -/
theorem resetMachine_boundary {s : State} (hc : s.config.legal = true) : BoundaryInv (resetMachine s) :=
  Running.boundary
    { kept :=
        { readerCount := Nat.zero_le _
          writerZero := Nat.zero_lt_one
          candLength := Nat.zero_le _
          decLength := fun e _ => by simp [DecEntry.blank]
          codeLength := fun b => by simp [CodeEntry.blank]
          entryRange := Nat.zero_le _
          resultRange := Nat.zero_le _
          ibufForm := memForm_nil _
          obufForm := memForm_nil _
          configLegal := hc }
      err := rfl
      cand := rfl
      queue := rfl
      path := rfl
      stack := rfl }
    rfl (.inl rfl)

/-- Settles O54: the reset state differs from what reset leaves of itself in the epochs alone, which no clause of the
invariant mentions. -/
theorem resetStateSatisfiesInvariant : Obligations.ResetStateSatisfiesInvariant :=
  { resetMachine_boundary (s := State.reset) rfl with }

/-! ## The host's accesses keep the invariant (10_state R37) -/

/-- What a host write does: LEN, a byte of IBUF, a count of FREQ or a word of BITBUF takes the data; anywhere else
nothing happens (R37, R38). -/
theorem hostWrite_cases (s : State) (space : BitVec 4) (index : BitVec 32) (data : BitVec 64) :
    (space = 0 ∧ index = 1 ∧ hostWrite s space index data = { s with len := data }) ∨
      (space = 1 ∧ index.toNat < s.config.blockMax.toNat ∧
        hostWrite s space index data = { s with ibuf := memStore s.ibuf index.toNat (data.setWidth 8) }) ∨
      (space = 3 ∧ index.toNat < 256 ∧
        hostWrite s space index data = { s with freq := tabSet s.freq index.toNat data }) ∨
      (space = 6 ∧ index.toNat < 4 ∧ hostWrite s space index data = bitbufWrite s index.toNat data) ∨
      (hostWritable s space index = false ∧ hostWrite s space index data = s) := by
  have hspace : ∀ k : BitVec 4, space.toNat = k.toNat → space = k := fun _ => BitVec.eq_of_toNat_eq
  unfold hostWrite
  split
  · rename_i h0
    obtain rfl := hspace 0 h0
    by_cases hi : index.toNat = 1
    · exact .inl ⟨rfl, BitVec.eq_of_toNat_eq hi, if_pos hi⟩
    · have hne : index ≠ 1#32 := fun h => hi (congrArg BitVec.toNat h)
      exact .inr (.inr (.inr (.inr ⟨by simp [hostWritable, hne], if_neg hi⟩)))
  · rename_i h1
    obtain rfl := hspace 1 h1
    rcases ibufWrite_cases s index.toNat (data.setWidth 8) with ⟨hi, hw⟩ | ⟨hi, hw⟩
    · exact .inr (.inl ⟨rfl, hi, hw⟩)
    · exact .inr (.inr (.inr (.inr ⟨by simpa [hostWritable] using hi, hw⟩)))
  · rename_i h3
    obtain rfl := hspace 3 h3
    by_cases hi : index.toNat < 256
    · exact .inr (.inr (.inl ⟨rfl, hi, if_pos hi⟩))
    · exact .inr (.inr (.inr (.inr ⟨by simpa [hostWritable] using hi, if_neg hi⟩)))
  · rename_i h6
    obtain rfl := hspace 6 h6
    by_cases hi : index.toNat < 4
    · exact .inr (.inr (.inr (.inl ⟨rfl, hi, if_pos hi⟩)))
    · exact .inr (.inr (.inr (.inr ⟨by simpa [hostWritable] using hi, if_neg hi⟩)))
  · rename_i h0 h1 h3 h6
    have hne : space ≠ 0#4 ∧ space ≠ 1#4 ∧ space ≠ 3#4 ∧ space ≠ 6#4 :=
      ⟨fun h => h0 (congrArg BitVec.toNat h), fun h => h1 (congrArg BitVec.toNat h),
        fun h => h3 (congrArg BitVec.toNat h), fun h => h6 (congrArg BitVec.toNat h)⟩
    exact .inr (.inr (.inr (.inr ⟨by simp [hostWritable, hne], rfl⟩)))

theorem hostWrite_boundary {s : State} (h : BoundaryInv s) (space : BitVec 4) (index : BitVec 32) (data : BitVec 64) :
    BoundaryInv (hostWrite s space index data) := by
  obtain ⟨hwf, hrange⟩ := h.ibufForm
  rcases hostWrite_cases s space index data with ⟨-, -, hw⟩ | ⟨-, hi, hw⟩ | ⟨-, -, hw⟩ | ⟨-, -, hw⟩ | ⟨-, hw⟩ <;>
    rw [hw]
  · exact { h with }
  · exact { h with ibufForm := ⟨memStore_wf _ hwf _ _, memStore_inRange _ _ hrange hi _⟩ }
  · exact { h with }
  · exact { h with }
  · exact h

theorem hostAction_boundary {s : State} (h : BoundaryInv s) (a : HostAction) : BoundaryInv (hostAction a s) := by
  cases a with
  | command w => exact h
  | regRead space index => exact { h with }
  | regWrite space index data => exact hostWrite_boundary h space index data
  | reset => exact resetMachine_boundary h.configLegal
  | commandReset w => exact h
  | attachSource bytes => exact { h with }
  | attachSink => exact { h with }

end Sys2Proof.Machine
end

section
/-! SUPPORT. The Huffman forest: what the merge loop keeps of the node arena and the queue, and that the walk ends with
every Code at most 255 bits long. -/

namespace Sys2Proof.Machine

/-! ## The arena (10_state R40, 42_tree_builder R183)

`nd` is an arena as `nodeAt` reads it; `w n` is the number of internal nodes under `n`, `n` included, which bounds both
the passes of the walk and the length of the paths. -/

/-- A valid internal node. -/
def InnerAt (nd : NodeId → Node) (n : NodeId) : Prop := (nd n).valid = true ∧ (nd n).isLeaf = false

/-- What a join makes of an internal node: its frequency is the sum of its children's, which are valid, older than it
and not the same (R183). -/
structure ProperInner (nd : NodeId → Node) (n : NodeId) : Prop where
  sum : (nd n).freq.toNat = (nd (nd n).left).freq.toNat + (nd (nd n).right).freq.toNat
  leftValid : (nd (nd n).left).valid = true
  rightValid : (nd (nd n).right).valid = true
  leftOlder : (nd n).left.toNat < n.toNat
  rightOlder : (nd n).right.toNat < n.toNat
  distinct : (nd n).left ≠ (nd n).right

/-- Every internal node is proper, no node is the child of two, and `w` counts the internal nodes. -/
structure ProperArena (nd : NodeId → Node) (w : NodeId → Nat) : Prop where
  inner : ∀ n, InnerAt nd n → ProperInner nd n
  unshared : ∀ m n, InnerAt nd m → InnerAt nd n → m ≠ n →
    (nd m).left ≠ (nd n).left ∧ (nd m).left ≠ (nd n).right ∧ (nd m).right ≠ (nd n).right
  weight : ∀ n, InnerAt nd n → w n = w (nd n).left + w (nd n).right + 1

/-- The queue `q` holds the roots of a proper arena with `k` internal nodes: each of them once, none a child, with the
frequencies `total` in all (R41, R42, R183). -/
structure Forest (nd : NodeId → Node) (w : NodeId → Nat) (q : List NodeId) (k total : Nat) : Prop where
  arena : ProperArena nd w
  nodup : q.Nodup
  queued : ∀ n ∈ q, (nd n).valid = true
  parentless : ∀ n, InnerAt nd n → (nd n).left ∉ q ∧ (nd n).right ∉ q
  idRange : ∀ n, (nd n).valid = true → n.toNat < 256 + k
  freqs : (q.map fun n => (nd n).freq.toNat).sum = total
  weights : (q.map w).sum = k
  room : q.length + k ≤ 256

section Join
variable {nd : NodeId → Node} {w : NodeId → Nat} {q q' : List NodeId} {k total : Nat} {a b id : NodeId}

/-- The order of the queue does not matter (R41). -/
theorem Forest.perm (h : Forest nd w q k total) (hq : q.Perm q') : Forest nd w q' k total :=
  { arena := h.arena
    nodup := hq.nodup_iff.mp h.nodup
    queued := fun n hn => h.queued n (hq.mem_iff.mpr hn)
    parentless := fun n hn =>
      ⟨fun hl => (h.parentless n hn).1 (hq.mem_iff.mpr hl), fun hr => (h.parentless n hn).2 (hq.mem_iff.mpr hr)⟩
    idRange := h.idRange
    freqs := (hq.map _).sum_eq.symm.trans h.freqs
    weights := (hq.map _).sum_eq.symm.trans h.weights
    room := hq.length_eq ▸ h.room }

/-- The arena after the join of `a` and `b` under the id `id` (R183, R184). -/
def joined (nd : NodeId → Node) (id a b : NodeId) : NodeId → Node :=
  Function.update nd id (innerNode ((nd a).freq + (nd b).freq) a b)

/-- The count of internal nodes after that join. -/
def joinedWeight (w : NodeId → Nat) (id a b : NodeId) : NodeId → Nat := Function.update w id (w a + w b + 1)

theorem joined_same : joined nd id a b id = innerNode ((nd a).freq + (nd b).freq) a b := Function.update_self ..

theorem joined_other {n : NodeId} (hn : n ≠ id) : joined nd id a b n = nd n := Function.update_of_ne hn ..

theorem joinedWeight_same : joinedWeight w id a b id = w a + w b + 1 := Function.update_self ..

theorem joinedWeight_other {n : NodeId} (hn : n ≠ id) : joinedWeight w id a b n = w n := Function.update_of_ne hn ..

/-- The id of the next internal node is not in use: every valid node is older (R42). -/
theorem Forest.ne_next (h : Forest nd w q k total) (hid : id.toNat = 256 + k) {n : NodeId}
    (hn : (nd n).valid = true) : n ≠ id := fun he => by
  have := h.idRange n hn
  rw [he, hid] at this
  exact Nat.lt_irrefl _ this

/-- A valid internal node after the join is the new one or an earlier one. -/
theorem innerAt_joined {n : NodeId} (hn : InnerAt (joined nd id a b) n) : n = id ∨ n ≠ id ∧ InnerAt nd n := by
  by_cases he : n = id
  · exact .inl he
  · rw [InnerAt, joined_other he] at hn
    exact .inr ⟨he, hn⟩

/-- Joining two roots keeps the arena proper (R183, R185). -/
theorem Forest.join_arena (h : Forest nd w (a :: b :: q) k total) (hid : id.toNat = 256 + k)
    (hsum : (nd a).freq.toNat + (nd b).freq.toNat < 2 ^ 64) :
    ProperArena (joined nd id a b) (joinedWeight w id a b) := by
  have ha := h.queued a (by simp)
  have hb := h.queued b (by simp)
  have hane := h.ne_next hid ha
  have hbne := h.ne_next hid hb
  have hab : a ≠ b := fun he => by simpa [he] using h.nodup
  have hroots : ∀ n, InnerAt nd n → (nd n).left ≠ a ∧ (nd n).left ≠ b ∧ (nd n).right ≠ a ∧ (nd n).right ≠ b :=
    fun n hn => by
      obtain ⟨hl, hr⟩ := h.parentless n hn
      simp only [List.mem_cons, not_or] at hl hr
      exact ⟨hl.1, hl.2.1, hr.1, hr.2.1⟩
  refine ⟨fun n hn => ?_, fun m n hm hn hmn => ?_, fun n hn => ?_⟩
  · rcases innerAt_joined hn with rfl | ⟨hne, hn⟩
    · refine ⟨?_, ?_, ?_, ?_, ?_, ?_⟩ <;>
        simp only [joined_same, innerNode, joined_other hane, joined_other hbne]
      · rw [BitVec.toNat_add, Nat.mod_eq_of_lt hsum]
      · exact ha
      · exact hb
      · exact hid ▸ h.idRange a ha
      · exact hid ▸ h.idRange b hb
      · exact hab
    · have hp := h.arena.inner n hn
      have hl := h.ne_next hid hp.leftValid
      have hr := h.ne_next hid hp.rightValid
      refine ⟨?_, ?_, ?_, ?_, ?_, ?_⟩ <;> simp only [joined_other hne, joined_other hl, joined_other hr]
      · exact hp.sum
      · exact hp.leftValid
      · exact hp.rightValid
      · exact hp.leftOlder
      · exact hp.rightOlder
      · exact hp.distinct
  · rcases innerAt_joined hm with rfl | ⟨hmne, hmo⟩ <;> rcases innerAt_joined hn with rfl | ⟨hnne, hno⟩
    · exact absurd rfl hmn
    · obtain ⟨hla, hlb, hra, hrb⟩ := hroots n hno
      simp only [joined_same, joined_other hnne, innerNode]
      exact ⟨hla.symm, hra.symm, hrb.symm⟩
    · obtain ⟨hla, hlb, hra, hrb⟩ := hroots m hmo
      simp only [joined_same, joined_other hmne, innerNode]
      exact ⟨hla, hlb, hrb⟩
    · simp only [joined_other hmne, joined_other hnne]
      exact h.arena.unshared m n hmo hno hmn
  · rcases innerAt_joined hn with rfl | ⟨hne, hn⟩
    · simp only [joined_same, innerNode, joinedWeight_same, joinedWeight_other hane, joinedWeight_other hbne]
    · have hp := h.arena.inner n hn
      simp only [joined_other hne, joinedWeight_other hne, joinedWeight_other (h.ne_next hid hp.leftValid),
        joinedWeight_other (h.ne_next hid hp.rightValid)]
      exact h.arena.weight n hn

/-- Joining two roots of a forest makes a forest with one root fewer and one internal node more (R183). -/
theorem Forest.join (h : Forest nd w (a :: b :: q) k total) (hid : id.toNat = 256 + k)
    (hsum : (nd a).freq.toNat + (nd b).freq.toNat < 2 ^ 64) :
    Forest (joined nd id a b) (joinedWeight w id a b) (id :: q) (k + 1) total := by
  have hvalid : ∀ n ∈ q, (nd n).valid = true := fun n hn => h.queued n (by simp [hn])
  have hqne : ∀ n ∈ q, n ≠ id := fun n hn => h.ne_next hid (hvalid n hn)
  obtain ⟨⟨-, haq⟩, hbq, hq⟩ : (a ≠ b ∧ a ∉ q) ∧ b ∉ q ∧ q.Nodup := by simpa [not_or] using h.nodup
  have hroom := h.room
  have hfreqs := h.freqs
  have hweights := h.weights
  simp only [List.length_cons, List.map_cons, List.sum_cons] at hroom hfreqs hweights
  refine
    { arena := h.join_arena hid hsum
      nodup := List.nodup_cons.mpr ⟨fun hm => hqne id hm rfl, hq⟩
      queued := fun n hn => ?_
      parentless := fun n hn => ?_
      idRange := fun n hn => ?_
      freqs := ?_
      weights := ?_
      room := by simp only [List.length_cons]; omega }
  · rcases List.mem_cons.mp hn with rfl | hn
    · rw [joined_same, innerNode]
    · rw [joined_other (hqne n hn)]
      exact hvalid n hn
  · simp only [List.mem_cons, not_or]
    rcases innerAt_joined hn with rfl | ⟨hne, hn⟩
    · rw [joined_same, innerNode]
      exact ⟨⟨h.ne_next hid (h.queued a (by simp)), haq⟩, h.ne_next hid (h.queued b (by simp)), hbq⟩
    · have hp := h.arena.inner n hn
      obtain ⟨hl, hr⟩ := h.parentless n hn
      simp only [List.mem_cons, not_or] at hl hr
      rw [joined_other hne]
      exact ⟨⟨h.ne_next hid hp.leftValid, hl.2.2⟩, h.ne_next hid hp.rightValid, hr.2.2⟩
  · by_cases he : n = id
    · rw [he, hid]
      omega
    · rw [joined_other he] at hn
      have := h.idRange n hn
      omega
  · have hrest : (q.map fun n => (joined nd id a b n).freq.toNat) = q.map fun n => (nd n).freq.toNat :=
      List.map_congr_left fun n hn => by rw [joined_other (hqne n hn)]
    simp only [List.map_cons, List.sum_cons, hrest, joined_same, innerNode, BitVec.toNat_add, Nat.mod_eq_of_lt hsum]
    omega
  · have hrest : q.map (joinedWeight w id a b) = q.map w :=
      List.map_congr_left fun n hn => joinedWeight_other (hqne n hn)
    simp only [List.map_cons, List.sum_cons, hrest, joinedWeight_same]
    omega

end Join


/-! ## The leaves (42_tree_builder R181) -/

/-- A state that differs from `s` in the arena, the queue, NINT and the root alone. -/
def TreeOnly (s t : State) : Prop :=
  ∃ nd q ni rv ri, t = { s with node := nd, pq := q, nint := ni, rootValid := rv, rootId := ri }

theorem TreeOnly.refl (s : State) : TreeOnly s s := ⟨s.node, s.pq, s.nint, s.rootValid, s.rootId, rfl⟩

theorem TreeOnly.trans {s t u : State} (h : TreeOnly s t) (h' : TreeOnly t u) : TreeOnly s u := by
  obtain ⟨_, _, _, _, _, rfl⟩ := h
  obtain ⟨nd, q, ni, rv, ri, rfl⟩ := h'
  exact ⟨nd, q, ni, rv, ri, rfl⟩

theorem nodeAt_outside {s : State} {n : NodeId} (h : 511 ≤ n.toNat) : nodeAt s n = Node.blank :=
  tabGet_outside s.node Node.blank h

theorem clearTables_nodeAt_valid (s : State) (n : NodeId) : (nodeAt (clearTables s) n).valid = false := by
  by_cases h : n.toNat < 511
  · exact congrArg Node.valid (tabGet_tabMap _ s.node Node.blank Node.blank h)
  · rw [nodeAt_outside (Nat.le_of_not_lt h), Node.blank]

/-- Storing a slot of the arena changes what `nodeAt` reads there. -/
theorem nodeAt_tabSet {s : State} {id : NodeId} (h : id.toNat < 511) (x : Node) :
    nodeAt { s with node := tabSet s.node id.toNat x } = Function.update (nodeAt s) id x := by
  funext n
  by_cases he : n = id
  · subst he
    rw [Function.update_self]
    exact tabGet_tabSet_same s.node Node.blank x h
  · rw [Function.update_of_ne he]
    exact tabGet_tabSet_other s.node Node.blank x fun h' => he (BitVec.eq_of_toNat_eq h'.symm)

theorem leafId_toNat (b : Byte) : (leafId b).toNat = b.toNat := by
  simp only [leafId, BitVec.toNat_setWidth]
  omega

theorem leafId_injective : Function.Injective leafId := fun a b h =>
  BitVec.eq_of_toNat_eq (by rw [← leafId_toNat a, ← leafId_toNat b, h])

theorem makeLeaf_nodeAt (s : State) (b : Byte) :
    nodeAt (makeLeaf s b) = Function.update (nodeAt s) (leafId b) (leafNode s b) := by
  have hid : (leafId b).toNat < 511 := by
    rw [leafId_toNat]
    omega
  rw [← nodeAt_tabSet hid, leafId_toNat]
  rfl

theorem makeLeaf_tree (s : State) (b : Byte) : TreeOnly s (makeLeaf s b) :=
  ⟨_, _, s.nint, s.rootValid, s.rootId, rfl⟩

/-- Making leaves touches the arena and the queue alone. -/
theorem foldl_makeLeaf_frame (bs : List Byte) (s : State) :
    TreeOnly s (bs.foldl makeLeaf s) ∧ (bs.foldl makeLeaf s).nint = s.nint ∧
      (bs.foldl makeLeaf s).pq = s.pq ++ bs.map leafId := by
  induction bs generalizing s with
  | nil => exact ⟨.refl s, rfl, by simp⟩
  | cons b bs ih =>
    obtain ⟨htree, hnint, hpq⟩ := ih (makeLeaf s b)
    exact ⟨(makeLeaf_tree s b).trans htree, hnint, hpq.trans (by simp [makeLeaf])⟩

/-- The slots of the bytes listed hold their leaves, the others are as before. -/
theorem foldl_makeLeaf_nodeAt (bs : List Byte) (s : State) (n : NodeId) :
    (∃ b ∈ bs, n = leafId b ∧ nodeAt (bs.foldl makeLeaf s) n = leafNode s b) ∨
      ((∀ b ∈ bs, n ≠ leafId b) ∧ nodeAt (bs.foldl makeLeaf s) n = nodeAt s n) := by
  induction bs generalizing s with
  | nil => exact .inr ⟨by simp, rfl⟩
  | cons b bs ih =>
    rcases ih (makeLeaf s b) with ⟨c, hc, hn, h⟩ | ⟨hn, h⟩
    · exact .inl ⟨c, List.mem_cons_of_mem b hc, hn, h⟩
    · rw [makeLeaf_nodeAt] at h
      by_cases he : n = leafId b
      · rw [he, Function.update_self] at h
        exact .inl ⟨b, List.mem_cons_self, he, he ▸ h⟩
      · rw [Function.update_of_ne he] at h
        exact .inr ⟨List.forall_mem_cons.mpr ⟨he, hn⟩, h⟩

theorem byteValues_nodup : ((List.range Config.nsym).map (BitVec.ofNat 8)).Nodup :=
  List.Nodup.map_on (fun a ha b hb h => by
    have := congrArg BitVec.toNat h
    simp only [Config.nsym, List.mem_range, BitVec.toNat_ofNat] at ha hb this
    omega) List.nodup_range

theorem presentBytes_nodup (s : State) : (presentBytes s).Nodup := byteValues_nodup.filter _

theorem presentBytes_length (s : State) : (presentBytes s).length ≤ 256 :=
  (List.length_filter_le _ _).trans (by simp [Config.nsym])

/-- What a filter drops with value 0 does not change the sum. -/
theorem sum_map_filter_ne_zero {α : Type} (f : α → Nat) (p : α → Bool) (hp : ∀ x, p x = false → f x = 0) (xs : List α) :
    ((xs.filter p).map f).sum = (xs.map f).sum := by
  induction xs with
  | nil => rfl
  | cons x xs ih =>
    cases hx : p x with
    | true => simp [hx, ih]
    | false => simp [hx, ih, hp x hx]

/-- The counts of the bytes present are all the counts (R185). -/
theorem presentBytes_sum (s : State) : ((presentBytes s).map fun b => (freqAt s b).toNat).sum = freqSum s := by
  rw [presentBytes, sum_map_filter_ne_zero, List.map_map]
  · rfl
  · intro b hb
    simpa using congrArg BitVec.toNat (of_decide_eq_false hb |> not_not.mp)

/-- The forest before the first merge: the leaves of the bytes present (R181). -/
theorem makeLeaves_forest (s : State) :
    Forest (nodeAt (makeLeaves (clearTables s))) (fun _ => 0) (makeLeaves (clearTables s)).pq 0 (freqSum s) := by
  have hnode := foldl_makeLeaf_nodeAt (presentBytes (clearTables s)) (clearTables s)
  have hpq : (makeLeaves (clearTables s)).pq = (presentBytes s).map leafId :=
    (foldl_makeLeaf_frame (presentBytes (clearTables s)) (clearTables s)).2.2
  have hleaf : ∀ b ∈ presentBytes s, nodeAt (makeLeaves (clearTables s)) (leafId b) = leafNode s b := fun b hb => by
    rcases hnode (leafId b) with ⟨c, -, hc, h⟩ | ⟨hn, -⟩
    · exact leafId_injective hc ▸ h
    · exact absurd rfl (hn b hb)
  have hvalid : ∀ n, (nodeAt (makeLeaves (clearTables s)) n).valid = true →
      ∃ b, n = leafId b ∧ nodeAt (makeLeaves (clearTables s)) n = leafNode s b := fun n hn => by
    rcases hnode n with ⟨b, -, hb, h⟩ | ⟨-, h⟩
    · exact ⟨b, hb, h⟩
    · rw [makeLeaves, h, clearTables_nodeAt_valid] at hn
      cases hn
  have hinner : ∀ n, ¬ InnerAt (nodeAt (makeLeaves (clearTables s))) n := fun n ⟨hv, hl⟩ => by
    obtain ⟨b, -, h⟩ := hvalid n hv
    rw [h, leafNode] at hl
    cases hl
  rw [hpq]
  refine
    { arena := ⟨fun n hn => (hinner n hn).elim, fun m _ hm => (hinner m hm).elim, fun n hn => (hinner n hn).elim⟩
      nodup := (presentBytes_nodup s).map leafId_injective
      queued := List.forall_mem_map.mpr fun b hb => by rw [hleaf b hb, leafNode]
      parentless := fun n hn => (hinner n hn).elim
      idRange := fun n hn => ?_
      freqs := ?_
      weights := List.sum_eq_zero (by simp)
      room := by simpa using presentBytes_length s }
  · obtain ⟨b, rfl, -⟩ := hvalid n hn
    rw [leafId_toNat]
    omega
  · rw [List.map_map, ← presentBytes_sum]
    exact congrArg List.sum (List.map_congr_left fun b hb => by rw [Function.comp_apply, hleaf b hb, leafNode])

/-! ## The merge loop (R182 to R185) -/

theorem leastOf_mem (s : State) (m : NodeId) (ids : List NodeId) : leastOf s m ids ∈ m :: ids := by
  induction ids generalizing m with
  | nil => simp [leastOf]
  | cons x ids ih =>
    rw [leastOf]
    have hkeep : (if keyLess s x m then x else m) = x ∨ (if keyLess s x m then x else m) = m := by
      split <;> simp
    rcases List.mem_cons.mp (ih (if keyLess s x m then x else m)) with h | h
    · rw [h]
      rcases hkeep with h | h <;> simp [h]
    · exact List.mem_cons_of_mem _ (List.mem_cons_of_mem _ h)

/-- On a nonempty queue `extract_min()` takes one member out (R182). -/
theorem extractMin_takes {s : State} (h : s.pq ≠ []) :
    ∃ m q, extractMin s = some (m, { s with pq := q }) ∧ s.pq.Perm (m :: q) := by
  rcases extractMin_cases s with ⟨h0, -⟩ | ⟨x, xs, hpq, he⟩
  · exact absurd h0 h
  · exact ⟨_, _, he, List.perm_cons_erase (hpq ▸ leastOf_mem s x xs)⟩

/-- The arena and the queue of a state form a forest with NINT internal nodes. -/
def ForestIn (s : State) (total : Nat) : Prop := ∃ w, Forest (nodeAt s) w s.pq s.nint.toNat total

/-- A merge that started in `s` goes on in `t`. -/
structure Merging (s : State) (total : Nat) (t : State) : Prop where
  tree : TreeOnly s t
  forest : ForestIn t total

/-- An encoding that started in `s` has ended in FreqOverflow (R185). -/
def Overflowed (s u : State) : Prop := ∃ t, TreeOnly s t ∧ u = raise .freqOverflow (releaseQueue t)

theorem Overflowed.of_tree {s t u : State} (h : TreeOnly s t) (hu : Overflowed t u) : Overflowed s u := by
  obtain ⟨v, hv, rfl⟩ := hu
  exact ⟨v, h.trans hv, rfl⟩

/-- Both postconditions of a piece can be weakened. -/
theorem Flow.Meets.mono {x : Flow} {P P' E E' : State → Prop} (hx : x.Meets P E) (hP : ∀ t, P t → P' t)
    (hE : ∀ t, E t → E' t) : x.Meets P' E' := by
  cases x with
  | go t => exact hP t hx
  | ended t => exact hE t hx

/-- `join` on two roots: a forest with one root fewer, or FreqOverflow (R183 to R185). -/
theorem joinNodes_meets {s : State} {w : NodeId → Nat} {a b : NodeId} {total : Nat}
    (h : Forest (nodeAt s) w (a :: b :: s.pq) s.nint.toNat total) :
    (joinNodes a b s).Meets (fun t => Merging s total t ∧ t.pq.length = s.pq.length + 1) (Overflowed s) := by
  unfold joinNodes
  split
  · exact ⟨s, .refl s, rfl⟩
  · rename_i hsum
    have hroom := h.room
    simp only [List.length_cons] at hroom
    have hid : (nextInner s).toNat = 256 + s.nint.toNat := by
      unfold nextInner
      bv_omega
    have hnint : (s.nint + 1).toNat = s.nint.toNat + 1 := by bv_omega
    have hjoin := (h.join hid (Nat.lt_of_not_le hsum)).perm (List.perm_append_singleton (nextInner s) s.pq).symm
    have hnode := nodeAt_tabSet (s := s) (id := nextInner s) (by omega)
      (innerNode ((nodeAt s a).freq + (nodeAt s b).freq) a b)
    refine ⟨⟨⟨_, _, _, s.rootValid, s.rootId, rfl⟩, joinedWeight w (nextInner s) a b, ?_⟩, by simp⟩
    rw [← hnint, joined, ← hnode] at hjoin
    exact hjoin

/-- One pass of the loop takes two roots and puts their parent in their place (R183). -/
theorem mergeTwo_meets {s : State} {total : Nat} (h : ForestIn s total) (hlen : 2 ≤ s.pq.length) :
    (mergeTwo s).Meets (fun t => Merging s total t ∧ t.pq.length + 1 = s.pq.length) (Overflowed s) := by
  obtain ⟨w, h⟩ := h
  obtain ⟨a, q1, h1, hp1⟩ := extractMin_takes (s := s) fun h0 => by simp [h0] at hlen
  have hlen1 := hp1.length_eq
  simp only [List.length_cons] at hlen1
  obtain ⟨b, q2, h2, hp2⟩ := extractMin_takes (s := { s with pq := q1 }) fun (h0 : q1 = []) => by
    simp [h0] at hlen1
    omega
  have hlen2 := hp2.length_eq
  simp only [List.length_cons] at hlen2
  have hforest := h.perm (hp1.trans (hp2.cons a))
  have hq : TreeOnly s { s with pq := q2 } := ⟨s.node, q2, s.nint, s.rootValid, s.rootId, rfl⟩
  unfold mergeTwo
  simp only [h1, h2]
  exact (joinNodes_meets (s := { s with pq := q2 }) hforest).mono
    (fun t ⟨hm, (hl : t.pq.length = q2.length + 1)⟩ => ⟨⟨hq.trans hm.tree, hm.forest⟩, by omega⟩)
    fun _ => .of_tree hq

/-- The loop ends with at most one root, its bound being the length of the queue (R183; Log 13). -/
theorem mergeLoop_meets {s t : State} {total : Nat} (k : Nat) (h : Merging s total t) (hk : t.pq.length ≤ k + 1) :
    (mergeLoop k t).Meets (fun u => Merging s total u ∧ u.pq.length ≤ 1) (Overflowed s) := by
  induction k generalizing t with
  | zero => exact ⟨h, hk⟩
  | succ k ih =>
    unfold mergeLoop
    split
    · rename_i hlen
      have hpass := (mergeTwo_meets h.forest hlen).mono
        (fun u ⟨hm, hl⟩ => (⟨⟨h.tree.trans hm.tree, hm.forest⟩, by omega⟩ : Merging s total u ∧ u.pq.length ≤ k + 1))
        fun _ => Overflowed.of_tree h.tree
      exact hpass.andThen fun _ ⟨hu, hul⟩ => ih hu hul
    · exact ⟨h, by omega⟩

/-- The tables after `merge_all()` (R183): the queue is empty, the arena is proper, and a root carries all frequencies
and has at most 255 internal nodes under it. -/
structure Rooted (total : Nat) (s : State) : Prop where
  queue : s.pq = []
  tree : ∃ w, ProperArena (nodeAt s) w ∧
    (s.rootValid = true → (nodeAt s s.rootId).valid = true ∧ w s.rootId ≤ 255 ∧
      (nodeAt s s.rootId).freq.toNat = total)

theorem setRoot_rooted {s t : State} {total : Nat} (h : Merging s total t) (hlen : t.pq.length ≤ 1) :
    TreeOnly s (setRoot t) ∧ Rooted total (setRoot t) := by
  obtain ⟨w, hf⟩ := h.forest
  unfold setRoot
  by_cases h0 : t.pq = []
  · have he : extractMin t = none := by simp [extractMin, h0]
    simp only [he]
    exact ⟨h.tree.trans ⟨t.node, t.pq, t.nint, false, t.rootId, rfl⟩, h0, w, hf.arena, fun hr => by cases hr⟩
  · obtain ⟨r, q, he, hp⟩ := extractMin_takes h0
    have hl := hp.length_eq
    obtain rfl : q = [] := List.eq_nil_of_length_eq_zero (by simp only [List.length_cons] at hl; omega)
    have hone := hf.perm hp
    have hroom := hone.room
    have hweight := hone.weights
    have hfreq := hone.freqs
    simp only [List.length_singleton, List.map_cons, List.map_nil, List.sum_cons, List.sum_nil] at hroom hweight hfreq
    simp only [he]
    exact ⟨h.tree.trans ⟨t.node, [], t.nint, true, r, rfl⟩, rfl, w, hf.arena,
      fun _ => ⟨hone.queued r (by simp), by show w r ≤ 255; omega, hfreq⟩⟩

/-! ## The walk (43_code_generator R211, R212) -/

/-- A state that differs from `s` in CODE and the registers of the walk alone. -/
def WalkOnly (s t : State) : Prop := ∃ cd ws pa, t = { s with code := cd, wstk := ws, path := pa }

theorem WalkOnly.refl (s : State) : WalkOnly s s := ⟨s.code, s.wstk, s.path, rfl⟩

theorem WalkOnly.trans {s t u : State} (h : WalkOnly s t) (h' : WalkOnly t u) : WalkOnly s u := by
  obtain ⟨_, _, _, rfl⟩ := h
  obtain ⟨cd, ws, pa, rfl⟩ := h'
  exact ⟨cd, ws, pa, rfl⟩

theorem setCode_walk (v : Byte) (bs : Bits) (s : State) : WalkOnly s (setCode v bs s) := ⟨_, s.wstk, s.path, rfl⟩

theorem visit_walk (n : NodeId) (s : State) : WalkOnly s (visit n s) := by
  unfold visit
  split
  · exact setCode_walk _ _ s
  · exact ⟨s.code, _, s.path, rfl⟩

theorem walkLoop_walk (k : Nat) (s : State) : WalkOnly s (walkLoop k s) := by
  induction k generalizing s with
  | zero => exact .refl s
  | succ k ih =>
    unfold walkLoop
    split
    · exact .refl s
    · exact WalkOnly.trans ⟨s.code, _, _, rfl⟩ ((visit_walk _ _).trans (ih _))

theorem assignCodes_walk (s : State) : WalkOnly s (assignCodes s) := by
  unfold assignCodes
  split
  · split
    · exact setCode_walk _ _ s
    · exact WalkOnly.trans ⟨s.code, _, s.path, rfl⟩ ((walkLoop_walk 511 _).trans ⟨_, _, [], rfl⟩)
  · exact .refl s

theorem setCode_codeAt (v b : Byte) (bs : Bits) (s : State) :
    codeAt (setCode v bs s) b = if v = b then ⟨true, bs⟩ else codeAt s b := by
  by_cases h : v = b
  · rw [if_pos h, h]
    exact tabGet_tabSet_same s.code CodeEntry.blank _ b.isLt
  · rw [if_neg h]
    exact tabGet_tabSet_other s.code CodeEntry.blank _ fun h' => h (BitVec.eq_of_toNat_eq h')

theorem CodesShort.setCode {s : State} (h : CodesShort s) (v : Byte) {bs : Bits} (hbs : bs.length ≤ 255) :
    CodesShort (setCode v bs s) := fun b => by
  rw [setCode_codeAt]
  split
  · exact hbs
  · exact h b

/-- What the walk loop keeps, `k` passes before its bound: the entries of the stack are valid nodes, their paths leave
room for the paths below them, and the nodes below the stack are no more than the passes left. -/
structure WalkDue (w : NodeId → Nat) (k : Nat) (s : State) : Prop where
  arena : ProperArena (nodeAt s) w
  codes : CodesShort s
  stack : ∀ e ∈ s.wstk, (nodeAt s e.1).valid = true ∧ e.2.length + w e.1 ≤ 255
  passes : (s.wstk.map fun e => 2 * w e.1 + 1).sum ≤ k

/-- Popping an entry and visiting its node leaves one pass fewer to do (R212). -/
theorem WalkDue.visit {w : NodeId → Nat} {k : Nat} {s : State} {n : NodeId} {p : Bits} {rest : List (NodeId × Bits)}
    (h : WalkDue w (k + 1) s) (hs : s.wstk = (n, p) :: rest) :
    WalkDue w k (visit n { s with wstk := rest, path := p }) := by
  obtain ⟨⟨hvalid, hroom⟩, hstack⟩ := List.forall_mem_cons.mp (hs ▸ h.stack)
  have hpasses := h.passes
  simp only [hs, List.map_cons, List.sum_cons] at hvalid hroom hpasses
  unfold Machine.visit
  split
  · have hp : p.length ≤ 255 := by omega
    exact ⟨h.arena, CodesShort.setCode (s := { s with wstk := rest, path := p }) h.codes _ hp, hstack,
      show (rest.map _).sum ≤ k by omega⟩
  · rename_i hleaf
    have hn : InnerAt (nodeAt s) n := ⟨hvalid, Bool.eq_false_of_not_eq_true hleaf⟩
    have hp := h.arena.inner n hn
    have hw := h.arena.weight n hn
    refine ⟨h.arena, h.codes, List.forall_mem_cons.mpr ⟨⟨hp.leftValid, ?_⟩, List.forall_mem_cons.mpr
      ⟨⟨hp.rightValid, ?_⟩, hstack⟩⟩, ?_⟩
    · show (p ++ [true]).length + w (nodeAt s n).left ≤ 255
      simp only [List.length_append, List.length_singleton]
      omega
    · show (p ++ [false]).length + w (nodeAt s n).right ≤ 255
      simp only [List.length_append, List.length_singleton]
      omega
    · show 2 * w (nodeAt s n).left + 1 + (2 * w (nodeAt s n).right + 1 + (rest.map _).sum) ≤ k
      omega

/-- The walk ends with the stack empty before its bound is reached (R212; Log 13). -/
theorem walkLoop_ends {w : NodeId → Nat} {k : Nat} {s : State} (h : WalkDue w k s) :
    (walkLoop k s).wstk = [] ∧ CodesShort (walkLoop k s) := by
  induction k generalizing s with
  | zero =>
    refine ⟨?_, h.codes⟩
    cases hs : s.wstk with
    | nil => exact hs
    | cons e rest =>
      have := h.passes
      simp [hs] at this
  | succ k ih =>
    unfold walkLoop
    split
    · rename_i hs
      exact ⟨hs, h.codes⟩
    · rename_i hs
      exact ih (h.visit hs)

/-- `assign_codes()` stores Codes of at most 255 bits and leaves stack and path empty (R210 to R213, R216). -/
theorem assignCodes_ends {s : State} {total : Nat} (h : Rooted total s) (hc : CodesShort s) (hw : s.wstk = [])
    (hp : s.path = []) :
    CodesShort (assignCodes s) ∧ (assignCodes s).wstk = [] ∧ (assignCodes s).path = [] := by
  obtain ⟨w, harena, hroot⟩ := h.tree
  unfold assignCodes
  split
  · rename_i hr
    obtain ⟨hvalid, hweight, -⟩ := hroot hr
    split
    · exact ⟨hc.setCode _ (by decide), hw, hp⟩
    · have hdue : WalkDue w 511 { s with wstk := [(s.rootId, [])] } :=
        ⟨harena, hc, by simpa using ⟨hvalid, hweight⟩, by simp; omega⟩
      obtain ⟨hstack, hcodes⟩ := walkLoop_ends hdue
      exact ⟨hcodes, hstack, rfl⟩
  · exact ⟨hc, hw, hp⟩

/-! ## The whole of encode() (42_tree_builder R180) -/

/-- An encoding that started in `s` has built its tables: `u` are the tables before the Codes are assigned. -/
def Encoded (s t : State) : Prop := ∃ u, TreeOnly s u ∧ Rooted (freqSum s) u ∧ t = assignCodes u

/-- `encode()` builds a proper tree over all frequencies and assigns its Codes, or ends in FreqOverflow (R180, R185). -/
theorem encodeTables_meets (s : State) :
    (encodeTables s).Meets (Encoded (clearTables { s with st := .building }))
      (Overflowed (clearTables { s with st := .building })) := by
  have hstart : Merging (clearTables { s with st := .building }) (freqSum s)
      (makeLeaves (clearTables { s with st := .building })) := by
    obtain ⟨htree, hnint, -⟩ := foldl_makeLeaf_frame (presentBytes (clearTables { s with st := .building }))
      (clearTables { s with st := .building })
    refine ⟨htree, fun _ => 0, ?_⟩
    rw [makeLeaves, hnint]
    exact makeLeaves_forest { s with st := .building }
  have hmerge : (mergeAll (makeLeaves (clearTables { s with st := .building }))).Meets
      (fun u => TreeOnly (clearTables { s with st := .building }) u ∧ Rooted (freqSum s) u)
      (Overflowed (clearTables { s with st := .building })) :=
    (mergeLoop_meets _ hstart (Nat.le_succ _)).andThen fun _ ⟨hm, hl⟩ => setRoot_rooted hm hl
  exact hmerge.andThen fun u ⟨htree, hroot⟩ => ⟨u, htree, hroot, rfl⟩

/-- The codes assigned, the arena and the root are those of the tree built. -/
theorem Rooted.assignCodes {s : State} {total : Nat} (h : Rooted total s) : Rooted total (assignCodes s) := by
  obtain ⟨_, _, _, hw⟩ := assignCodes_walk s
  rw [hw]
  exact ⟨h.queue, h.tree⟩

/-- ENCODE ends Done with a proper tree over all frequencies, or in FreqOverflow. -/
theorem encodeOp_ends (s : State) :
    (∃ t, Rooted (freqSum s) t ∧ encodeOp s = finishDone t) ∨ (encodeOp s).st = .fault := by
  have h := encodeTables_meets s
  unfold encodeOp
  cases he : encodeTables s with
  | go t =>
    rw [he] at h
    obtain ⟨u, -, hroot, rfl⟩ := h
    exact .inl ⟨_, hroot.assignCodes, rfl⟩
  | ended t =>
    rw [he] at h
    obtain ⟨u, -, rfl⟩ := h
    exact .inr rfl

/-- Settles O23: the forest that every join keeps has become one tree, which the root carries. -/
theorem encodeBuildsAProperTree : Obligations.EncodeBuildsAProperTree := by
  intro s t ht hdone
  rcases acceptCommand_cases (op := encodeOp) ht with ⟨hst, rfl⟩ | ⟨-, rfl⟩
  · rw [hst] at hdone
    cases hdone
  rcases encodeOp_ends { s with busy := true } with ⟨u, hu, he⟩ | hf
  · obtain ⟨w, harena, hroot⟩ := hu.tree
    rw [he]
    refine ⟨fun n hv hl => ?_, fun m n hmv hml hnv hnl hmn => harena.unshared m n ⟨hmv, hml⟩ ⟨hnv, hnl⟩ hmn,
      fun hr => (hroot hr).2.2⟩
    have hp := harena.inner n ⟨hv, hl⟩
    exact ⟨hp.sum, hp.leftValid, hp.rightValid, hp.leftOlder, hp.rightOlder, hp.distinct⟩
  · rw [hf] at hdone
    cases hdone

end Sys2Proof.Machine
end

section
/-! SUPPORT. The statements of 10_state, second part: every command keeps the invariant, and what a command does to the
streams and to OUT_LEN. DECOMPRESS is taken piece by piece with `Flow.Meets`, as for its outcomes. -/

namespace Sys2Proof.Machine

/-! ## The reader (10_state R22, R55) -/

/-- What every piece of a DECOMPRESS keeps: the clauses of the invariant, the end of the source, and the registers that
are empty between operations. -/
structure Keeps (s t : State) : Prop where
  kept : Kept s → Kept t
  src : t.src <:+ s.src
  rest : t.err = s.err ∧ t.pq = s.pq ∧ t.path = s.path ∧ t.wstk = s.wstk

section Keeps
variable {s t u : State}

theorem Keeps.refl (s : State) : Keeps s s := ⟨id, List.suffix_refl _, rfl, rfl, rfl, rfl⟩

theorem Keeps.trans (h : Keeps s t) (h' : Keeps t u) : Keeps s u := by
  obtain ⟨he, hq, hp, hw⟩ := h.rest
  obtain ⟨he', hq', hp', hw'⟩ := h'.rest
  exact ⟨h'.kept ∘ h.kept, h'.src.trans h.src, he'.trans he, hq'.trans hq, hp'.trans hp, hw'.trans hw⟩

/-- What keeps the invariant's clauses and leaves no candidate can still end Done. -/
theorem Running.keeps (h : Running s) (hk : Keeps s t) (hc : t.cand = []) : Running t := by
  obtain ⟨he, hq, hp, hw⟩ := hk.rest
  exact ⟨hk.kept h.kept, he.trans h.err, hc, hq.trans h.queue, hp.trans h.path, hw.trans h.stack⟩

theorem refill_keeps (h : refill s = some t) : Keeps s t := by
  rcases refill_cases s with ⟨_, h'⟩ | ⟨_, _, h'⟩ | ⟨v, vs, _, hs, h'⟩ <;> rw [h'] at h <;> cases h
  · exact .refl s
  · exact ⟨fun hk => { hk with readerCount := Nat.le_refl 8 }, hs ▸ List.suffix_cons v vs, rfl, rfl, rfl, rfl⟩

theorem takeBit_keeps (h : s.rdLeft ≠ 0) : Keeps s (takeBit s).2 :=
  ⟨fun hk => { hk with
      readerCount := by
        have := hk.readerCount
        show (s.rdLeft - 1).toNat ≤ 8
        bv_omega },
    List.suffix_refl _, rfl, rfl, rfl, rfl⟩

theorem readBits_keeps (n : Nat) (s : State) : Keeps s (readBits n s).2 := by
  induction n generalizing s with
  | zero => exact .refl s
  | succ n ih =>
    simp only [readBits]
    cases hr : refill s with
    | none => exact .refl s
    | some t => exact ((refill_keeps hr).trans (takeBit_keeps (refill_bitsLeft hr).1)).trans (ih _)

theorem align_keeps (s : State) : Keeps s (align s) := readBits_keeps _ s

/-- The registers a DECOMPRESS counts and remembers with appear in no clause of the invariant. -/
theorem keeps_bookkeeping (s : State) (c : CtrlState) (tot : Count) (ei : BitVec 9) (bi : BitVec 4) (fi : WireField)
    (sy le : Byte) (ft : Nat) :
    Keeps s { s with st := c, total := tot, entIx := ei, byteIx := bi, field := fi, symTmp := sy, lenTmp := le,
                     freeTick := ft } :=
  ⟨fun h => { h with }, List.suffix_refl _, rfl, rfl, rfl, rfl⟩

end Keeps

/-! ## DECOMPRESS keeps the invariant (10_state R29, R45, 45_codec_decompress R251 to R261) -/

/-- A DECOMPRESS issued in `s` is before its body in `t`: nothing decoded, no candidate, no result. -/
structure BeforeBody (s t : State) : Prop where
  keeps : Keeps s t
  cand : t.cand = []
  decoded : t.decoded = 0
  outLen : t.outLen = 0

/-- A DECOMPRESS issued in `s` is in its body in `t`: the candidate is shorter than the longest Code, and OBUF has room
for what is still to be decoded. -/
structure InBody (s t : State) : Prop where
  keeps : Keeps s t
  cand : t.cand.length < 255
  decoded : t.decoded.toNat ≤ t.total.toNat
  room : t.total.toNat ≤ t.config.blockMax.toNat
  outLen : t.outLen = 0

/-- How a DECOMPRESS issued in `s` leaves OUT_LEN and the clauses of the invariant. -/
inductive Delivery (s : State) : State → Prop
  | done {u : State} (hk : Keeps s u) (hcand : u.cand = []) (hout : u.outLen = u.decoded ∧ u.outLen = u.total) :
      Delivery s (finishDone u)
  | cleanEOF {u : State} (hk : Keeps s u) (hcand : u.cand = []) (hout : u.outLen = 0) :
      Delivery s (finishCleanEOF u)
  | fault {c : Cause} {u : State} (hk : Keeps s u) (hc : c.inDecompress = true) : Delivery s (raise c u)

section Pieces
variable {s t u : State}

theorem BeforeBody.step (h : BeforeBody s t) (hk : Keeps t u) (hc : u.cand = t.cand) (hd : u.decoded = t.decoded)
    (ho : u.outLen = t.outLen) : BeforeBody s u :=
  ⟨h.keeps.trans hk, hc.trans h.cand, hd.trans h.decoded, ho.trans h.outLen⟩

theorem BeforeBody.bookkeeping (h : BeforeBody s t) {c : CtrlState} {tot : Count} {ei : BitVec 9} {bi : BitVec 4}
    {fi : WireField} {sy le : Byte} {ft : Nat} :
    BeforeBody s { t with st := c, total := tot, entIx := ei, byteIx := bi, field := fi, symTmp := sy, lenTmp := le,
                          freeTick := ft } :=
  h.step (keeps_bookkeeping t c tot ei bi fi sy le ft) rfl rfl rfl

theorem BeforeBody.readBits (h : BeforeBody s t) (n : Nat) : BeforeBody s (readBits n t).2 := by
  have hk := readBits_keeps n t
  obtain ⟨_, _, _, hr⟩ := readBits_only n t
  rw [hr] at hk ⊢
  exact h.step hk rfl rfl rfl

/-- `init()` empties candidate, counters and result, and clears valid bits of DEC alone (R251). -/
theorem startDecompress_beforeBody (s : State) : BeforeBody s (startDecompress s) :=
  { keeps :=
      ⟨fun h => { h with
          candLength := Nat.zero_le _
          decLength := fun e he => by
            show (tabGet (tabMap _ s.dec) DecEntry.blank e).bits.length ≤ 255
            rw [tabGet_tabMap _ s.dec DecEntry.blank _ he]
            exact h.decLength e he
          entryRange := Nat.zero_le _
          resultRange := Nat.zero_le _ },
        List.suffix_refl _, rfl, rfl, rfl, rfl⟩
    cand := rfl
    decoded := rfl
    outLen := rfl }

/-- A read of a field before the body: the bits arrive, or fault entry. -/
theorem getBits_beforeBody {n : Nat} {c : Cause} (hc : c.inDecompress = true) (h : BeforeBody s t) :
    (getBits n (fun _ => raise c) t).Meets (BeforeBody s) (Delivery s) :=
  getBits_meets (fun _ => h.readBits n) fun _ => .fault (h.readBits n).keeps hc

/-- NENT takes a byte (R252). -/
theorem takeEntryCount_beforeBody (v : Byte) (h : BeforeBody s t) :
    (takeEntryCount v t).Meets (BeforeBody s) (Delivery s) := by
  have hn : BeforeBody s { t with nent := v.setWidth 9, entIx := 0 } :=
    h.step ⟨fun hk => { hk with entryRange := by show (v.setWidth 9).toNat ≤ 256; bv_omega },
      List.suffix_refl _, rfl, rfl, rfl, rfl⟩ rfl rfl rfl
  show BeforeBody s (if v = 0 then leaveHeader _ else _)
  split
  · exact hn.bookkeeping
  · exact hn.bookkeeping

theorem readEntryCount_beforeBody (h : BeforeBody s t) :
    (readEntryCount t).Meets (BeforeBody s) (Delivery s) := by
  have hr := h.readBits 8
  refine Got.Meets.andTake (Q := BeforeBody s) (getBits_meets (fun _ => hr) fun bs => ?_)
    fun bs _ => takeEntryCount_beforeBody (byteOfBits bs)
  split
  · exact .cleanEOF hr.keeps hr.cand hr.outLen
  · exact .fault hr.keeps rfl

/-- Storing a Code of at most 255 bits keeps the bound on all of them (R45, R254). -/
theorem storeDec_keeps {code : Bits} (hc : code.length ≤ 255) (s : State) : Keeps s (storeDec code s) :=
  ⟨fun h => { h with
      decLength := fun e he => by
        show (tabGet (tabSet s.dec _ _) DecEntry.blank e).bits.length ≤ 255
        rw [tabGet_tabSet]
        split
        · exact hc
        · exact h.decLength e he },
    List.suffix_refl _, rfl, rfl, rfl, rfl⟩

theorem takeCodeBits_beforeBody {code : Bits} (hc : code.length ≤ 255) (h : BeforeBody s t) :
    (takeCodeBits code t).Meets (BeforeBody s) (Delivery s) := by
  have hs : BeforeBody s (storeDec code (align t)) := (h.readBits _).step (storeDec_keeps hc _) rfl rfl rfl
  show BeforeBody s (if _ then leaveHeader _ else _)
  split
  · exact hs.bookkeeping
  · exact hs.bookkeeping

/-- The third read of an entry delivers at most 255 bits, as many as a byte can say (R106, R254). -/
theorem getCodeBits_beforeBody (h : BeforeBody s t) :
    ((getCodeBits t).andTake takeCodeBits).Meets (BeforeBody s) (Delivery s) := by
  have hr := h.readBits t.lenTmp.toNat
  unfold getCodeBits
  rcases getBits_cases t.lenTmp.toNat (fun _ => raise .codeBits) t with ⟨hn, hg⟩ | ⟨-, hg⟩ <;> rw [hg]
  · exact takeCodeBits_beforeBody (by omega) hr
  · exact .fault hr.keeps rfl

theorem readEntry_beforeBody (h : BeforeBody s t) : (readEntry t).Meets (BeforeBody s) (Delivery s) :=
  Flow.Meets.andThen
    (Flow.Meets.andThen ((getBits_beforeBody rfl h).andTake fun _ _ h1 => h1.bookkeeping)
      fun _ h1 => (getBits_beforeBody rfl h1).andTake fun _ _ h2 => h2.bookkeeping)
    fun _ h2 => getCodeBits_beforeBody h2

theorem readEntriesLoop_beforeBody (k : Nat) (h : BeforeBody s t) :
    (readEntriesLoop k t).Meets (BeforeBody s) (Delivery s) := by
  induction k generalizing t with
  | zero => exact h
  | succ k ih => exact (readEntry_beforeBody h).andThen fun _ => ih

theorem countLoop_beforeBody (k j : Nat) (acc : Bits) (h : BeforeBody s t) :
    (countLoop k j acc t).Meets (BeforeBody s) (Delivery s) := by
  induction k generalizing j acc t with
  | zero => exact h
  | succ k ih =>
    have hread : (getBits 8 (fun _ => raise .totalCount) { t with byteIx := BitVec.ofNat 4 j }).Meets
        (BeforeBody s) (Delivery s) := getBits_beforeBody rfl h.bookkeeping
    unfold countLoop
    cases hg : getBits 8 (fun _ => raise .totalCount) { t with byteIx := BitVec.ofNat 4 j } with
    | ended u =>
      rw [hg] at hread
      exact hread
    | bits bs u =>
      rw [hg] at hread
      exact ih _ _ (BeforeBody.bookkeeping hread)

/-- `finish()` delivers what has been decoded, which fits OBUF (R257, R261). -/
theorem finishBlock_delivery {P : State → Prop} (h : InBody s t) (hlast : ¬ t.decoded.toNat < t.total.toNat) :
    (finishBlock t).Meets P (Delivery s) := by
  have hall : t.decoded = t.total := BitVec.eq_of_toNat_eq (Nat.le_antisymm h.decoded (Nat.le_of_not_lt hlast))
  unfold finishBlock
  split
  · exact .fault h.keeps rfl
  · rename_i hcand
    have hk := align_keeps t
    obtain ⟨_, _, _, hr⟩ := align_only t
    rw [hr] at hk ⊢
    refine .done ((h.keeps.trans hk).trans ⟨fun hkept => { hkept with resultRange := ?_ }, List.suffix_refl _,
      rfl, rfl, rfl, rfl⟩) (not_not.mp hcand) ⟨rfl, hall⟩
    exact hall ▸ h.room

theorem takeTotalCount_inBody (n : Count) (h : BeforeBody s t) :
    (takeTotalCount n t).Meets (InBody s) (Delivery s) := by
  have hb : BeforeBody s { releaseByteIx t with total := n, st := .readingBody, field := .body } := h.bookkeeping
  unfold takeTotalCount
  simp only
  split
  · exact .fault hb.keeps rfl
  · rename_i hroom
    have hbody : InBody s { releaseByteIx t with total := n, st := .readingBody, field := .body } :=
      { keeps := hb.keeps
        cand := by rw [hb.cand]; decide
        decoded := by rw [hb.decoded]; exact Nat.zero_le _
        room := Nat.le_of_not_lt hroom
        outLen := hb.outLen }
    split
    · exact hbody
    · rename_i hlast
      exact finishBlock_delivery hbody hlast

theorem readCount_inBody (h : BeforeBody s t) : (readCount t).Meets (InBody s) (Delivery s) :=
  (countLoop_beforeBody _ _ _ h.bookkeeping).andTake fun _ _ => takeTotalCount_inBody _

theorem obufWrite_keeps (s : State) (i : Nat) (v : Byte) : Keeps s (obufWrite s i v) := by
  rcases obufWrite_cases s i v with ⟨hi, h⟩ | ⟨-, h⟩ <;> rw [h]
  · refine ⟨fun hk => ?_, List.suffix_refl _, rfl, rfl, rfl, rfl⟩
    obtain ⟨hwf, hrange⟩ := hk.obufForm
    exact { hk with obufForm := ⟨memStore_wf _ hwf i v, memStore_inRange _ _ hrange hi v⟩ }
  · exact .refl s

/-- Emitting a symbol takes one of those still to be decoded (R258). -/
theorem emitSymbol_inBody (v : Byte) (h : InBody s t) (hlt : t.decoded.toNat < t.total.toNat) :
    InBody s (emitSymbol v t) := by
  have hk := h.keeps.trans (obufWrite_keeps t t.decoded.toNat v)
  have hnext : (t.decoded + 1).toNat ≤ t.total.toNat := by bv_omega
  have hend : Keeps (obufWrite t t.decoded.toNat v) (emitSymbol v t) :=
    ⟨fun hkept => { hkept with candLength := Nat.zero_le _ }, List.suffix_refl _, rfl, rfl, rfl, rfl⟩
  have hframe : (emitSymbol v t).total = t.total ∧ (emitSymbol v t).config = t.config ∧
      (emitSymbol v t).outLen = t.outLen := by
    unfold emitSymbol
    rcases obufWrite_cases t t.decoded.toNat v with ⟨_, hw⟩ | ⟨_, hw⟩ <;> rw [hw] <;> exact ⟨rfl, rfl, rfl⟩
  obtain ⟨htotal, hconfig, hout⟩ := hframe
  exact
    { keeps := hk.trans hend
      cand := Nat.zero_lt_succ _
      decoded := htotal ▸ hnext
      room := by rw [htotal, hconfig]; exact h.room
      outLen := hout.trans h.outLen }

theorem takeBodyBit_inBody (b : Bool) (h : InBody s t) (hlt : t.decoded.toNat < t.total.toNat) :
    (takeBodyBit b t).Meets (InBody s) (Delivery s) := by
  have hlen : (t.cand ++ [b]).length ≤ 255 := by
    have := h.cand
    simp only [List.length_append, List.length_singleton]
    omega
  have hk : Keeps s { t with cand := t.cand ++ [b] } :=
    h.keeps.trans ⟨fun hkept => { hkept with candLength := hlen }, List.suffix_refl _, rfl, rfl, rfl, rfl⟩
  unfold takeBodyBit
  cases lookup t (t.cand ++ [b]) with
  | some v => exact emitSymbol_inBody v h hlt
  | none =>
    simp only
    split
    · exact .fault hk rfl
    · rename_i hne
      exact { h with keeps := hk, cand := Nat.lt_of_le_of_ne hlen hne }

theorem getBodyBit_inBody (h : InBody s t) (hlt : t.decoded.toNat < t.total.toNat) :
    (getBodyBit t).Meets (fun u => InBody s u ∧ u.decoded.toNat < u.total.toNat) (Delivery s) := by
  have hk := h.keeps.trans (readBits_keeps 1 t)
  refine getBits_meets (fun _ => ?_) fun _ => .fault hk rfl
  obtain ⟨_, _, _, hr⟩ := readBits_only 1 t
  rw [hr] at hk ⊢
  exact ⟨{ h with keeps := hk }, hlt⟩

theorem readBodyLoop_inBody (k : Nat) (h : InBody s t) :
    (readBodyLoop k t).Meets (InBody s) (Delivery s) := by
  induction k generalizing t with
  | zero => exact h
  | succ k ih =>
    unfold readBodyLoop
    split
    · rename_i hlt
      exact ((getBodyBit_inBody h hlt).andTake fun _ _ ⟨hu, hlt'⟩ => takeBodyBit_inBody _ hu hlt').andThen fun _ => ih
    · rename_i hlast
      exact finishBlock_delivery h hlast

/-- A piece that has ended the operation has met its second postcondition, whatever the first is. -/
theorem Flow.Meets.state_of_ended {x : Flow} {P E F : State → Prop} (hx : x.Meets P E)
    (hended : x.Meets (fun _ => False) F) : E x.state := by
  cases x with
  | go t => exact hended.elim
  | ended t => exact hx

end Pieces

/-- DECOMPRESS keeps the clauses of the invariant and leaves OUT_LEN as R29 says. -/
theorem decompressOp_delivery (s : State) : Delivery s (decompressOp s) := by
  have hended := (readEntryCount_meets (startDecompress_underway s)).andThen fun _ => readEntriesLoop_meets _
  have hentries := (readEntryCount_beforeBody (startDecompress_beforeBody s)).andThen
    fun t => readEntriesLoop_beforeBody t.nent.toNat
  exact ((hentries.andThen fun _ => readCount_inBody).andThen fun _ => readBodyLoop_inBody _).state_of_ended
    ((hended.andThen fun _ => readCount_meets).andThen fun _ => readBodyLoop_meets _)

theorem decompressOp_boundary {s : State} (h : Running s) : BoundaryInv (decompressOp s) := by
  have hend := decompressOp_delivery s
  generalize decompressOp s = t at hend ⊢
  cases hend with
  | done hk hcand _ => exact (h.keeps hk hcand).finishDone
  | cleanEOF hk hcand _ => exact (h.keeps hk hcand).finishCleanEOF
  | fault hk _ => exact (hk.kept h.kept).raise _


/-! ## The writer (10_state R23, R55, 41_bitwriter R161, R163) -/

/-- With room in the accumulator the new bit doubles it (R161). -/
theorem accWith_toNat {acc : Byte} (b : Bool) (h : acc.toNat < 128) :
    (accWith acc b).toNat = 2 * acc.toNat + b.toNat := by
  have hb : b.toNat < 2 ^ 1 := Bool.toNat_lt b
  have hor := Nat.shiftLeft_add_eq_or_of_lt hb acc.toNat
  have hbit : ((BitVec.ofBool b).setWidth 8).toNat = b.toNat := by cases b <;> rfl
  rw [accWith, BitVec.toNat_or, hbit, BitVec.toNat_shiftLeft, Nat.shiftLeft_eq,
    Nat.mod_eq_of_lt (by omega), ← Nat.shiftLeft_eq, ← hor, Nat.shiftLeft_eq]
  omega

/-- A writer step keeps the accumulator clean beyond the bits it counts. -/
theorem writeBit_clean {s : State} (h : writerClean s) (b : Bool) : writerClean (writeBit s b) := by
  unfold writerClean at h
  unfold writeBit
  split
  · exact Nat.zero_lt_one
  · rename_i hn
    have hn' : (s.wrN + 1).toNat = s.wrN.toNat + 1 := by bv_omega
    have hpow : 2 ^ s.wrN.toNat ≤ 2 ^ 6 := Nat.pow_le_pow_right (by omega) (by omega)
    have hb := Bool.toNat_lt b
    show (accWith s.wrAcc b).toNat < 2 ^ (s.wrN + 1).toNat
    rw [hn', Nat.pow_succ, accWith_toNat b (by omega)]
    omega

theorem foldl_clean {α : Type} {f : State → α → State} (hf : ∀ s x, writerClean s → writerClean (f s x)) (xs : List α)
    {s : State} (h : writerClean s) : writerClean (xs.foldl f s) := by
  induction xs generalizing s with
  | nil => exact h
  | cons x xs ih => exact ih (hf s x h)

theorem writeBits_clean (bs : Bits) {s : State} (h : writerClean s) : writerClean (writeBits bs s) :=
  foldl_clean (fun _ b hs => writeBit_clean hs b) bs h

theorem flush_clean {s : State} (h : writerClean s) : writerClean (flush s) := by
  unfold flush
  split
  · exact Nat.zero_lt_one
  · exact h

theorem writeEntry_clean {s : State} (h : writerClean s) (b : Byte) : writerClean (writeEntry s b) :=
  flush_clean (writeBits_clean _ (writeBits_clean _ (writeBits_clean _ h)))

/-- Only WR_ACC and WR_N count. -/
theorem writerClean_congr {s t : State} (hacc : t.wrAcc = s.wrAcc) (hn : t.wrN = s.wrN) (h : writerClean s) :
    writerClean t := by
  unfold writerClean at h ⊢
  rw [hacc, hn]
  exact h

theorem writeHeader_clean {s : State} (h : writerClean s) : writerClean (writeHeader s) :=
  writerClean_congr (releaseEntIx_wrAcc _) (releaseEntIx_wrN _)
    (foldl_clean (fun _ b hs => writeEntry_clean hs b) _ (writeBits_clean _ h))

theorem writeCount_clean {s : State} (h : writerClean s) : writerClean (writeCount s) :=
  writerClean_congr (releaseByteIx_wrAcc _) (releaseByteIx_wrN _)
    (foldl_clean (fun _ _ hs => writeBits_clean _ hs) _ (writerClean_congr rfl rfl h))

theorem writeBody_clean {s : State} (h : writerClean s) : writerClean (writeBody s) :=
  writerClean_congr (releasePos_wrAcc _) (releasePos_wrN _)
    (foldl_clean (fun _ _ hs => writeBits_clean _ hs) _ h)

theorem writerClean_st {s : State} (c : CtrlState) (h : writerClean s) : writerClean { s with st := c } := h

theorem writeBlock_clean {s : State} (h : writerClean s) : writerClean (writeBlock s) :=
  flush_clean <| writeBody_clean <| writerClean_st _ <| writeCount_clean <| writerClean_st _ <| writeHeader_clean <|
    writerClean_st _ h

/-! ## Every other command keeps the invariant (30_encoding R121) -/

section Commands
variable {s t : State}

theorem Running.writer (h : Running s) (hw : WriterOnly s t) (hc : writerClean t) : Running t := by
  obtain ⟨_, _, _, rfl⟩ := hw
  exact { h with kept := { h.kept with writerZero := hc } }

theorem Running.st (h : Running s) (c : CtrlState) : Running { s with st := c } := { h with kept := { h.kept with } }

theorem rdbitsOp_boundary (n : BitVec 8) (h : Running s) : BoundaryInv (rdbitsOp n s) := by
  have hk := readBits_keeps (bitCount n) { s with st := .bitOp }
  obtain ⟨_, _, _, hr⟩ := readBits_only (bitCount n) { s with st := .bitOp }
  have hcand : (readBits (bitCount n) { s with st := .bitOp }).2.cand = [] := by rw [hr]; exact h.cand
  have hrun := (h.st .bitOp).keeps hk hcand
  exact Running.finishDone { hrun with kept := { hrun.kept with } }

theorem wrbitsOp_boundary (n : BitVec 8) (h : Running s) : BoundaryInv (wrbitsOp n s) :=
  ((h.st .bitOp).writer (writeBits_only _ _) (writeBits_clean _ h.kept.writerZero)).finishDone

theorem flushOp_boundary (h : Running s) : BoundaryInv (flushOp s) :=
  ((h.st .bitOp).writer (flush_only _) (flush_clean h.kept.writerZero)).finishDone

theorem clearTables_codesShort (h : CodesShort s) : CodesShort (clearTables s) := fun b => by
  show (tabGet (tabMap _ s.code) CodeEntry.blank b.toNat).bits.length ≤ 255
  rw [tabGet_tabMap _ s.code CodeEntry.blank _ b.isLt]
  exact h b

/-- `encode()` started in a running operation goes on with it, or raises FreqOverflow (R180, R185). -/
theorem encodeTables_running (h : Running s) : (encodeTables s).Meets Running BoundaryInv := by
  have hshort : CodesShort (clearTables { s with st := .building }) := clearTables_codesShort h.kept.codeLength
  refine (encodeTables_meets s).mono (fun t ht => ?_) fun t ht => ?_
  · obtain ⟨u, ⟨_, _, _, _, _, rfl⟩, hroot, rfl⟩ := ht
    obtain ⟨hcodes, hstack, hpath⟩ := assignCodes_ends hroot hshort h.stack h.path
    obtain ⟨cd, ws, pa, hw⟩ := assignCodes_walk
      { clearTables { s with st := .building } with node := _, pq := _, nint := _, rootValid := _, rootId := _ }
    rw [hw] at hcodes hstack hpath ⊢
    exact { h with kept := { h.kept with codeLength := hcodes }, queue := hroot.queue, path := hpath, stack := hstack }
  · obtain ⟨u, ⟨_, _, _, _, _, rfl⟩, rfl⟩ := ht
    refine Kept.raise ?_ _
    exact { h.kept with codeLength := hshort }

theorem encodeOp_boundary (h : Running s) : BoundaryInv (encodeOp s) := by
  refine Flow.Meets.state_ended ((encodeTables_running h).andThen fun t ht => ?_)
  exact ht.finishDone

/-- Writing a block keeps what the writer needs and touches no other clause of the invariant (R234 to R237). -/
theorem Running.writeBlock (h : Running s) : Running (writeBlock s) := by
  have hc := writeBlock_clean h.kept.writerZero
  obtain ⟨_, _, _, _, _, _, _, _, _, hb⟩ := writeBlock_block s
  rw [hb] at hc ⊢
  exact { h with kept := { h.kept with writerZero := hc } }

theorem countEntries_running (h : Running s) : (countEntries s).Meets Running BoundaryInv := by
  have hn : Running { s with nent := BitVec.ofNat 9 (presentBytes s).length } :=
    { h with
      kept := { h.kept with
        entryRange := by
          have := presentBytes_length s
          simp only [BitVec.toNat_ofNat]
          omega } }
  show Flow.Meets _ _ (if _ then _ else _)
  split
  · exact hn.kept.raise _
  · exact hn

theorem checkLen_running (h : Running s) : (checkLen s).Meets Running BoundaryInv := by
  unfold checkLen
  split
  · exact h.kept.raise _
  · exact h

theorem compressOp_boundary (h : Running s) : BoundaryInv (compressOp s) := by
  have hscan : ∀ t, Running t → Running (scan { t with st := .scanning }) :=
    fun t ht => { ht with kept := { ht.kept with } }
  refine Flow.Meets.state_ended ((checkLen_running h).andThen fun t ht => ?_)
  refine (encodeTables_running (hscan t ht)).andThen fun u hu => ?_
  exact (countEntries_running hu).andThen fun v hv => hv.writeBlock.finishDone

end Commands

/-- Every command keeps the invariant, executed or discarded. -/
theorem exec_command_boundary {i : Instr} (hi : i.isCommand = true) {s t : State} (h : BoundaryInv s)
    (ht : exec i s = .next t) : BoundaryInv t := by
  cases i with
  | rdbits n => exact acceptCommand_boundary (fun _ => rdbitsOp_boundary n) h ht
  | wrbits n => exact acceptCommand_boundary (fun _ => wrbitsOp_boundary n) h ht
  | flush => exact acceptCommand_boundary (fun _ => flushOp_boundary) h ht
  | encode => exact acceptCommand_boundary (fun _ => encodeOp_boundary) h ht
  | compress => exact acceptCommand_boundary (fun _ => compressOp_boundary) h ht
  | decompress => exact acceptCommand_boundary (fun _ => decompressOp_boundary) h ht
  | illegal op _ _ => exact acceptCommand_boundary (fun _ hs => hs.kept.raise (illegalCause op)) h ht
  | wireEntryCount _ | wireByteValue _ | wireCodeBitLength _ | wireCodeBits _ | wireTotalSymbolCount _ | wireBody _ =>
    cases hi

/-- A command word decodes to a command (R121, R123). -/
theorem decodeCommand_isCommand (w : CommandWord) : (decodeCommand w).isCommand = true := by
  unfold decodeCommand
  repeat' split
  all_goals rfl

theorem BoundaryInv.pending {s : State} (h : BoundaryInv s) (acts : List HostAction) :
    BoundaryInv { s with pending := acts } := { h with }

/-- Settles O55: with BUSY = 0 a step waits, acts for the host, or runs one command, alone or cut short by reset; each
of them keeps every clause. -/
theorem everyStepKeepsTheInvariant : Obligations.EveryStepKeepsTheInvariant := by
  intro s t h ht
  rcases step_boundary_cases h.notBusy with ⟨-, hs⟩ | ⟨w, rest, -, hs⟩ | ⟨w, rest, -, hs⟩ | ⟨a, rest, -, -, -, hs⟩ <;>
    rw [hs] at ht
  · cases ht
    exact h
  · exact exec_command_boundary (decodeCommand_isCommand w) (h.pending rest) ht
  · obtain ⟨u, hu⟩ := exec_answers (decodeCommand w) { s with pending := rest }
    rw [hu] at ht
    cases ht
    exact resetMachine_boundary h.configLegal
  · cases ht
    exact hostAction_boundary (h.pending rest) a

/-! ## OUT_LEN and the streams across a command (10_state R29, 20_memory R74, R77) -/

/-- The source has only been taken from at its front, and the sink only added to at its end. -/
structure Forward (s t : State) : Prop where
  src : t.src <:+ s.src
  snk : s.snk <+: t.snk

/-- The streams have moved forward and OUT_LEN is as before. -/
structure OutKept (s t : State) : Prop extends Forward s t where
  outLen : t.outLen = s.outLen

section Forward
variable {s t u : State}

theorem Forward.refl (s : State) : Forward s s := ⟨List.suffix_refl _, List.prefix_refl _⟩

theorem OutKept.refl (s : State) : OutKept s s := { Forward.refl s with outLen := rfl }

theorem OutKept.trans (h : OutKept s t) (h' : OutKept t u) : OutKept s u :=
  { src := h'.src.trans h.src
    snk := h.snk.trans h'.snk
    outLen := h'.outLen.trans h.outLen }

theorem TablesOnly.outKept (h : TablesOnly s t) : OutKept s t := by
  obtain ⟨_, _, _, _, _, _, _, _, _, rfl⟩ := h
  exact { OutKept.refl s with }

theorem BlockOnly.outKept (h : BlockOnly s t) : OutKept s t := by
  obtain ⟨_, _, vs, _, _, _, _, _, _, rfl⟩ := h
  exact { OutKept.refl s with snk := List.prefix_append _ vs }

theorem OutKept.finishDone (h : OutKept s t) : OutKept s (finishDone t) := { h with }

/-- Fault entry for a cause of another command keeps OUT_LEN (R290). -/
theorem OutKept.raise (h : OutKept s t) {c : Cause} (hc : c.inDecompress = false) : OutKept s (raise c t) :=
  { h with
    outLen := by
      rw [raise_outLen, hc]
      exact h.outLen }

theorem rdbitsOp_outKept (n : BitVec 8) (s : State) : OutKept s (rdbitsOp n s) := by
  have hsrc := (readBits_keeps (bitCount n) { s with st := .bitOp }).src
  have hread : OutKept s (readBits (bitCount n) { s with st := .bitOp }).2 := by
    obtain ⟨_, _, _, hr⟩ := readBits_only (bitCount n) { s with st := .bitOp }
    rw [hr] at hsrc ⊢
    exact { OutKept.refl s with src := hsrc }
  exact { hread with }

theorem wrbitsOp_outKept (n : BitVec 8) (s : State) : OutKept s (wrbitsOp n s) :=
  ((blockOnly_st s _).trans (writeBits_only _ _).block).outKept.finishDone

theorem flushOp_outKept (s : State) : OutKept s (flushOp s) :=
  ((blockOnly_st s _).trans (flush_only _).block).outKept.finishDone

theorem encodeOp_outKept (s : State) : OutKept s (encodeOp s) := by
  obtain ⟨t, ht, h | h⟩ := encodeOp_cases s <;> rw [h]
  · exact ((blockOnly_st s _).outKept.trans ht.outKept).finishDone
  · exact ((blockOnly_st s _).outKept.trans ht.outKept).raise rfl

theorem compressOp_outKept (s : State) : OutKept s (compressOp s) := by
  rcases compressOp_cases s with ⟨-, h⟩ | ⟨-, t, ht, hcase⟩
  · rw [h]
    exact (OutKept.refl s).raise rfl
  have hscan : OutKept s { scan { s with st := .scanning } with st := .building } := { OutKept.refl s with }
  have htables := hscan.trans ht.outKept
  have hnent : ∀ n, OutKept s { t with nent := n } := fun _ => { htables with }
  rcases hcase with h | ⟨-, h⟩ | ⟨-, h⟩ <;> rw [h]
  · exact htables.raise rfl
  · exact (hnent _).raise rfl
  · exact ((hnent _).trans (writeBlock_block _).outKept).finishDone

/-- An illegal word is no cause of DECOMPRESS (R287). -/
theorem illegalCause_inDecompress (op : BitVec 4) : (illegalCause op).inDecompress = false := by
  unfold illegalCause
  split <;> rfl

theorem decompressOp_forward (s : State) : Forward s (decompressOp s) := by
  have hsrc : (decompressOp s).src <:+ s.src := by
    have hend := decompressOp_delivery s
    generalize decompressOp s = t at hend ⊢
    cases hend with
    | done hk _ _ => exact hk.src
    | cleanEOF hk _ _ => exact hk.src
    | fault hk _ => exact hk.src
  obtain ⟨_, _, _, _, _, _, _, _, _, _, _, _, _, _, _, _, _, _, _, _, _, _, _, hd⟩ := decompressOp_decode s
  rw [hd] at hsrc ⊢
  exact ⟨hsrc, List.prefix_refl _⟩

/-- A relation between before and after that every run of the operation meets is met by the command, executed or
discarded; BUSY is set before the operation begins (R33, R291). -/
theorem acceptCommand_relates {R : State → State → Prop} (hrefl : R s s) {op : State → State}
    (hop : R s (op { s with busy := true })) (ht : acceptCommand op s = .next t) : R s t := by
  rcases acceptCommand_cases ht with ⟨-, rfl⟩ | ⟨-, rfl⟩
  · exact hrefl
  · exact hop

theorem acceptCommand_outKept {op : State → State} (hop : ∀ s, OutKept s (op s))
    (ht : acceptCommand op s = .next t) : OutKept s t :=
  acceptCommand_relates (.refl s) { hop { s with busy := true } with } ht

/-- No command but DECOMPRESS changes OUT_LEN (R29). -/
theorem exec_outKept {i : Instr} (hi : i.isCommand = true) (hne : i ≠ .decompress) (ht : exec i s = .next t) :
    OutKept s t := by
  cases i with
  | rdbits n => exact acceptCommand_outKept (rdbitsOp_outKept n) ht
  | wrbits n => exact acceptCommand_outKept (wrbitsOp_outKept n) ht
  | flush => exact acceptCommand_outKept flushOp_outKept ht
  | encode => exact acceptCommand_outKept encodeOp_outKept ht
  | compress => exact acceptCommand_outKept compressOp_outKept ht
  | decompress => exact absurd rfl hne
  | illegal op _ _ =>
    exact acceptCommand_outKept (fun u => (OutKept.refl u).raise (illegalCause_inDecompress op)) ht
  | wireEntryCount _ | wireByteValue _ | wireCodeBitLength _ | wireCodeBits _ | wireTotalSymbolCount _ | wireBody _ =>
    cases hi

/-- No command takes a stream back (R74, R77). -/
theorem exec_command_forward {i : Instr} (hi : i.isCommand = true) (ht : exec i s = .next t) : Forward s t := by
  by_cases hd : i = .decompress
  · subst hd
    exact acceptCommand_relates (.refl s) { decompressOp_forward { s with busy := true } with } ht
  · exact (exec_outKept hi hd ht).toForward

end Forward

/-- Settles O40: the body ends Done with DECODED = TOTAL, every other end leaves or makes OUT_LEN 0, and no other
command writes it. -/
theorem outLenOnlyAfterDone : Obligations.OutLenOnlyAfterDone := by
  refine ⟨fun s hst => ⟨decompressOp { s with busy := true }, acceptCommand_run hst, ?_⟩,
    fun i s t hi hne ht => (exec_outKept hi hne ht).outLen⟩
  have hend := decompressOp_delivery { s with busy := true }
  generalize decompressOp { s with busy := true } = t at hend ⊢
  cases hend with
  | done _ _ hout => exact ⟨fun _ => hout, fun hne => absurd rfl hne⟩
  | cleanEOF _ _ hout => exact ⟨(nomatch ·), fun _ => hout⟩
  | fault _ hc => exact ⟨(nomatch ·), fun _ => by simp [hc]⟩

/-! ## Reset (10_state R54, 70_reset_and_hazards R320, R321) -/

/-- A reset that is the host's next action comes first, whatever runs (R320). -/
theorem step_reset {s : State} {rest : List HostAction} (hp : s.pending = .reset :: rest) :
    step s = .next (resetMachine { s with pending := rest }) := by
  simp [step, fetch, resetPending, fetchAction, hostAction, hp]

theorem step_commandReset {s : State} {w : CommandWord} {rest : List HostAction} (hb : s.busy = false)
    (hp : s.pending = .commandReset w :: rest) :
    step s = resetOutcome { s with pending := rest } (exec (decodeCommand w) { s with pending := rest }) := by
  simp [step, fetch, resetPending, fieldDue, fetchAction, hb, hp]

/-- Dropping at most what has been consumed of a stream leaves a point between before and after. -/
theorem drop_between {α : Type} {before after : List α} (h : after <:+ before) (k : Nat) :
    ∃ gone left, before = gone ++ before.drop (min k (before.length - after.length)) ∧
      before.drop (min k (before.length - after.length)) = left ++ after := by
  obtain ⟨taken, rfl⟩ := h
  refine ⟨taken.take k, taken.drop k, ?_⟩
  have hlen : (taken ++ after).length - after.length = taken.length := by simp
  have hdrop : (taken ++ after).drop (min k taken.length) = taken.drop k ++ after := by
    rw [List.drop_append_of_le_length (Nat.min_le_right ..), ← List.drop_eq_drop_min]
  rw [hlen, hdrop, ← List.append_assoc, List.take_append_drop]
  exact ⟨rfl, rfl⟩

/-- Settles O53: `resetMachine` gives the values of R54 in every state, and `resetDuring` cuts both streams between
before and after the command. -/
theorem resetGivesTheTabledValues : Obligations.ResetGivesTheTabledValues := by
  refine ⟨fun s rest hp => ⟨_, step_reset hp, resetMachine_values _, rfl, rfl, rfl, rfl⟩, fun s w rest hb hp => ?_⟩
  obtain ⟨u, hu⟩ := exec_answers (decodeCommand w) { s with pending := rest }
  obtain ⟨hsrc, lost, hsnk⟩ := exec_command_forward (decodeCommand_isCommand w) hu
  obtain ⟨gone, left, hgone, hleft⟩ := drop_between hsrc (Config.freeCut s.freeTick)
  have hstep : step s = .next (resetDuring { s with pending := rest } u) := by
    rw [step_commandReset hb hp, hu]
    rfl
  have hnew : u.snk.drop s.snk.length = lost := by
    rw [← hsnk]
    exact List.drop_left
  refine ⟨_, u, gone, left, lost.take (Config.freeCut (s.freeTick + 1)), lost.drop (Config.freeCut (s.freeTick + 1)),
    hstep, hu, resetMachine_values _, hgone, hleft, ?_, ?_, rfl, rfl⟩
  · show s.snk ++ (u.snk.drop s.snk.length).take (Config.freeCut (s.freeTick + 1)) = _
    rw [hnew]
  · show u.snk = s.snk ++ (u.snk.drop s.snk.length).take (Config.freeCut (s.freeTick + 1)) ++ _
    rw [hnew, List.append_assoc, List.take_append_drop]
    exact hsnk.symm

end Sys2Proof.Machine
end

section
/-! SUPPORT. The statements of 10_state, third part: what the host's accesses read and write. -/

namespace Sys2Proof.Machine

/-! ## The spaces of the register map (10_state R36) -/

section Spaces
variable (s : State) (index : BitVec 32)

theorem hostRead_ibuf : hostRead s 1 index =
    if index.toNat < s.config.blockMax.toNat then (ibufByte s index.toNat).setWidth 64 else 0 := rfl

theorem hostRead_obuf : hostRead s 2 index =
    if index.toNat < s.config.blockMax.toNat then (obufByte s index.toNat).setWidth 64 else 0 := rfl

theorem hostRead_freq : hostRead s 3 index = if index.toNat < 256 then tabGet s.freq 0 index.toNat else 0 := rfl

theorem hostRead_bitbuf : hostRead s 6 index = if index.toNat < 4 then bitbufWord s index.toNat else 0 := rfl

end Spaces

/-- Space 0 has twelve registers. -/
theorem csrRead_reserved {s : State} {i : Nat} (h : 12 ≤ i) : csrRead s i = 0 := by
  obtain ⟨k, rfl⟩ := Nat.exists_eq_add_of_le' h
  rfl

/-! ## BITBUF, element by element (R34, R36) -/

theorem bitbufWord_getLsbD (s : State) (w j : Nat) :
    (bitbufWord s w).getLsbD j = (decide (j < 64) && s.bitbuf.getLsbD (64 * w + j)) := by
  simp [bitbufWord, BitVec.getLsbD_setWidth, BitVec.getLsbD_ushiftRight]

/-- The mask of word w covers its 64 elements. -/
theorem wordMask_getLsbD (w i : Nat) (hi : i < 255) :
    (0xFFFFFFFFFFFFFFFF#255 <<< (64 * w)).getLsbD i = decide (64 * w ≤ i ∧ i < 64 * w + 64) := by
  rw [show (0xFFFFFFFFFFFFFFFF#255) = (BitVec.allOnes 64).setWidth 255 by decide]
  rw [Bool.eq_iff_iff]
  simp only [BitVec.getLsbD_shiftLeft, BitVec.getLsbD_setWidth, BitVec.getLsbD_allOnes, Bool.and_eq_true,
    decide_eq_true_eq, Bool.not_eq_true', decide_eq_false_iff_not]
  omega

/-- After a write of word w an element inside the word is the data's, one outside is as before. -/
theorem bitbufWrite_getLsbD (s : State) (w : Nat) (data : BitVec 64) {i : Nat} (hi : i < 255) :
    (bitbufWrite s w data).bitbuf.getLsbD i =
      if 64 * w ≤ i ∧ i < 64 * w + 64 then data.getLsbD (i - 64 * w) else s.bitbuf.getLsbD i := by
  simp only [bitbufWrite, BitVec.getLsbD_or, BitVec.getLsbD_and, BitVec.getLsbD_not, wordMask_getLsbD w i hi,
    BitVec.getLsbD_shiftLeft, BitVec.getLsbD_setWidth, hi]
  by_cases hlow : 64 * w ≤ i
  · by_cases hhigh : i < 64 * w + 64
    · simp [hlow, hhigh, show ¬ i < 64 * w by omega, show i - 64 * w < 255 by omega]
    · simp [hlow, hhigh, show ¬ i < 64 * w by omega, BitVec.getLsbD_of_ge data (i - 64 * w) (by omega)]
  · simp [hlow, show i < 64 * w by omega]

/-- A word reads back as written but for the element 255, which does not exist (R36). -/
theorem bitbufWord_bitbufWrite (s : State) (w : Nat) (data : BitVec 64) (j : Nat) :
    (bitbufWord (bitbufWrite s w data) w).getLsbD j = (decide (64 * w + j < 255) && data.getLsbD j) := by
  rw [bitbufWord_getLsbD]
  by_cases hj : j < 64
  · by_cases hi : 64 * w + j < 255
    · rw [bitbufWrite_getLsbD s w data hi, if_pos ⟨by omega, by omega⟩, Nat.add_sub_cancel_left]
      simp [hj, hi]
    · rw [BitVec.getLsbD_of_ge _ _ (by omega)]
      simp [hi]
  · rw [BitVec.getLsbD_of_ge data j (by omega)]
    simp [hj]

/-- Another word is not written. -/
theorem bitbufWord_bitbufWrite_other (s : State) {w w' : Nat} (data : BitVec 64) (h : w' ≠ w) :
    bitbufWord (bitbufWrite s w data) w' = bitbufWord s w' := by
  refine BitVec.eq_of_getLsbD_eq fun j hj => ?_
  rw [bitbufWord_getLsbD, bitbufWord_getLsbD]
  by_cases hi : 64 * w' + j < 255
  · rw [bitbufWrite_getLsbD s w data hi, if_neg (by omega)]
  · rw [BitVec.getLsbD_of_ge _ _ (by omega), BitVec.getLsbD_of_ge _ _ (by omega)]

/-- Settles O58: each location reads back the bits it holds. -/
theorem hostWritesReadBack : Obligations.HostWritesReadBack := by
  refine ⟨fun s data => rfl, fun s index data hi => ?_, fun s index data hi => ?_, fun s index data hi => ?_,
    fun s data => ?_⟩
  · have hw : hostWrite s 1 index data = { s with ibuf := memStore s.ibuf index.toNat (data.setWidth 8) } := if_pos hi
    rw [hw, hostRead_ibuf, if_pos hi, ibufByte, memFind_memStore, if_pos rfl]
    rfl
  · have hw : hostWrite s 3 index data = { s with freq := tabSet s.freq index.toNat data } := if_pos hi
    rw [hw, hostRead_freq, if_pos hi, tabGet_tabSet_same _ _ _ hi]
  · have hw : hostWrite s 6 index data = bitbufWrite s index.toNat data := if_pos (by omega)
    rw [hw, hostRead_bitbuf, if_pos (by omega)]
    refine BitVec.eq_of_getLsbD_eq fun j hj => ?_
    rw [bitbufWord_bitbufWrite]
    simp [show 64 * index.toNat + j < 255 by omega]
  · have hw : hostWrite s 6 3 data = bitbufWrite s 3 data := rfl
    rw [hw]
    show bitbufWord (bitbufWrite s 3 data) 3 = _
    refine BitVec.eq_of_getLsbD_eq fun j hj => ?_
    rw [bitbufWord_bitbufWrite, BitVec.getLsbD_setWidth, BitVec.getLsbD_setWidth]
    simp [hj, show (192 + j < 255) = (j < 63) by simp; omega]

/-! ## What a write leaves unchanged (R37) -/

section Elsewhere
variable (s : State) (l : Count) (m : Memory) (f : Vector Count 256) (b : BitVec 255)

/-- Of the fields the host writes, space 0 shows LEN alone. -/
theorem csrRead_congr {i : Nat} (hl : i = 1 → l = s.len) :
    csrRead { s with len := l, ibuf := m, freq := f, bitbuf := b } i = csrRead s i := by
  match i, hl with
  | 1, hl => exact hl rfl
  | 0, _ | 2, _ | 3, _ | 4, _ | 5, _ | 6, _ | 7, _ | 8, _ | 9, _ | 10, _ | 11, _ | _ + 12, _ => rfl

/-- Of the fields the host writes, each shows in one space alone, so a read that finds its own location unchanged
answers as before. -/
theorem hostRead_congr {space : BitVec 4} {index : BitVec 32} (hl : space = 0 → index = 1 → l = s.len)
    (hm : space = 1 → memFind m index.toNat = memFind s.ibuf index.toNat)
    (hf : space = 3 → tabGet f 0 index.toNat = tabGet s.freq 0 index.toNat)
    (hb : space = 6 → bitbufWord { s with bitbuf := b } index.toNat = bitbufWord s index.toNat) :
    hostRead { s with len := l, ibuf := m, freq := f, bitbuf := b } space index = hostRead s space index := by
  have hspace : ∀ k : BitVec 4, space.toNat = k.toNat → space = k := fun _ => BitVec.eq_of_toNat_eq
  replace hl : space.toNat = 0 → index.toNat = 1 → l = s.len := fun h h' => hl (hspace 0 h) (BitVec.eq_of_toNat_eq h')
  replace hm := fun h => hm (hspace 1 h)
  replace hf := fun h => hf (hspace 3 h)
  replace hb := fun h => hb (hspace 6 h)
  clear hspace
  unfold hostRead
  generalize space.toNat = n at hl hm hf hb ⊢
  match n, hl, hm, hf, hb with
  | 0, hl, _, _, _ => exact csrRead_congr s l m f b (hl rfl)
  | 1, _, hm, _, _ =>
    show (if _ then ((memFind m index.toNat).getD _).setWidth 64 else 0) = _
    rw [hm rfl]
    rfl
  | 2, _, _, _, _ => rfl
  | 3, _, _, hf, _ =>
    show (if _ then tabGet f 0 index.toNat else 0) = _
    rw [hf rfl]
    rfl
  | 4, _, _, _, _ | 5, _, _, _, _ => rfl
  | 6, _, _, _, hb =>
    show (if _ then bitbufWord { s with bitbuf := b } index.toNat else 0) = _
    rw [hb rfl]
    rfl
  | 7, _, _, _, _ | 8, _, _, _, _ | 9, _, _, _, _ | _ + 10, _, _, _, _ => rfl

/-- A write changes what is read at its own location alone (R37). -/
theorem hostRead_hostWrite_other {space space' : BitVec 4} {index index' : BitVec 32} (data : BitVec 64)
    (hne : ¬ (space' = space ∧ index' = index)) :
    hostRead (hostWrite s space index data) space' index' = hostRead s space' index' := by
  have hindex : space' = space → index.toNat ≠ index'.toNat := fun hs hi =>
    hne ⟨hs, (BitVec.eq_of_toNat_eq hi).symm⟩
  rcases hostWrite_cases s space index data with ⟨rfl, rfl, hw⟩ | ⟨rfl, -, hw⟩ | ⟨rfl, -, hw⟩ | ⟨rfl, -, hw⟩ |
    ⟨-, hw⟩ <;> rw [hw]
  · exact hostRead_congr s data s.ibuf s.freq s.bitbuf (fun h0 h1 => (hne ⟨h0, h1⟩).elim) (fun _ => rfl) (fun _ => rfl)
      fun _ => rfl
  · refine hostRead_congr s s.len _ s.freq s.bitbuf (fun _ _ => rfl) (fun h => ?_) (fun _ => rfl) fun _ => rfl
    rw [memFind_memStore, if_neg (hindex h)]
  · exact hostRead_congr s s.len s.ibuf _ s.bitbuf (fun _ _ => rfl) (fun _ => rfl)
      (fun h => tabGet_tabSet_other _ _ _ (hindex h)) fun _ => rfl
  · exact hostRead_congr s s.len s.ibuf s.freq _ (fun _ _ => rfl) (fun _ => rfl) (fun _ => rfl)
      fun h => bitbufWord_bitbufWrite_other s data (hindex h).symm

end Elsewhere

/-! ## Reserved locations, and accesses while BUSY = 1 (R33, R37) -/

/-- A location that does not exist reads 0. -/
theorem hostRead_unmapped {s : State} {space : BitVec 4} {index : BitVec 32} (h : hostMapped s space index = false) :
    hostRead s space index = 0 := by
  unfold hostMapped at h
  unfold hostRead
  generalize space.toNat = n at h ⊢
  match n, h with
  | 0, h => exact csrRead_reserved (Nat.le_of_not_lt (of_decide_eq_false h))
  | 1, h | 2, h | 3, h | 4, h | 5, h | 6, h | 7, h | 8, h | 9, h => exact if_neg (of_decide_eq_false h)
  | _ + 10, _ => rfl

theorem hostWrite_unwritable {s : State} {space : BitVec 4} {index : BitVec 32} (data : BitVec 64)
    (h : hostWritable s space index = false) : hostWrite s space index data = s := by
  rcases hostWrite_cases s space index data with ⟨rfl, rfl, -⟩ | ⟨rfl, hi, -⟩ | ⟨rfl, hi, -⟩ | ⟨rfl, hi, -⟩ | ⟨-, hw⟩
  · cases h
  · simp [hostWritable, hi] at h
  · simp [hostWritable, hi] at h
  · simp [hostWritable, hi] at h
  · exact hw

theorem getField_decode (s : State) : DecodeOnly s (getField s).state := by
  unfold getField
  cases s.field with
  | entryCount => exact getEntryCount_decode s
  | byteValue => exact getByteValue_decode s
  | codeBitLength => exact getCodeBitLength_decode s
  | codeBits => exact getCodeBits_decode s
  | totalSymbolCount => exact getTotalCount_decode s
  | body => exact getBodyBit_decode s

theorem acceptField_decode {take : State → Flow} (htake : ∀ s, DecodeOnly s (take s).state) {s t : State}
    (ht : acceptField take s = .next t) : DecodeOnly s t := by
  by_cases hst : s.st = .fault
  · rw [acceptField_fault hst] at ht
    cases ht
    exact .refl s
  · rw [acceptField_run hst] at ht
    cases ht
    exact htake s

/-- Taking a wire field is the decoder's work alone (Log 8). -/
theorem exec_fieldOfBits_decode {shape : FieldShape} {bs : Bits} {s t : State}
    (ht : exec (fieldOfBits shape bs) s = .next t) : DecodeOnly s t := by
  cases shape with
  | entryCount => exact acceptField_decode (takeEntryCount_decode _) ht
  | byteValue => exact acceptField_decode (takeByteValue_decode _) ht
  | codeBitLength => exact acceptField_decode (takeCodeBitLength_decode _) ht
  | codeBits n => exact acceptField_decode (takeCodeBits_decode _) ht
  | totalSymbolCount => exact acceptField_decode (takeTotalCount_decode _) ht
  | body n => exact acceptField_decode (takeBody_decode _) ht

/-- While BUSY = 1 a step takes the field due in a DECOMPRESS, unless reset comes first (R325; Logs 8, 9). -/
theorem step_busy_decode {s t : State} (hb : s.busy = true) (hr : resetPending s = false) (ht : step s = .next t) :
    DecodeOnly s t := by
  have hget := getField_decode s
  by_cases hd : fieldDue s = true
  · cases hg : getField s with
    | bits bs u =>
      rw [hg] at hget
      rw [step_of_fetch_instr (fetch_field hd hr hg)] at ht
      exact hget.trans (exec_fieldOfBits_decode ht)
    | ended u =>
      rw [hg] at hget
      have hstep : step s = .next u := by simp [step, fetch, fetchField, hd, hr, hg]
      cases hstep.symm.trans ht
      exact hget
  · have hstep : step s = .fault .midOperation := by simp [step, fetch, hd, hr, hb]
    cases hstep.symm.trans ht

/-- An access is performed once BUSY = 0. -/
theorem step_hostAction {s : State} {a : HostAction} {rest : List HostAction} (hb : s.busy = false)
    (hp : s.pending = a :: rest) (hc : ∀ w, a ≠ .command w) (hr : ∀ w, a ≠ .commandReset w) :
    step s = .next (hostAction a { s with pending := rest }) := by
  rcases step_boundary_cases hb with ⟨h, -⟩ | ⟨w, _, h, -⟩ | ⟨w, _, h, -⟩ | ⟨_, _, h, -, -, hs⟩ <;> rw [hp] at h
  · cases h
  · exact absurd (List.cons.inj h).1 (hc w)
  · exact absurd (List.cons.inj h).1 (hr w)
  · cases h
    exact hs

/-- Settles O57: the access rules of R37, one lemma for each. -/
theorem hostAccessRules : Obligations.HostAccessRules := by
  refine ⟨fun s space index data => hostWrite_unwritable data, fun s space index => hostRead_unmapped,
    fun s space index data space' index' _ => hostRead_hostWrite_other s data, fun s space index data => ?_,
    fun s space index rest hb hp => step_hostAction hb hp (fun _ => nofun) fun _ => nofun,
    fun s space index data rest hb hp => step_hostAction hb hp (fun _ => nofun) fun _ => nofun,
    fun s t a rest hb hp ha ht => ?_⟩
  · rcases hostWrite_cases s space index data with ⟨-, -, h⟩ | ⟨-, -, h⟩ | ⟨-, -, h⟩ | ⟨-, -, h⟩ | ⟨-, h⟩ <;>
      exact ⟨_, _, _, _, h⟩
  · have hr : resetPending s = false := by
      unfold resetPending
      rw [hp]
      split
      · rename_i h
        exact absurd (List.cons.inj h).1 ha
      · rfl
    obtain ⟨_, _, _, _, _, _, _, _, _, _, _, _, _, _, _, _, _, _, _, _, _, _, _, hd⟩ := step_busy_decode hb hr ht
    rw [hd]
    exact hp


/-! ## What the words show (10_state R35, R36)

Each word is its fields side by side, the lowest last. -/

section Fields
variable {v w : Nat} {hi : BitVec v} {lo : BitVec w}

/-- A field inside the lowest one stands where it stands there. -/
theorem field_within {start len : Nat} {x : BitVec len} (hx : lo.extractLsb' start len = x)
    (h : start + len ≤ w := by decide) : (hi ++ lo).extractLsb' start len = x := by
  rw [BitVec.extractLsb'_append_eq_of_add_le h, hx]

theorem field_lowest : (hi ++ lo).extractLsb' 0 w = lo :=
  field_within BitVec.extractLsb'_eq_self (Nat.le_of_eq (Nat.zero_add w))

/-- A field above the lowest one stands in the rest of the word. -/
theorem field_above {start len : Nat} {x : BitVec len} (hx : hi.extractLsb' (start - w) len = x)
    (h : w ≤ start := by decide) : (hi ++ lo).extractLsb' start len = x := by
  rw [BitVec.extractLsb'_append_eq_of_le h, hx]

end Fields

theorem stateCodes_toBits : ∀ p ∈ stateCodes, p.1.toBits = p.2 := by decide

theorem classCodes_toBits : ∀ p ∈ classCodes, p.1.toBits = p.2 := by decide

section Words
variable (s : State)

theorem statusWord_fields :
    (statusWord s).extractLsb' 0 4 = s.st.toBits ∧ (statusWord s).extractLsb' 4 4 = s.err.toBits ∧
      (statusWord s).extractLsb' 8 4 = s.errSub ∧ (statusWord s).extractLsb' 12 4 = s.errSt.toBits ∧
      (statusWord s).extractLsb' 16 1 = BitVec.ofBool s.busy ∧ (statusWord s).extractLsb' 17 47 = 0 :=
  ⟨field_lowest, field_above field_lowest, field_above (field_above field_lowest),
    field_above (field_above (field_above field_lowest)),
    field_above (field_above (field_above (field_above field_lowest))),
    field_above (field_above (field_above (field_above (field_above BitVec.extractLsb'_eq_self))))⟩

/-- RDSTATE, CSR 6: RD_LEFT over RD_BYTE. -/
theorem readerWord_fields :
    (hostRead s 0 6).extractLsb' 0 8 = s.rdByte ∧ (hostRead s 0 6).extractLsb' 8 4 = s.rdLeft ∧
      (hostRead s 0 6).extractLsb' 12 52 = 0 := by
  have hword : hostRead s 0 6 = 0#52 ++ s.rdLeft ++ s.rdByte := rfl
  rw [hword]
  exact ⟨field_lowest, field_above field_lowest, field_above (field_above BitVec.extractLsb'_eq_self)⟩

/-- WRSTATE, CSR 7: WR_N over WR_ACC. -/
theorem writerWord_fields :
    (hostRead s 0 7).extractLsb' 0 8 = s.wrAcc ∧ (hostRead s 0 7).extractLsb' 8 3 = s.wrN ∧
      (hostRead s 0 7).extractLsb' 11 53 = 0 := by
  have hword : hostRead s 0 7 = 0#53 ++ s.wrN ++ s.wrAcc := rfl
  rw [hword]
  exact ⟨field_lowest, field_above field_lowest, field_above (field_above BitVec.extractLsb'_eq_self)⟩

theorem rootWord_fields :
    (s.rootValid = true → (rootWord s).extractLsb' 0 9 = s.rootId) ∧
      (rootWord s).extractLsb' 9 1 = BitVec.ofBool s.rootValid ∧ (rootWord s).extractLsb' 10 54 = 0 :=
  ⟨fun hv => field_lowest.trans (if_pos hv), field_above field_lowest,
    field_above (field_above BitVec.extractLsb'_eq_self)⟩

theorem codeInfoWord_fields (b : Byte) :
    (codeInfoWord s b.toNat).extractLsb' 8 1 = BitVec.ofBool (codeAt s b).valid ∧
      (codeInfoWord s b.toNat).extractLsb' 9 55 = 0 ∧
      ((codeAt s b).valid = true → (codeInfoWord s b.toNat).extractLsb' 0 8 = (codeAt s b).len) :=
  ⟨field_above field_lowest, field_above (field_above BitVec.extractLsb'_eq_self),
    fun hv => field_lowest.trans (if_pos hv)⟩

theorem nodeInfoWord_fields (n : NodeId) :
    (nodeInfoWord s n.toNat).extractLsb' 27 1 = BitVec.ofBool (nodeAt s n).valid ∧
      (nodeInfoWord s n.toNat).extractLsb' 28 36 = 0 ∧
      ((nodeAt s n).valid = true →
        (nodeInfoWord s n.toNat).extractLsb' 26 1 = BitVec.ofBool (nodeAt s n).isLeaf ∧
          ((nodeAt s n).isLeaf = true → (nodeInfoWord s n.toNat).extractLsb' 18 8 = (nodeAt s n).sym) ∧
          ((nodeAt s n).isLeaf = false →
            (nodeInfoWord s n.toNat).extractLsb' 0 9 = (nodeAt s n).left ∧
              (nodeInfoWord s n.toNat).extractLsb' 9 9 = (nodeAt s n).right)) := by
  have hleaf : (nodeAt s n).valid = true → (nodeAt s n).isLeaf = true →
      ((nodeAt s n).valid && (nodeAt s n).isLeaf) = true := fun hv hl => by rw [hv, hl]; rfl
  have hinner : (nodeAt s n).valid = true → (nodeAt s n).isLeaf = false →
      ((nodeAt s n).valid && !(nodeAt s n).isLeaf) = true := fun hv hl => by rw [hv, hl]; rfl
  exact ⟨field_above (field_above (field_above (field_above field_lowest))),
    field_above (field_above (field_above (field_above (field_above BitVec.extractLsb'_eq_self)))),
    fun hv => ⟨(field_above (field_above (field_above field_lowest))).trans (if_pos hv),
      fun hl => (field_above (field_above field_lowest)).trans (if_pos (hleaf hv hl)),
      fun hl => ⟨field_lowest.trans (if_pos (hinner hv hl)),
        (field_above field_lowest).trans (if_pos (hinner hv hl))⟩⟩⟩

theorem decInfoWord_fields (e : Nat) :
    (decInfoWord s e).extractLsb' 16 1 = BitVec.ofBool (decAt s e).valid ∧
      (decInfoWord s e).extractLsb' 17 47 = 0 ∧
      ((decAt s e).valid = true →
        (decInfoWord s e).extractLsb' 0 8 = (decAt s e).len ∧ (decInfoWord s e).extractLsb' 8 8 = (decAt s e).sym) := by
  have hword : decInfoWord s e = 0#47 ++ BitVec.ofBool (decAt s e).valid ++
      (if (decAt s e).valid then (decAt s e).sym ++ (decAt s e).len else (freeDec s 8 e).setWidth 16) := rfl
  refine ⟨field_above field_lowest, field_above (field_above BitVec.extractLsb'_eq_self), fun hv => ?_⟩
  rw [hword, if_pos hv]
  exact ⟨field_within field_lowest, field_within (field_above BitVec.extractLsb'_eq_self)⟩

/-- A 32-bit index below the size of a table stands for itself. -/
theorem index_toNat {i k : Nat} (hi : i < k) (hk : k ≤ 2 ^ 32) : (BitVec.ofNat 32 i).toNat = i := by
  rw [BitVec.toNat_ofNat, Nat.mod_eq_of_lt (Nat.lt_of_lt_of_le hi hk)]

theorem byteIndex_toNat (b : Byte) : (b.setWidth 32).toNat = b.toNat := by
  rw [BitVec.toNat_setWidth, Nat.mod_eq_of_lt (by omega)]

/-- Space 5 shows the Code of a valid entry, word by word. -/
theorem codeBitsWord_shows {b : Byte} (hv : (codeAt s b).valid = true) {w : Nat} (hw : w < 4) :
    ShowsBits (hostRead s 5 (BitVec.ofNat 32 (4 * b.toNat + w))) (codeAt s b).bits w := by
  have hi : 4 * b.toNat + w < 1024 := by omega
  have hword : hostRead s 5 (BitVec.ofNat 32 (4 * b.toNat + w)) = codeBitsWord s (4 * b.toNat + w) := by
    show (if _ < 1024 then codeBitsWord s _ else 0) = _
    rw [index_toNat hi (by decide), if_pos hi]
  have hbits : codeBitsWord s (4 * b.toNat + w) = bitsWord (codeAt s b).bits w := by
    unfold codeBitsWord
    rw [show (4 * b.toNat + w) / 4 = b.toNat by omega, show (4 * b.toNat + w) % 4 = w by omega]
    exact if_pos hv
  rw [hword, hbits]
  exact bitsWord_shows _ w

/-- Space 9 shows the Code of a valid entry of DEC, word by word. -/
theorem decBitsWord_shows {e : Nat} (he : e < 255) (hv : (decAt s e).valid = true) {w : Nat} (hw : w < 4) :
    ShowsBits (hostRead s 9 (BitVec.ofNat 32 (4 * e + w))) (decAt s e).bits w := by
  have hi : 4 * e + w < 1020 := by omega
  have hword : hostRead s 9 (BitVec.ofNat 32 (4 * e + w)) = decBitsWord s (4 * e + w) := by
    show (if _ < 1020 then decBitsWord s _ else 0) = _
    rw [index_toNat hi (by decide), if_pos hi]
  have hbits : decBitsWord s (4 * e + w) = bitsWord (decAt s e).bits w := by
    unfold decBitsWord
    rw [show (4 * e + w) / 4 = e by omega, show (4 * e + w) % 4 = w by omega]
    exact if_pos hv
  rw [hword, hbits]
  exact bitsWord_shows _ w

theorem hostRead_codeInfo (b : Byte) : hostRead s 4 (b.setWidth 32) = codeInfoWord s b.toNat := by
  show (if _ < 256 then codeInfoWord s _ else 0) = _
  rw [byteIndex_toNat, if_pos b.isLt]

theorem hostRead_decInfo {e : Nat} (he : e < 255) : hostRead s 8 (BitVec.ofNat 32 e) = decInfoWord s e := by
  show (if _ < 255 then decInfoWord s _ else 0) = _
  rw [index_toNat he (by decide), if_pos he]

/-- Space 7: the frequency at the even index, the info word at the odd one. -/
theorem hostRead_node {n : NodeId} (hn : n.toNat < 511) :
    hostRead s 7 (BitVec.ofNat 32 (2 * n.toNat)) = nodeFreqWord s n.toNat ∧
      hostRead s 7 (BitVec.ofNat 32 (2 * n.toNat + 1)) = nodeInfoWord s n.toNat := by
  have hspace : ∀ i, i < 1022 → hostRead s 7 (BitVec.ofNat 32 i) =
      if i % 2 = 0 then nodeFreqWord s (i / 2) else nodeInfoWord s (i / 2) := fun i hi => by
    show (if _ < 1022 then (if _ % 2 = 0 then nodeFreqWord s _ else nodeInfoWord s _) else 0) = _
    rw [index_toNat hi (by decide), if_pos hi]
  rw [hspace _ (by omega), hspace _ (by omega)]
  constructor
  · rw [if_pos (by omega), show 2 * n.toNat / 2 = n.toNat by omega]
  · rw [if_neg (by omega), show (2 * n.toNat + 1) / 2 = n.toNat by omega]

end Words

/-- Settles O59: the field lemma of each word, space by space. -/
theorem statusLayout : Obligations.StatusLayout := by
  refine ⟨⟨fun x => ⟨(x, x.toBits), by cases x <;> decide, rfl⟩, fun x => ⟨(x, x.toBits), by cases x <;> decide, rfl⟩⟩,
    fun s => ⟨?_, ?_, fun i hi => ?_, fun b => ?_, fun b => ?_, fun w hw j hj => ?_, fun n hn => ?_, fun e he => ?_⟩⟩
  · obtain ⟨hst, herr, hsub, herrSt, hbusy, hrest⟩ := statusWord_fields s
    exact ⟨fun p hp h => hst.trans (h ▸ stateCodes_toBits p hp), fun p hp h => herr.trans (h ▸ classCodes_toBits p hp),
      hsub, fun p hp h => herrSt.trans (h ▸ stateCodes_toBits p hp), hbusy, hrest⟩
  · obtain ⟨hbyte, hleft, hreader⟩ := readerWord_fields s
    obtain ⟨hacc, hn, hwriter⟩ := writerWord_fields s
    obtain ⟨hid, hvalid, hroot⟩ := rootWord_fields s
    exact ⟨rfl, rfl, rfl, BitVec.toNat_setWidth_of_le (by decide), BitVec.toNat_setWidth_of_le (by decide), hbyte,
      hleft, hreader, hacc, hn, hwriter, rfl, hid, hvalid, hroot, BitVec.toNat_setWidth_of_le (by decide), rfl⟩
  · rw [hostRead_ibuf, hostRead_obuf, if_pos hi, if_pos hi]
    exact ⟨BitVec.toNat_setWidth_of_le (by decide), BitVec.toNat_setWidth_of_le (by decide)⟩
  · rw [hostRead_freq, byteIndex_toNat, if_pos b.isLt]
    rfl
  · obtain ⟨hvalid, hrest, hlen⟩ := codeInfoWord_fields s b
    rw [hostRead_codeInfo]
    exact ⟨hvalid, hrest, fun hv => ⟨hlen hv, fun w hw => codeBitsWord_shows s hv hw⟩⟩
  · rw [hostRead_bitbuf, index_toNat hw (by decide), if_pos hw, bitbufWord_getLsbD]
    simp [hj]
  · obtain ⟨hfreq, hinfo⟩ := hostRead_node s hn
    obtain ⟨hvalid, hrest, hfields⟩ := nodeInfoWord_fields s n
    simp only [hfreq, hinfo]
    exact ⟨hvalid, hrest, fun hv => ⟨if_pos hv, hfields hv⟩⟩
  · obtain ⟨hvalid, hrest, hfields⟩ := decInfoWord_fields s e
    rw [hostRead_decInfo s he]
    exact ⟨hvalid, hrest, fun hv => ⟨(hfields hv).1, (hfields hv).2, fun w hw => decBitsWord_shows s he hv hw⟩⟩

end Sys2Proof.Machine
end

section
/-! SUPPORT. The statements of 20_memory about streams: what a read delivers and takes, that no instruction takes a
stream back, and how a DECOMPRESS ends inside a byte. -/

namespace Sys2Proof.Machine

/-! ## What a read delivers and takes (20_memory R76, 40_bitreader R141, 10_state R52) -/

/-- Bits of a byte, the last `k + 1` of them: the next one, then the last `k`. -/
theorem map_range_countdown (f : Nat → Bool) (k : Nat) :
    (List.range (k + 1)).map (fun i => f (k - i)) = f k :: (List.range k).map fun i => f (k - 1 - i) := by
  rw [List.range_succ_eq_map, List.map_cons, List.map_map]
  exact congrArg (f k :: ·) (List.map_congr_left fun i _ => congrArg f (by omega))

/-- With a bit in the buffer, the bit taken is the next one of the stream (R141). -/
theorem readerStream_takeBit {s : State} (h : s.rdLeft ≠ 0) :
    readerStream s = (takeBit s).1 :: readerStream (takeBit s).2 := by
  obtain ⟨k, hk⟩ : ∃ k, s.rdLeft.toNat = k + 1 :=
    Nat.exists_eq_succ_of_ne_zero fun h0 => h (BitVec.eq_of_toNat_eq h0)
  have hnext : (s.rdLeft - 1).toNat = k := by bv_omega
  have hbuf : bufferedBits s = (takeBit s).1 :: bufferedBits (takeBit s).2 := by
    simp only [bufferedBits, takeBit, hk, hnext, Nat.add_sub_cancel]
    exact map_range_countdown _ k
  simp only [readerStream, hbuf, List.cons_append]
  rfl

/-- A byte taken into the buffer leaves the stream as it was (R141). -/
theorem readerStream_refill {s : State} {v : Byte} {vs : List Byte} (h0 : s.rdLeft = 0) (hs : s.src = v :: vs) :
    readerStream { s with rdByte := v, rdLeft := 8, src := vs } = readerStream s := by
  simp only [readerStream, bufferedBits, h0, hs, bitsOfBytes, List.flatMap_cons]
  rfl

/-- At the end of the source with an empty buffer the stream is at its end. -/
theorem readerStream_nil {s : State} (h0 : s.rdLeft = 0) (hs : s.src = []) : readerStream s = [] := by
  simp [readerStream, bufferedBits, bitsOfBytes, h0, hs]

/-- The stream is as long as the bits left say (R52). -/
theorem readerStream_length (s : State) : (readerStream s).length = bitsLeft s := by
  have hbytes : ∀ vs : List Byte, (bitsOfBytes vs).length = 8 * vs.length := fun vs => by
    simp [bitsOfBytes, bitsOfByte, List.length_flatMap, Nat.mul_comm]
  simp [readerStream, bufferedBits, bitsLeft, hbytes]

/-- The bits of a read are the next ones of the stream, whatever RD_LEFT is (R141). -/
theorem readBits_bits (n : Nat) (s : State) : (readBits n s).1 = (readerStream s).take n := by
  induction n generalizing s with
  | zero => rfl
  | succ n ih =>
    simp only [readBits]
    rcases refill_cases s with ⟨h0, hr⟩ | ⟨h0, hs, hr⟩ | ⟨v, vs, h0, hs, hr⟩ <;> rw [hr]
    · simp only [ih, readerStream_takeBit h0, List.take_succ_cons]
    · rw [readerStream_nil h0 hs, List.take_nil]
    · rw [← readerStream_refill h0 hs, readerStream_takeBit (by decide : (8 : BitVec 4) ≠ 0)]
      simp only [ih, List.take_succ_cons]

/-- A read takes the bytes in which its bits beyond the buffered ones lie (R76). -/
theorem readBits_src (n : Nat) (s : State) :
    (readBits n s).2.src = s.src.drop ((n - s.rdLeft.toNat + 7) / 8) := by
  induction n generalizing s with
  | zero => simp
  | succ n ih =>
    simp only [readBits]
    rcases refill_cases s with ⟨h0, hr⟩ | ⟨h0, hs, hr⟩ | ⟨v, vs, h0, hs, hr⟩ <;> rw [hr]
    · have hleft : s.rdLeft.toNat ≠ 0 := fun h => h0 (BitVec.eq_of_toNat_eq h)
      have hnext : (s.rdLeft - 1).toNat = s.rdLeft.toNat - 1 := by bv_omega
      simp only [ih, takeBit, hnext]
      exact congrArg (s.src.drop ·) (by omega)
    · rw [hs, List.drop_nil]
    · have hnext : (8 - 1 : BitVec 4).toNat = 7 := rfl
      have hbytes : (n + 1 - s.rdLeft.toNat + 7) / 8 = (n - 7 + 7) / 8 + 1 := by
        have : s.rdLeft.toNat = 0 := congrArg BitVec.toNat h0
        omega
      rw [hs, hbytes, List.drop_succ_cons]
      simp only [ih, takeBit, hnext]

/-- Settles O10: the bits and the source position of a read, each by induction on its length. -/
theorem readsTakeBytesOnDemand : Obligations.ReadsTakeBytesOnDemand :=
  fun n s _ => ⟨readBits_src n s, readBits_bits n s⟩

/-! ## A source that ends inside a byte (20_memory R81, 45_codec_decompress R252) -/

/-- A read of more bits than are left delivers what there is and empties the buffer (40_bitreader R143). -/
theorem readBits_short {n : Nat} {s : State} (h : bitsLeft s < n) :
    (readBits n s).1.length = bitsLeft s ∧ (readBits n s).2.rdLeft = 0 := by
  have hlen : (readBits n s).1.length = bitsLeft s := by
    rw [readBits_bits, List.length_take, readerStream_length]
    omega
  have hleft := bitsLeft_readBits n s
  have hzero : (readBits n s).2.rdLeft.toNat = 0 := by
    simp only [bitsLeft] at hleft hlen
    omega
  exact ⟨hlen, BitVec.eq_of_toNat_eq hzero⟩

/-- With some bits left, but no byte, the read of entry_count ends in MalformedStream(EntryCount) (R252). -/
theorem readEntryCount_misaligned {s : State} (hpos : bitsLeft s ≠ 0) (hlt : bitsLeft s < 8) :
    readEntryCount s = .ended (raise .entryCount (readBits 8 s).2) := by
  obtain ⟨hlen, -⟩ := readBits_short hlt
  have hsome : (readBits 8 s).1 ≠ [] := fun h => by
    rw [h, List.length_nil] at hlen
    exact hpos hlen.symm
  have hget : getEntryCount s = .ended (raise .entryCount (readBits 8 s).2) := by
    rw [getEntryCount, getBits, if_pos (by omega), if_neg hsome]
  rw [readEntryCount, hget]
  rfl

/-- Settles O42: the first read is short but not empty, and what ends it is raised in ReadingHeader. -/
theorem misalignedEndIsMalformed : Obligations.MisalignedEndIsMalformed := by
  intro s hst hpos hle hsrc
  have hleft : bitsLeft (startDecompress { s with busy := true }) = s.rdLeft.toNat := by
    simp [bitsLeft, startDecompress, hsrc]
  have hlt : bitsLeft (startDecompress { s with busy := true }) < 8 := by omega
  have hop : decompressOp { s with busy := true } =
      raise .entryCount (readBits 8 (startDecompress { s with busy := true })).2 := by
    rw [decompressOp, readEntryCount_misaligned (by omega) hlt]
    rfl
  refine ⟨_, acceptCommand_run hst, ?_⟩
  rw [hop]
  refine ⟨rfl, rfl, rfl, ?_, (readBits_short hlt).2, rfl⟩
  obtain ⟨_, _, _, hr⟩ := readBits_only 8 (startDecompress { s with busy := true })
  rw [raise_errSt, hr]
  rfl

/-! ## No instruction takes a stream back (20_memory R74, R77, R79) -/

/-- DECOMPRESS and its pieces write no byte. -/
theorem DecodeOnly.snk {s t : State} (h : DecodeOnly s t) : t.snk = s.snk := by
  obtain ⟨_, _, _, _, _, _, _, _, _, _, _, _, _, _, _, _, _, _, _, _, _, _, _, rfl⟩ := h
  rfl

theorem takeEntryCount_src (k : Byte) (s : State) : (takeEntryCount k s).state.src <:+ s.src := by
  show (if k = 0 then leaveHeader _ else _).src <:+ s.src
  split <;> exact List.suffix_refl _

theorem takeCodeBits_src (code : Bits) (s : State) : (takeCodeBits code s).state.src <:+ s.src := by
  show (if _ then leaveHeader (storeDec code (align s)) else _).src <:+ s.src
  split <;> exact (align_keeps s).src

theorem finishBlock_src (s : State) : (finishBlock s).state.src <:+ s.src := by
  unfold finishBlock
  split
  · exact List.suffix_refl _
  · exact (align_keeps s).src

theorem takeTotalCount_src (c : Count) (s : State) : (takeTotalCount c s).state.src <:+ s.src := by
  unfold takeTotalCount
  simp only
  split
  · exact List.suffix_refl _
  · split
    · exact List.suffix_refl _
    · exact finishBlock_src { releaseByteIx s with total := c, st := .readingBody, field := .body }

theorem takeBodyBit_src (b : Bool) (s : State) : (takeBodyBit b s).state.src <:+ s.src := by
  unfold takeBodyBit
  cases lookup s (s.cand ++ [b]) with
  | some v => exact (obufWrite_keeps s s.decoded.toNat v).src
  | none =>
    simp only
    split <;> exact List.suffix_refl _

theorem takeBody_src (bs : Bits) (s : State) : (takeBody bs s).state.src <:+ s.src := by
  induction bs generalizing s with
  | nil =>
    unfold takeBody
    split
    · exact List.suffix_refl _
    · exact finishBlock_src s
  | cons b bs ih =>
    unfold takeBody
    split
    · exact Flow.andThen_state (P := fun t => t.src <:+ s.src) (takeBodyBit_src b s) fun t ht => (ih t).trans ht
    · exact finishBlock_src s

/-- What R74 and R79 ask of an instruction executed in `s`: the streams go forward, and fault entry finds the sink as
it was. -/
structure NeverTakenBack (s t : State) : Prop extends Forward s t where
  unwritten : s.st ≠ .fault → t.st = .fault → t.snk = s.snk

section NeverTakenBack
variable {s t : State}

theorem NeverTakenBack.refl (s : State) : NeverTakenBack s s := { Forward.refl s with unwritten := fun _ _ => rfl }

theorem acceptField_neverTakenBack {take : State → Flow} (hd : DecodeOnly s (take s).state)
    (hsrc : (take s).state.src <:+ s.src) (ht : acceptField take s = .next t) : NeverTakenBack s t := by
  by_cases hst : s.st = .fault
  · rw [acceptField_fault hst] at ht
    cases ht
    exact .refl s
  · rw [acceptField_run hst] at ht
    cases ht
    exact ⟨⟨hsrc, hd.snk ▸ List.prefix_refl _⟩, fun _ _ => hd.snk⟩

/-- A command whose operation moves the streams forward, and has written nothing where it faults. -/
theorem acceptCommand_neverTakenBack {op : State → State} (hop : ∀ u, Forward u (op u))
    (hfault : ∀ u, (op u).st = .fault → (op u).snk = u.snk) (ht : acceptCommand op s = .next t) :
    NeverTakenBack s t := by
  rcases acceptCommand_cases ht with ⟨-, rfl⟩ | ⟨-, rfl⟩
  · exact .refl _
  · exact { hop { s with busy := true } with unwritten := fun _ => hfault { s with busy := true } }

end NeverTakenBack

/-- ENCODE writes no byte (42_tree_builder R180). -/
theorem encodeOp_snk (s : State) : (encodeOp s).snk = s.snk := by
  obtain ⟨t, ⟨_, _, _, _, _, _, _, _, _, rfl⟩, h | h⟩ := encodeOp_cases s <;> rw [h] <;> rfl

/-- A COMPRESS that faults does so before the first byte is written (44_codec_compress R231, R233, 42 R185). -/
theorem compressOp_fault_snk (s : State) (hf : (compressOp s).st = .fault) : (compressOp s).snk = s.snk := by
  rcases compressOp_cases s with ⟨-, h⟩ | ⟨-, t, ⟨_, _, _, _, _, _, _, _, _, rfl⟩, h | ⟨-, h⟩ | ⟨-, h⟩⟩
  · rw [h]
    rfl
  · rw [h]
    rfl
  · rw [h]
    rfl
  · rw [h] at hf
    cases hf

/-- Settles O15: the commands that write end Done once they have written; the others leave the sink as it is. -/
theorem streamsAreNeverTakenBack : Obligations.StreamsAreNeverTakenBack := by
  intro i s t ht
  suffices h : NeverTakenBack s t from ⟨h.src, h.snk, h.unwritten⟩
  cases i with
  | rdbits n => exact acceptCommand_neverTakenBack (fun u => (rdbitsOp_outKept n u).toForward) (fun _ => nofun) ht
  | wrbits n => exact acceptCommand_neverTakenBack (fun u => (wrbitsOp_outKept n u).toForward) (fun _ => nofun) ht
  | flush => exact acceptCommand_neverTakenBack (fun u => (flushOp_outKept u).toForward) (fun _ => nofun) ht
  | encode =>
    exact acceptCommand_neverTakenBack (fun u => (encodeOp_outKept u).toForward) (fun u _ => encodeOp_snk u) ht
  | compress => exact acceptCommand_neverTakenBack (fun u => (compressOp_outKept u).toForward) compressOp_fault_snk ht
  | decompress =>
    exact acceptCommand_neverTakenBack decompressOp_forward (fun u _ => (decompressOp_decode u).snk) ht
  | illegal op _ _ =>
    exact acceptCommand_neverTakenBack (op := raise (illegalCause op)) (fun u => { Forward.refl u with })
      (fun _ _ => rfl) ht
  | wireEntryCount k => exact acceptField_neverTakenBack (takeEntryCount_decode k s) (takeEntryCount_src k s) ht
  | wireByteValue v => exact acceptField_neverTakenBack (takeByteValue_decode v s) (List.suffix_refl _) ht
  | wireCodeBitLength l => exact acceptField_neverTakenBack (takeCodeBitLength_decode l s) (List.suffix_refl _) ht
  | wireCodeBits code => exact acceptField_neverTakenBack (takeCodeBits_decode code s) (takeCodeBits_src code s) ht
  | wireTotalSymbolCount c =>
    exact acceptField_neverTakenBack (takeTotalCount_decode c s) (takeTotalCount_src c s) ht
  | wireBody codes => exact acceptField_neverTakenBack (takeBody_decode codes s) (takeBody_src codes s) ht

end Sys2Proof.Machine
end

section
/-! SUPPORT. Every byte present gets a Code: each leaf stays below a root while the merge loop joins (42_tree_builder
R183), and the walk over the tree reaches it (43_code_generator R212, R214). -/

namespace Sys2Proof.Machine

/-! ## What lies below a node (10_state R40) -/

/-- The node `n` is `r`, or is reached from `r` through children of valid internal nodes. -/
inductive Below (nd : NodeId → Node) : NodeId → NodeId → Prop
  | self (n : NodeId) : Below nd n n
  | left {r n : NodeId} (hr : InnerAt nd r) (h : Below nd (nd r).left n) : Below nd r n
  | right {r n : NodeId} (hr : InnerAt nd r) (h : Below nd (nd r).right n) : Below nd r n

/-- Nothing but a leaf itself lies below it. -/
theorem Below.eq_of_leaf {nd : NodeId → Node} {r n : NodeId} (h : Below nd r n) (hl : (nd r).isLeaf = true) :
    n = r := by
  cases h with
  | self => rfl
  | left hr _ => exact absurd (hr.2.symm.trans hl) Bool.false_ne_true
  | right hr _ => exact absurd (hr.2.symm.trans hl) Bool.false_ne_true

/-- The slot of the byte value `b` holds its leaf (R40). -/
structure LeafAt (nd : NodeId → Node) (b : Byte) : Prop where
  valid : (nd (leafId b)).valid = true
  isLeaf : (nd (leafId b)).isLeaf = true
  sym : (nd (leafId b)).sym = b

/-- The leaf of `b` lies below one of the nodes `q`. -/
structure Covered (nd : NodeId → Node) (q : List NodeId) (b : Byte) : Prop where
  leaf : LeafAt nd b
  below : ∃ r ∈ q, Below nd r (leafId b)

section Join
variable {nd : NodeId → Node} {w : NodeId → Nat} {q q' : List NodeId} {k total : Nat} {a b id : NodeId} {c : Byte}

theorem Covered.perm (h : Covered nd q c) (hq : q.Perm q') : Covered nd q' c := by
  obtain ⟨r, hr, hbelow⟩ := h.below
  exact ⟨h.leaf, r, hq.mem_iff.mp hr, hbelow⟩

/-- A join leaves what lies below a node already valid. -/
theorem Below.joined (hf : Forest nd w (a :: b :: q) k total) (hid : id.toNat = 256 + k) {r n : NodeId}
    (hv : (nd r).valid = true) (h : Below nd r n) : Below (joined nd id a b) r n := by
  induction h with
  | self n => exact .self n
  | left hr _ ih =>
    have hsame := joined_other (nd := nd) (a := a) (b := b) (hf.ne_next hid hv)
    refine .left (by rw [InnerAt, hsame]; exact hr) ?_
    rw [hsame]
    exact ih (hf.arena.inner _ hr).leftValid
  | right hr _ ih =>
    have hsame := joined_other (nd := nd) (a := a) (b := b) (hf.ne_next hid hv)
    refine .right (by rw [InnerAt, hsame]; exact hr) ?_
    rw [hsame]
    exact ih (hf.arena.inner _ hr).rightValid

/-- What lay below the two nodes joined lies below their parent (R183). -/
theorem Covered.join (hf : Forest nd w (a :: b :: q) k total) (hid : id.toNat = 256 + k)
    (h : Covered nd (a :: b :: q) c) : Covered (Machine.joined nd id a b) (id :: q) c := by
  obtain ⟨r, hr, hbelow⟩ := h.below
  have hjoined := hbelow.joined hf hid (hf.queued r hr)
  have hinner : InnerAt (joined nd id a b) id := by
    rw [InnerAt, joined_same]
    exact ⟨rfl, rfl⟩
  have hleft : (joined nd id a b id).left = a := by rw [joined_same, innerNode]
  have hright : (joined nd id a b id).right = b := by rw [joined_same, innerNode]
  have hleaf : joined nd id a b (leafId c) = nd (leafId c) := joined_other (hf.ne_next hid h.leaf.valid)
  refine ⟨⟨by rw [hleaf]; exact h.leaf.valid, by rw [hleaf]; exact h.leaf.isLeaf, by rw [hleaf]; exact h.leaf.sym⟩, ?_⟩
  rcases List.mem_cons.mp hr with rfl | hr
  · exact ⟨id, List.mem_cons_self, .left hinner (hleft.symm ▸ hjoined)⟩
  rcases List.mem_cons.mp hr with rfl | hr
  · exact ⟨id, List.mem_cons_self, .right hinner (hright.symm ▸ hjoined)⟩
  · exact ⟨r, List.mem_cons_of_mem id hr, hjoined⟩

end Join

/-! ## The merge loop (R182 to R185) -/

/-- The queue of a forest covers the leaves of the bytes `bs`. -/
structure Covering (bs : List Byte) (total : Nat) (s : State) : Prop where
  forest : ForestIn s total
  leaves : ∀ b ∈ bs, Covered (nodeAt s) s.pq b

/-- Before the first merge the queue holds the leaves themselves (R181). -/
theorem makeLeaves_covering (s : State) :
    Covering (presentBytes s) (freqSum s) (makeLeaves (clearTables s)) := by
  obtain ⟨-, hnint, hpq⟩ := foldl_makeLeaf_frame (presentBytes (clearTables s)) (clearTables s)
  refine ⟨⟨fun _ => 0, ?_⟩, fun b hb => ?_⟩
  · rw [makeLeaves, hnint]
    exact makeLeaves_forest s
  · have hleaf : nodeAt (makeLeaves (clearTables s)) (leafId b) = leafNode s b := by
      rcases foldl_makeLeaf_nodeAt (presentBytes (clearTables s)) (clearTables s) (leafId b) with
        ⟨c, -, hc, h⟩ | ⟨hn, -⟩
      · exact leafId_injective hc ▸ h
      · exact absurd rfl (hn b hb)
    have hqueued : leafId b ∈ (makeLeaves (clearTables s)).pq := by
      rw [makeLeaves, hpq]
      exact List.mem_append_right _ (List.mem_map_of_mem hb)
    exact ⟨⟨by rw [hleaf, leafNode], by rw [hleaf, leafNode], by rw [hleaf, leafNode]⟩, _, hqueued, .self _⟩

/-- One pass of the merge loop takes the two least members and joins them (R183). -/
theorem mergeTwo_eq {s : State} (hlen : 2 ≤ s.pq.length) :
    ∃ a b q q', extractMin s = some (a, { s with pq := q }) ∧
      extractMin { s with pq := q } = some (b, { s with pq := q' }) ∧ s.pq.Perm (a :: q) ∧ q.Perm (b :: q') ∧
      mergeTwo s = joinNodes a b { s with pq := q' } := by
  obtain ⟨a, q, h1, hp1⟩ := extractMin_takes (s := s) fun h0 => by simp [h0] at hlen
  have hlen1 := hp1.length_eq
  simp only [List.length_cons] at hlen1
  obtain ⟨b, q', h2, hp2⟩ := extractMin_takes (s := { s with pq := q }) fun (h0 : q = []) => by
    simp [h0] at hlen1
    omega
  exact ⟨a, b, q, q', h1, h2, hp1, hp2, by simp only [mergeTwo, h1, h2]⟩

/-- `join` on two roots that cover leaves, with the rest of the queue (R183). -/
theorem joinNodes_covers {s : State} {w : NodeId → Nat} {a b : NodeId} {total : Nat} {c : Byte}
    (hf : Forest (nodeAt s) w (a :: b :: s.pq) s.nint.toNat total) (h : Covered (nodeAt s) (a :: b :: s.pq) c) :
    (joinNodes a b s).Meets (fun t => Covered (nodeAt t) t.pq c) fun _ => True := by
  unfold joinNodes
  split
  · exact trivial
  · have hroom := hf.room
    simp only [List.length_cons] at hroom
    have hid : (nextInner s).toNat = 256 + s.nint.toNat := by
      unfold nextInner
      bv_omega
    have hjoin := (h.join hf hid).perm (List.perm_append_singleton (nextInner s) s.pq).symm
    rw [joined, ← nodeAt_tabSet (by omega)] at hjoin
    exact hjoin

/-- What both of two postconditions say holds where the piece goes on. -/
theorem Flow.Meets.and {x : Flow} {P Q E F : State → Prop} (hx : x.Meets P E) (hy : x.Meets Q F) :
    x.Meets (fun t => P t ∧ Q t) E := by
  cases x with
  | go t => exact ⟨hx, hy⟩
  | ended t => exact hx

/-- What a piece meets for every byte listed it meets for all of them at once. -/
theorem Flow.Meets.forall_mem {x : Flow} {P : Byte → State → Prop} {bs : List Byte}
    (h : ∀ b ∈ bs, x.Meets (P b) fun _ => True) : x.Meets (fun t => ∀ b ∈ bs, P b t) fun _ => True := by
  cases x with
  | go t => exact h
  | ended t => exact trivial

theorem mergeTwo_covering {s : State} {bs : List Byte} {total : Nat} (h : Covering bs total s)
    (hlen : 2 ≤ s.pq.length) : (mergeTwo s).Meets (Covering bs total) fun _ => True := by
  obtain ⟨w, hf⟩ := h.forest
  obtain ⟨a, b, q, q', -, -, hp, hp', heq⟩ := mergeTwo_eq hlen
  have hperm := hp.trans (hp'.cons a)
  have hleaves : (mergeTwo s).Meets (fun t => ∀ c ∈ bs, Covered (nodeAt t) t.pq c) fun _ => True := by
    rw [heq]
    exact .forall_mem fun c hc => joinNodes_covers (s := { s with pq := q' }) (hf.perm hperm)
      ((h.leaves c hc).perm hperm)
  exact ((mergeTwo_meets h.forest hlen).and hleaves).mono (fun t ⟨⟨hm, _⟩, hl⟩ => ⟨hm.forest, hl⟩) fun _ _ => trivial

/-! ## The walk (43_code_generator R211, R212, R214) -/

theorem clearTables_codeAt_valid (s : State) (b : Byte) : (codeAt (clearTables s) b).valid = false :=
  congrArg CodeEntry.valid (tabGet_tabMap _ s.code CodeEntry.blank CodeEntry.blank b.isLt)

theorem setCode_valid_self {s : State} {v b : Byte} (bs : Bits) (h : v = b) :
    (codeAt (setCode v bs s) b).valid = true := by
  rw [setCode_codeAt, if_pos h]

theorem setCode_valid {s : State} {b : Byte} (v : Byte) (bs : Bits) (h : (codeAt s b).valid = true) :
    (codeAt (setCode v bs s) b).valid = true := by
  rw [setCode_codeAt]
  split
  · rfl
  · exact h

/-- The byte `b` has its Code, or its leaf lies below a node that the walk has still to visit. -/
structure Reached (b : Byte) (s : State) : Prop where
  leaf : LeafAt (nodeAt s) b
  coded : (codeAt s b).valid = true ∨ ∃ e ∈ s.wstk, Below (nodeAt s) e.1 (leafId b)

/-- Visiting a node codes its leaf, or puts what lies below it on the stack (R212). -/
theorem Reached.visit {s : State} {b : Byte} {n : NodeId} {p : Bits} {rest : List (NodeId × Bits)}
    (h : Reached b s) (hs : s.wstk = (n, p) :: rest) : Reached b (visit n { s with wstk := rest, path := p }) := by
  have hleaf := h.leaf
  have hcoded : (codeAt s b).valid = true ∨ Below (nodeAt s) n (leafId b) ∨
      ∃ e ∈ rest, Below (nodeAt s) e.1 (leafId b) := by
    simpa [hs] using h.coded
  unfold Machine.visit
  split
  · rename_i hn
    refine ⟨hleaf, ?_⟩
    rcases hcoded with hc | hbelow | hrest
    · exact .inl (setCode_valid _ _ hc)
    · exact .inl (setCode_valid_self _ (hbelow.eq_of_leaf hn ▸ hleaf.sym))
    · exact .inr hrest
  · rename_i hn
    refine ⟨hleaf, ?_⟩
    rcases hcoded with hc | hbelow | ⟨e, he, hrest⟩
    · exact .inl hc
    · cases hbelow with
      | self => exact absurd hleaf.isLeaf hn
      | left _ hl => exact .inr ⟨_, List.mem_cons_self, hl⟩
      | right _ hr => exact .inr ⟨_, List.mem_cons_of_mem _ List.mem_cons_self, hr⟩
    · exact .inr ⟨e, List.mem_cons_of_mem _ (List.mem_cons_of_mem _ he), hrest⟩

theorem Reached.walkLoop {s : State} {b : Byte} (k : Nat) (h : Reached b s) : Reached b (walkLoop k s) := by
  induction k generalizing s with
  | zero => exact h
  | succ k ih =>
    unfold Machine.walkLoop
    split
    · exact h
    · rename_i hs
      exact ih (h.visit hs)

/-- The walk of a rooted tree starts within its bound (R212; Log 13). -/
theorem Rooted.walkDue {s : State} {total : Nat} (h : Rooted total s) (hr : s.rootValid = true) (hc : CodesShort s) :
    ∃ w, WalkDue w 511 { s with wstk := [(s.rootId, [])] } := by
  obtain ⟨w, harena, hroot⟩ := h.tree
  obtain ⟨hvalid, hweight, -⟩ := hroot hr
  exact ⟨w, harena, hc, by simpa using ⟨hvalid, hweight⟩, by simp; omega⟩

/-- Every byte whose leaf lies below the root has a Code when `assign_codes()` ends (R210 to R214). -/
theorem assignCodes_codes {s : State} {total : Nat} {b : Byte} (h : Rooted total s) (hc : CodesShort s)
    (hr : s.rootValid = true) (hb : Covered (nodeAt s) [s.rootId] b) : (codeAt (assignCodes s) b).valid = true := by
  have hbelow : Below (nodeAt s) s.rootId (leafId b) := by simpa using hb.below
  unfold assignCodes
  rw [if_pos hr]
  split
  · rename_i hleaf
    exact setCode_valid_self _ (hbelow.eq_of_leaf hleaf ▸ hb.leaf.sym)
  · obtain ⟨w, hdue⟩ := h.walkDue hr hc
    have hreached : Reached b { s with wstk := [(s.rootId, [])] } :=
      ⟨hb.leaf, .inr ⟨_, List.mem_cons_self, hbelow⟩⟩
    obtain ⟨-, hcoded⟩ := hreached.walkLoop 511
    rw [(walkLoop_ends hdue).1] at hcoded
    exact hcoded.resolve_right (by simp)

end Sys2Proof.Machine
end

section
/-! SUPPORT. Tree and Codes are a function of FREQ (42_tree_builder R188): two encodings with the same FREQ run in step,
and agree in every entry that is valid. What an invalid entry holds may differ, and no piece reads it. -/

namespace Sys2Proof.Machine

/-- Two pieces run in step: both go on, in states related by `P`, or both have ended, in states related by `E`. -/
inductive Flow.Twin (P E : State → State → Prop) : Flow → Flow → Prop
  | go {s s' : State} (h : P s s') : Twin P E (.go s) (.go s')
  | ended {s s' : State} (h : E s s') : Twin P E (.ended s) (.ended s')

section Twin
variable {P Q E : State → State → Prop} {x x' : Flow}

theorem Flow.Twin.andThen {f f' : State → Flow} (hx : x.Twin Q E x') (hf : ∀ t t', Q t t' → (f t).Twin P E (f' t')) :
    (x.andThen f).Twin P E (x'.andThen f') := by
  cases hx with
  | go h => exact hf _ _ h
  | ended h => exact .ended h

/-- What the first of two pieces in step meets on its own holds with what relates them. -/
theorem Flow.Twin.and_meets {R F : State → Prop} (hx : x.Twin P E x') (hm : x.Meets R F) :
    x.Twin (fun t t' => R t ∧ P t t') E x' := by
  cases hx with
  | go h => exact .go ⟨hm, h⟩
  | ended h => exact .ended h

end Twin

/-- Two entries of a table are the same, or neither is valid (R11, U1). -/
def Agree {α : Type} (valid : α → Bool) (x x' : α) : Prop := x' = x ∨ valid x = false ∧ valid x' = false

section Agree
variable {α : Type} {valid : α → Bool} {x y z : α}

theorem Agree.eq (h : Agree valid x y) (hv : valid x = true) : y = x :=
  h.resolve_right fun hn => Bool.false_ne_true (hn.1.symm.trans hv)

theorem Agree.symm (h : Agree valid x y) : Agree valid y x := h.imp Eq.symm And.symm

theorem Agree.trans (h : Agree valid x y) (h' : Agree valid y z) : Agree valid x z := by
  rcases h with rfl | ⟨hx, hy⟩
  · exact h'
  · rcases h' with rfl | ⟨-, hz⟩
    · exact .inr ⟨hx, hy⟩
    · exact .inr ⟨hx, hz⟩

end Agree

/-- Two states hold the same tree and the same Codes, as far as the spec gives the entries a value (R40, R43, R44,
U1). -/
structure TwinTree (s s' : State) : Prop where
  node : ∀ n, Agree Node.valid (nodeAt s n) (nodeAt s' n)
  nint : s'.nint = s.nint
  rootValid : s'.rootValid = s.rootValid
  rootId : s.rootValid = true → s'.rootId = s.rootId
  code : ∀ b, Agree CodeEntry.valid (codeAt s b) (codeAt s' b)

theorem TwinTree.symm {s s' : State} (h : TwinTree s s') : TwinTree s' s :=
  { node := fun n => (h.node n).symm
    nint := h.nint.symm
    rootValid := h.rootValid.symm
    rootId := fun hr => (h.rootId (h.rootValid.symm.trans hr)).symm
    code := fun b => (h.code b).symm }

theorem TwinTree.trans {s t u : State} (h : TwinTree s t) (h' : TwinTree t u) : TwinTree s u :=
  { node := fun n => (h.node n).trans (h'.node n)
    nint := h'.nint.trans h.nint
    rootValid := h'.rootValid.trans h.rootValid
    rootId := fun hr => (h'.rootId (h.rootValid.trans hr)).trans (h.rootId hr)
    code := fun b => (h.code b).trans (h'.code b) }

/-- Two merges in step: the same tree so far, and the same queue. -/
structure TwinMerge (s s' : State) : Prop extends TwinTree s s' where
  queue : s'.pq = s.pq

/-! ## The leaves (42_tree_builder R181) -/

/-- After `clear_tables()` no entry is valid, whatever the tables held (R181). -/
theorem clearTables_twin (s s' : State) : TwinMerge (clearTables s) (clearTables s') :=
  { node := fun n => .inr ⟨clearTables_nodeAt_valid s n, clearTables_nodeAt_valid s' n⟩
    queue := rfl
    nint := rfl
    rootValid := rfl
    rootId := fun hr => absurd hr Bool.false_ne_true
    code := fun b => .inr ⟨clearTables_codeAt_valid s b, clearTables_codeAt_valid s' b⟩ }

theorem presentBytes_congr {s s' : State} (hf : s'.freq = s.freq) : presentBytes s' = presentBytes s := by
  have hat : freqAt s' = freqAt s := funext fun b => by rw [freqAt, freqAt, hf]
  rw [presentBytes, hat, presentBytes]

/-- The same entry stored in both arenas keeps them alike. -/
theorem nodeAt_tabSet_agree {s s' : State} (h : ∀ n, Agree Node.valid (nodeAt s n) (nodeAt s' n)) (i : Nat) (x : Node)
    (n : NodeId) : Agree Node.valid (nodeAt { s with node := tabSet s.node i x } n)
      (nodeAt { s' with node := tabSet s'.node i x } n) := by
  simp only [nodeAt, tabGet_tabSet] at h ⊢
  split
  · exact .inl rfl
  · exact h n

theorem TwinMerge.makeLeaf {s s' : State} (h : TwinMerge s s') (hf : s'.freq = s.freq) (b : Byte) :
    TwinMerge (makeLeaf s b) (makeLeaf s' b) := by
  have hleaf : leafNode s' b = leafNode s b := by simp only [leafNode, freqAt, hf]
  have hnode := nodeAt_tabSet_agree h.node b.toNat (leafNode s b)
  unfold Machine.makeLeaf
  rw [hleaf]
  exact { h with node := hnode, queue := congrArg (· ++ [leafId b]) h.queue }

theorem TwinMerge.foldl_makeLeaf {s s' : State} (h : TwinMerge s s') (hf : s'.freq = s.freq) (bs : List Byte) :
    TwinMerge (bs.foldl Machine.makeLeaf s) (bs.foldl Machine.makeLeaf s') := by
  induction bs generalizing s s' with
  | nil => exact h
  | cons b bs ih => exact ih (h.makeLeaf hf b) hf

theorem TwinMerge.makeLeaves {s s' : State} (h : TwinMerge s s') (hf : s'.freq = s.freq) :
    TwinMerge (makeLeaves s) (makeLeaves s') := by
  rw [Machine.makeLeaves, Machine.makeLeaves, presentBytes_congr hf]
  exact h.foldl_makeLeaf hf _

/-! ## The merge loop (R182 to R185) -/

/-- Among valid nodes the order of the queue is the same in both (R182). -/
theorem TwinMerge.leastOf_eq {s s' : State} (h : TwinMerge s s') (ids : List NodeId) (m : NodeId)
    (hv : ∀ n ∈ m :: ids, (nodeAt s n).valid = true) : leastOf s' m ids = leastOf s m ids := by
  induction ids generalizing m with
  | nil => rfl
  | cons x ids ih =>
    obtain ⟨hm, hx, hids⟩ : (nodeAt s m).valid = true ∧ (nodeAt s x).valid = true ∧
        ∀ n ∈ ids, (nodeAt s n).valid = true := by simpa using hv
    have hkey : keyLess s' x m = keyLess s x m := by simp only [keyLess, (h.node m).eq hm, (h.node x).eq hx]
    rw [leastOf, leastOf, hkey]
    refine ih _ (List.forall_mem_cons.mpr ⟨?_, hids⟩)
    split
    · exact hx
    · exact hm

/-- With valid members `extract_min()` takes the same member out of both queues (R182). -/
theorem TwinMerge.extractMin_eq {s s' : State} (h : TwinMerge s s') (hv : ∀ n ∈ s.pq, (nodeAt s n).valid = true)
    {m : NodeId} {q : List NodeId} (he : extractMin s = some (m, { s with pq := q })) :
    extractMin s' = some (m, { s' with pq := q }) := by
  rcases extractMin_cases s with ⟨-, h0⟩ | ⟨x, xs, hpq, h1⟩
  · rw [h0] at he
    cases he
  · rw [h1] at he
    obtain ⟨hm, ht⟩ := Prod.mk.inj (Option.some.inj he)
    have hq : s.pq.erase (leastOf s x xs) = q := congrArg State.pq ht
    have hleast : leastOf s' x xs = m := (h.leastOf_eq xs x (hpq ▸ hv)).trans hm
    rw [hm] at hq
    simp only [extractMin, h.queue, hpq, hleast, ← hq]

/-- With the same queue taken from both, the tables agree as before. -/
theorem TwinMerge.withQueue {s s' : State} (h : TwinMerge s s') (q : List NodeId) :
    TwinMerge { s with pq := q } { s' with pq := q } := { h with queue := rfl }

theorem TwinMerge.joinNodes {s s' : State} (h : TwinMerge s s') {a b : NodeId} (ha : (nodeAt s a).valid = true)
    (hb : (nodeAt s b).valid = true) : (joinNodes a b s).Twin TwinMerge TwinTree (joinNodes a b s') := by
  have hid : nextInner s' = nextInner s := congrArg (256 + ·) h.nint
  unfold Machine.joinNodes
  rw [(h.node a).eq ha, (h.node b).eq hb, hid]
  split
  · exact .ended { h with }
  · exact .go { h with
      node := nodeAt_tabSet_agree h.node _ _
      queue := congrArg (· ++ [nextInner s]) h.queue
      nint := congrArg (· + 1) h.nint }

/-- One pass of the merge loop, in both (R183). -/
theorem TwinMerge.mergeTwo {s s' : State} {total : Nat} (h : TwinMerge s s') (hf : ForestIn s total)
    (hlen : 2 ≤ s.pq.length) : (mergeTwo s).Twin TwinMerge TwinTree (mergeTwo s') := by
  obtain ⟨w, hf⟩ := hf
  obtain ⟨a, b, q, q', h1, h2, hp, hp', heq⟩ := mergeTwo_eq hlen
  have hq := (List.forall_mem_cons.mp (hf.perm hp).queued).2
  have hqueued := (hf.perm (hp.trans (hp'.cons a))).queued
  have h1' := h.extractMin_eq hf.queued h1
  have h2' := (h.withQueue q).extractMin_eq hq h2
  have heq' : Machine.mergeTwo s' = Machine.joinNodes a b { s' with pq := q' } := by
    simp only [Machine.mergeTwo, h1', h2']
  rw [heq, heq']
  exact (h.withQueue q').joinNodes (hqueued a (by simp)) (hqueued b (by simp))

/-- The merge loop, in both, with every leaf covered throughout (R183). -/
theorem TwinMerge.mergeLoop {s s' : State} {bs : List Byte} {total : Nat} (k : Nat) (h : TwinMerge s s')
    (hc : Covering bs total s) :
    (mergeLoop k s).Twin (fun t t' => Covering bs total t ∧ TwinMerge t t') TwinTree (mergeLoop k s') := by
  induction k generalizing s s' with
  | zero => exact .go ⟨hc, h⟩
  | succ k ih =>
    unfold Machine.mergeLoop
    rw [h.queue]
    split
    · rename_i hlen
      exact ((h.mergeTwo hc.forest hlen).and_meets (mergeTwo_covering hc hlen)).andThen fun _ _ ⟨hc', h'⟩ => ih h' hc'
    · exact .go ⟨hc, h⟩

theorem setRoot_none {s : State} (h : extractMin s = none) : setRoot s = { s with rootValid := false } := by
  simp only [setRoot, h]

theorem setRoot_some {s t : State} {r : NodeId} (h : extractMin s = some (r, t)) :
    setRoot s = { t with rootValid := true, rootId := r } := by simp only [setRoot, h]

/-- The last node of both queues becomes the root, and every leaf is below it (R183). -/
theorem TwinMerge.setRoot {s s' : State} {bs : List Byte} {total : Nat} (h : TwinMerge s s')
    (hc : Covering bs total s) (hlen : s.pq.length ≤ 1) :
    TwinTree (setRoot s) (setRoot s') ∧
      ∀ b ∈ bs, (setRoot s).rootValid = true ∧ Covered (nodeAt (setRoot s)) [(setRoot s).rootId] b := by
  obtain ⟨w, hf⟩ := hc.forest
  by_cases h0 : s.pq = []
  · have hnone : ∀ {u : State}, u.pq = [] → extractMin u = none := fun hu => by
      simp only [extractMin, hu]
    rw [setRoot_none (hnone h0), setRoot_none (hnone (h.queue.trans h0))]
    refine ⟨{ h with rootValid := rfl, rootId := fun hr => absurd hr Bool.false_ne_true }, fun b hb => ?_⟩
    obtain ⟨r, hr, -⟩ := (hc.leaves b hb).below
    rw [h0] at hr
    cases hr
  · obtain ⟨r, q, he, hp⟩ := extractMin_takes h0
    have hl := hp.length_eq
    obtain rfl : q = [] := List.eq_nil_of_length_eq_zero (by simp only [List.length_cons] at hl; omega)
    rw [setRoot_some he, setRoot_some (h.extractMin_eq hf.queued he)]
    exact ⟨{ h with rootValid := rfl, rootId := fun _ => rfl }, fun b hb => ⟨rfl, (hc.leaves b hb).perm hp⟩⟩

/-! ## The walk (43_code_generator R210 to R213) -/

theorem TwinTree.setCode {s s' : State} (h : TwinTree s s') (v : Byte) (bs : Bits) :
    TwinTree (setCode v bs s) (setCode v bs s') :=
  { h with
    code := fun b => by
      rw [setCode_codeAt, setCode_codeAt]
      split
      · exact .inl rfl
      · exact h.code b }

/-- Two walks in step: the same tree and Codes so far, and the same nodes still to be visited, by the same paths. -/
structure TwinWalk (s s' : State) : Prop extends TwinTree s s' where
  stack : s'.wstk = s.wstk

theorem TwinTree.visit {s s' : State} (h : TwinTree s s') {n : NodeId} (hn : (nodeAt s n).valid = true)
    (rest : List (NodeId × Bits)) (p : Bits) :
    TwinWalk (visit n { s with wstk := rest, path := p }) (visit n { s' with wstk := rest, path := p }) := by
  have hnode : nodeAt { s' with wstk := rest, path := p } n = nodeAt { s with wstk := rest, path := p } n :=
    (h.node n).eq hn
  have htree : TwinTree { s with wstk := rest, path := p } { s' with wstk := rest, path := p } := { h with }
  unfold Machine.visit
  rw [hnode]
  split
  · exact { htree.setCode _ _ with stack := rfl }
  · exact { htree with stack := rfl }

theorem TwinWalk.walkLoop {s s' : State} {w : NodeId → Nat} {k : Nat} (h : TwinWalk s s') (hw : WalkDue w k s) :
    TwinWalk (walkLoop k s) (walkLoop k s') := by
  induction k generalizing s s' with
  | zero => exact h
  | succ k ih =>
    cases hs : s.wstk with
    | nil =>
      simp only [Machine.walkLoop, h.stack, hs]
      exact h
    | cons e rest =>
      obtain ⟨n, p⟩ := e
      have hn : (nodeAt s n).valid = true := (hw.stack (n, p) (by simp [hs])).1
      simp only [Machine.walkLoop, h.stack, hs]
      exact ih (h.toTwinTree.visit hn rest p) (hw.visit hs)

/-- `assign_codes()`, in both (R210). -/
theorem TwinTree.assignCodes {s s' : State} {total : Nat} (h : TwinTree s s') (hr : Rooted total s)
    (hc : CodesShort s) : TwinTree (assignCodes s) (assignCodes s') := by
  unfold Machine.assignCodes
  rw [h.rootValid]
  split
  · rename_i hroot
    obtain ⟨w, -, hvalid⟩ := hr.tree
    rw [h.rootId hroot, (h.node _).eq (hvalid hroot).1]
    split
    · exact h.setCode _ _
    · obtain ⟨w, hdue⟩ := hr.walkDue hroot hc
      have hwalk : TwinWalk { s with wstk := [(s.rootId, [])] } { s' with wstk := [(s.rootId, [])] } :=
        { h with stack := rfl }
      exact { (hwalk.walkLoop hdue).toTwinTree with }
  · exact h

/-! ## The whole of encode() (42_tree_builder R180, R188) -/

/-- The outcome of two encodings in step: a Code for every byte present, and the same tree and Codes in both. -/
def TwinEncoded (bs : List Byte) (t t' : State) : Prop := (∀ b ∈ bs, (codeAt t b).valid = true) ∧ TwinTree t t'

/-- `merge_all()` on the leaves, in both: a rooted tree that has every leaf below its root (R183). -/
theorem mergeAll_twin {s s' : State} (hf : s'.freq = s.freq) (hc : CodesShort s) :
    (mergeAll (makeLeaves (clearTables s))).Twin
      (fun t t' => (Rooted (freqSum s) t ∧ CodesShort t ∧
        ∀ b ∈ presentBytes s, t.rootValid = true ∧ Covered (nodeAt t) [t.rootId] b) ∧ TwinTree t t')
      TwinTree (mergeAll (makeLeaves (clearTables s'))) := by
  have hstart := (clearTables_twin s s').makeLeaves hf
  have hcover := makeLeaves_covering s
  have hmerging : Merging (clearTables s) (freqSum s) (makeLeaves (clearTables s)) :=
    ⟨(foldl_makeLeaf_frame _ _).1, hcover.forest⟩
  rw [mergeAll, mergeAll, hstart.queue]
  refine ((hstart.mergeLoop _ hcover).and_meets (mergeLoop_meets _ hmerging (Nat.le_succ _))).andThen
    fun t t' ⟨⟨hm, hlen⟩, hc', h⟩ => .go ?_
  obtain ⟨htree, hroot⟩ := setRoot_rooted hm hlen
  obtain ⟨htwin, hcovered⟩ := h.setRoot hc' hlen
  have hshort : CodesShort (setRoot t) := by
    obtain ⟨_, _, _, _, _, hs⟩ := htree
    rw [hs]
    exact clearTables_codesShort hc
  exact ⟨⟨hroot, hshort, hcovered⟩, htwin⟩

/-- `encode()` on two states with the same FREQ, the Codes of one of them short before (R180). -/
theorem encodeTables_twin_of_short {s s' : State} (hf : s'.freq = s.freq) (hc : CodesShort s) :
    (encodeTables s).Twin (TwinEncoded (presentBytes s)) TwinTree (encodeTables s') :=
  (mergeAll_twin (s := { s with st := .building }) (s' := { s' with st := .building }) hf hc).andThen
    fun _ _ ⟨⟨hroot, hshort, hcovered⟩, h⟩ =>
      .go ⟨fun b hb => assignCodes_codes hroot hshort (hcovered b hb).1 (hcovered b hb).2, h.assignCodes hroot hshort⟩

/-- The state with no Code stored. -/
def withoutCodes (s : State) : State := { s with code := tableOf 256 CodeEntry.blank }

theorem withoutCodes_short (s : State) : CodesShort (withoutCodes s) := fun b => by
  rw [codeAt, withoutCodes, tabGet_tableOf_default]
  exact Nat.zero_le _

/-- `encode()` on two states with the same FREQ: both build the same tree and the same Codes, with a Code for every byte
present, or both overflow (R188). Both are in step with the encoding that finds no Code stored. -/
theorem encodeTables_twin {s s' : State} (hf : s'.freq = s.freq) :
    (encodeTables s).Twin (TwinEncoded (presentBytes s)) TwinTree (encodeTables s') := by
  have h : (encodeTables (withoutCodes s)).Twin (TwinEncoded (presentBytes s)) TwinTree (encodeTables s) :=
    encodeTables_twin_of_short (s := withoutCodes s) rfl (withoutCodes_short s)
  have h' : (encodeTables (withoutCodes s)).Twin (TwinEncoded (presentBytes s)) TwinTree (encodeTables s') :=
    encodeTables_twin_of_short (s := withoutCodes s) hf (withoutCodes_short s)
  generalize encodeTables (withoutCodes s) = x at h h'
  generalize encodeTables s = y at h ⊢
  generalize encodeTables s' = y' at h' ⊢
  cases h with
  | go h =>
    obtain ⟨hcoded, htree⟩ := h
    cases h' with
    | go h' => exact .go ⟨fun b hb => ((htree.code b).eq (hcoded b hb)).symm ▸ hcoded b hb, htree.symm.trans h'.2⟩
  | ended h =>
    cases h' with
    | ended h' => exact .ended (h.symm.trans h')

end Sys2Proof.Machine
end

section
/-! SUPPORT. COMPRESS depends on the block, the capacity and the writer alone (20_memory R85, 42_tree_builder R188): the
tables are in step by the encodings above, and two writers in step write the same bytes. -/

namespace Sys2Proof.Machine

/-! ## The scan (44_codec_compress R232) -/

/-- A count grows by the number of times its byte occurs (R232), in 64 bits. -/
theorem foldl_countByte (vs : List Byte) (t : Vector Count 256) (b : Byte) :
    tabGet (vs.foldl countByte t) 0 b.toNat = tabGet t 0 b.toNat + BitVec.ofNat 64 (vs.count b) := by
  induction vs generalizing t with
  | nil => simp
  | cons v vs ih =>
    rw [List.foldl_cons, ih]
    by_cases hv : v = b
    · subst hv
      rw [countByte, tabGet_tabSet_same t 0 _ v.isLt, List.count_cons_self, BitVec.add_assoc, Nat.add_comm,
        BitVec.ofNat_add]
      rfl
    · have hne : v.toNat ≠ b.toNat := fun h => hv (BitVec.eq_of_toNat_eq h)
      rw [countByte, tabGet_tabSet_other t 0 _ hne, List.count_cons_of_ne hv]

theorem mem_presentBytes {s : State} {b : Byte} : b ∈ presentBytes s ↔ freqAt s b ≠ 0 := by
  have hmem : b ∈ (List.range Config.nsym).map (BitVec.ofNat 8) :=
    List.mem_map.mpr ⟨b.toNat, List.mem_range.mpr b.isLt, by simp⟩
  simp [presentBytes, List.mem_filter, hmem]

/-- The scan finds every byte of the block: LEN bytes cannot overflow a count (R232). -/
theorem scan_present {s : State} {v : Byte} (hv : v ∈ blockBytes s) : v ∈ presentBytes (scan s) := by
  have hlen : (blockBytes s).length = s.len.toNat := by simp [blockBytes]
  have hle := List.count_le_length (l := blockBytes s) (a := v)
  have hpos := List.count_pos_iff.mpr hv
  have hcount : freqAt (scan s) v = BitVec.ofNat 64 ((blockBytes s).count v) := by
    have h := foldl_countByte (blockBytes s) (tableOf 256 0) v
    rw [tabGet_tableOf_default] at h
    exact h.trans (BitVec.zero_add _)
  rw [mem_presentBytes, hcount]
  intro h0
  have hmod : (blockBytes s).count v % 2 ^ 64 = 0 := congrArg BitVec.toNat h0
  omega

/-! ## Two writers in step (41_bitwriter R161, R163) -/

/-- The sinks held `k` and `k'` before; the same bytes have been written to both, and the same bits are pending. -/
structure SameOutput (k k' : List Byte) (t t' : State) : Prop where
  sink : ∃ vs, t.snk = k ++ vs ∧ t'.snk = k' ++ vs
  wrN : t'.wrN = t.wrN
  wrAcc : t'.wrAcc = t.wrAcc

/-- Two blocks are being written in step: the same output so far, the same block, and the same Codes for the bytes
present, which are `bs`. -/
structure Writing (bs : List Byte) (k k' : List Byte) (t t' : State) : Prop extends SameOutput k k' t t' where
  len : t'.len = t.len
  block : blockBytes t' = blockBytes t
  present : presentBytes t = bs ∧ presentBytes t' = bs
  inBlock : ∀ v ∈ blockBytes t, v ∈ bs
  code : ∀ b ∈ bs, codeAt t' b = codeAt t b

section Writing
variable {bs : List Byte} {k k' : List Byte} {t t' : State}

/-- A byte written to both sinks. -/
theorem SameOutput.push (h : SameOutput k k' t t') (v : Byte) :
    ∃ vs, t.snk ++ [v] = k ++ vs ∧ t'.snk ++ [v] = k' ++ vs := by
  obtain ⟨vs, hs, hs'⟩ := h.sink
  exact ⟨vs ++ [v], by rw [hs, List.append_assoc], by rw [hs', List.append_assoc]⟩

theorem Writing.writeBit (h : Writing bs k k' t t') (b : Bool) : Writing bs k k' (writeBit t b) (writeBit t' b) := by
  unfold Machine.writeBit
  rw [h.wrN, h.wrAcc]
  split
  · exact { h with sink := h.push _, wrN := rfl, wrAcc := rfl }
  · exact { h with wrN := rfl, wrAcc := rfl }

theorem Writing.flush (h : Writing bs k k' t t') : Writing bs k k' (flush t) (flush t') := by
  unfold Machine.flush
  rw [h.wrN, h.wrAcc]
  split
  · exact { h with sink := h.push _, wrN := rfl, wrAcc := rfl }
  · exact h

/-- A fold of steps, each of which keeps two writers in step. -/
theorem Writing.foldl {α : Type} {f : State → α → State} {xs : List α}
    (hf : ∀ u u', ∀ x ∈ xs, Writing bs k k' u u' → Writing bs k k' (f u x) (f u' x)) (h : Writing bs k k' t t') :
    Writing bs k k' (xs.foldl f t) (xs.foldl f t') := by
  induction xs generalizing t t' with
  | nil => exact h
  | cons x xs ih =>
    exact ih (fun u u' y hy => hf u u' y (List.mem_cons_of_mem x hy)) (hf t t' x List.mem_cons_self h)

theorem Writing.writeBits (h : Writing bs k k' t t') (cs : Bits) : Writing bs k k' (writeBits cs t) (writeBits cs t') :=
  h.foldl fun _ _ b _ hu => hu.writeBit b

theorem Writing.writeByte (h : Writing bs k k' t t') (v : Byte) : Writing bs k k' (writeByte v t) (writeByte v t') :=
  h.writeBits _

/-! ## The block (44_codec_compress R234 to R237) -/

theorem Writing.st (h : Writing bs k k' t t') (c : CtrlState) :
    Writing bs k k' { t with st := c } { t' with st := c } := { h with }

/-- The loop counters are no part of what is written. -/
theorem Writing.releaseEntIx (h : Writing bs k k' t t') : Writing bs k k' (releaseEntIx t) (releaseEntIx t') :=
  { h with }

theorem Writing.releaseByteIx (h : Writing bs k k' t t') : Writing bs k k' (releaseByteIx t) (releaseByteIx t') :=
  { h with }

theorem Writing.releasePos (h : Writing bs k k' t t') : Writing bs k k' (releasePos t) (releasePos t') := { h with }

theorem Writing.writeEntry (h : Writing bs k k' t t') {b : Byte} (hb : b ∈ bs) :
    Writing bs k k' (writeEntry t b) (writeEntry t' b) := by
  unfold Machine.writeEntry
  rw [h.code b hb]
  exact (((h.writeByte b).writeByte _).writeBits _).flush

theorem Writing.writeHeader (h : Writing bs k k' t t') (hn : t'.nent = t.nent) :
    Writing bs k k' (writeHeader t) (writeHeader t') := by
  have hentries := (h.writeByte (t.nent.setWidth 8)).foldl (f := Machine.writeEntry) fun _ _ _ hb hu => hu.writeEntry hb
  unfold Machine.writeHeader
  rw [hn, h.present.1, h.present.2]
  exact hentries.releaseEntIx

theorem Writing.writeCount (h : Writing bs k k' t t') : Writing bs k k' (writeCount t) (writeCount t') := by
  have hstart : Writing bs k k' { t with total := t.len } { t' with total := t'.len } := { h with }
  have hbytes := hstart.foldl (f := fun u v => Machine.writeByte v u) (xs := countBytes t.len)
    fun _ _ v _ hu => hu.writeByte v
  have hsame : countBytes t'.len = countBytes t.len := congrArg countBytes h.len
  unfold Machine.writeCount
  rw [hsame]
  exact hbytes.releaseByteIx

theorem Writing.writeBody (h : Writing bs k k' t t') : Writing bs k k' (writeBody t) (writeBody t') := by
  unfold Machine.writeBody
  rw [h.block]
  have hcodes := h.foldl (f := fun u v => Machine.writeBits (codeAt u v).bits u) (xs := blockBytes t)
    fun u u' v hv hu => by
      rw [hu.code v (h.inBlock v hv)]
      exact hu.writeBits _
  exact hcodes.releasePos

theorem Writing.writeBlock (h : Writing bs k k' t t') (hn : t'.nent = t.nent) :
    Writing bs k k' (writeBlock t) (writeBlock t') :=
  have hheader := (h.st .writingHeader).writeHeader hn
  have hcount := (hheader.st .writingCount).writeCount
  (hcount.st .writingBody).writeBody.flush

end Writing

/-! ## The whole of COMPRESS (44_codec_compress R230) -/

/-- Two COMPRESS have ended alike: in the same state of the controller, with the same output. -/
structure SameEnd (k k' : List Byte) (t t' : State) : Prop extends SameOutput k k' t t' where
  st : t'.st = t.st

theorem SameOutput.finishDone {k k' : List Byte} {t t' : State} (h : SameOutput k k' t t') :
    SameEnd k k' (finishDone t) (finishDone t') := { h with st := rfl }

theorem BuildOutcome.meets {s : State} {x : Flow} (h : BuildOutcome s x) :
    x.Meets (TablesOnly s) fun u => ∃ t, TablesOnly s t ∧ u = raise .freqOverflow t := by
  obtain ⟨t, ht, rfl | rfl⟩ := h
  · exact ht
  · exact ⟨t, ht, rfl⟩

section Compress
variable {k k' : List Byte} {s s' : State}

theorem checkLen_twin (hconfig : s'.config = s.config) (hlen : s'.len = s.len) (hout : SameOutput k k' s s') :
    (checkLen s).Twin (fun t t' => t = s ∧ t' = s') (SameEnd k k') (checkLen s') := by
  unfold checkLen
  rw [hconfig, hlen]
  split
  · exact .ended { hout with st := rfl }
  · exact .go ⟨rfl, rfl⟩

/-- After the tables are built on the same counts, the same block is ready to be written. -/
theorem encodeTables_writing (hf : s'.freq = s.freq) (hlen : s'.len = s.len) (hblock : blockBytes s' = blockBytes s)
    (hin : ∀ v ∈ blockBytes s, v ∈ presentBytes s) (hout : SameOutput k k' s s') :
    (encodeTables s).Twin (Writing (presentBytes s) k k') (SameEnd k k') (encodeTables s') := by
  have htwin := encodeTables_twin hf
  have hm := (encodeTables_outcome s).meets
  have hm' := (encodeTables_outcome s').meets
  generalize encodeTables s = x at htwin hm ⊢
  generalize encodeTables s' = x' at htwin hm' ⊢
  cases htwin with
  | go h =>
    obtain ⟨hcoded, htree⟩ := h
    obtain ⟨_, _, _, _, _, _, _, _, _, rfl⟩ := hm
    obtain ⟨_, _, _, _, _, _, _, _, _, rfl⟩ := hm'
    exact .go { hout with
      len := hlen
      block := hblock
      present := ⟨rfl, presentBytes_congr hf⟩
      inBlock := hin
      code := fun b hb => (htree.code b).eq (hcoded b hb) }
  | ended =>
    obtain ⟨_, ⟨_, _, _, _, _, _, _, _, _, rfl⟩, rfl⟩ := hm
    obtain ⟨_, ⟨_, _, _, _, _, _, _, _, _, rfl⟩, rfl⟩ := hm'
    exact .ended { hout with st := rfl }

theorem countEntries_twin {bs : List Byte} (h : Writing bs k k' s s') :
    (countEntries s).Twin (fun t t' => Writing bs k k' t t' ∧ t'.nent = t.nent) (SameEnd k k') (countEntries s') := by
  unfold countEntries
  rw [h.present.1, h.present.2]
  simp only
  split
  · exact .ended { h with st := rfl }
  · exact .go ⟨{ h with }, rfl⟩

/-- Two operations in step that never go on have ended alike. -/
theorem Flow.Twin.state_ended {E : State → State → Prop} {x x' : Flow} (h : x.Twin (fun _ _ => False) E x') :
    E x.state x'.state := by
  cases h with
  | go h => exact h.elim
  | ended h => exact h

/-- COMPRESS on the same block, with the same capacity and the same bits pending, ends alike (R230). -/
theorem compressOp_twin (hconfig : s'.config = s.config) (hlen : s'.len = s.len)
    (hblock : blockBytes s' = blockBytes s) (hout : SameOutput k k' s s') :
    SameEnd k k' (compressOp s) (compressOp s') := by
  have hscan : (scan { s' with st := .scanning }).freq = (scan { s with st := .scanning }).freq := by
    show (blockBytes s').foldl countByte _ = (blockBytes s).foldl countByte _
    rw [hblock]
  refine Flow.Twin.state_ended ((checkLen_twin hconfig hlen hout).andThen ?_)
  rintro _ _ ⟨rfl, rfl⟩
  refine (encodeTables_writing hscan hlen hblock (fun v hv => scan_present hv) { hout with }).andThen fun t t' h => ?_
  refine (countEntries_twin h).andThen fun u u' ⟨hu, hn⟩ => ?_
  exact .ended (hu.writeBlock hn).toSameOutput.finishDone

end Compress

/-- Settles O33: both commands run COMPRESS in step, each on its own sink. -/
theorem compressDependsOnTheBlockAlone : Obligations.CompressDependsOnTheBlockAlone := by
  intro s s' hst hst' hconfig hlen hblock hn hacc
  have hout : SameOutput s.snk s'.snk { s with busy := true } { s' with busy := true } :=
    ⟨⟨[], by simp, by simp⟩, hn.symm, hacc.symm⟩
  have hend := compressOp_twin (s := { s with busy := true }) (s' := { s' with busy := true }) hconfig.symm hlen.symm
    hblock.symm hout
  obtain ⟨vs, hs, hs'⟩ := hend.sink
  exact ⟨_, _, vs, acceptCommand_run hst, acceptCommand_run hst', hend.st.symm, hs, hs', hend.wrN.symm, hend.wrAcc.symm⟩

end Sys2Proof.Machine
end

section
/-! SUPPORT. Bytes as bit sequences (20_memory R70 to R73): the last bits of a byte as a list, the byte made of a list,
and that packing bits into bytes pads them. The reader's buffer, the writer's pending bits and the wire fields are all
such lists. -/

namespace Sys2Proof.Machine

/-! ## The last bits of a byte -/

/-- The low `k` bits of a byte, the highest first. -/
def lowBits (k : Nat) (v : Byte) : Bits := (List.range k).map fun i => v.getLsbD (k - 1 - i)

theorem bitsOfByte_eq_lowBits (v : Byte) : bitsOfByte v = lowBits 8 v := rfl

theorem pendingBits_eq_lowBits (s : State) : pendingBits s = lowBits s.wrN.toNat s.wrAcc := rfl

theorem byteOfBits_eq_foldl (bs : Bits) : byteOfBits bs = bs.foldl accWith 0 := rfl

@[simp] theorem lowBits_zero (v : Byte) : lowBits 0 v = [] := rfl

theorem lowBits_succ (k : Nat) (v : Byte) : lowBits (k + 1) v = v.getLsbD k :: lowBits k v :=
  map_range_countdown v.getLsbD k

theorem accWith_getLsbD_zero (v : Byte) (b : Bool) : (accWith v b).getLsbD 0 = b := by
  simp only [accWith, BitVec.getLsbD_or, BitVec.getLsbD_shiftLeft, BitVec.getLsbD_setWidth]
  simp

theorem accWith_getLsbD_succ (v : Byte) (b : Bool) {i : Nat} (hi : i + 1 < 8) :
    (accWith v b).getLsbD (i + 1) = v.getLsbD i := by
  simp only [accWith, BitVec.getLsbD_or, BitVec.getLsbD_shiftLeft, BitVec.getLsbD_setWidth]
  simp [hi]

/-- A bit that enters the accumulator stands behind the bits already there (41_bitwriter R161). -/
theorem lowBits_accWith {k : Nat} (hk : k < 8) (v : Byte) (b : Bool) :
    lowBits (k + 1) (accWith v b) = lowBits k v ++ [b] := by
  induction k with
  | zero => rw [lowBits_succ, accWith_getLsbD_zero, lowBits_zero, lowBits_zero, List.nil_append]
  | succ k ih => rw [lowBits_succ, ih (by omega), accWith_getLsbD_succ v b hk, lowBits_succ, List.cons_append]

theorem lowBits_foldl_accWith (bs : Bits) {k : Nat} (v : Byte) (h : k + bs.length ≤ 8) :
    lowBits (k + bs.length) (bs.foldl accWith v) = lowBits k v ++ bs := by
  induction bs generalizing k v with
  | nil => simp
  | cons b bs ih =>
    rw [List.length_cons] at h
    rw [List.foldl_cons, List.length_cons, Nat.add_comm bs.length 1, ← Nat.add_assoc, ih _ (by omega),
      lowBits_accWith (by omega), List.append_assoc, List.singleton_append]

/-- A shift to the left is zeros entering the accumulator. -/
theorem foldl_accWith_zeros (j : Nat) (v : Byte) : (List.replicate j false).foldl accWith v = v <<< j := by
  induction j generalizing v with
  | zero => simp
  | succ j ih =>
    have hstep : accWith v false = v <<< 1 := BitVec.or_zero
    rw [List.replicate_succ, List.foldl_cons, ih, hstep, ← BitVec.shiftLeft_add, Nat.add_comm]

/-- The last `k` bits moved to the top of the byte, with zeros behind them (41_bitwriter R163). -/
theorem bitsOfByte_shiftLeft (v : Byte) {k : Nat} (hk : k ≤ 8) :
    bitsOfByte (v <<< (8 - k)) = lowBits k v ++ List.replicate (8 - k) false := by
  have h := lowBits_foldl_accWith (List.replicate (8 - k) false) (k := k) v (by simp [hk])
  rwa [foldl_accWith_zeros, List.length_replicate, Nat.add_sub_cancel' hk] at h

/-! ## Bytes and their bits (R70, R73) -/

@[simp] theorem bitsOfByte_length (v : Byte) : (bitsOfByte v).length = 8 := rfl

theorem bitsOfByte_byteOfBits {bs : Bits} (h : bs.length = 8) : bitsOfByte (byteOfBits bs) = bs := by
  have hfold := lowBits_foldl_accWith bs (k := 0) 0 (by omega)
  rwa [Nat.zero_add, h, ← byteOfBits_eq_foldl, ← bitsOfByte_eq_lowBits] at hfold

theorem bitsOfByte_injective : Function.Injective bitsOfByte := fun v w h => by
  refine BitVec.eq_of_getLsbD_eq fun i hi => ?_
  have hbit := List.map_inj_left.mp h (7 - i) (List.mem_range.mpr (by omega))
  rwa [show 7 - (7 - i) = i by omega] at hbit

@[simp] theorem byteOfBits_bitsOfByte (v : Byte) : byteOfBits (bitsOfByte v) = v :=
  bitsOfByte_injective (bitsOfByte_byteOfBits (bitsOfByte_length v))

@[simp] theorem bitsOfBytes_nil : bitsOfBytes [] = [] := rfl

@[simp] theorem bitsOfBytes_cons (v : Byte) (vs : List Byte) : bitsOfBytes (v :: vs) = bitsOfByte v ++ bitsOfBytes vs :=
  rfl

@[simp] theorem bitsOfBytes_append (vs ws : List Byte) : bitsOfBytes (vs ++ ws) = bitsOfBytes vs ++ bitsOfBytes ws :=
  List.flatMap_append

@[simp] theorem bitsOfBytes_length (vs : List Byte) : (bitsOfBytes vs).length = 8 * vs.length := by
  induction vs with
  | nil => rfl
  | cons v vs ih =>
    rw [bitsOfBytes_cons, List.length_append, ih, bitsOfByte_length, List.length_cons]
    omega

theorem bytesOfBits_bitsOfBytes (vs : List Byte) : bytesOfBits vs.length (bitsOfBytes vs) = vs := by
  induction vs with
  | nil => rfl
  | cons v vs ih =>
    rw [List.length_cons, bytesOfBits, bitsOfBytes_cons, List.take_left' (bitsOfByte_length v),
      List.drop_left' (bitsOfByte_length v), byteOfBits_bitsOfByte, ih]

theorem bitsOfBytes_injective : Function.Injective bitsOfBytes := fun vs ws h => by
  have hlen := congrArg List.length h
  rw [bitsOfBytes_length, bitsOfBytes_length] at hlen
  rw [← bytesOfBits_bitsOfBytes vs, ← bytesOfBits_bitsOfBytes ws, h, show vs.length = ws.length by omega]

/-! ## Packing (R72) -/

theorem bitsOfBytes_packCount (k : Nat) {bs : Bits} (h : bs.length ≤ 8 * k) :
    bitsOfBytes (packCount k bs) = bs ++ List.replicate (8 * k - bs.length) false := by
  induction k generalizing bs with
  | zero => simp [packCount, List.eq_nil_of_length_eq_zero (by omega : bs.length = 0)]
  | succ k ih =>
    rw [packCount, bitsOfBytes_cons, ih (by rw [List.length_drop]; omega), bitsOfByte_byteOfBits (by simp)]
    by_cases hlen : bs.length ≤ 8
    · rw [List.take_of_length_le hlen, List.drop_of_length_le hlen, List.nil_append, List.append_assoc,
        ← List.replicate_add, List.length_nil]
      exact congrArg (bs ++ List.replicate · false) (by omega)
    · rw [List.length_take_of_le (by omega), Nat.sub_self, List.replicate_zero, List.append_nil, ← List.append_assoc,
        List.take_append_drop, List.length_drop]
      exact congrArg (bs ++ List.replicate · false) (by omega)

/-- Packed bits are the bits, padded to the next byte boundary (R72, R101). -/
theorem bitsOfBytes_packBits (bs : Bits) : bitsOfBytes (packBits bs) = padToByte bs := by
  rw [packBits, bitsOfBytes_packCount _ (by unfold bytesFor; omega), padToByte]
  exact congrArg (bs ++ List.replicate · false) (by unfold bytesFor; omega)

theorem take_padToByte (bs : Bits) : (padToByte bs).take bs.length = bs := List.take_left' rfl

/-! ## The count (R71) -/

/-- A count is its lowest byte and the count of the bytes above (R71). -/
theorem count_eq_byte_or_shift (c : Count) : (c.setWidth 8).setWidth 64 ||| ((c >>> 8) <<< 8) = c := by
  refine BitVec.eq_of_getLsbD_eq fun i hi => ?_
  simp only [BitVec.getLsbD_or, BitVec.getLsbD_setWidth, BitVec.getLsbD_shiftLeft, BitVec.getLsbD_ushiftRight]
  by_cases h : i < 8
  · simp [h, hi]
  · simp [h, hi, Nat.add_sub_cancel' (Nat.le_of_not_lt h)]

theorem countOfBytes_shifts (k : Nat) {c : Count} (h : c.toNat < 2 ^ (8 * k)) :
    countOfBytes ((List.range k).map fun j => (c >>> (8 * j)).setWidth 8) = c := by
  induction k generalizing c with
  | zero => exact BitVec.eq_of_toNat_eq (by simp at h; simp [countOfBytes, h])
  | succ k ih =>
    have hrest : (c >>> 8).toNat < 2 ^ (8 * k) := by
      rw [BitVec.toNat_ushiftRight, Nat.shiftRight_eq_div_pow]
      exact Nat.div_lt_of_lt_mul (by rwa [← Nat.pow_add, Nat.add_comm])
    have hshift : ∀ j, c >>> (8 * (j + 1)) = (c >>> 8) >>> (8 * j) := fun j => by
      rw [← BitVec.shiftRight_add, Nat.mul_succ, Nat.add_comm]
    rw [List.range_succ_eq_map, List.map_cons, List.map_map, countOfBytes]
    simp only [Function.comp_def, Nat.succ_eq_add_one, hshift]
    rw [ih hrest]
    exact count_eq_byte_or_shift c

@[simp] theorem countOfBytes_countBytes (c : Count) : countOfBytes (countBytes c) = c := countOfBytes_shifts 8 c.isLt

@[simp] theorem countBytes_length (c : Count) : (countBytes c).length = 8 := by
  simp [countBytes, Config.cntBytes]

end Sys2Proof.Machine
end

section
/-! SUPPORT. The statements of 30_encoding: a command word is its three fields, so the decoder is read off the fields,
and a wire field is read back from its packed bits. -/

namespace Sys2Proof.Machine

/-! ## Command words by their fields (30_encoding R121) -/

section Words
variable (op rsv : BitVec 4) (n : BitVec 8)

theorem opField_append : opField (op ++ rsv ++ n) = op := field_above BitVec.extractLsb'_append_eq_left

theorem rsvField_append : rsvField (op ++ rsv ++ n) = rsv := field_above BitVec.extractLsb'_append_eq_right

theorem nField_append : nField (op ++ rsv ++ n) = n := BitVec.extractLsb'_append_eq_right

/-- No bit of a word lies outside its three fields. -/
theorem fields_append (w : CommandWord) : opField w ++ rsvField w ++ nField w = w := by
  have hhigh : opField w ++ rsvField w = w.extractLsb' 8 8 := BitVec.extractLsb'_append_extractLsb'_eq_extractLsb' rfl
  rw [hhigh]
  exact BitVec.extractLsb'_append_extractLsb'

theorem append_eq_iff (op' rsv' : BitVec 4) (n' : BitVec 8) :
    op ++ rsv ++ n = op' ++ rsv' ++ n' ↔ op = op' ∧ rsv = rsv' ∧ n = n' := by
  constructor
  · intro h
    exact ⟨by simpa only [opField_append] using congrArg opField h,
      by simpa only [rsvField_append] using congrArg rsvField h,
      by simpa only [nField_append] using congrArg nField h⟩
  · rintro ⟨rfl, rfl, rfl⟩
    rfl

/-- The mask 0xFF00 keeps op and rsv. -/
theorem append_mask_eq_iff (op' : BitVec 4) :
    (op ++ rsv ++ n) &&& 0xFF00 = op' ++ 0#4 ++ 0#8 ↔ op = op' ∧ rsv = 0 := by
  have hmask : (0xFF00 : CommandWord) = BitVec.allOnes 4 ++ BitVec.allOnes 4 ++ 0#8 := rfl
  rw [hmask, BitVec.and_append, BitVec.and_append, append_eq_iff, BitVec.and_allOnes, BitVec.and_allOnes,
    BitVec.and_zero]
  simp

/-- The decoder on the fields of a word (R121, R123). -/
theorem decodeCommand_append :
    decodeCommand (op ++ rsv ++ n) =
      if op = 1 ∧ rsv = 0 then .rdbits n
      else if op = 2 ∧ rsv = 0 then .wrbits n
      else if op = 3 ∧ rsv = 0 ∧ n = 0 then .flush
      else if op = 4 ∧ rsv = 0 ∧ n = 0 then .encode
      else if op = 5 ∧ rsv = 0 ∧ n = 0 then .compress
      else if op = 6 ∧ rsv = 0 ∧ n = 0 then .decompress
      else .illegal op rsv n := by
  have hmasked := append_mask_eq_iff op rsv n
  have hword := fun op' => append_eq_iff op rsv n op' 0 0
  unfold decodeCommand
  rw [opField_append, rsvField_append, nField_append]
  simp only [← hmasked, ← hword]
  rfl

/-- The fields of the legal words, row by row of R121. -/
theorem legalFields_iff :
    legalFields op rsv n = true ↔
      (op = 1 ∧ rsv = 0) ∨ (op = 2 ∧ rsv = 0) ∨ (op = 3 ∧ rsv = 0 ∧ n = 0) ∨ (op = 4 ∧ rsv = 0 ∧ n = 0) ∨
        (op = 5 ∧ rsv = 0 ∧ n = 0) ∨ (op = 6 ∧ rsv = 0 ∧ n = 0) := by
  simp only [legalFields, Bool.and_eq_true, Bool.or_eq_true, beq_iff_eq]
  tauto

variable {op rsv n}

/-- The fields of an illegal word are kept by the decoder (R123). -/
theorem decodeCommand_illegal (h : legalFields op rsv n = false) :
    decodeCommand (op ++ rsv ++ n) = .illegal op rsv n := by
  rw [← Bool.not_eq_true, legalFields_iff] at h
  simp only [not_or] at h
  obtain ⟨hrdbits, hwrbits, hflush, hencode, hcompress, hdecompress⟩ := h
  rw [decodeCommand_append, if_neg hrdbits, if_neg hwrbits, if_neg hflush, if_neg hencode, if_neg hcompress,
    if_neg hdecompress]

end Words

/-- Every command has a word (R121). -/
theorem encodeCommand_of_command {i : Instr} (hs : i.shape = none) : ∃ w, encodeCommand i = some w := by
  cases i with
  | rdbits | wrbits | flush | encode | compress | decompress | illegal => exact ⟨_, rfl⟩
  | wireEntryCount | wireByteValue | wireCodeBitLength | wireCodeBits | wireTotalSymbolCount | wireBody => cases hs

/-- Every command is read back from its word (R121, R123). -/
theorem decodeCommand_encodeCommand {i : Instr} {w : CommandWord} (hwf : i.wf = true) (h : encodeCommand i = some w) :
    decodeCommand w = i := by
  cases i with
  | rdbits n =>
    cases h
    exact (decodeCommand_append 1 0 n).trans (if_pos ⟨rfl, rfl⟩)
  | wrbits n =>
    cases h
    exact decodeCommand_append 2 0 n
  | flush | encode | compress | decompress =>
    cases h
    rfl
  | illegal op rsv n =>
    cases h
    exact decodeCommand_illegal (by simpa [Instr.wf] using hwf)
  | wireEntryCount | wireByteValue | wireCodeBitLength | wireCodeBits | wireTotalSymbolCount | wireBody => cases h

/-- What the decoder makes of a word is well-formed and is encoded as that word (R121, R123). -/
theorem encodeCommand_decodeCommand (w : CommandWord) :
    (decodeCommand w).wf = true ∧ encodeCommand (decodeCommand w) = some w := by
  rw [← fields_append w]
  generalize opField w = op, rsvField w = rsv, nField w = n
  by_cases hlegal : legalFields op rsv n = true
  · rw [decodeCommand_append]
    rcases (legalFields_iff op rsv n).mp hlegal with
      ⟨rfl, rfl⟩ | ⟨rfl, rfl⟩ | ⟨rfl, rfl, rfl⟩ | ⟨rfl, rfl, rfl⟩ | ⟨rfl, rfl, rfl⟩ | ⟨rfl, rfl, rfl⟩ <;>
      exact ⟨rfl, rfl⟩
  · rw [Bool.not_eq_true] at hlegal
    rw [decodeCommand_illegal hlegal]
    exact ⟨by simp [Instr.wf, hlegal], rfl⟩

/-! ## Wire fields (R101 to R111) -/

/-- A wire field takes whole bytes (R101). -/
theorem encodeWire_length {i : Instr} {shape : FieldShape} (hwf : i.wf = true) (hs : i.shape = some shape) :
    (encodeWire i).length = bytesFor shape.bits := by
  cases i with
  | rdbits | wrbits | flush | encode | compress | decompress | illegal => cases hs
  | wireEntryCount k => cases hs; exact (Laws.EncodedSize.wireEntryCount k hwf).2
  | wireByteValue v => cases hs; exact (Laws.EncodedSize.wireByteValue v hwf).2
  | wireCodeBitLength l => cases hs; exact (Laws.EncodedSize.wireCodeBitLength l hwf).2
  | wireCodeBits code => cases hs; exact (Laws.EncodedSize.wireCodeBits code hwf).2
  | wireTotalSymbolCount c => cases hs; exact (Laws.EncodedSize.wireTotalSymbolCount c hwf).2
  | wireBody codes => cases hs; exact (Laws.EncodedSize.wireBody codes hwf).2

theorem byteOfBits_oneByte (v : Byte) : byteOfBits ((bitsOfBytes [v]).take 8) = v := byteOfBits_bitsOfByte v

/-- The bits a field takes of its bytes are the field's own, the pad bits dropped (R110, R111). -/
theorem fieldOfBits_encodeWire {i : Instr} {shape : FieldShape} (hs : i.shape = some shape) :
    fieldOfBits shape ((bitsOfBytes (encodeWire i)).take shape.bits) = i := by
  cases i with
  | rdbits | wrbits | flush | encode | compress | decompress | illegal => cases hs
  | wireEntryCount k => cases hs; exact congrArg Instr.wireEntryCount (byteOfBits_oneByte k)
  | wireByteValue v => cases hs; exact congrArg Instr.wireByteValue (byteOfBits_oneByte v)
  | wireCodeBitLength l => cases hs; exact congrArg Instr.wireCodeBitLength (byteOfBits_oneByte l)
  | wireCodeBits code =>
    cases hs
    simp only [encodeWire, bitsOfBytes_packBits, FieldShape.bits, take_padToByte, fieldOfBits]
  | wireTotalSymbolCount c =>
    cases hs
    have hbytes := bytesOfBits_bitsOfBytes (countBytes c)
    rw [countBytes_length] at hbytes
    simp only [encodeWire, FieldShape.bits, fieldOfBits, Config.cntBytes]
    rw [List.take_of_length_le (by simp), hbytes, countOfBytes_countBytes]
  | wireBody codes =>
    cases hs
    simp only [encodeWire, bitsOfBytes_packBits, FieldShape.bits, take_padToByte, fieldOfBits]

/-- The first `n` bits lie in the first `k` bytes, if these have so many. -/
theorem take_bitsOfBytes_take {n k : Nat} (h : n ≤ 8 * k) (vs : List Byte) :
    (bitsOfBytes (vs.take k)).take n = (bitsOfBytes vs).take n := by
  by_cases hk : vs.length ≤ k
  · rw [List.take_of_length_le hk]
  · conv_rhs => rw [← List.take_append_drop k vs, bitsOfBytes_append]
    rw [List.take_append_of_le_length (by rw [bitsOfBytes_length, List.length_take_of_le (by omega)]; exact h)]

/-- With enough bytes the decoder takes the first bits as the field and leaves the bytes after it (R111). -/
theorem decodeWire_of_length {shape : FieldShape} {vs : List Byte} (h : bytesFor shape.bits ≤ vs.length) :
    decodeWire shape vs =
      .ok (fieldOfBits shape ((bitsOfBytes vs).take shape.bits), vs.drop (bytesFor shape.bits)) := by
  rw [decodeWire, if_neg (by omega), take_bitsOfBytes_take (by unfold bytesFor; omega)]

/-- Settles O1: a command is read off the fields of its word, a wire field off its padded bits. -/
theorem decodeOfEncodeIsIdentity : Obligations.DecodeOfEncodeIsIdentity := by
  intro i hwf
  unfold encode
  cases hs : i.shape with
  | none =>
    obtain ⟨w, hw⟩ := encodeCommand_of_command hs
    simp only [decode, hw, Option.getD_some, decodeCommand_encodeCommand hwf hw]
  | some shape =>
    simp only [decode, decodeWire_of_length (encodeWire_length hwf hs).ge, fieldOfBits_encodeWire hs]
    rfl

/-! ## The rows of R121 -/

/-- A row that selects a word has the word's op: every mask covers it. -/
theorem opField_of_selects {r : CommandRow} (hr : r ∈ commandRows) {w : CommandWord} (h : r.selects w = true) :
    opField r.pattern = opField w := by
  have hmasks : ∀ r ∈ commandRows, opField r.mask = BitVec.allOnes 4 := by decide
  have hand : opField (w &&& r.mask) = opField w &&& opField r.mask := BitVec.extractLsb'_and
  rw [← beq_iff_eq.mp h, hand, hmasks r hr, BitVec.and_allOnes]

/-- No two rows have the same op, so a word selects at most one. -/
theorem selected_length_le (w : CommandWord) : (commandRows.filter fun r => r.selects w).length ≤ 1 := by
  have hdistinct : commandRows.Pairwise fun r r' => opField r.pattern ≠ opField r'.pattern := by decide
  have hmem : ∀ r ∈ commandRows.filter (·.selects w), opField r.pattern = opField w := fun r hr =>
    opField_of_selects (List.mem_filter.mp hr).1 (List.mem_filter.mp hr).2
  have hfilter := hdistinct.filter (·.selects w)
  generalize commandRows.filter (·.selects w) = rows at hmem hfilter ⊢
  match rows with
  | [] | [_] => simp
  | r :: r' :: _ =>
    simp only [List.mem_cons, forall_eq_or_imp] at hmem
    exact absurd (hmem.1.trans hmem.2.1.symm) (List.rel_of_pairwise_cons hfilter List.mem_cons_self)

/-- A full mask compares the whole word. -/
theorem and_fullMask (w : CommandWord) : w &&& 0xFFFF = w := BitVec.and_allOnes

/-- A word decodes to the command of the row it selects (R121). -/
theorem mnemonic_of_selects {r : CommandRow} (hr : r ∈ commandRows) {w : CommandWord} (h : r.selects w = true) :
    (decodeCommand w).mnemonic = r.mnemonic := by
  simp only [commandRows, List.mem_cons, List.not_mem_nil, or_false] at hr
  rcases hr with rfl | rfl | rfl | rfl | rfl | rfl <;>
    simp only [CommandRow.selects, beq_iff_eq, and_fullMask] at h
  · rw [decodeCommand, if_pos h]
    rfl
  · rw [decodeCommand, h]
    rfl
  all_goals
    subst h
    rfl

/-- A word that selects no row is ILLEGAL (R123). -/
theorem decodeCommand_of_selects_none {w : CommandWord} (h : ∀ r ∈ commandRows, r.selects w = false) :
    decodeCommand w = .illegal (opField w) (rsvField w) (nField w) := by
  simp only [commandRows, List.forall_mem_cons, CommandRow.selects, beq_eq_false_iff_ne, and_fullMask] at h
  obtain ⟨hrdbits, hwrbits, hflush, hencode, hcompress, hdecompress, -⟩ := h
  rw [decodeCommand, if_neg hrdbits, if_neg hwrbits, if_neg hflush, if_neg hencode, if_neg hcompress,
    if_neg hdecompress]

/-- Settles O2: the op field tells the rows apart, and the fields of a word make it up. -/
theorem commandWordsFollowTheTable : Obligations.CommandWordsFollowTheTable := fun w =>
  ⟨selected_length_le w, fun _ hr h => mnemonic_of_selects hr h, fun h => by rw [decodeCommand_of_selects_none h]; rfl,
    encodeCommand_decodeCommand w⟩

/-- Settles O3, by evaluating the decoders on the ten words. -/
theorem writtenWordsDecode : Obligations.WrittenWordsDecode := by
  unfold Obligations.WrittenWordsDecode
  decide +kernel

end Sys2Proof.Machine
end

section
/-! SUPPORT. The text of commands (30_encoding R125): a line falls into its words, and a decimal numeral is read
back. -/

namespace Sys2Proof.Machine

/-! ## The words of a line (Log 17) -/

/-- A character of a word: neither a space nor the beginning of a comment. -/
def PlainChar (c : Char) : Prop := c ≠ ' ' ∧ c ≠ ';'

/-- A word ends where the line ends or at a space. -/
theorem lineWords_append {w rest : List Char} (hne : w ≠ []) (hw : ∀ c ∈ w, PlainChar c)
    (hrest : rest = [] ∨ ∃ r, rest = ' ' :: r) : lineWords (w ++ rest) = w :: lineWords rest := by
  induction w with
  | nil => exact absurd rfl hne
  | cons c w ih =>
    have hc : c ≠ ' ' := (hw c List.mem_cons_self).1
    cases w with
    | nil =>
      rcases hrest with rfl | ⟨r, rfl⟩
      · simp [lineWords, hc]
      · simp [lineWords, hc]
    | cons d w =>
      have hd : d ≠ ' ' := (hw d (by simp)).1
      have htail := ih (List.cons_ne_nil d w) fun x hx => hw x (List.mem_cons_of_mem c hx)
      rw [List.cons_append] at htail
      rw [List.cons_append, List.cons_append, lineWords]
      simp only [hc, hd, htail, if_false]

/-- A mnemonic, a space and a count are two words. -/
theorem lineWords_pair {m k : List Char} (hm : m ≠ []) (hmc : ∀ c ∈ m, PlainChar c) (hk : k ≠ [])
    (hkc : ∀ c ∈ k, PlainChar c) : lineWords (m ++ [' '] ++ k) = [m, k] := by
  have hspace : lineWords (' ' :: k) = lineWords k := by simp [lineWords]
  have hlast := lineWords_append hk hkc (.inl rfl)
  rw [List.append_nil] at hlast
  rw [List.append_assoc, List.singleton_append, lineWords_append hm hmc (.inr ⟨k, rfl⟩), hspace, hlast]
  rfl

/-- A line without `;` has no comment. -/
theorem takeWhile_noComment {line : List Char} (h : ∀ c ∈ line, c ≠ ';') : line.takeWhile (· ≠ ';') = line :=
  List.takeWhile_eq_self_iff.mpr fun c hc => decide_eq_true (h c hc)

/-! ## Numerals (R122) -/

theorem digitChar_plain : ∀ d < 10, PlainChar (digitChar d) := by
  unfold PlainChar
  decide

theorem digitChar_toNat : ∀ d < 10, (digitChar d).toNat = 48 + d := by decide

/-- A count is written as its decimal digits. -/
theorem decimalText_digits (n : BitVec 8) :
    ∃ ds : List Nat, decimalText n = ds.map digitChar ∧ ds ≠ [] ∧ (∀ d ∈ ds, d < 10) ∧
      ds.foldl (fun k d => 10 * k + d) 0 = n.toNat := by
  have hn := n.isLt
  unfold decimalText
  simp only
  split
  · exact ⟨[n.toNat], rfl, by simp, by simpa, by simp⟩
  · split
    · exact ⟨[n.toNat / 10, n.toNat % 10], rfl, by simp, by simp; omega, by simp; omega⟩
    · exact ⟨[n.toNat / 100, n.toNat / 10 % 10, n.toNat % 10], rfl, by simp, by simp; omega, by simp; omega⟩

/-- Reading digits goes on from the number read so far. -/
theorem foldl_digitChar {f : Option Nat → Char → Option Nat}
    (hf : ∀ k, ∀ d < 10, f (some k) (digitChar d) = some (10 * k + d)) {ds : List Nat} (hds : ∀ d ∈ ds, d < 10)
    (k : Nat) : (ds.map digitChar).foldl f (some k) = some (ds.foldl (fun k d => 10 * k + d) k) := by
  induction ds generalizing k with
  | nil => rfl
  | cons d ds ih =>
    rw [List.map_cons, List.foldl_cons, hf k d (hds d List.mem_cons_self)]
    exact ih (fun x hx => hds x (List.mem_cons_of_mem d hx)) _

theorem decimalValue_digits {ds : List Nat} (hne : ds ≠ []) (hds : ∀ d ∈ ds, d < 10) :
    decimalValue (ds.map digitChar) = some (ds.foldl (fun k d => 10 * k + d) 0) := by
  rw [decimalValue, if_neg (by simpa using hne)]
  refine foldl_digitChar (fun k d hd => ?_) hds 0
  have hc := digitChar_toNat d hd
  simp only [Option.bind_some, hc]
  rw [if_pos (by omega), Nat.add_sub_cancel_left]

/-- A count reads back from its numeral. -/
theorem countValue_decimalText (n : BitVec 8) : countValue (decimalText n) = some n := by
  have hn := n.isLt
  obtain ⟨ds, htext, hne, hds, hvalue⟩ := decimalText_digits n
  rw [countValue, htext, decimalValue_digits hne hds, hvalue, Option.bind_some, if_pos (by omega), BitVec.ofNat_toNat,
    BitVec.setWidth_eq]

/-- A numeral is a word. -/
theorem decimalText_word (n : BitVec 8) : decimalText n ≠ [] ∧ ∀ c ∈ decimalText n, PlainChar c := by
  obtain ⟨ds, htext, hne, hds, -⟩ := decimalText_digits n
  rw [htext]
  exact ⟨by simpa using hne, List.forall_mem_map.mpr fun d hd => digitChar_plain d (hds d hd)⟩

/-! ## Lines (R125) -/

/-- A mnemonic with a count is read as the command it names. -/
theorem assembleLine_count {m : List Char} (hne : m ≠ []) (hm : ∀ c ∈ m, PlainChar c) (n : BitVec 8) :
    assembleLine (m ++ [' '] ++ decimalText n) =
      if some m = mnemonicText (.rdbits 0) then some (.rdbits n)
      else if some m = mnemonicText (.wrbits 0) then some (.wrbits n)
      else none := by
  obtain ⟨hkne, hk⟩ := decimalText_word n
  have hplain : ∀ c ∈ m ++ [' '] ++ decimalText n, c ≠ ';' := by
    simp only [List.mem_append, List.mem_singleton]
    rintro c ((hc | rfl) | hc)
    · exact (hm c hc).2
    · decide
    · exact (hk c hc).2
  rw [assembleLine, takeWhile_noComment hplain, lineWords_pair hne hm hkne hk]
  simp only [countValue_decimalText, Option.map_some]

/-- The mnemonics with a count are words. -/
theorem mnemonicText_plain : ∀ m, some m = mnemonicText (.rdbits 0) ∨ some m = mnemonicText (.wrbits 0) →
    m ≠ [] ∧ ∀ c ∈ m, PlainChar c := by
  rintro m (h | h) <;>
  · cases h
    simp [PlainChar]

/-- Settles O4: the two commands with a count word by word, the others by reading their mnemonic. -/
theorem commandTextReadsBack : Obligations.CommandTextReadsBack := by
  intro i line h
  cases i with
  | rdbits n =>
    cases h
    obtain ⟨hne, hm⟩ := mnemonicText_plain _ (.inl rfl)
    exact assembleLine_count hne hm n
  | wrbits n =>
    cases h
    obtain ⟨hne, hm⟩ := mnemonicText_plain _ (.inr rfl)
    exact assembleLine_count hne hm n
  | flush | encode | compress | decompress =>
    cases h
    decide
  | illegal | wireEntryCount | wireByteValue | wireCodeBitLength | wireCodeBits | wireTotalSymbolCount | wireBody =>
    cases h

end Sys2Proof.Machine
end

section
/-! SUPPORT. The wire field a step takes at a byte boundary is the one the byte decoder reads (30_encoding R101 to R111,
45_codec_decompress R252 to R258): a read of the reader and `decodeWire` take the same bits and the same bytes. -/

namespace Sys2Proof.Machine

/-- On a byte boundary the stream of the reader is the source's. -/
theorem readerStream_aligned {s : State} (h0 : s.rdLeft = 0) : readerStream s = bitsOfBytes s.src := by
  simp [readerStream, bufferedBits, h0]

/-- On a byte boundary, with enough bytes in the source, a field's bits are the first ones of these bytes
(40_bitreader R141). -/
theorem getBits_aligned {n : Nat} (short : Bits → State → State) {s : State} (h0 : s.rdLeft = 0)
    (hlen : bytesFor n ≤ s.src.length) :
    getBits n short s = .bits ((bitsOfBytes s.src).take n) (readBits n s).2 ∧
      (readBits n s).2.src = s.src.drop (bytesFor n) := by
  have hbits : (readBits n s).1 = (bitsOfBytes s.src).take n := by rw [readBits_bits, readerStream_aligned h0]
  have hfull : ((bitsOfBytes s.src).take n).length = n := by
    rw [List.length_take_of_le]
    rw [bitsOfBytes_length]
    unfold bytesFor at hlen
    omega
  have hleft : s.rdLeft.toNat = 0 := congrArg BitVec.toNat h0
  constructor
  · rw [getBits, if_neg (by rw [hbits]; omega), hbits]
  · rw [readBits_src, hleft, Nat.sub_zero, bytesFor]

/-- On a byte boundary a byte is read whole, and the reader is on the next one. -/
theorem readBits_byte_rdLeft {s : State} (h0 : s.rdLeft = 0) (hlen : 1 ≤ s.src.length) :
    (readBits 8 s).2.rdLeft = 0 := by
  have hused := bitsLeft_readBits 8 s
  have hleft : s.rdLeft.toNat = 0 := congrArg BitVec.toNat h0
  rw [readBits_bits, readerStream_aligned h0, List.length_take_of_le (by rw [bitsOfBytes_length]; omega)] at hused
  simp only [bitsLeft, readBits_src, hleft, List.length_drop] at hused
  exact BitVec.eq_of_toNat_eq (by show _ = 0; omega)

/-- The loop over the count takes its bytes one by one (R255). -/
theorem countLoop_aligned (k j : Nat) (acc : Bits) {s : State} (h0 : s.rdLeft = 0) (hlen : k ≤ s.src.length) :
    ∃ s', countLoop k j acc s = .bits (acc ++ (bitsOfBytes s.src).take (8 * k)) s' ∧ s'.src = s.src.drop k := by
  induction k generalizing j acc s with
  | zero => exact ⟨s, by simp [countLoop], by simp⟩
  | succ k ih =>
    have h1 : 1 ≤ s.src.length := by omega
    obtain ⟨hget, hsrc⟩ := getBits_aligned (n := 8) (fun _ => raise .totalCount)
      (s := { s with byteIx := BitVec.ofNat 4 j }) h0 h1
    have hleft := readBits_byte_rdLeft (s := { s with byteIx := BitVec.ofNat 4 j }) h0 h1
    have hsrc' : (readBits 8 { s with byteIx := BitVec.ofNat 4 j }).2.src = s.src.drop 1 := hsrc
    rw [countLoop, hget]
    generalize (readBits 8 { s with byteIx := BitVec.ofNat 4 j }).2 = u at hleft hsrc'
    obtain ⟨s', hloop, hs'⟩ := ih (j + 1) (acc ++ (bitsOfBytes s.src).take 8)
      (s := { u with total := u.total ||| (byteOfBits ((bitsOfBytes s.src).take 8)).setWidth 64 <<< (8 * j) }) hleft
      (by rw [hsrc', List.length_drop]; omega)
    refine ⟨s', hloop.trans ?_, ?_⟩
    · obtain ⟨v, vs, hsv⟩ := List.exists_cons_of_length_pos h1
      rw [hsrc', hsv, bitsOfBytes_cons, List.drop_one, List.tail_cons, List.take_left' (bitsOfByte_length v),
        List.append_assoc, Nat.mul_succ, Nat.add_comm, ← bitsOfByte_length v, List.take_length_add_append]
    · rw [hs', hsrc', List.drop_drop]
      exact congrArg (s.src.drop ·) (Nat.add_comm 1 k)

/-- On a byte boundary the field due is got from the bytes the byte decoder reads. -/
theorem getField_aligned {s : State} (h0 : s.rdLeft = 0) (hlen : bytesFor (shapeDue s).bits ≤ s.src.length) :
    ∃ s', getField s = .bits ((bitsOfBytes s.src).take (shapeDue s).bits) s' ∧
      s'.src = s.src.drop (bytesFor (shapeDue s).bits) := by
  unfold getField
  unfold shapeDue at hlen ⊢
  cases hf : s.field with
  | totalSymbolCount =>
    simp only [hf] at hlen ⊢
    exact countLoop_aligned 8 0 [] (s := { s with total := 0 }) h0 hlen
  | _ =>
    simp only [hf] at hlen ⊢
    exact ⟨_, getBits_aligned _ h0 hlen⟩

/-- Settles O6: reader and byte decoder take the field from the same bytes. -/
theorem wireFetchAgreesWithByteDecoder : Obligations.WireFetchAgreesWithByteDecoder := by
  intro s i vs hdue hreset h0 hdec
  have hlen : bytesFor (shapeDue s).bits ≤ s.src.length := by
    by_contra hshort
    rw [decodeWire, if_pos (Nat.lt_of_not_le hshort)] at hdec
    cases hdec
  rw [decodeWire_of_length hlen] at hdec
  cases hdec
  obtain ⟨s', hget, hsrc⟩ := getField_aligned h0 hlen
  exact ⟨s', step_of_fetch_instr (fetch_field hdue hreset hget), hsrc⟩

end Sys2Proof.Machine
end

section
/-! SUPPORT. One Code of the body (45_codec_decompress R258, R259): the candidate grows bit by bit while the lookup
misses, and the last bit emits the symbol. -/

namespace Sys2Proof.Machine

section BodyBit
variable {b : Bool} {v : Byte} {s : State}

/-- A hit emits its symbol (R258). -/
theorem takeBodyBit_hit (h : lookup s (s.cand ++ [b]) = some v) : takeBodyBit b s = .go (emitSymbol v s) := by
  simp only [takeBodyBit, h]

/-- A miss below 255 bits lets the candidate grow (R258). -/
theorem takeBodyBit_miss (h : lookup s (s.cand ++ [b]) = none) (hlen : s.cand.length < 254) :
    takeBodyBit b s = .go { s with cand := s.cand ++ [b] } := by
  have hshort : (s.cand ++ [b]).length ≠ Config.lenMax := by
    rw [List.length_append, List.length_singleton, Config.lenMax]
    omega
  simp only [takeBodyBit, h]
  exact if_neg hshort

/-- While symbols remain a bit is taken, and the rest after it (R258). -/
theorem takeBody_cons {bs : Bits} (h : s.decoded.toNat < s.total.toNat) :
    takeBody (b :: bs) s = (takeBodyBit b s).andThen (takeBody bs) := if_pos h

/-- While symbols remain the body goes on (R258). -/
theorem takeBody_nil (h : s.decoded.toNat < s.total.toNat) : takeBody [] s = .go s := if_pos h

/-- The candidate that matched is dropped, whatever it was (R258). -/
theorem emitSymbol_cand (c : Bits) : emitSymbol v { s with cand := c } = emitSymbol v s := by
  unfold emitSymbol obufWrite
  simp only
  split <;> rfl

/-- Emitting a symbol counts it, whether or not OBUF has its location (R258). -/
theorem emitSymbol_counts (v : Byte) (s : State) :
    (emitSymbol v s).decoded = s.decoded + 1 ∧ (emitSymbol v s).total = s.total := by
  rcases obufWrite_cases s s.decoded.toNat v with ⟨-, hw⟩ | ⟨-, hw⟩ <;>
  · rw [emitSymbol, hw]
    exact ⟨rfl, rfl⟩

/-- At a location of OBUF the symbol is stored and counted (R82, R258). -/
theorem emitSymbol_stores (h : s.decoded.toNat < s.config.blockMax.toNat) :
    emitSymbol v s = { s with obuf := memStore s.obuf s.decoded.toNat v, decoded := s.decoded + 1, cand := [] } := by
  rw [emitSymbol, obufWrite, if_pos h]

/-- The rest of a Code after a candidate that none of its proper extensions matches: every bit but the last misses. -/
theorem takeBody_code {cs : Bits} (hne : cs ≠ []) (hlen : s.cand.length + cs.length ≤ 255)
    (hhit : lookup s (s.cand ++ cs) = some v)
    (hmiss : ∀ p, p <+: cs → p ≠ [] → p ≠ cs → lookup s (s.cand ++ p) = none)
    (hmore : s.decoded.toNat + 1 < s.total.toNat) : takeBody cs s = .go (emitSymbol v s) := by
  induction cs generalizing s with
  | nil => exact absurd rfl hne
  | cons b cs ih =>
    rw [List.length_cons] at hlen
    rw [takeBody_cons (by omega)]
    by_cases hlast : cs = []
    · subst hlast
      have hcount : (s.decoded + 1).toNat = s.decoded.toNat + 1 := by bv_omega
      obtain ⟨hdecoded, htotal⟩ := emitSymbol_counts v s
      have hnext : (emitSymbol v s).decoded.toNat < (emitSymbol v s).total.toNat := by
        rw [hdecoded, htotal, hcount]
        exact hmore
      rw [takeBodyBit_hit hhit, Flow.andThen_go, takeBody_nil hnext]
    · have hpos := List.length_pos_of_ne_nil hlast
      have hfirst := hmiss [b] ⟨cs, rfl⟩ (List.cons_ne_nil b []) fun h => hlast (List.cons.inj h).2.symm
      rw [takeBodyBit_miss hfirst (by omega), Flow.andThen_go, ← emitSymbol_cand (s := s) (s.cand ++ [b])]
      refine ih hlast ?_ ?_ (fun p hp h0 h1 => ?_) hmore
      · rw [List.length_append, List.length_singleton]
        omega
      · show lookup s (s.cand ++ [b] ++ cs) = some v
        rwa [List.append_assoc]
      · show lookup s (s.cand ++ [b] ++ p) = none
        rw [List.append_assoc]
        exact hmiss (b :: p) (List.cons_prefix_cons.mpr ⟨rfl, hp⟩) (List.cons_ne_nil b p) fun h =>
          h1 (List.cons.inj h).2

end BodyBit

/-- Settles O49: from an empty candidate the bits of the Code emit its symbol at OBUF[DECODED]. -/
theorem bodyCodeEmitsItsSymbol : Obligations.BodyCodeEmitsItsSymbol := by
  intro code v s hst hcand hne hlen hhit hmiss hmore hroom
  have hstored : ∀ i, memFind (memStore s.obuf s.decoded.toNat v) i =
      if s.decoded.toNat = i then some v else memFind s.obuf i := fun i => memFind_memStore _ _ _ _
  have hcode : takeBody code s = .go (emitSymbol v s) := by
    refine takeBody_code hne ?_ ?_ (fun p hp h0 h1 => ?_) hmore <;> rw [hcand]
    · rwa [List.length_nil, Nat.zero_add]
    · exact hhit
    · exact hmiss p hp h0 h1
  refine ⟨emitSymbol v s, ?_, ?_, ?_, fun i hi => ?_⟩
  · exact (acceptField_run hst).trans (by rw [hcode, Flow.state_go])
  · rw [emitSymbol_stores hroom, ← hcand]
  · rw [emitSymbol_stores hroom, obufByte, hstored, if_pos rfl, Option.getD_some]
  · rw [emitSymbol_stores hroom, obufByte, hstored, if_neg hi.symm, obufByte]

end Sys2Proof.Machine
end

section
/-! SUPPORT. LDIBUF (30_encoding R126): its accesses are taken one a step, and the writes to IBUF store the bytes in
order. -/

namespace Sys2Proof.Machine

/-! ## Bytes stored one after the other -/

/-- A memory after these bytes have been stored from location `k` on. -/
def storeFrom (m : Memory) (k : Nat) : List Byte → Memory
  | [] => m
  | v :: vs => storeFrom (memStore m k v) (k + 1) vs

/-- A location below `k` or behind the bytes reads as before. -/
theorem memFind_storeFrom_outside (vs : List Byte) (m : Memory) {k i : Nat} (h : i < k ∨ k + vs.length ≤ i) :
    memFind (storeFrom m k vs) i = memFind m i := by
  induction vs generalizing m k with
  | nil => rfl
  | cons v vs ih =>
    rw [List.length_cons] at h
    rw [storeFrom, ih _ (by omega), memFind_memStore, if_neg (by omega)]

/-- The location of a byte reads that byte. -/
theorem memFind_storeFrom_inside (vs : List Byte) (m : Memory) (k : Nat) {i : Nat} (h : i < vs.length) :
    memFind (storeFrom m k vs) (k + i) = vs[i]? := by
  induction vs generalizing m k i with
  | nil => cases h
  | cons v vs ih =>
    cases i with
    | zero => rw [storeFrom, memFind_storeFrom_outside _ _ (by omega), memFind_memStore, if_pos (Nat.add_zero k).symm,
        List.getElem?_cons_zero]
    | succ i =>
      rw [storeFrom, List.getElem?_cons_succ, Nat.add_comm i 1, ← Nat.add_assoc]
      exact ih _ _ (Nat.lt_of_succ_lt_succ h)

/-! ## The accesses of LDIBUF, step by step (R126) -/

/-- A machine runs by its steps. -/
theorem run_succ (M : Host.Core) {s s' : M.State} (h : M.step s = .next s') (k : Nat) :
    M.run (k + 1) s = M.run k s' := by
  rw [Host.Core.run, h]

/-- A host write is taken in one step (R37). -/
theorem run_regWrite {s : State} {space : BitVec 4} {index : BitVec 32} {data : BitVec 64} {rest : List HostAction}
    (hb : s.busy = false) (hp : s.pending = .regWrite space index data :: rest) (k : Nat) :
    Host.Core.run Sys2Proof.core (k + 1) s =
      Host.Core.run Sys2Proof.core k (hostWrite { s with pending := rest } space index data) :=
  run_succ Sys2Proof.core (step_hostAction hb hp (fun _ => nofun) fun _ => nofun) k

/-- A write to space 1 stores the byte at a location that exists (R36, R82). -/
theorem hostWrite_ibuf {s : State} {i : Nat} (v : Byte) (h : i < s.config.blockMax.toNat) (h32 : i < 2 ^ 32) :
    hostWrite s 1 (BitVec.ofNat 32 i) (v.setWidth 64) = { s with ibuf := memStore s.ibuf i v } := by
  have hindex : (BitVec.ofNat 32 i).toNat = i := index_toNat h32 (Nat.le_refl _)
  have hbyte : (v.setWidth 64).setWidth 8 = v := by
    rw [BitVec.setWidth_setWidth_of_le v (by decide), BitVec.setWidth_eq]
  show ibufWrite s (BitVec.ofNat 32 i).toNat ((v.setWidth 64).setWidth 8) = _
  rw [hindex, hbyte, ibufWrite, if_pos h]

theorem run_ibufWrite {s : State} {i : Nat} (v : Byte) {rest : List HostAction} (hb : s.busy = false)
    (hp : s.pending = .regWrite 1 (BitVec.ofNat 32 i) (v.setWidth 64) :: rest) (h : i < s.config.blockMax.toNat)
    (h32 : i < 2 ^ 32) (k : Nat) :
    Host.Core.run Sys2Proof.core (k + 1) s =
      Host.Core.run Sys2Proof.core k { s with pending := rest, ibuf := memStore s.ibuf i v } :=
  (run_regWrite hb hp k).trans (congrArg (Host.Core.run Sys2Proof.core k) (hostWrite_ibuf v h h32))

/-- The writes of LDIBUF from location `k` on, `j` steps to follow. -/
theorem run_ibufWrites (vs : List Byte) (k j : Nat) {s : State} {rest : List HostAction} (hb : s.busy = false)
    (hroom : k + vs.length ≤ s.config.blockMax.toNat) (h32 : k + vs.length ≤ 2 ^ 32)
    (hp : s.pending =
      ((vs.zipIdx k).map fun p => .regWrite 1 (BitVec.ofNat 32 p.2) (p.1.setWidth 64)) ++ rest) :
    Host.Core.run Sys2Proof.core (vs.length + j) s =
      Host.Core.run Sys2Proof.core j { s with pending := rest, ibuf := storeFrom s.ibuf k vs } := by
  induction vs generalizing k s with
  | nil =>
    have hs : { s with pending := rest, ibuf := storeFrom s.ibuf k [] } = s := by
      rw [storeFrom, ← (show s.pending = rest from hp)]
    rw [hs, List.length_nil, Nat.zero_add]
  | cons v vs ih =>
    rw [List.length_cons] at hroom h32 ⊢
    rw [List.zipIdx_cons, List.map_cons, List.cons_append] at hp
    have hk : k < s.config.blockMax.toNat := by omega
    have hrest : k + 1 + vs.length ≤ s.config.blockMax.toNat := by omega
    rw [Nat.add_right_comm]
    exact (run_ibufWrite v hb hp hk (by omega) _).trans (ih (k + 1) hb hrest (by omega) rfl)

/-- Settles O60: the writes to IBUF, then the write to LEN. -/
theorem ldibufLoadsTheBlock : Obligations.LdibufLoadsTheBlock := by
  intro (s : State) bytes rest hb hroom h32 hp
  have hlen : (BitVec.ofNat 64 bytes.length).toNat = bytes.length := by
    rw [BitVec.toNat_ofNat]
    omega
  refine ⟨{ s with pending := rest, len := BitVec.ofNat 64 bytes.length, ibuf := storeFrom s.ibuf 0 bytes },
    ?_, rfl, ?_, hlen, rfl, fun i hi => ?_⟩
  · rw [ldibufActions, List.append_assoc] at hp
    refine (run_ibufWrites bytes 0 1 hb (by omega) (by omega) hp).trans ?_
    exact run_regWrite
      (s := { s with
        pending := .regWrite 0 1 (BitVec.ofNat 64 bytes.length) :: rest
        ibuf := storeFrom s.ibuf 0 bytes })
      hb rfl 0
  · refine List.ext_getElem (by simpa [blockBytes] using hlen) fun i _ hi => ?_
    have hfind := memFind_storeFrom_inside bytes s.ibuf 0 hi
    rw [Nat.zero_add] at hfind
    simp [blockBytes, ibufByte, hfind, hi]
  · simp only [ibufByte, memFind_storeFrom_outside bytes s.ibuf (k := 0) (i := i) (by omega)]

end Sys2Proof.Machine
end

section
/-! SUPPORT. What the writer has written, as one bit sequence (41_bitwriter R161 to R163, 10_state R56): every write
appends its bits, a flush pads to the byte boundary, and so the fields of a block follow one another
(44_codec_compress R234 to R237, 20_memory R81). On a byte boundary these are the bytes of the fields. -/

namespace Sys2Proof.Machine

/-! ## The writer (R161 to R163) -/

theorem writerStream_length (s : State) : (writerStream s).length = 8 * s.snk.length + s.wrN.toNat := by
  simp [writerStream, pendingBits]

/-- On a byte boundary nothing is pending. -/
theorem writerStream_aligned {s : State} (h : s.wrN = 0) : writerStream s = bitsOfBytes s.snk := by
  simp [writerStream, pendingBits, h]

theorem writerStream_congr {s t : State} (hsnk : t.snk = s.snk) (hacc : t.wrAcc = s.wrAcc) (hn : t.wrN = s.wrN) :
    writerStream t = writerStream s := by
  rw [writerStream, writerStream, pendingBits, pendingBits, hsnk, hacc, hn]

theorem writerStream_st (s : State) (c : CtrlState) : writerStream { s with st := c } = writerStream s := rfl

theorem writeBit_stream (s : State) (b : Bool) : writerStream (writeBit s b) = writerStream s ++ [b] := by
  have hn := s.wrN.isLt
  rw [writerStream, writerStream, pendingBits_eq_lowBits, pendingBits_eq_lowBits, List.append_assoc,
    ← lowBits_accWith (by omega)]
  unfold writeBit
  split
  · rename_i hlast
    simp only [snkWrite_snk, bitsOfBytes_append, bitsOfBytes_cons, bitsOfBytes_nil, bitsOfByte_eq_lowBits, hlast]
    simp
  · have hnext : (s.wrN + 1).toNat = s.wrN.toNat + 1 := by bv_omega
    simp only [hnext]

theorem writeBits_stream (bs : Bits) (s : State) : writerStream (writeBits bs s) = writerStream s ++ bs := by
  induction bs generalizing s with
  | nil => simp
  | cons b bs ih =>
    have hrest := ih (writeBit s b)
    rwa [writeBit_stream, List.append_assoc, List.singleton_append] at hrest

theorem writeByte_stream (v : Byte) (s : State) : writerStream (writeByte v s) = writerStream s ++ bitsOfByte v :=
  writeBits_stream _ s

theorem foldl_writeByte_stream (vs : List Byte) (s : State) :
    writerStream (vs.foldl (fun u v => writeByte v u) s) = writerStream s ++ bitsOfBytes vs := by
  induction vs generalizing s with
  | nil => simp
  | cons v vs ih => rw [List.foldl_cons, ih, writeByte_stream, List.append_assoc, bitsOfBytes_cons]

@[simp] theorem flush_wrN (s : State) : (flush s).wrN = 0 := by
  unfold flush
  split
  · rfl
  · rename_i hn
    exact BitVec.eq_of_toNat_eq (Nat.eq_zero_of_not_pos hn)

/-- A flush pads the stream to the next byte boundary (R163). -/
theorem flush_stream (s : State) : writerStream (flush s) = padToByte (writerStream s) := by
  have hn := s.wrN.isLt
  have hlen := writerStream_length s
  rw [writerStream_aligned (flush_wrN s), padToByte, hlen]
  unfold flush
  split
  · rw [snkWrite_snk, bitsOfBytes_append, bitsOfBytes_cons, bitsOfBytes_nil, List.append_nil,
      bitsOfByte_shiftLeft _ (by omega), writerStream, pendingBits_eq_lowBits, List.append_assoc]
    exact congrArg (fun k => bitsOfBytes s.snk ++ (lowBits s.wrN.toNat s.wrAcc ++ List.replicate k false)) (by omega)
  · rename_i h0
    rw [writerStream_aligned (BitVec.eq_of_toNat_eq (Nat.eq_zero_of_not_pos h0))]
    have hpad : (8 - (8 * s.snk.length + s.wrN.toNat) % 8) % 8 = 0 := by omega
    rw [hpad, List.replicate_zero, List.append_nil]

/-! ## The block (44_codec_compress R234 to R237) -/

/-- Writing changes nothing that a block is written from. -/
theorem BlockOnly.sameData {s t : State} (h : BlockOnly s t) :
    t.len = s.len ∧ t.nent = s.nent ∧ t.config = s.config ∧ codeAt t = codeAt s ∧ presentBytes t = presentBytes s ∧
      blockBytes t = blockBytes s ∧ SameError s t := by
  obtain ⟨_, _, _, _, _, _, _, _, _, rfl⟩ := h
  exact ⟨rfl, rfl, rfl, rfl, rfl, rfl, rfl, rfl, rfl⟩

theorem WriterOnly.codeAt {s t : State} (h : WriterOnly s t) : codeAt t = codeAt s := by
  obtain ⟨_, _, _, rfl⟩ := h
  rfl

theorem writeEntry_stream (s : State) (b : Byte) :
    writerStream (writeEntry s b) = entryStream (writerStream s) (b, (codeAt s b).bits) := by
  simp only [writeEntry, flush_stream, writeBits_stream, writeByte_stream, entryStream, CodeEntry.len]

theorem foldl_writeEntry_stream (bs : List Byte) (s : State) :
    writerStream (bs.foldl writeEntry s) =
      (bs.map fun b => (b, (codeAt s b).bits)).foldl entryStream (writerStream s) := by
  induction bs generalizing s with
  | nil => rfl
  | cons b bs ih =>
    rw [List.foldl_cons, ih, writeEntry_stream, (writeEntry_only s b).codeAt]
    rfl

/-- The header follows the stream (R234). -/
theorem writeHeader_stream (s : State) :
    writerStream (writeHeader s) =
      (tableEntries s).foldl entryStream (writerStream s ++ bitsOfByte (s.nent.setWidth 8)) := by
  have hcode : codeAt (writeByte (s.nent.setWidth 8) s) = codeAt s := (writeBits_only _ s).codeAt
  have h := foldl_writeEntry_stream (presentBytes s) (writeByte (s.nent.setWidth 8) s)
  rw [writeByte_stream, hcode] at h
  exact h

/-- The count follows the header (R235). -/
theorem writeCount_stream (s : State) :
    writerStream (writeCount s) = writerStream s ++ bitsOfBytes (countBytes s.len) := by
  rw [writeCount, writerStream_congr (releaseByteIx_snk _) (releaseByteIx_wrAcc _) (releaseByteIx_wrN _)]
  exact foldl_writeByte_stream (countBytes s.len) { s with total := s.len }

theorem foldl_writeCode_stream (vs : List Byte) (s : State) :
    writerStream (vs.foldl (fun u v => writeBits (codeAt u v).bits u) s) =
      writerStream s ++ vs.flatMap fun v => (codeAt s v).bits := by
  induction vs generalizing s with
  | nil => simp
  | cons v vs ih =>
    rw [List.foldl_cons, ih, writeBits_stream, (writeBits_only _ s).codeAt, List.append_assoc, List.flatMap_cons]

/-- The body follows the count (R236). -/
theorem writeBody_stream (s : State) : writerStream (writeBody s) = writerStream s ++ blockBody s :=
  foldl_writeCode_stream (blockBytes s) s

/-- The state a block is written from and the states while it is written have the same block and the same tables. -/
theorem BlockOnly.blockBody_eq {s t : State} (h : BlockOnly s t) : blockBody t = blockBody s := by
  obtain ⟨-, -, -, hcode, -, hbytes, -⟩ := h.sameData
  rw [blockBody, blockBody, hcode, hbytes]

theorem BlockOnly.tableEntries_eq {s t : State} (h : BlockOnly s t) : tableEntries t = tableEntries s := by
  obtain ⟨-, -, -, hcode, hpresent, -, -⟩ := h.sameData
  rw [tableEntries, tableEntries, hcode, hpresent]

@[simp] theorem tableEntries_length (s : State) : (tableEntries s).length = (presentBytes s).length := List.length_map _

/-- The whole block follows the stream (R234 to R237). -/
theorem writeBlock_stream {s : State} (hn : s.nent = BitVec.ofNat 9 (presentBytes s).length) :
    writerStream (writeBlock s) = blockStream (tableEntries s) s.len (blockBody s) (writerStream s) := by
  have hcount8 : s.nent.setWidth 8 = BitVec.ofNat 8 (tableEntries s).length := by
    rw [hn, BitVec.setWidth_ofNat_of_le (by decide), tableEntries_length]
  have hheader : writerStream (writeHeader { s with st := .writingHeader }) =
      (tableEntries s).foldl entryStream (writerStream s ++ bitsOfByte (s.nent.setWidth 8)) :=
    writeHeader_stream { s with st := .writingHeader }
  have hheaderOnly : BlockOnly s { writeHeader { s with st := .writingHeader } with st := .writingCount } :=
    ((blockOnly_st s _).trans (writeHeader_block _)).trans (blockOnly_st _ _)
  have hcountOnly := (hheaderOnly.trans (writeCount_block _)).trans (blockOnly_st _ .writingBody)
  rw [writeBlock, flush_stream, writeBody_stream, hcountOnly.blockBody_eq, writerStream_st, writeCount_stream,
    hheaderOnly.sameData.1, writerStream_st, hheader, hcount8, blockStream]

end Sys2Proof.Machine
end

section
/-! SUPPORT. A block of COMPRESS (44_codec_compress R230 to R237): on a byte boundary the stream of a block is the bytes
of its fields; the counts of a block sum to its length, so the builder does not overflow, and a block that misses a byte
value is written whole. -/

namespace Sys2Proof.Machine

/-! ## A block on a byte boundary (30_encoding R101, R102) -/

theorem padToByte_append {w : Bits} (hw : w.length % 8 = 0) (bs : Bits) : padToByte (w ++ bs) = w ++ padToByte bs := by
  have hlen : (w ++ bs).length % 8 = bs.length % 8 := by
    rw [List.length_append]
    omega
  rw [padToByte, padToByte, hlen, List.append_assoc]

theorem bitsOfBytes_aligned (vs : List Byte) : (bitsOfBytes vs).length % 8 = 0 := by
  rw [bitsOfBytes_length]
  omega

/-- An entry after whole bytes is the bytes of its fields (R105 to R107). -/
theorem entryStream_bytes (vs : List Byte) (e : Byte × Bits) :
    entryStream (bitsOfBytes vs) e = bitsOfBytes (vs ++ fieldBytes (entryFields e.1 e.2)) := by
  have hfields : fieldBytes (entryFields e.1 e.2) = [e.1, BitVec.ofNat 8 e.2.length] ++ packBits e.2 := by
    simp [fieldBytes, entryFields, encodeWire]
  have hbytes : bitsOfBytes vs ++ bitsOfByte e.1 ++ bitsOfByte (BitVec.ofNat 8 e.2.length) =
      bitsOfBytes (vs ++ [e.1, BitVec.ofNat 8 e.2.length]) := by simp
  rw [entryStream, hbytes, padToByte_append (bitsOfBytes_aligned _), hfields, ← List.append_assoc,
    bitsOfBytes_append _ (packBits e.2), bitsOfBytes_packBits]

theorem foldl_entryStream_bytes (entries : List (Byte × Bits)) (vs : List Byte) :
    entries.foldl entryStream (bitsOfBytes vs) =
      bitsOfBytes (vs ++ fieldBytes (entries.flatMap fun e => entryFields e.1 e.2)) := by
  induction entries generalizing vs with
  | nil => simp [fieldBytes]
  | cons e entries ih =>
    rw [List.foldl_cons, entryStream_bytes, ih, List.flatMap_cons, fieldBytes, fieldBytes, fieldBytes,
      List.flatMap_append, List.append_assoc]

/-- A block after whole bytes is the bytes of its fields (R101). -/
theorem blockStream_bytes (entries : List (Byte × Bits)) (total : Count) (codes : Bits) (vs : List Byte) :
    blockStream entries total codes (bitsOfBytes vs) =
      bitsOfBytes (vs ++ fieldBytes (blockFields entries total codes)) := by
  have hfields : fieldBytes (blockFields entries total codes) = [BitVec.ofNat 8 entries.length] ++
      fieldBytes (entries.flatMap fun e => entryFields e.1 e.2) ++ countBytes total ++ packBits codes := by
    simp [fieldBytes, blockFields, encodeWire]
  have hfirst : bitsOfBytes vs ++ bitsOfByte (BitVec.ofNat 8 entries.length) =
      bitsOfBytes (vs ++ [BitVec.ofNat 8 entries.length]) := by simp
  rw [blockStream, hfirst, foldl_entryStream_bytes, ← bitsOfBytes_append, padToByte_append (bitsOfBytes_aligned _),
    ← bitsOfBytes_packBits, ← bitsOfBytes_append, hfields]
  simp only [List.append_assoc]

/-! ## The counts of a block (R232) -/

/-- A count of the scan is the number of times its byte occurs: LEN bytes cannot overflow it (R232). -/
theorem freqAt_scan (s : State) (b : Byte) : (freqAt (scan s) b).toNat = blockCount s b := by
  have hlen : (blockBytes s).length = s.len.toNat := by simp [blockBytes]
  have hle := List.count_le_length (l := blockBytes s) (a := b)
  have hcount := foldl_countByte (blockBytes s) (tableOf 256 0) b
  rw [tabGet_tableOf_default] at hcount
  have hfreq : freqAt (scan s) b = BitVec.ofNat 64 ((blockBytes s).count b) := hcount.trans (BitVec.zero_add _)
  rw [hfreq, BitVec.toNat_ofNat, Nat.mod_eq_of_lt (by omega), blockCount]

/-- The counts of a block sum to its length (R232). -/
theorem freqSum_scan (s : State) : freqSum (scan s) = s.len.toNat := by
  have hsum := Multiset.sum_count_eq_card (s := (presentBytes (scan s)).toFinset) (m := (blockBytes s : Multiset Byte))
    fun v hv => List.mem_toFinset.mpr (scan_present hv)
  simp only [Multiset.coe_count, Multiset.coe_card] at hsum
  rw [List.sum_toFinset _ (presentBytes_nodup _)] at hsum
  rw [← presentBytes_sum]
  simp only [freqAt_scan]
  exact hsum.trans (by simp [blockBytes])

/-- With a byte value missing fewer than 256 are present (R233). -/
theorem presentBytes_length_ne {s : State} {b : Byte} (h : freqAt s b = 0) : (presentBytes s).length ≠ 256 := by
  intro hlen
  have hall := List.length_filter_eq_length_iff.mp (hlen.trans (by simp [Config.nsym]) :
    (presentBytes s).length = ((List.range Config.nsym).map (BitVec.ofNat 8)).length)
  have hb := hall b (List.mem_map.mpr ⟨b.toNat, List.mem_range.mpr b.isLt, by simp⟩)
  exact of_decide_eq_true hb h

/-! ## Frequencies below 2^64 do not overflow the builder (R185) -/

/-- A piece that cannot end the operation goes on. -/
theorem Flow.Meets.goes {x : Flow} {P : State → Prop} (h : x.Meets P fun _ => False) : ∃ t, x = .go t ∧ P t := by
  cases x with
  | go t => exact ⟨t, rfl, h⟩
  | ended t => exact h.elim

section Fits
variable {s : State} {total : Nat}

/-- Two roots carry no more than all frequencies. -/
theorem joinNodes_fits {w : NodeId → Nat} {a b : NodeId} {q : List NodeId} {k : Nat}
    (h : Forest (nodeAt s) w (a :: b :: q) k total) (htotal : total < 2 ^ 64) :
    (joinNodes a b s).Meets (fun _ => True) fun _ => False := by
  have hfreqs := h.freqs
  simp only [List.map_cons, List.sum_cons] at hfreqs
  rw [joinNodes, if_neg (by omega)]
  trivial

theorem mergeTwo_fits (h : ForestIn s total) (htotal : total < 2 ^ 64) (hlen : 2 ≤ s.pq.length) :
    (mergeTwo s).Meets (fun _ => True) fun _ => False := by
  obtain ⟨w, hf⟩ := h
  obtain ⟨a, b, q, q', -, -, hp, hp', heq⟩ := mergeTwo_eq hlen
  rw [heq]
  exact joinNodes_fits (s := { s with pq := q' }) (hf.perm (hp.trans (hp'.cons a))) htotal

theorem mergeLoop_fits (k : Nat) (h : ForestIn s total) (htotal : total < 2 ^ 64) :
    (mergeLoop k s).Meets (fun _ => True) fun _ => False := by
  induction k generalizing s with
  | zero => trivial
  | succ k ih =>
    unfold mergeLoop
    split
    · rename_i hlen
      exact ((mergeTwo_fits h htotal hlen).and (mergeTwo_meets h hlen)).andThen fun t ⟨_, hm, _⟩ => ih hm.forest
    · trivial

/-- `encode()` goes on to its end where the frequencies sum to less than 2^64 (R180, R185). -/
theorem encodeTables_fits (h : freqSum s < 2 ^ 64) :
    ∃ t, encodeTables s = .go t ∧ TablesOnly { s with st := .building } t := by
  have hforest := (makeLeaves_covering { s with st := .building }).forest
  have hmerge : (mergeAll (makeLeaves (clearTables { s with st := .building }))).Meets (fun _ => True) fun _ => False :=
    (mergeLoop_fits _ hforest h).andThen fun _ _ => True.intro
  have hfits : (encodeTables s).Meets (fun _ => True) fun _ => False := hmerge.andThen fun _ _ => True.intro
  have honly := (encodeTables_outcome s).meets
  obtain ⟨t, hgo, -, ht⟩ := (hfits.and honly).goes
  exact ⟨t, hgo, ht⟩

end Fits

/-! ## The whole of COMPRESS (R230) -/

theorem countEntries_go {s : State} (h : (presentBytes s).length ≠ 256) :
    countEntries s = .go { s with nent := BitVec.ofNat 9 (presentBytes s).length } := if_neg h

/-- The tables for the block of `s` are built in `t`, with nothing written yet. -/
structure BlockReady (s t : State) : Prop where
  writer : SameWriter s t
  error : SameError s t
  len : t.len = s.len
  block : blockBytes t = blockBytes s
  nent : t.nent = BitVec.ofNat 9 (presentBytes t).length

/-- A block that fits and misses a byte value is scanned, encoded and written (R230 to R237). -/
theorem compressOp_completes {s : State} (hlen : s.len.toNat ≤ s.config.blockMax.toNat)
    (hmiss : ∃ b, blockCount s b = 0) :
    ∃ t, BlockReady s t ∧ compressOp s = finishDone (writeBlock t) := by
  have hfits : freqSum (scan { s with st := .scanning }) < 2 ^ 64 := by
    rw [freqSum_scan]
    exact s.len.isLt
  obtain ⟨t, hgo, ht⟩ := encodeTables_fits hfits
  have hpresent : (presentBytes t).length ≠ 256 := by
    obtain ⟨b, hb⟩ := hmiss
    obtain ⟨_, _, _, _, _, _, _, _, _, rfl⟩ := ht
    exact presentBytes_length_ne (b := b) (BitVec.eq_of_toNat_eq ((freqAt_scan _ b).trans hb))
  have hready : BlockReady s { t with nent := BitVec.ofNat 9 (presentBytes t).length } := by
    obtain ⟨_, _, _, _, _, _, _, _, _, rfl⟩ := ht
    exact ⟨⟨rfl, rfl, rfl⟩, ⟨rfl, rfl, rfl⟩, rfl, rfl, rfl⟩
  refine ⟨_, hready, ?_⟩
  rw [compressOp, checkLen, if_neg (Nat.not_lt.mpr hlen), Flow.andThen_go, hgo, Flow.andThen_go,
    countEntries_go hpresent, Flow.andThen_go, Flow.state_ended]

theorem WriterOnly.total {s t : State} (h : WriterOnly s t) : t.total = s.total := by
  obtain ⟨_, _, _, rfl⟩ := h
  rfl

/-- TOTAL is set with the count and kept by the body (R235, R236). -/
theorem writeBlock_total (s : State) : (writeBlock s).total = s.len := by
  have hbody : ∀ u, (writeBody u).total = u.total := fun u => by
    rw [writeBody, releasePos_total, (foldl_only _ (fun u v => writeBits_only (codeAt u v).bits u) _ u).total]
  have hcount : ∀ u, (writeCount u).total = u.len := fun u => by
    have honly := foldl_only (fun u v => writeByte v u) fun u _ => writeBits_only _ u
    rw [writeCount, releaseByteIx_total, (honly _ _).total]
  have hheader : (writeHeader { s with st := .writingHeader }).len = s.len := (writeHeader_block _).sameData.1
  rw [writeBlock, (flush_only _).total, hbody]
  simp only [hcount, hheader]

/-- Settles O27: the tables are built, and the stream of the block written is that of its fields. -/
theorem compressWritesTheBlock : Obligations.CompressWritesTheBlock := by
  intro s hst hlen hmiss hclean
  obtain ⟨t, hready, hop⟩ := compressOp_completes (s := { s with busy := true }) hlen hmiss
  have honly := writeBlock_block t
  obtain ⟨-, hnent, -, -, hpresent, hblock, herror⟩ := honly.sameData
  have hstart : writerStream t = writerStream s :=
    writerStream_congr hready.writer.snk hready.writer.wrAcc hready.writer.wrN
  have hstream := writeBlock_stream hready.nent
  have hwrN : (writeBlock t).wrN = 0 := flush_wrN _
  have hwrAcc : (writeBlock t).wrAcc = 0 := by
    have h := writeBlock_clean (writerClean_congr hready.writer.wrAcc hready.writer.wrN hclean)
    rw [writerClean, hwrN] at h
    exact BitVec.eq_of_toNat_eq (Nat.lt_one_iff.mp h)
  rw [writerStream_aligned hwrN, hready.len, hstart, ← honly.tableEntries_eq, ← honly.blockBody_eq] at hstream
  obtain ⟨herr, hsub, hstate⟩ := hready.error.trans herror
  have htotal := (writeBlock_total t).trans hready.len
  have hle := presentBytes_length t
  have hcount : (writeBlock t).nent.toNat = (tableEntries (writeBlock t)).length := by
    rw [tableEntries_length, hpresent, hnent, hready.nent, BitVec.toNat_ofNat]
    omega
  have hrun : exec .compress s = .next (finishDone (writeBlock t)) :=
    (acceptCommand_run hst).trans (congrArg Host.Outcome.next hop)
  generalize writeBlock t = u at *
  refine ⟨finishDone u, hrun, rfl, rfl, hwrN, hwrAcc, ⟨herr, hsub, hstate⟩, htotal, hcount,
    hblock.trans hready.block, hstream, fun h0 => ?_⟩
  rw [writerStream_aligned h0, blockStream_bytes] at hstream
  exact bitsOfBytes_injective hstream

end Sys2Proof.Machine
end

section
/-! SUPPORT. The statements of 40_bitreader: what a read leaves of the stream, that a buffered byte is read whole and
discarded whole, and the byte as the number of its bits. -/

namespace Sys2Proof.Machine

/-! ## What a read leaves (40_bitreader R141, R142) -/

/-- The refill step leaves the stream as it was (R141). -/
theorem refill_readerStream {s s' : State} (h : refill s = some s') : readerStream s' = readerStream s := by
  rcases refill_cases s with ⟨_, hr⟩ | ⟨_, _, hr⟩ | ⟨v, vs, h0, hs, hr⟩ <;> rw [hr] at h <;> cases h
  · rfl
  · exact readerStream_refill h0 hs

/-- The refill step fails only at the end of the source with an empty buffer (R141). -/
theorem refill_none {s : State} (h : refill s = none) : s.rdLeft = 0 ∧ s.src = [] := by
  rcases refill_cases s with ⟨_, hr⟩ | ⟨h0, hs, _⟩ | ⟨v, vs, _, _, hr⟩
  · exact nomatch hr.symm.trans h
  · exact ⟨h0, hs⟩
  · exact nomatch hr.symm.trans h

/-- What is left of the stream after a read is what stands behind the bits delivered. -/
theorem readerStream_readBits (n : Nat) (s : State) : readerStream (readBits n s).2 = (readerStream s).drop n := by
  induction n generalizing s with
  | zero => rfl
  | succ n ih =>
    simp only [readBits]
    cases hr : refill s with
    | none =>
      obtain ⟨h0, hs⟩ := refill_none hr
      rw [readerStream_nil h0 hs, List.drop_nil]
    | some s' =>
      rw [ih, ← refill_readerStream hr, readerStream_takeBit (refill_bitsLeft hr).1, List.drop_succ_cons]

/-- A read never buffers more than one byte (10_state R22). -/
theorem readBits_rdLeft_le (n : Nat) {s : State} (h : s.rdLeft.toNat ≤ 8) : (readBits n s).2.rdLeft.toNat ≤ 8 := by
  induction n generalizing s with
  | zero => exact h
  | succ n ih =>
    simp only [readBits]
    rcases refill_cases s with ⟨h0, hr⟩ | ⟨_, _, hr⟩ | ⟨v, vs, _, _, hr⟩ <;> rw [hr]
    · have htake : (s.rdLeft - 1).toNat ≤ 8 := by bv_omega
      exact ih htake
    · exact h
    · exact ih (by decide : (8 - 1 : BitVec 4).toNat ≤ 8)

/-- A read delivers the next bits of the stream, leaves the others, and changes the reader alone. -/
theorem readBits_delivers (n : Nat) {s : State} (h : s.rdLeft.toNat ≤ 8) :
    ∃ v k vs, readBits n s = ((readerStream s).take n, { s with rdByte := v, rdLeft := k, src := vs }) ∧
      readerStream { s with rdByte := v, rdLeft := k, src := vs } = (readerStream s).drop n ∧ k.toNat ≤ 8 := by
  obtain ⟨v, k, vs, honly⟩ := readBits_only n s
  have hrest := readerStream_readBits n s
  have hle := readBits_rdLeft_le n h
  rw [honly] at hrest hle
  exact ⟨v, k, vs, Prod.ext (readBits_bits n s) honly, hrest, hle⟩

/-! ## Reads from the buffered byte (R141, R146) -/

/-- With a bit in the buffer a read begins by taking it. -/
theorem readBits_succ_buffered (n : Nat) {s : State} (h : s.rdLeft ≠ 0) :
    readBits (n + 1) s = ((takeBit s).1 :: (readBits n (takeBit s).2).1, (readBits n (takeBit s).2).2) := by
  rw [readBits, refill, if_neg h]

/-- A read of exactly the buffered bits empties the buffer and does nothing else. -/
theorem readBits_buffered {n : Nat} {s : State} (h : s.rdLeft.toNat = n) :
    (readBits n s).2 = { s with rdLeft := 0 } := by
  induction n generalizing s with
  | zero =>
    have h0 : s.rdLeft = 0 := BitVec.eq_of_toNat_eq h
    rw [readBits_zero, ← h0]
  | succ n ih =>
    have h0 : s.rdLeft ≠ 0 := fun h0 => by simp [h0] at h
    have hnext : (s.rdLeft - 1).toNat = n := by bv_omega
    rw [readBits_succ_buffered n h0, ih (s := (takeBit s).2) hnext]
    rfl

/-- With an empty buffer a read is the read after the refill step. -/
theorem readBits_refilled (n : Nat) {s : State} {v : Byte} {vs : List Byte} (h0 : s.rdLeft = 0) (hs : s.src = v :: vs) :
    readBits (n + 1) s = readBits (n + 1) { s with rdByte := v, rdLeft := 8, src := vs } := by
  simp [readBits, refill, srcRead, h0, hs]

/-- Nothing is read at the end of the source with an empty buffer, and nothing changes (R143). -/
theorem readBits_exhausted (n : Nat) {s : State} (h0 : s.rdLeft = 0) (hs : s.src = []) : readBits n s = ([], s) := by
  cases n with
  | zero => rfl
  | succ n => simp [readBits, refill, srcRead, h0, hs]

/-- On a byte boundary a read of eight bits takes the next byte and leaves the buffer empty. -/
theorem readBits_byte {s : State} {v : Byte} {vs : List Byte} (h0 : s.rdLeft = 0) (hs : s.src = v :: vs) :
    readBits 8 s = (bitsOfByte v, { s with rdByte := v, rdLeft := 0, src := vs }) := by
  have hbits : (readBits 8 s).1 = bitsOfByte v := by
    rw [readBits_bits, readerStream_aligned h0, hs, bitsOfBytes_cons, List.take_left' (bitsOfByte_length v)]
  have hstate : (readBits 8 s).2 = { s with rdByte := v, rdLeft := 0, src := vs } := by
    rw [readBits_refilled 7 h0 hs]
    exact readBits_buffered rfl
  exact Prod.ext hbits hstate

/-- Settles O12: `align` reads every buffered bit. -/
theorem alignOnlyEmptiesTheBuffer : Obligations.AlignOnlyEmptiesTheBuffer :=
  fun _ => readBits_buffered rfl

/-! ## Sequences of reads (R144) -/

/-- A sequence of reads uses up as many bits as it delivers. -/
theorem bitsLeft_readSeq (ns : List Nat) (s : State) :
    bitsLeft (readSeq ns s).2 + (readSeq ns s).1.length = bitsLeft s := by
  induction ns generalizing s with
  | nil => rfl
  | cons n ns ih =>
    have hfirst := bitsLeft_readBits n s
    have hrest := ih (readBits n s).2
    simp only [readSeq, List.length_append]
    omega

/-- Reads only take bytes from the source. -/
theorem readSeq_src_length_le (ns : List Nat) (s : State) : (readSeq ns s).2.src.length ≤ s.src.length := by
  induction ns generalizing s with
  | nil => exact Nat.le_refl _
  | cons n ns ih => exact (ih _).trans (readBits_keeps n s).src.length_le

/-- Settles O9: a sequence of reads delivers the bits it uses up, and a short read uses up all there are. -/
theorem readerAccounting : Obligations.ReaderAccounting := by
  refine ⟨fun ns s h0 => ?_, fun n s hshort => ?_⟩
  · have hused := bitsLeft_readSeq ns s
    have hsrc := readSeq_src_length_le ns s
    have hleft : s.rdLeft.toNat = 0 := congrArg BitVec.toNat h0
    simp only [bitsLeft] at hused
    omega
  · rw [readBits_bits, List.length_take, readerStream_length] at hshort
    exact (readBits_short (by omega)).2

/-! ## The byte as a number (R145) -/

/-- The low `k` bits of a byte are a number in binary, the highest bit first. -/
theorem toNat_mod_two_pow (v : Byte) (k : Nat) :
    v.toNat % 2 ^ k = ((List.range k).map fun i => (v.getLsbD (k - 1 - i)).toNat * 2 ^ (k - 1 - i)).sum := by
  induction k with
  | zero => rw [Nat.pow_zero, Nat.mod_one, List.range_zero, List.map_nil, List.sum_nil]
  | succ k ih =>
    have hrest : ((List.range k).map fun i => (v.getLsbD (k - (i + 1))).toNat * 2 ^ (k - (i + 1))).sum =
        v.toNat % 2 ^ k := by
      rw [ih]
      exact congrArg List.sum (List.map_congr_left fun i _ => by rw [Nat.sub_sub, Nat.add_comm 1 i])
    rw [List.range_succ_eq_map, List.map_cons, List.sum_cons, List.map_map]
    simp only [Function.comp_def, Nat.succ_eq_add_one, Nat.add_sub_cancel, Nat.sub_zero, hrest]
    rw [Nat.mod_pow_succ, Nat.add_comm, Nat.mul_comm, BitVec.getLsbD, Nat.toNat_testBit]

/-- Of eight bits the one with index `i` is bit `7 - i` of their byte (20_memory R70). -/
theorem byteOfBits_getLsbD {bs : Bits} (h8 : bs.length = 8) {i : Nat} (hi : i < 8) :
    (byteOfBits bs).getLsbD (7 - i) = bs.getD i false := by
  conv_rhs => rw [← bitsOfByte_byteOfBits h8]
  simp [bitsOfByte, hi]

/-- Settles O11: the value of a byte bit by bit, and the read of eight bits on a byte boundary with a byte in the source
and without one. -/
theorem readByteIsMsbFirst : Obligations.ReadByteIsMsbFirst := by
  refine ⟨fun bs h8 => ?_, fun s v vs h0 hs => ?_, fun s h0 hs => readBits_exhausted 8 h0 hs, fun s hpos hlt h0 => ?_⟩
  · have hsum := toNat_mod_two_pow (byteOfBits bs) 8
    rw [Nat.mod_eq_of_lt (byteOfBits bs).isLt] at hsum
    rw [hsum]
    exact congrArg List.sum (List.map_congr_left fun i hi => by rw [byteOfBits_getLsbD h8 (List.mem_range.mp hi)])
  · rw [readBits_byte h0 hs]
    exact ⟨byteOfBits_bitsOfByte v, rfl⟩
  · cases hs : s.src with
    | nil => simp [readBits_exhausted 8 h0 hs] at hpos
    | cons v vs => simp [readBits_byte h0 hs] at hlt

/-! ## RDBITS (R142) -/

/-- BITBUF holds a bit sequence element by element, zeros behind it. -/
theorem bitbufOfBits_getLsbD {bs : Bits} (h : bs.length ≤ 255) (i : Nat) :
    (bitbufOfBits bs).getLsbD i = bs.getD i false := by
  rw [bitbufOfBits, BitVec.getLsbD_ofNat, natOfBits_testBit]
  by_cases hi : i < 255
  · simp [hi]
  · rw [List.getD_eq_default _ _ (show bs.length ≤ i by omega), decide_eq_false hi, Bool.false_and]

/-- Settles O8: RDBITS stores what the read delivers, and the read leaves the rest of the stream. -/
theorem rdbitsDeliversStreamBits : Obligations.RdbitsDeliversStreamBits := by
  intro n s hst hleft
  obtain ⟨v, k, vs, hread, hrest, hk⟩ := readBits_delivers n.toNat (s := { s with busy := true, st := .bitOp }) hleft
  have hlen : ((readerStream s).take n.toNat).length ≤ 255 := by
    have hn := n.isLt
    rw [List.length_take]
    omega
  have hop : rdbitsOp n { s with busy := true } =
      { s with
        rdByte := v
        rdLeft := k
        src := vs
        bitbuf := bitbufOfBits ((readerStream s).take n.toNat)
        bitcnt := BitVec.ofNat 8 ((readerStream s).take n.toNat).length
        st := .done
        busy := false } := by
    rw [rdbitsOp, bitCount, hread]
    rfl
  exact ⟨v, k, vs, _, (acceptCommand_run hst).trans (congrArg Host.Outcome.next hop), rfl, bitbufOfBits_getLsbD hlen,
    hrest, hk⟩

end Sys2Proof.Machine
end

section
/-! SUPPORT. The statements of 41_bitwriter: what a flush leaves, WRBITS and FLUSH as changes of the stream written, and
that a sequence of reads gives back what a sequence of writes and one flush produced. -/

namespace Sys2Proof.Machine

/-! ## What a flush leaves (R163) -/

/-- With no bit pending a clean accumulator is zero (10_state R55). -/
theorem wrAcc_eq_zero_of_clean {s : State} (hclean : writerClean s) (hn : s.wrN = 0) : s.wrAcc = 0 := by
  rw [writerClean, hn] at hclean
  exact BitVec.eq_of_toNat_eq (Nat.lt_one_iff.mp hclean)

/-- A flush writes the pending bits, packed. -/
theorem flush_snk (s : State) : (flush s).snk = s.snk ++ packBits (pendingBits s) := by
  apply bitsOfBytes_injective
  calc bitsOfBytes (flush s).snk
      = padToByte (bitsOfBytes s.snk ++ pendingBits s) := by rw [← writerStream_aligned (flush_wrN s), flush_stream]; rfl
    _ = bitsOfBytes s.snk ++ padToByte (pendingBits s) := padToByte_append (bitsOfBytes_aligned _) _
    _ = bitsOfBytes (s.snk ++ packBits (pendingBits s)) := by rw [bitsOfBytes_append, bitsOfBytes_packBits]

/-- A flush writes the pending bits, leaves the writer empty and changes nothing else. -/
theorem flush_of_clean {s : State} (hclean : writerClean s) :
    flush s = { s with wrAcc := 0, wrN := 0, snk := s.snk ++ packBits (pendingBits s) } := by
  have hacc := wrAcc_eq_zero_of_clean (flush_clean hclean) (flush_wrN s)
  have hn := flush_wrN s
  have hsnk := flush_snk s
  obtain ⟨a, k, vs, hflush, -⟩ := flush_frame s
  rw [hflush] at hacc hn hsnk ⊢
  simp only at hacc hn hsnk
  rw [hacc, hn, hsnk]

/-! ## WRBITS and FLUSH (R164) -/

/-- Settles O13: WRBITS is one write of bits from BITBUF, FLUSH one flush, and both end Done. -/
theorem wrbitsAndFlushWriteTheStream : Obligations.WrbitsAndFlushWriteTheStream := by
  refine ⟨fun n s hst hclean => ?_, fun s hst hclean => ?_⟩
  · have hstream := writeBits_stream (bitbufBits s n) { s with busy := true, st := .bitOp }
    have hkept : writerClean (writeBits (bitbufBits s n) { s with busy := true, st := .bitOp }) :=
      writeBits_clean _ hclean
    obtain ⟨a, k, vs, hwrite⟩ := writeBits_frame (bitbufBits s n) { s with busy := true, st := .bitOp }
    rw [hwrite] at hstream hkept
    have hop : wrbitsOp n { s with busy := true } =
        { s with wrAcc := a, wrN := k, snk := s.snk ++ vs, st := .done, busy := false } :=
      congrArg finishDone hwrite
    exact ⟨a, k, vs, _, (acceptCommand_run hst).trans (congrArg Host.Outcome.next hop), rfl, hstream, hkept⟩
  · have hflush := flush_of_clean (s := { s with busy := true, st := .bitOp }) hclean
    exact (acceptCommand_run hst).trans (congrArg (fun t => Host.Outcome.next (finishDone t)) hflush)

/-! ## Reader and writer are inverse (R167) -/

/-- A sequence of writes is one write of all the bits. -/
theorem foldl_writeBits (bss : List Bits) (s : State) :
    bss.foldl (fun u bs => writeBits bs u) s = writeBits bss.flatten s :=
  List.foldl_flatten.symm

/-- On a byte boundary a write and a flush append the bits, padded to whole bytes. -/
theorem flush_writeBits_snk {s : State} (hn : s.wrN = 0) (bs : Bits) :
    bitsOfBytes (flush (writeBits bs s)).snk = bitsOfBytes s.snk ++ padToByte bs := by
  rw [← writerStream_aligned (flush_wrN _), flush_stream, writeBits_stream, writerStream_aligned hn,
    padToByte_append (bitsOfBytes_aligned _)]

/-- A sequence of reads delivers the next bits of the stream, however the reads split them. -/
theorem readSeq_bits (ns : List Nat) (s : State) : (readSeq ns s).1 = (readerStream s).take ns.sum := by
  induction ns generalizing s with
  | nil => rfl
  | cons n ns ih => rw [readSeq, ih, readBits_bits, readerStream_readBits, List.sum_cons, List.take_add]

/-- A sequence of reads leaves what stands behind the bits delivered. -/
theorem readerStream_readSeq (ns : List Nat) (s : State) :
    readerStream (readSeq ns s).2 = (readerStream s).drop ns.sum := by
  induction ns generalizing s with
  | nil => rfl
  | cons n ns ih => rw [readSeq, ih, readerStream_readBits, List.sum_cons, List.drop_drop]

/-- Settles O14: the reader is given the bits written, padded to whole bytes, and reads as many as were written. -/
theorem readerInvertsWriter : Obligations.ReaderInvertsWriter := by
  intro bss ns s r vs hn _ hsnk h0 hsrc hlen
  have hsink := flush_writeBits_snk hn bss.flatten
  rw [← foldl_writeBits, hsnk, bitsOfBytes_append] at hsink
  have hreader : readerStream r = padToByte bss.flatten := by
    rw [readerStream_aligned h0, hsrc, List.append_cancel_left hsink]
  rw [readSeq_bits, readerStream_readSeq, hreader, hlen, take_padToByte, padToByte]
  exact ⟨rfl, _, Nat.mod_lt _ (by decide), List.drop_left⟩

end Sys2Proof.Machine
end

section
/-! SUPPORT. The statements of 42_tree_builder, first part: the order of the queue, what one merge does, and when the
merge loop overflows. -/

namespace Sys2Proof.Machine

/-! ## The least key (42_tree_builder R182) -/

/-- The pair (frequency, id) of `m` is at most that of `x` (R182). -/
def KeyLe (s : State) (m x : NodeId) : Prop :=
  (nodeAt s m).freq.toNat < (nodeAt s x).freq.toNat ∨ ((nodeAt s m).freq = (nodeAt s x).freq ∧ m.toNat ≤ x.toNat)

section Keys
variable {s : State} {m x y : NodeId}

theorem KeyLe.refl (s : State) (m : NodeId) : KeyLe s m m := .inr ⟨rfl, Nat.le_refl _⟩

theorem KeyLe.freq_le (h : KeyLe s m x) : (nodeAt s m).freq.toNat ≤ (nodeAt s x).freq.toNat := by
  rcases h with h | ⟨h, -⟩
  · exact Nat.le_of_lt h
  · rw [h]

theorem KeyLe.trans (h : KeyLe s m x) (h' : KeyLe s x y) : KeyLe s m y := by
  rcases h with h | ⟨hf, hi⟩
  · exact .inl (Nat.lt_of_lt_of_le h h'.freq_le)
  · rw [KeyLe, hf]
    exact h'.imp_right fun ⟨hf', hi'⟩ => ⟨hf', hi.trans hi'⟩

theorem KeyLe.antisymm (h : KeyLe s m x) (h' : KeyLe s x m) : m = x := by
  have hle := h.freq_le
  have hle' := h'.freq_le
  obtain ⟨-, hi⟩ := h.resolve_left (Nat.not_lt.mpr hle')
  obtain ⟨-, hi'⟩ := h'.resolve_left (Nat.not_lt.mpr hle)
  exact BitVec.eq_of_toNat_eq (Nat.le_antisymm hi hi')

/-- What a comparison of the queue decides (R41). -/
theorem keyLe_of_keyLess (h : keyLess s x m = true) : KeyLe s x m := by
  simp only [keyLess, Bool.or_eq_true, Bool.and_eq_true, decide_eq_true_eq, beq_iff_eq] at h
  exact h.imp_right fun ⟨hf, hi⟩ => ⟨hf, Nat.le_of_lt hi⟩

theorem keyLe_of_not_keyLess (h : keyLess s x m = false) : KeyLe s m x := by
  simp only [keyLess, Bool.or_eq_false_iff, Bool.and_eq_false_iff, decide_eq_false_iff_not, beq_eq_false_iff_ne] at h
  obtain ⟨hlt, hne⟩ := h
  by_cases hf : (nodeAt s m).freq = (nodeAt s x).freq
  · exact .inr ⟨hf, Nat.le_of_not_lt (hne.resolve_left (not_not.mpr hf.symm))⟩
  · exact .inl (Nat.lt_of_le_of_ne (Nat.le_of_not_lt hlt) fun h => hf (BitVec.eq_of_toNat_eq h))

theorem leastOf_least (s : State) (ids : List NodeId) (m : NodeId) :
    ∀ x ∈ m :: ids, KeyLe s (leastOf s m ids) x := by
  induction ids generalizing m with
  | nil => simpa [leastOf] using KeyLe.refl s m
  | cons y ids ih =>
    rw [leastOf]
    cases hk : keyLess s y m with
    | true =>
      obtain ⟨hy, hids⟩ := List.forall_mem_cons.mp (ih y)
      exact List.forall_mem_cons.mpr ⟨hy.trans (keyLe_of_keyLess hk), List.forall_mem_cons.mpr ⟨hy, hids⟩⟩
    | false =>
      obtain ⟨hm, hids⟩ := List.forall_mem_cons.mp (ih m)
      exact List.forall_mem_cons.mpr ⟨hm, List.forall_mem_cons.mpr ⟨hm.trans (keyLe_of_not_keyLess hk), hids⟩⟩

theorem extractMin_nil (h : s.pq = []) : extractMin s = none := by simp only [extractMin, h]

/-- On a nonempty queue `extract_min()` takes the member with the least key (R182). -/
theorem extractMin_least (h : s.pq ≠ []) :
    ∃ m ∈ s.pq, extractMin s = some (m, { s with pq := s.pq.erase m }) ∧ ∀ x ∈ s.pq, KeyLe s m x := by
  rcases extractMin_cases s with ⟨h0, -⟩ | ⟨x, xs, hpq, he⟩
  · exact absurd h0 h
  · exact ⟨_, hpq ▸ leastOf_mem s x xs, he, hpq ▸ leastOf_least s xs x⟩

/-- A member with the least key is the one taken: no two members have the same key (R182). -/
theorem extractMin_eq_of_least (hm : m ∈ s.pq) (hleast : ∀ x ∈ s.pq, KeyLe s m x) :
    extractMin s = some (m, { s with pq := s.pq.erase m }) := by
  obtain ⟨m', hm', he, hleast'⟩ := extractMin_least (List.ne_nil_of_mem hm)
  obtain rfl := (hleast m' hm').antisymm (hleast' m hm)
  exact he

theorem extractMin_keyLe {t : State} (he : extractMin s = some (m, t)) (hx : x ∈ s.pq) : KeyLe s m x := by
  obtain ⟨m', -, he', hleast⟩ := extractMin_least (List.ne_nil_of_mem hx)
  rw [he'] at he
  obtain ⟨rfl, -⟩ := Prod.mk.inj (Option.some.inj he)
  exact hleast x hx

end Keys

/-- Settles O16: the comparisons keep the lesser of two keys, so the member left is the least. -/
theorem extractMinReturnsLeastKey : Obligations.ExtractMinReturnsLeastKey :=
  fun _ => ⟨extractMin_nil, extractMin_least⟩

/-! ## One merge (R183 to R185) -/

section Merge
variable {s : State} {a b : NodeId}

theorem nextInner_toNat (h : s.nint.toNat ≤ 254) : (nextInner s).toNat = 256 + s.nint.toNat := by
  unfold nextInner
  bv_omega

/-- With a sum below 2^64 and an id left, the join makes the node (R183, R184). -/
theorem joinNodes_go (hnint : s.nint.toNat ≤ 254)
    (hsum : (nodeAt s a).freq.toNat + (nodeAt s b).freq.toNat < 2 ^ 64) :
    ∃ t, joinNodes a b s = .go t ∧ nodeAt t = joined (nodeAt s) (nextInner s) a b ∧ t.nint = s.nint + 1 ∧
      t.pq = s.pq ++ [nextInner s] := by
  have hid : (nextInner s).toNat < 511 := by
    rw [nextInner_toNat hnint]
    omega
  exact ⟨_, if_neg (Nat.not_le.mpr hsum), nodeAt_tabSet hid _, rfl, rfl⟩

theorem joinNodes_overflow (hsum : 2 ^ 64 ≤ (nodeAt s a).freq.toNat + (nodeAt s b).freq.toNat) :
    joinNodes a b s = .ended (raise .freqOverflow (releaseQueue s)) := if_pos hsum

end Merge

/-- Settles O17: the pass extracts two nodes and joins them, and the join writes one slot of the arena. -/
theorem mergeJoinsTheTwoLeast : Obligations.MergeJoinsTheTwoLeast := by
  intro s hlen hnint
  obtain ⟨a, b, q, q', h1, h2, -, -, heq⟩ := mergeTwo_eq hlen
  refine ⟨a, b, _, _, h1, h2, fun hsum => ?_, fun hsum => heq.trans (joinNodes_overflow hsum)⟩
  obtain ⟨t, hgo, hnode, hnint', hpq⟩ := joinNodes_go (s := { s with pq := q' }) hnint hsum
  have hnew : nodeAt t (nextInner s) = innerNode ((nodeAt s a).freq + (nodeAt s b).freq) a b := by
    rw [hnode]
    exact joined_same
  refine ⟨t, heq.trans hgo, ?_⟩
  rw [hnew]
  refine ⟨rfl, rfl, ?_, rfl, rfl, fun x hx => ?_, hnint', hpq⟩
  · rw [innerNode, BitVec.toNat_add, Nat.mod_eq_of_lt hsum]
  · rw [hnode]
    exact joined_other hx

end Sys2Proof.Machine
end

section
/-! SUPPORT. The statements of 42_tree_builder, second part: how ENCODE ends, what it leaves unchanged, and that its
result is a function of FREQ. -/

namespace Sys2Proof.Machine

/-! ## encode() around its merge loop (42_tree_builder R180, R183) -/

/-- The leaves that `encode()` starts to merge (R180, R181). -/
def leavesOf (s : State) : State := makeLeaves (clearTables { s with st := .building })

/-- How the merge loop ends decides how `encode()` does: what follows the loop always goes on. -/
theorem encodeTables_of_mergeLoop {s : State} {P Q E : State → Prop}
    (hloop : (mergeLoop (leavesOf s).pq.length (leavesOf s)).Meets P E) (h : ∀ t, P t → Q (assignCodes (setRoot t))) :
    (encodeTables s).Meets Q E := by
  have hmerge : (mergeAll (leavesOf s)).Meets (fun u => Q (assignCodes u)) E := hloop.andThen h
  exact hmerge.andThen fun _ hu => hu

/-! ## Frequencies of 2^64 or more overflow the builder (R185) -/

/-- One frequency register carries all frequencies once the queue is down to one root. -/
theorem ForestIn.total_lt {s : State} {total : Nat} (h : ForestIn s total) (hlen : s.pq.length ≤ 1) :
    total < 2 ^ 64 := by
  obtain ⟨w, hf⟩ := h
  have hfreqs := hf.freqs
  match hq : s.pq, hlen with
  | [], _ =>
    simp only [hq, List.map_nil, List.sum_nil] at hfreqs
    omega
  | [r], _ =>
    simp only [hq, List.map_cons, List.map_nil, List.sum_cons, List.sum_nil] at hfreqs
    have := (nodeAt s r).freq.isLt
    omega

theorem makeLeaves_merging (s : State) : Merging (clearTables s) (freqSum s) (makeLeaves (clearTables s)) :=
  ⟨(foldl_makeLeaf_frame _ _).1, (makeLeaves_covering s).forest⟩

/-- `encode()` goes on only where the frequencies sum to less than 2^64 (R180, R185). -/
theorem encodeTables_total_lt (s : State) :
    (encodeTables s).Meets (fun _ => freqSum s < 2 ^ 64) (Overflowed (clearTables { s with st := .building })) :=
  encodeTables_of_mergeLoop (mergeLoop_meets _ (makeLeaves_merging { s with st := .building }) (Nat.le_succ _))
    fun _ ⟨hm, hlen⟩ => hm.forest.total_lt hlen

/-! ## No root is set before the merge loop has ended (R183) -/

theorem foldl_makeLeaf_rootValid (bs : List Byte) (s : State) : (bs.foldl makeLeaf s).rootValid = s.rootValid := by
  induction bs generalizing s with
  | nil => rfl
  | cons b bs ih => exact ih (makeLeaf s b)

theorem mergeTwo_rootValid {s : State} (hlen : 2 ≤ s.pq.length) :
    (mergeTwo s).Meets (fun t => t.rootValid = s.rootValid) fun t => t.rootValid = s.rootValid := by
  obtain ⟨a, b, q, q', -, -, -, -, heq⟩ := mergeTwo_eq hlen
  rw [heq, joinNodes]
  split <;> rfl

theorem mergeLoop_rootValid (k : Nat) (s : State) :
    (mergeLoop k s).Meets (fun t => t.rootValid = s.rootValid) fun t => t.rootValid = s.rootValid := by
  induction k generalizing s with
  | zero => rfl
  | succ k ih =>
    unfold mergeLoop
    split
    · rename_i hlen
      exact (mergeTwo_rootValid hlen).andThen fun t ht =>
        (ih t).mono (fun _ hu => hu.trans ht) fun _ hu => hu.trans ht
    · rfl

/-- An encoding that overflows has not set a root (U17). -/
theorem encodeTables_noRoot (s : State) : (encodeTables s).Meets (fun _ => True) fun t => t.rootValid = false := by
  have hleaves : (leavesOf s).rootValid = false := foldl_makeLeaf_rootValid _ _
  exact encodeTables_of_mergeLoop ((mergeLoop_rootValid _ _).mono (fun _ _ => True.intro) fun _ h => h.trans hleaves)
    fun _ h => h

/-! ## How ENCODE ends (R180, R286) -/

theorem encodeOp_fits {s : State} (h : freqSum s < 2 ^ 64) :
    ∃ t, TablesOnly { s with st := .building } t ∧ encodeOp s = finishDone t := by
  obtain ⟨t, hgo, ht⟩ := encodeTables_fits h
  exact ⟨t, ht, by rw [encodeOp, hgo]; rfl⟩

theorem encodeOp_overflows {s : State} (h : 2 ^ 64 ≤ freqSum s) :
    ∃ t, TreeOnly (clearTables { s with st := .building }) t ∧ t.rootValid = false ∧
      encodeOp s = raise .freqOverflow (releaseQueue t) := by
  have htotal := encodeTables_total_lt s
  have hroot := encodeTables_noRoot s
  unfold encodeOp
  cases he : encodeTables s with
  | go t =>
    rw [he] at htotal
    exact absurd htotal (Nat.not_lt.mpr h)
  | ended u =>
    rw [he] at htotal hroot
    obtain ⟨t, ht, rfl⟩ := htotal
    exact ⟨t, ht, hroot, rfl⟩

/-- Settles O18: the loop ends with all frequencies in one register, so a sum of 2^64 or more has overflowed before. -/
theorem encodeCompletesBelowTwoToThe64 : Obligations.EncodeCompletesBelowTwoToThe64 := by
  refine fun s hst => ⟨fun hsum => ?_, fun hsum => ?_⟩ <;>
    refine ⟨encodeOp { s with busy := true }, acceptCommand_run hst, ?_⟩
  · obtain ⟨t, ⟨_, _, _, _, _, _, _, _, _, rfl⟩, he⟩ := encodeOp_fits (s := { s with busy := true }) hsum
    rw [he]
    exact ⟨rfl, rfl, rfl, rfl, rfl⟩
  · obtain ⟨t, htree, hroot, he⟩ := encodeOp_overflows (s := { s with busy := true }) hsum
    obtain ⟨_, _, _, _, _, rfl⟩ := htree
    rw [he]
    exact ⟨rfl, rfl, rfl, rfl, rfl, hroot, clearTables_codeAt_valid _⟩

/-! ## What ENCODE leaves unchanged (R180, R181) -/

/-- ENCODE changes the encode-side tables, FREQ apart, and the registers of its outcome. -/
theorem exec_encode_frame {s t : State} (ht : exec .encode s = .next t) :
    t = { s with
      node := t.node, pq := t.pq, nint := t.nint, rootValid := t.rootValid, rootId := t.rootId, code := t.code,
      wstk := t.wstk, path := t.path, encEpoch := t.encEpoch, st := t.st, err := t.err, errSub := t.errSub,
      errSt := t.errSt, busy := t.busy } := by
  rcases acceptCommand_cases (op := encodeOp) ht with ⟨-, rfl⟩ | ⟨-, rfl⟩
  · rfl
  · obtain ⟨u, ⟨_, _, _, _, _, _, _, _, _, rfl⟩, h | h⟩ := encodeOp_cases { s with busy := true } <;> rw [h] <;> rfl

/-- Settles O26: none of the groups named holds a register that ENCODE changes. -/
theorem encodeFrame : Obligations.EncodeFrame := by
  intro s t ht
  rw [exec_encode_frame ht]
  exact ⟨⟨rfl, rfl, rfl⟩, ⟨rfl, rfl, rfl⟩, ⟨rfl, rfl⟩, ⟨rfl, rfl, rfl, rfl, rfl⟩, ⟨rfl, rfl, rfl⟩,
    ⟨rfl, rfl, rfl, rfl⟩, fun _ => rfl, fun _ => rfl, rfl, rfl, rfl⟩

/-! ## Tree and Codes are a function of FREQ (R188) -/

theorem Agree.valid_eq {α : Type} {valid : α → Bool} {x x' : α} (h : Agree valid x x') : valid x' = valid x := by
  rcases h with rfl | ⟨hx, hx'⟩
  · rfl
  · rw [hx, hx']

/-- Two states in step in the same ST hold the same tree where the spec gives it a value. -/
theorem TwinTree.sameTree {s s' : State} (h : TwinTree s s') (hst : s'.st = s.st) : SameTree s s' :=
  { st := hst
    nint := h.nint
    rootValid := h.rootValid
    rootId := h.rootId
    nodeValid := fun n => (h.node n).valid_eq
    nodeKind := fun n hv => (h.node n).eq hv ▸ ⟨rfl, rfl⟩
    nodeLeaf := fun n hv _ => (h.node n).eq hv ▸ rfl
    nodeInner := fun n hv _ => (h.node n).eq hv ▸ ⟨rfl, rfl⟩
    codeValid := fun b => (h.code b).valid_eq
    codeBits := fun b hv => (h.code b).eq hv ▸ rfl }

/-- ENCODE on two states with the same FREQ, whatever else they hold (R188). -/
theorem encodeOp_sameTree {s s' : State} (hf : s'.freq = s.freq) : SameTree (encodeOp s) (encodeOp s') := by
  have htwin := encodeTables_twin hf
  have hm := (encodeTables_outcome s).meets
  have hm' := (encodeTables_outcome s').meets
  unfold encodeOp
  generalize encodeTables s = x at htwin hm ⊢
  generalize encodeTables s' = x' at htwin hm' ⊢
  cases htwin with
  | go h => exact TwinTree.sameTree { h.2 with } rfl
  | ended h =>
    obtain ⟨_, -, rfl⟩ := hm
    obtain ⟨_, -, rfl⟩ := hm'
    exact h.sameTree rfl

/-- Settles O25: both commands encode in step. -/
theorem encodeDependsOnFrequenciesAlone : Obligations.EncodeDependsOnFrequenciesAlone := fun s s' hst hst' hf =>
  ⟨_, _, acceptCommand_run hst, acceptCommand_run hst',
    encodeOp_sameTree (s := { s with busy := true }) (s' := { s' with busy := true }) hf.symm⟩

end Sys2Proof.Machine
end

section
/-! SUPPORT. The statements of 42_tree_builder, third part: the sums do not decrease (R187). Every pass takes two
frequencies of at least `β`, the greater frequency of the pass before, whose sum was at most `2 * β`. -/

namespace Sys2Proof.Machine

/-- The frequency of the i-th internal node made (10_state R42). -/
def innerFreq (nd : NodeId → Node) (i : Nat) : Nat := (nd (BitVec.ofNat 9 (256 + i))).freq.toNat

/-- Of `k` internal nodes no later one has a lesser frequency (R187). -/
def SumsAscend (nd : NodeId → Node) (k : Nat) : Prop := ∀ i j, i ≤ j → j < k → innerFreq nd i ≤ innerFreq nd j

/-- `β` separates the sums made from the sums to come: no member of the queue is below it, and no sum above its
double. -/
structure Ascending (nd : NodeId → Node) (q : List NodeId) (k β : Nat) : Prop where
  queue : ∀ n ∈ q, β ≤ (nd n).freq.toNat
  bound : ∀ i < k, innerFreq nd i ≤ 2 * β
  ascend : SumsAscend nd k

section Join
variable {nd : NodeId → Node} {w : NodeId → Nat} {q : List NodeId} {k total β : Nat} {a b id : NodeId}

theorem innerFreq_joined_old (hid : id.toNat = 256 + k) {i : Nat} (hi : i < k) :
    innerFreq (joined nd id a b) i = innerFreq nd i := by
  have hne : BitVec.ofNat 9 (256 + i) ≠ id := fun h => by
    have := congrArg BitVec.toNat h
    have := id.isLt
    simp only [BitVec.toNat_ofNat] at *
    omega
  rw [innerFreq, joined_other hne, innerFreq]

theorem innerFreq_joined_new (hid : id.toNat = 256 + k)
    (hsum : (nd a).freq.toNat + (nd b).freq.toNat < 2 ^ 64) :
    innerFreq (joined nd id a b) k = (nd a).freq.toNat + (nd b).freq.toNat := by
  have hnew : BitVec.ofNat 9 (256 + k) = id := by
    rw [← hid, BitVec.ofNat_toNat, BitVec.setWidth_eq]
  rw [innerFreq, hnew, joined_same, innerNode, BitVec.toNat_add, Nat.mod_eq_of_lt hsum]

/-- The join of the two least keeps the order, with the greater of the two frequencies as the new bound (R187). -/
theorem Ascending.join (h : Ascending nd (a :: b :: q) k β) (hf : Forest nd w (a :: b :: q) k total)
    (hid : id.toNat = 256 + k) (hsum : (nd a).freq.toNat + (nd b).freq.toNat < 2 ^ 64)
    (hab : (nd a).freq.toNat ≤ (nd b).freq.toNat) (hrest : ∀ n ∈ q, (nd b).freq.toNat ≤ (nd n).freq.toNat) :
    Ascending (joined nd id a b) (id :: q) (k + 1) (nd b).freq.toNat := by
  have hnew := innerFreq_joined_new hid hsum
  have hβa := h.queue a (by simp)
  have hold : ∀ {i}, i < k → innerFreq (joined nd id a b) i ≤ 2 * β := fun hi => by
    rw [innerFreq_joined_old hid hi]
    exact h.bound _ hi
  refine ⟨List.forall_mem_cons.mpr ⟨?_, fun n hn => ?_⟩, fun i hi => ?_, fun i j hij hj => ?_⟩
  · rw [joined_same, innerNode, BitVec.toNat_add, Nat.mod_eq_of_lt hsum]
    omega
  · rw [joined_other (hf.ne_next hid (hf.queued n (by simp [hn])))]
    exact hrest n hn
  · rcases Nat.lt_succ_iff_lt_or_eq.mp hi with hi | rfl
    · have := hold hi
      omega
    · omega
  · rcases Nat.lt_succ_iff_lt_or_eq.mp hj with hj | rfl
    · rw [innerFreq_joined_old hid (Nat.lt_of_le_of_lt hij hj), innerFreq_joined_old hid hj]
      exact h.ascend i j hij hj
    · rcases Nat.lt_or_eq_of_le hij with hi | rfl
      · have := hold hi
        omega
      · exact Nat.le_refl _

theorem Ascending.perm {q' : List NodeId} (h : Ascending nd q k β) (hq : q.Perm q') : Ascending nd q' k β :=
  { h with queue := fun n hn => h.queue n (hq.mem_iff.mpr hn) }

end Join

/-! ## The merge loop (R183) -/

/-- The sums made so far, and those the queue can still give, ascend. -/
def AscendingIn (s : State) : Prop := ∃ β, Ascending (nodeAt s) s.pq s.nint.toNat β

theorem joinNodes_ascending {s : State} {w : NodeId → Nat} {a b : NodeId} {total β : Nat}
    (hf : Forest (nodeAt s) w (a :: b :: s.pq) s.nint.toNat total)
    (h : Ascending (nodeAt s) (a :: b :: s.pq) s.nint.toNat β)
    (hab : KeyLe s a b) (hrest : ∀ n ∈ s.pq, KeyLe s b n) : (joinNodes a b s).Meets AscendingIn fun _ => True := by
  rcases Nat.lt_or_ge ((nodeAt s a).freq.toNat + (nodeAt s b).freq.toNat) (2 ^ 64) with hsum | hsum
  · have hroom := hf.room
    simp only [List.length_cons] at hroom
    have hnint : s.nint.toNat ≤ 254 := by omega
    have hsucc : (s.nint + 1).toNat = s.nint.toNat + 1 := by bv_omega
    obtain ⟨t, hgo, hnode, hnint', hpq⟩ := joinNodes_go hnint hsum
    have hjoin := h.join hf (nextInner_toNat hnint) hsum hab.freq_le fun n hn => (hrest n hn).freq_le
    rw [hgo]
    show AscendingIn t
    rw [AscendingIn, hnode, hnint', hsucc, hpq]
    exact ⟨_, hjoin.perm (List.perm_append_singleton _ _).symm⟩
  · rw [joinNodes_overflow hsum]
    trivial

theorem mergeTwo_ascending {s : State} {total : Nat} (hf : ForestIn s total) (h : AscendingIn s)
    (hlen : 2 ≤ s.pq.length) : (mergeTwo s).Meets AscendingIn fun _ => True := by
  obtain ⟨w, hf⟩ := hf
  obtain ⟨β, h⟩ := h
  obtain ⟨a, b, q, q', h1, h2, hp, hp', heq⟩ := mergeTwo_eq hlen
  have hperm := hp.trans (hp'.cons a)
  have hab : KeyLe s a b := extractMin_keyLe h1 (hperm.mem_iff.mpr (by simp))
  have hrest : ∀ n ∈ q', KeyLe s b n := fun n hn =>
    extractMin_keyLe (s := { s with pq := q }) h2 (hp'.mem_iff.mpr (List.mem_cons_of_mem b hn))
  rw [heq]
  exact joinNodes_ascending (s := { s with pq := q' }) (hf.perm hperm) (h.perm hperm) hab hrest

theorem mergeLoop_ascending {s : State} {total : Nat} (k : Nat) (hf : ForestIn s total) (h : AscendingIn s) :
    (mergeLoop k s).Meets AscendingIn fun _ => True := by
  induction k generalizing s with
  | zero => exact h
  | succ k ih =>
    unfold mergeLoop
    split
    · rename_i hlen
      have hpass := ((mergeTwo_meets hf hlen).mono (fun _ ⟨hm, _⟩ => hm.forest) fun _ _ => True.intro).and
        (mergeTwo_ascending hf h hlen)
      exact hpass.andThen fun t ⟨hf', h'⟩ => ih hf' h'
    · exact h

/-- Before the first merge there is no sum (R181). -/
theorem makeLeaves_ascending (s : State) : AscendingIn (makeLeaves (clearTables s)) := by
  have h0 : (makeLeaves (clearTables s)).nint.toNat = 0 :=
    congrArg BitVec.toNat (foldl_makeLeaf_frame (presentBytes (clearTables s)) (clearTables s)).2.1
  rw [AscendingIn, h0]
  exact ⟨0, fun _ _ => Nat.zero_le _, fun i hi => absurd hi (Nat.not_lt_zero i),
    fun _ j _ hj => absurd hj (Nat.not_lt_zero j)⟩

/-! ## The whole of encode() (R180) -/

/-- Setting the root leaves the arena and NINT as they are (R183). -/
theorem setRoot_arena (s : State) : nodeAt (setRoot s) = nodeAt s ∧ (setRoot s).nint = s.nint := by
  rcases extractMin_cases s with ⟨-, he⟩ | ⟨x, xs, -, he⟩
  · rw [setRoot_none he]
    exact ⟨rfl, rfl⟩
  · rw [setRoot_some he]
    exact ⟨rfl, rfl⟩

theorem WalkOnly.arena {s t : State} (h : WalkOnly s t) : nodeAt t = nodeAt s ∧ t.nint = s.nint := by
  obtain ⟨_, _, _, rfl⟩ := h
  exact ⟨rfl, rfl⟩

theorem encodeTables_ascend (s : State) :
    (encodeTables s).Meets (fun t => SumsAscend (nodeAt t) t.nint.toNat) fun _ => True := by
  refine encodeTables_of_mergeLoop
    (mergeLoop_ascending _ (makeLeaves_merging _).forest (makeLeaves_ascending { s with st := .building }))
    fun t ⟨_, ht⟩ => ?_
  obtain ⟨hnode, hnint⟩ := setRoot_arena t
  obtain ⟨hnode', hnint'⟩ := (assignCodes_walk (setRoot t)).arena
  rw [hnode', hnint', hnode, hnint]
  exact ht.ascend

/-- What `encode()` meets where it goes on holds of the tables of an ENCODE that ends Done. -/
theorem encodeOp_of_meets {s : State} {P : State → Prop} (h : (encodeTables s).Meets P fun _ => True)
    (hdone : (encodeOp s).st = .done) : ∃ t, P t ∧ encodeOp s = finishDone t := by
  have hm := (encodeTables_outcome s).meets
  unfold encodeOp at hdone ⊢
  generalize encodeTables s = x at h hm hdone ⊢
  cases x with
  | go t => exact ⟨t, h, rfl⟩
  | ended t =>
    obtain ⟨_, -, rfl⟩ := hm
    cases hdone

/-- Settles O24: the merge loop keeps the sums ascending, and what follows it touches no node. -/
theorem internalFrequenciesDoNotDecrease : Obligations.InternalFrequenciesDoNotDecrease := by
  intro s t ht hdone
  rcases acceptCommand_cases (op := encodeOp) ht with ⟨hst, rfl⟩ | ⟨-, rfl⟩
  · rw [hst] at hdone
    cases hdone
  · obtain ⟨u, hascend, he⟩ := encodeOp_of_meets (encodeTables_ascend { s with busy := true }) hdone
    rw [he]
    exact hascend

end Sys2Proof.Machine
end

section
/-! SUPPORT. The statements of 42_tree_builder, fourth part: ENCODE on no, one and two byte values (R186), where the
merge loop and the walk of 43_code_generator run a known number of passes. -/

namespace Sys2Proof.Machine

/-! ## The bytes present (42_tree_builder R181) -/

theorem presentBytes_perm {s : State} {bs : List Byte} (hnodup : bs.Nodup) (h : ∀ b, freqAt s b ≠ 0 ↔ b ∈ bs) :
    (presentBytes s).Perm bs :=
  (List.perm_ext_iff_of_nodup (presentBytes_nodup s) hnodup).mpr fun b => mem_presentBytes.trans (h b)

section Present
variable {s : State} {b c : Byte}

theorem presentBytes_none (hnone : ∀ b, freqAt s b = 0) : presentBytes s = [] :=
  (presentBytes_perm List.nodup_nil (by simp [hnone])).eq_nil

theorem presentBytes_one (hb : freqAt s b ≠ 0) (hothers : ∀ c, c ≠ b → freqAt s c = 0) : presentBytes s = [b] :=
  List.perm_singleton.mp <| presentBytes_perm (List.nodup_singleton b) fun c => by
    by_cases hcb : c = b
    · simpa [hcb] using hb
    · simp [hcb, hothers c hcb]

theorem presentBytes_two (hne : b ≠ c) (hb : freqAt s b ≠ 0) (hc : freqAt s c ≠ 0)
    (hothers : ∀ d, d ≠ b → d ≠ c → freqAt s d = 0) : (presentBytes s).Perm [b, c] :=
  presentBytes_perm (by simp [hne]) fun d => by
    by_cases hdb : d = b
    · simpa [hdb] using hb
    by_cases hdc : d = c
    · simpa [hdc] using hc
    · simp [hdb, hdc, hothers d hdb hdc]

end Present

/-! ## The leaves (R181) -/

theorem leavesOf_frame (s : State) :
    TreeOnly (clearTables { s with st := .building }) (leavesOf s) ∧ (leavesOf s).nint = 0 ∧
      (leavesOf s).pq = (presentBytes s).map leafId :=
  foldl_makeLeaf_frame (presentBytes s) (clearTables { s with st := .building })

theorem leavesOf_nodeAt {s : State} {b : Byte} (hb : b ∈ presentBytes s) :
    nodeAt (leavesOf s) (leafId b) = leafNode s b := by
  rcases foldl_makeLeaf_nodeAt (presentBytes s) (clearTables { s with st := .building }) (leafId b) with
    ⟨c, -, hc, h⟩ | ⟨hn, -⟩
  · exact leafId_injective hc ▸ h
  · exact absurd rfl (hn b hb)

theorem leavesOf_valid_iff (s : State) (n : NodeId) :
    (nodeAt (leavesOf s) n).valid = true ↔ ∃ b ∈ presentBytes s, n = leafId b := by
  refine ⟨fun hv => ?_, fun ⟨b, hb, hn⟩ => by rw [hn, leavesOf_nodeAt hb, leafNode]⟩
  rcases foldl_makeLeaf_nodeAt (presentBytes s) (clearTables { s with st := .building }) n with
    ⟨b, hb, hn, -⟩ | ⟨-, h⟩
  · exact ⟨b, hb, hn⟩
  · rw [leavesOf, makeLeaves] at hv
    exact absurd ((congrArg Node.valid h).symm.trans hv) (by simp [clearTables_nodeAt_valid])

theorem encodeOp_of_mergeAll {s t : State} (h : mergeAll (leavesOf s) = .go t) :
    encodeOp s = finishDone (assignCodes t) := by
  rw [leavesOf] at h
  rw [encodeOp, encodeTables, h]
  rfl

/-- A leaf has no internal id (10_state R40). -/
theorem leafId_ne_inner (b : Byte) : leafId b ≠ 256 := fun h => by
  have hid := congrArg BitVec.toNat h
  rw [leafId_toNat] at hid
  exact Nat.ne_of_lt b.isLt hid

/-! ## The merge loop on at most two nodes (R183) -/

section Merge
variable {s : State} {a d : NodeId}

theorem mergeLoop_short (k : Nat) (h : s.pq.length ≤ 1) : mergeLoop k s = .go s := by
  cases k with
  | zero => rfl
  | succ k => exact if_neg (by omega)

theorem mergeAll_short (h : s.pq.length ≤ 1) : mergeAll s = .go (setRoot s) := by
  rw [mergeAll, mergeLoop_short _ h, Flow.andThen_go]

theorem extractMin_singleton (h : s.pq = [a]) : extractMin s = some (a, { s with pq := [] }) := by
  simp [extractMin, h, leastOf]

/-- Two nodes are joined, the lesser as left child, and their parent is the root. -/
theorem mergeAll_pair (hpq : s.pq.Perm [a, d]) (hnint : s.nint = 0) (hle : KeyLe s a d)
    (hsum : (nodeAt s a).freq.toNat + (nodeAt s d).freq.toNat < 2 ^ 64) :
    ∃ t, mergeAll s = .go t ∧ nodeAt t = joined (nodeAt s) 256 a d ∧ t.nint = 1 ∧ t.rootValid = true ∧
      t.rootId = 256 := by
  have hlen : s.pq.length = 2 := hpq.length_eq
  have hleast : ∀ x ∈ s.pq, KeyLe s a x := fun x hx => by
    obtain rfl | rfl : x = a ∨ x = d := by simpa using hpq.mem_iff.mp hx
    · exact .refl s x
    · exact hle
  have hrest : s.pq.erase a = [d] := by
    have herase := hpq.erase a
    rw [List.erase_cons_head] at herase
    exact List.perm_singleton.mp herase
  have h1 := extractMin_eq_of_least (hpq.mem_iff.mpr (by simp)) hleast
  rw [hrest] at h1
  have h2 := extractMin_singleton (s := { s with pq := [d] }) rfl
  have hnext : nextInner s = 256 := by rw [nextInner, hnint]; rfl
  obtain ⟨t, hgo, hnode, hnint', hpq'⟩ := joinNodes_go (s := { s with pq := [] }) (by simp [hnint]) hsum
  have hqueue : t.pq = [256] := hpq'.trans (by rw [← hnext]; rfl)
  have hloop : mergeLoop 2 s = .go t := by
    rw [mergeLoop, if_pos hlen.ge, show mergeTwo s = .go t by simp only [mergeTwo, h1, h2, hgo], Flow.andThen_go]
    exact mergeLoop_short 1 (by simp [hqueue])
  refine ⟨setRoot t, by rw [mergeAll, hlen, hloop, Flow.andThen_go], ?_⟩
  rw [setRoot_some (extractMin_singleton hqueue)]
  exact ⟨hnode.trans (congrArg (joined (nodeAt s) · a d) hnext), hnint'.trans (by rw [hnint]; rfl), rfl, rfl⟩

end Merge

/-! ## The walk over two leaves (43_code_generator R211, R212) -/

section Walk
variable {s : State} {n r : NodeId} {p : Bits} {rest : List (NodeId × Bits)}

theorem walkLoop_nil (k : Nat) (h : s.wstk = []) : walkLoop k s = s := by
  cases k with
  | zero => rfl
  | succ k => simp only [walkLoop, h]

/-- A pass that pops a leaf stores its path as Code. -/
theorem walkLoop_leaf (k : Nat) (hs : s.wstk = (n, p) :: rest) (h : (nodeAt s n).isLeaf = true) :
    walkLoop (k + 1) s = walkLoop k (setCode (nodeAt s n).sym p { s with wstk := rest, path := p }) := by
  have hvisit : visit n { s with wstk := rest, path := p } =
      setCode (nodeAt s n).sym p { s with wstk := rest, path := p } := if_pos h
  simp only [walkLoop, hs, hvisit]

/-- A pass that pops an internal node pushes its children, the left one on top. -/
theorem walkLoop_inner (k : Nat) (hs : s.wstk = (n, p) :: rest) (h : (nodeAt s n).isLeaf = false) :
    walkLoop (k + 1) s = walkLoop k { s with
      wstk := ((nodeAt s n).left, p ++ [true]) :: ((nodeAt s n).right, p ++ [false]) :: rest, path := p } := by
  have hvisit : visit n { s with wstk := rest, path := p } = { s with
      wstk := ((nodeAt s n).left, p ++ [true]) :: ((nodeAt s n).right, p ++ [false]) :: rest, path := p } :=
    if_neg (Bool.eq_false_iff.mp h)
  simp only [walkLoop, hs, hvisit]

/-- The walk from a node over two leaves pops three entries: the left leaf gets [1], the right one [0]. -/
theorem walk_codeAt {l d : NodeId} (hr : (nodeAt s r).isLeaf = false) (hl : (nodeAt s r).left = l)
    (hd : (nodeAt s r).right = d) (hleft : (nodeAt s l).isLeaf = true) (hright : (nodeAt s d).isLeaf = true)
    (b : Byte) :
    codeAt (walk r s) b =
      if (nodeAt s d).sym = b then ⟨true, [false]⟩
      else if (nodeAt s l).sym = b then ⟨true, [true]⟩ else codeAt s b := by
  subst hl hd
  have hroot := walkLoop_inner (s := { s with wstk := [(r, [])] }) 510 rfl hr
  have hfirst := walkLoop_leaf (s := { s with
    wstk := [((nodeAt s r).left, [true]), ((nodeAt s r).right, [false])], path := [] }) 509 rfl hleft
  have hsecond := walkLoop_leaf (s := setCode (nodeAt s (nodeAt s r).left).sym [true] { s with
    wstk := [((nodeAt s r).right, [false])], path := [true] }) 508 rfl hright
  rw [walk, hroot.trans (hfirst.trans (hsecond.trans (walkLoop_nil 508 rfl)))]
  exact (setCode_codeAt _ b _ _).trans (congrArg _ (setCode_codeAt _ b _ _))

end Walk

/-! ## ENCODE on no, one and two byte values (R186, R213) -/

section Ends
variable {s : State}

/-- Without a byte present there is no node, no root and no Code. -/
theorem encodeOp_none (h : presentBytes s = []) :
    (encodeOp s).st = .done ∧ (encodeOp s).rootValid = false ∧ (encodeOp s).nint = 0 ∧
      (∀ n, (nodeAt (encodeOp s) n).valid = false) ∧ ∀ b, (codeAt (encodeOp s) b).valid = false := by
  have hvalid := leavesOf_valid_iff s
  obtain ⟨htree, hnint, hpq⟩ := leavesOf_frame s
  rw [h, List.map_nil] at hpq
  have hrun : encodeOp s = finishDone { leavesOf s with rootValid := false } := by
    rw [encodeOp_of_mergeAll (mergeAll_short (by simp [hpq])), setRoot_none (extractMin_nil hpq)]
    rfl
  rw [hrun]
  refine ⟨rfl, rfl, hnint, fun n => Bool.eq_false_iff.mpr fun hv => ?_, fun b => ?_⟩
  · simpa [h] using (hvalid n).mp hv
  · obtain ⟨_, _, _, _, _, htree⟩ := htree
    rw [htree]
    exact clearTables_codeAt_valid _ b

/-- One byte present has its leaf as root and the Code [1] (R213). -/
theorem encodeOp_one {b : Byte} (h : presentBytes s = [b]) :
    (encodeOp s).st = .done ∧ (encodeOp s).rootValid = true ∧ (encodeOp s).rootId = leafId b ∧
      (encodeOp s).nint = 0 ∧ (∀ n, (nodeAt (encodeOp s) n).valid = true ↔ n = leafId b) ∧
      codeAt (encodeOp s) b = ⟨true, [true]⟩ := by
  have hvalid := leavesOf_valid_iff s
  obtain ⟨-, hnint, hpq⟩ := leavesOf_frame s
  rw [h, List.map_singleton] at hpq
  have hnode : nodeAt { leavesOf s with pq := [], rootValid := true, rootId := leafId b } (leafId b) = leafNode s b :=
    leavesOf_nodeAt (by simp [h])
  have hrun : encodeOp s =
      finishDone (setCode b [true] { leavesOf s with pq := [], rootValid := true, rootId := leafId b }) := by
    rw [encodeOp_of_mergeAll (mergeAll_short (by simp [hpq])), setRoot_some (extractMin_singleton hpq), assignCodes,
      if_pos rfl]
    simp only [hnode, leafNode, if_true]
  rw [hrun]
  exact ⟨rfl, rfl, rfl, hnint, fun n => (hvalid n).trans (by simp [h]), (setCode_codeAt b b _ _).trans (if_pos rfl)⟩

/-- The tables over the two leaves `a`, the lesser, and `d` (R186, R211). -/
structure PairEncoded (a d : Byte) (t : State) : Prop where
  st : t.st = .done
  root : t.rootValid = true ∧ t.rootId = 256
  nint : t.nint = 1
  children : (nodeAt t 256).left = leafId a ∧ (nodeAt t 256).right = leafId d
  codes : (codeAt t a).bits = [true] ∧ (codeAt t d).bits = [false]

/-- The Codes of a root over the leaves of `a` and `d`. -/
theorem assignCodes_pair {t : State} {a d : Byte} (hne : a ≠ d) (hroot : t.rootValid = true) (hid : t.rootId = 256)
    {c : Count} (hinner : nodeAt t 256 = innerNode c (leafId a) (leafId d))
    (ha : nodeAt t (leafId a) = leafNode s a) (hd : nodeAt t (leafId d) = leafNode s d) :
    (codeAt (assignCodes t) a).bits = [true] ∧ (codeAt (assignCodes t) d).bits = [false] := by
  have hr : (nodeAt t 256).isLeaf = false := congrArg Node.isLeaf hinner
  have hwalk := walk_codeAt hr (l := leafId a) (d := leafId d) (congrArg Node.left hinner) (congrArg Node.right hinner)
    (congrArg Node.isLeaf ha) (congrArg Node.isLeaf hd)
  have hsyma : (nodeAt t (leafId a)).sym = a := congrArg Node.sym ha
  have hsymd : (nodeAt t (leafId d)).sym = d := congrArg Node.sym hd
  rw [assignCodes, if_pos hroot, hid, if_neg (Bool.eq_false_iff.mp hr), hwalk, hwalk, hsyma, hsymd, if_neg hne.symm,
    if_pos rfl, if_pos rfl]
  exact ⟨rfl, rfl⟩

/-- Two bytes present are merged once, the lesser on the left. -/
theorem encodeOp_pair {a d : Byte} (hpresent : (presentBytes s).Perm [a, d]) (hne : a ≠ d)
    (hle : (freqAt s a).toNat < (freqAt s d).toNat ∨ freqAt s a = freqAt s d ∧ a.toNat ≤ d.toNat)
    (hsum : (freqAt s a).toNat + (freqAt s d).toNat < 2 ^ 64) : PairEncoded a d (encodeOp s) := by
  obtain ⟨-, hnint, hpq⟩ := leavesOf_frame s
  have ha : nodeAt (leavesOf s) (leafId a) = leafNode s a := leavesOf_nodeAt (hpresent.mem_iff.mpr (by simp))
  have hd : nodeAt (leavesOf s) (leafId d) = leafNode s d := leavesOf_nodeAt (hpresent.mem_iff.mpr (by simp))
  have hkey : KeyLe (leavesOf s) (leafId a) (leafId d) := by
    rw [KeyLe, ha, hd, leafId_toNat, leafId_toNat]
    exact hle
  obtain ⟨t, hgo, hnode, hnint', hroot, hid⟩ := mergeAll_pair (hpq ▸ hpresent.map leafId) hnint hkey
    (by rw [ha, hd]; exact hsum)
  have hold : ∀ b, nodeAt t (leafId b) = nodeAt (leavesOf s) (leafId b) := fun b => by
    rw [hnode, joined_other (leafId_ne_inner b)]
  have hinner := (congrFun hnode 256).trans joined_same
  have hcodes := assignCodes_pair hne hroot hid hinner ((hold a).trans ha) ((hold d).trans hd)
  rw [encodeOp_of_mergeAll hgo]
  obtain ⟨_, _, _, hwalk⟩ := assignCodes_walk t
  generalize assignCodes t = u at *
  subst hwalk
  exact ⟨rfl, ⟨hroot, hid⟩, hnint', ⟨congrArg Node.left hinner, congrArg Node.right hinner⟩, hcodes⟩

end Ends

/-- Settles O22: the bytes present are known, and with them every pass of the merge loop and of the walk. -/
theorem encodeAtTheEndsOfTheRange : Obligations.EncodeAtTheEndsOfTheRange := by
  refine ⟨fun s hst hnone => ?_, fun s b hst hb hothers => ?_, fun s b c hst hbc hb hc hothers hsum => ?_⟩ <;>
    refine ⟨encodeOp { s with busy := true }, acceptCommand_run hst, ?_⟩
  · exact encodeOp_none (s := { s with busy := true }) (presentBytes_none hnone)
  · exact encodeOp_one (s := { s with busy := true }) (presentBytes_one hb hothers)
  · have hne : b ≠ c := fun h => Nat.lt_irrefl _ (h ▸ hbc)
    have hpresent := presentBytes_two hne hb hc hothers
    by_cases hle : (freqAt s b).toNat ≤ (freqAt s c).toNat
    · have hkey : (freqAt s b).toNat < (freqAt s c).toNat ∨ freqAt s b = freqAt s c ∧ b.toNat ≤ c.toNat :=
        (Nat.lt_or_eq_of_le hle).imp_right fun h => ⟨BitVec.eq_of_toNat_eq h, Nat.le_of_lt hbc⟩
      obtain ⟨hdone, ⟨hroot, hid⟩, hnint, ⟨hleft, hright⟩, hcodeb, hcodec⟩ :=
        encodeOp_pair (s := { s with busy := true }) hpresent hne hkey hsum
      rw [if_pos hle, if_pos hle, decide_eq_true hle, decide_eq_false (not_not.mpr hle)]
      exact ⟨hdone, hroot, hid, hnint, hleft, hright, hcodeb, hcodec⟩
    · obtain ⟨hdone, ⟨hroot, hid⟩, hnint, ⟨hleft, hright⟩, hcodec, hcodeb⟩ :=
        encodeOp_pair (s := { s with busy := true }) (hpresent.trans (.swap c b [])) hne.symm
          (.inl (Nat.lt_of_not_le hle)) (Nat.add_comm _ _ ▸ hsum)
      rw [if_neg hle, if_neg hle, decide_eq_false hle, decide_eq_true hle]
      exact ⟨hdone, hroot, hid, hnint, hleft, hright, hcodeb, hcodec⟩

end Sys2Proof.Machine
end

section
/-! SUPPORT. The Codes are the paths of the tree (43_code_generator R211 to R213): which Codes a tree has, that the
merge loop leaves a tree over the leaves of the bytes present, and that the walk stores paths of it alone. -/

namespace Sys2Proof.Machine

/-! ## Paths in the arena (R211) -/

/-- The child of `n` that a bit of a Code names: the left one for 1, the right one for 0 (R211). -/
def childAt (nd : NodeId → Node) (n : NodeId) (b : Bool) : NodeId := if b then (nd n).left else (nd n).right

/-- The bits `p` lead from `r` down to `n` through valid internal nodes. -/
inductive PathTo (nd : NodeId → Node) : NodeId → Bits → NodeId → Prop
  | here (n : NodeId) : PathTo nd n [] n
  | down {r n : NodeId} {b : Bool} {p : Bits} (hr : InnerAt nd r) (h : PathTo nd (childAt nd r b) p n) :
      PathTo nd r (b :: p) n

section Paths
variable {nd : NodeId → Node} {w : NodeId → Nat} {r n m : NodeId} {p q : Bits}

theorem PathTo.snoc (h : PathTo nd r p n) (hn : InnerAt nd n) (b : Bool) : PathTo nd r (p ++ [b]) (childAt nd n b) := by
  induction h with
  | here => exact .down hn (.here _)
  | down hr _ ih => exact .down hr (ih hn)

/-- No path leads on from a leaf. -/
theorem PathTo.eq_of_leaf (h : PathTo nd r p n) (hl : (nd r).isLeaf = true) : n = r := by
  cases h with
  | here => rfl
  | down hr _ => exact absurd (hr.2.symm.trans hl) Bool.false_ne_true

/-- A path that begins with the path to a leaf ends in that leaf. -/
theorem PathTo.eq_of_prefix (h : PathTo nd r p n) (h' : PathTo nd r q m) (hn : (nd n).isLeaf = true) (hpq : p <+: q) :
    m = n := by
  induction h generalizing q with
  | here => exact h'.eq_of_leaf hn
  | down _ _ ih =>
    cases h' with
    | here => simp at hpq
    | down _ h' =>
      obtain ⟨rfl, hrest⟩ := List.cons_prefix_cons.mp hpq
      exact ih h' hn hrest

theorem weight_childAt_lt (ha : ProperArena nd w) (hr : InnerAt nd r) (b : Bool) : w (childAt nd r b) < w r := by
  have hw := ha.weight r hr
  cases b <;> simp only [childAt, if_true, if_false, Bool.false_eq_true] <;> omega

/-- A path is no longer than the internal nodes it can pass are many. -/
theorem PathTo.length_le (ha : ProperArena nd w) (h : PathTo nd r p n) : p.length ≤ w r := by
  induction h with
  | here => exact Nat.zero_le _
  | down hr _ ih => exact Nat.lt_of_le_of_lt ih (weight_childAt_lt ha hr _)

end Paths

/-! ## The Codes of a tree (R211, R213) -/

/-- `bits` is the Code of `b` in the tree under `r`: the path to its leaf, or [1] where the leaf is the root. -/
structure CodeIn (nd : NodeId → Node) (r : NodeId) (b : Byte) (bits : Bits) : Prop where
  leaf : LeafAt nd b
  path : r = leafId b ∧ bits = [true] ∨ InnerAt nd r ∧ PathTo nd r bits (leafId b)

section Codes
variable {nd : NodeId → Node} {w : NodeId → Nat} {r : NodeId} {b c : Byte} {p q : Bits}

/-- A Code begins with the Code of no other byte (R215). -/
theorem CodeIn.eq_of_prefix (h : CodeIn nd r b p) (h' : CodeIn nd r c q) (hpq : p <+: q) : b = c := by
  apply leafId_injective
  rcases h.path with ⟨rfl, -⟩ | ⟨-, hp⟩ <;> rcases h'.path with ⟨hc, -⟩ | ⟨-, hq⟩
  · exact hc
  · exact (hq.eq_of_leaf h.leaf.isLeaf).symm
  · exact (hp.eq_of_leaf (hc ▸ h'.leaf.isLeaf)).trans hc
  · exact (hp.eq_of_prefix hq h.leaf.isLeaf hpq).symm

theorem CodeIn.length_pos (h : CodeIn nd r b p) : 1 ≤ p.length := by
  rcases h.path with ⟨-, rfl⟩ | ⟨hr, hp⟩
  · exact Nat.le_refl 1
  · cases hp with
    | here => exact absurd (hr.2.symm.trans h.leaf.isLeaf) Bool.false_ne_true
    | down => exact Nat.succ_le_succ (Nat.zero_le _)

theorem CodeIn.length_le (ha : ProperArena nd w) (h : CodeIn nd r b p) : p.length ≤ max 1 (w r) := by
  rcases h.path with ⟨-, rfl⟩ | ⟨-, hp⟩
  · exact Nat.le_max_left 1 _
  · exact (hp.length_le ha).trans (Nat.le_max_right 1 _)

end Codes

/-! ## The leaves and nodes of the tree (42_tree_builder R181, R183) -/

/-- Every valid leaf is the leaf of one of the bytes `bs`. -/
def LeavesAmong (bs : List Byte) (nd : NodeId → Node) : Prop :=
  ∀ n, (nd n).valid = true → (nd n).isLeaf = true → ∃ b ∈ bs, n = leafId b ∧ (nd n).sym = b

theorem LeavesAmong.join {bs : List Byte} {nd : NodeId → Node} (h : LeavesAmong bs nd) (id a b : NodeId) :
    LeavesAmong bs (joined nd id a b) := fun n hv hl => by
  by_cases he : n = id
  · rw [he, joined_same, innerNode] at hl
    cases hl
  · rw [joined_other he] at hv hl ⊢
    exact h n hv hl

theorem LeavesAmong.leafAt {bs : List Byte} {nd : NodeId → Node} {n : NodeId} (h : LeavesAmong bs nd)
    (hv : (nd n).valid = true) (hl : (nd n).isLeaf = true) : n = leafId (nd n).sym ∧ LeafAt nd (nd n).sym := by
  obtain ⟨b, -, rfl, hsym⟩ := h n hv hl
  rw [hsym]
  exact ⟨rfl, hv, hl, hsym⟩

/-- What the merge loop keeps: a forest over the leaves of `bs`, a root or a merge for each of them. -/
structure Growing (bs : List Byte) (total : Nat) (s : State) : Prop where
  forest : ForestIn s total
  leaves : LeavesAmong bs (nodeAt s)
  count : s.pq.length + s.nint.toNat = bs.length

theorem leavesOf_growing (s : State) : Growing (presentBytes s) (freqSum s) (leavesOf s) := by
  obtain ⟨-, hnint, hpq⟩ := leavesOf_frame s
  refine ⟨(makeLeaves_merging { s with st := .building }).forest, fun n hv _ => ?_, by simp [hnint, hpq]⟩
  obtain ⟨b, hb, rfl⟩ := (leavesOf_valid_iff s n).mp hv
  exact ⟨b, hb, rfl, by rw [leavesOf_nodeAt hb, leafNode]⟩

/-- A join puts one root and one merge in the place of two roots (R183). -/
theorem joinNodes_leaves {s : State} {w : NodeId → Nat} {a b : NodeId} {bs : List Byte} {total : Nat}
    (hf : Forest (nodeAt s) w (a :: b :: s.pq) s.nint.toNat total) (h : LeavesAmong bs (nodeAt s)) :
    (joinNodes a b s).Meets (fun t => LeavesAmong bs (nodeAt t) ∧
      t.pq.length + t.nint.toNat = (a :: b :: s.pq).length + s.nint.toNat) fun _ => True := by
  rcases Nat.lt_or_ge ((nodeAt s a).freq.toNat + (nodeAt s b).freq.toNat) (2 ^ 64) with hsum | hsum
  · have hroom := hf.room
    simp only [List.length_cons] at hroom
    have hnint : s.nint.toNat ≤ 254 := by omega
    have hsucc : (s.nint + 1).toNat = s.nint.toNat + 1 := by bv_omega
    obtain ⟨t, hgo, hnode, hnint', hpq⟩ := joinNodes_go hnint hsum
    rw [hgo]
    refine ⟨hnode ▸ h.join _ a b, ?_⟩
    simp only [hnint', hsucc, hpq, List.length_append, List.length_cons, List.length_nil]
    omega
  · rw [joinNodes_overflow hsum]
    trivial

theorem mergeTwo_growing {s : State} {bs : List Byte} {total : Nat} (h : Growing bs total s)
    (hlen : 2 ≤ s.pq.length) : (mergeTwo s).Meets (Growing bs total) fun _ => True := by
  obtain ⟨w, hf⟩ := h.forest
  obtain ⟨a, b, q, q', -, -, hp, hp', heq⟩ := mergeTwo_eq hlen
  have hperm := hp.trans (hp'.cons a)
  have hjoin := joinNodes_leaves (s := { s with pq := q' }) (hf.perm hperm) h.leaves
  rw [← heq] at hjoin
  exact ((mergeTwo_meets h.forest hlen).and hjoin).mono
    (fun _ ⟨⟨hm, _⟩, hleaves, hcount⟩ => ⟨hm.forest, hleaves, hcount.trans (hperm.length_eq ▸ h.count)⟩)
    fun _ _ => trivial

theorem mergeLoop_growing {s : State} {bs : List Byte} {total : Nat} (k : Nat) (h : Growing bs total s) :
    (mergeLoop k s).Meets (Growing bs total) fun _ => True := by
  induction k generalizing s with
  | zero => exact h
  | succ k ih =>
    unfold mergeLoop
    split
    · rename_i hlen
      exact (mergeTwo_growing h hlen).andThen fun _ => ih
    · exact h

/-- The tree after `merge_all()`: its leaves are among those of `bs`, and a root has one internal node fewer under it
than there are leaves (R183, R216). -/
structure TreeOver (bs : List Byte) (s : State) : Prop where
  leaves : LeavesAmong bs (nodeAt s)
  root : s.rootValid = true →
    ∃ w, ProperArena (nodeAt s) w ∧ (nodeAt s s.rootId).valid = true ∧ w s.rootId + 1 = bs.length

theorem Growing.setRoot {s : State} {bs : List Byte} {total : Nat} (h : Growing bs total s) (hlen : s.pq.length ≤ 1) :
    TreeOver bs (setRoot s) := by
  obtain ⟨w, hf⟩ := h.forest
  by_cases h0 : s.pq = []
  · rw [setRoot_none (extractMin_nil h0)]
    exact ⟨h.leaves, fun hr => absurd hr Bool.false_ne_true⟩
  · obtain ⟨r, hr⟩ : ∃ r, s.pq = [r] :=
      List.length_eq_one_iff.mp (Nat.le_antisymm hlen (List.length_pos_iff.mpr h0))
    have hcount := h.count
    have hweight := hf.weights
    simp only [hr, List.length_singleton, List.map_cons, List.map_nil, List.sum_cons, List.sum_nil] at hcount hweight
    rw [setRoot_some (extractMin_singleton hr)]
    exact ⟨h.leaves, fun _ => ⟨w, hf.arena, hf.queued r (by simp [hr]), by show w r + 1 = _; omega⟩⟩

/-! ## The walk (R212) -/

/-- Every valid Code is one of the tree under `r`. -/
def CodesIn (r : NodeId) (s : State) : Prop :=
  ∀ b, (codeAt s b).valid = true → CodeIn (nodeAt s) r b (codeAt s b).bits

theorem CodesIn.setCode {s : State} {r : NodeId} {v : Byte} {bits : Bits} (h : CodesIn r s)
    (hv : CodeIn (nodeAt s) r v bits) : CodesIn r (setCode v bits s) := fun b hb => by
  rw [setCode_codeAt] at hb ⊢
  by_cases he : v = b
  · rw [if_pos he]
    exact he ▸ hv
  · rw [if_neg he] at hb ⊢
    exact h b hb

/-- What the walk from `r` keeps: the stack holds valid nodes with their paths from `r`, and the Codes stored are those
of the tree. -/
structure PathWalk (bs : List Byte) (w : NodeId → Nat) (r : NodeId) (s : State) : Prop where
  arena : ProperArena (nodeAt s) w
  leaves : LeavesAmong bs (nodeAt s)
  root : InnerAt (nodeAt s) r
  stack : ∀ e ∈ s.wstk, (nodeAt s e.1).valid = true ∧ PathTo (nodeAt s) r e.2 e.1
  codes : CodesIn r s

section Walk
variable {bs : List Byte} {w : NodeId → Nat} {r n : NodeId} {s : State} {p : Bits} {rest : List (NodeId × Bits)}

/-- A leaf popped gets its path as Code; the children of an internal node are pushed with theirs (R212). -/
theorem PathWalk.visit (h : PathWalk bs w r s) (hs : s.wstk = (n, p) :: rest) :
    PathWalk bs w r (visit n { s with wstk := rest, path := p }) := by
  obtain ⟨⟨hvalid, hpath⟩, hstack⟩ := List.forall_mem_cons.mp (hs ▸ h.stack)
  unfold Machine.visit
  split
  · rename_i hleaf
    obtain ⟨hid, hat⟩ := h.leaves.leafAt hvalid hleaf
    have hcode : CodeIn (nodeAt s) r (nodeAt s n).sym p := ⟨hat, .inr ⟨h.root, hid ▸ hpath⟩⟩
    exact ⟨h.arena, h.leaves, h.root, hstack,
      CodesIn.setCode (s := { s with wstk := rest, path := p }) h.codes hcode⟩
  · rename_i hleaf
    have hn : InnerAt (nodeAt s) n := ⟨hvalid, Bool.eq_false_of_not_eq_true hleaf⟩
    have hp := h.arena.inner n hn
    exact ⟨h.arena, h.leaves, h.root, List.forall_mem_cons.mpr ⟨⟨hp.leftValid, hpath.snoc hn true⟩,
      List.forall_mem_cons.mpr ⟨⟨hp.rightValid, hpath.snoc hn false⟩, hstack⟩⟩, h.codes⟩

theorem PathWalk.walkLoop (k : Nat) (h : PathWalk bs w r s) : PathWalk bs w r (walkLoop k s) := by
  induction k generalizing s with
  | zero => exact h
  | succ k ih =>
    unfold Machine.walkLoop
    split
    · exact h
    · rename_i hs
      exact ih (h.visit hs)

end Walk

/-! ## The whole of encode() (42_tree_builder R180) -/

/-- A tree over the leaves of `bs` with its Codes assigned, and no Code without a tree (R210). -/
structure Coded (bs : List Byte) (s : State) : Prop extends TreeOver bs s where
  codes : ∀ b, (codeAt s b).valid = true → s.rootValid = true ∧ CodeIn (nodeAt s) s.rootId b (codeAt s b).bits

/-- `assign_codes()` stores Codes of the tree alone (R210 to R213). -/
theorem assignCodes_codesIn {s : State} {bs : List Byte} (h : TreeOver bs s) (hc : ∀ b, (codeAt s b).valid = false)
    (hr : s.rootValid = true) : CodesIn s.rootId (assignCodes s) := by
  have hnone : CodesIn s.rootId s := fun b hb => absurd ((hc b).symm.trans hb) Bool.false_ne_true
  obtain ⟨w, harena, hvalid, -⟩ := h.root hr
  rw [assignCodes, if_pos hr]
  split
  · rename_i hleaf
    obtain ⟨hid, hat⟩ := h.leaves.leafAt hvalid hleaf
    exact hnone.setCode ⟨hat, .inl ⟨hid, rfl⟩⟩
  · rename_i hleaf
    have hwalk : PathWalk bs w s.rootId { s with wstk := [(s.rootId, [])] } :=
      ⟨harena, h.leaves, ⟨hvalid, Bool.eq_false_of_not_eq_true hleaf⟩,
        List.forall_mem_singleton.mpr ⟨hvalid, .here _⟩, hnone⟩
    exact (hwalk.walkLoop 511).codes

theorem TreeOver.assignCodes {s : State} {bs : List Byte} (h : TreeOver bs s) (hc : ∀ b, (codeAt s b).valid = false) :
    Coded bs (assignCodes s) := by
  have hcodes := assignCodes_codesIn h hc
  have hnoRoot : s.rootValid = false → Machine.assignCodes s = s := fun hr =>
    if_neg (Bool.eq_false_iff.mp hr)
  obtain ⟨_, _, _, hwalk⟩ := assignCodes_walk s
  generalize Machine.assignCodes s = t at *
  cases hr : s.rootValid with
  | true =>
    have hcodes := hcodes hr
    subst hwalk
    exact { h with codes := fun b hb => ⟨hr, hcodes b hb⟩ }
  | false =>
    rw [hnoRoot hr]
    exact { h with codes := fun b hb => absurd ((hc b).symm.trans hb) Bool.false_ne_true }

/-- What two pieces in step are related by, the first of them meets. -/
theorem Flow.Twin.meets {P E : State → State → Prop} {x x' : Flow} (h : x.Twin P E x') :
    x.Meets (fun t => ∃ t', P t t') fun _ => True := by
  cases h with
  | go h => exact ⟨_, h⟩
  | ended => exact trivial

/-- `encode()` builds a tree over the bytes present and assigns its Codes, one to each of them (R180, R214). -/
theorem encodeTables_coded (s : State) :
    (encodeTables s).Meets (fun t => Coded (presentBytes s) t ∧ ∀ b ∈ presentBytes s, (codeAt t b).valid = true)
      fun _ => True := by
  have hmerge := (mergeLoop_growing (leavesOf s).pq.length (leavesOf_growing s)).and
    (mergeLoop_meets _ (makeLeaves_merging { s with st := .building }) (Nat.le_succ _))
  have hcoded : (encodeTables s).Meets (Coded (presentBytes s)) fun _ => True :=
    encodeTables_of_mergeLoop hmerge fun t ⟨hgrow, hm, hlen⟩ => by
      obtain ⟨_, _, _, _, _, htree⟩ := (setRoot_rooted hm hlen).1
      refine (hgrow.setRoot hlen).assignCodes fun b => ?_
      rw [htree]
      exact clearTables_codeAt_valid _ b
  exact hcoded.and ((encodeTables_twin (s := s) rfl).meets.mono (fun _ ⟨_, hall, _⟩ => hall) fun _ h => h)

end Sys2Proof.Machine
end

section
/-! SUPPORT. The statements of 43_code_generator: which byte values have a Code, that no Code begins with another, and
how long they are. -/

namespace Sys2Proof.Machine

/-! ## The Codes of a coded tree (R214 to R216) -/

section Coded
variable {bs : List Byte} {s : State} {b c : Byte}

theorem Coded.present (h : Coded bs s) (hb : (codeAt s b).valid = true) : b ∈ bs := by
  have hleaf := (h.codes b hb).2.leaf
  obtain ⟨c, hc, -, hsym⟩ := h.leaves _ hleaf.valid hleaf.isLeaf
  exact hleaf.sym.symm.trans hsym ▸ hc

theorem Coded.eq_of_prefix (h : Coded bs s) (hb : (codeAt s b).valid = true) (hc : (codeAt s c).valid = true)
    (hpre : (codeAt s b).bits <+: (codeAt s c).bits) : b = c :=
  (h.codes b hb).2.eq_of_prefix (h.codes c hc).2 hpre

/-- A Code is at least one bit long, and at most one bit shorter than there are leaves, or one bit. -/
theorem Coded.length_bounds (h : Coded bs s) (hb : (codeAt s b).valid = true) :
    1 ≤ (codeAt s b).bits.length ∧ (codeAt s b).bits.length ≤ max 1 (bs.length - 1) := by
  obtain ⟨hr, hcode⟩ := h.codes b hb
  obtain ⟨w, harena, -, hweight⟩ := h.root hr
  rw [← hweight, Nat.add_sub_cancel]
  exact ⟨hcode.length_pos, hcode.length_le harena⟩

end Coded

/-! ## ENCODE and COMPRESS that end Done (R180, R230) -/

theorem exec_encode_coded {s t : State} (ht : exec .encode s = .next t) (hdone : t.st = .done) :
    Coded (presentBytes s) t ∧ ∀ b ∈ presentBytes s, (codeAt t b).valid = true := by
  rcases acceptCommand_cases (op := encodeOp) ht with ⟨hst, rfl⟩ | ⟨-, rfl⟩
  · rw [hst] at hdone
    cases hdone
  · obtain ⟨u, ⟨hcoded, hall⟩, he⟩ := encodeOp_of_meets (encodeTables_coded { s with busy := true }) hdone
    rw [he]
    exact ⟨{ hcoded with }, hall⟩

/-- A COMPRESS that ends Done has built its tables, missed a byte value and written the block; what `encode()` meets
where it goes on holds of the tables. -/
theorem compressOp_of_meets {s : State} {P : State → Prop}
    (h : (encodeTables (scan { s with st := .scanning })).Meets P fun _ => True) (hdone : (compressOp s).st = .done) :
    ∃ t, P t ∧ TablesOnly { scan { s with st := .scanning } with st := .building } t ∧ (presentBytes t).length ≠ 256 ∧
      compressOp s = finishDone (writeBlock { t with nent := BitVec.ofNat 9 (presentBytes t).length }) := by
  have hm := (encodeTables_outcome (scan { s with st := .scanning })).meets
  unfold compressOp checkLen at hdone ⊢
  split at hdone
  · cases hdone
  · rename_i hlen
    rw [if_neg hlen, Flow.andThen_go]
    rw [Flow.andThen_go] at hdone
    generalize encodeTables (scan { s with st := .scanning }) = x at h hm hdone ⊢
    cases x with
    | go t =>
      rw [Flow.andThen_go] at hdone ⊢
      by_cases hp : (presentBytes t).length = 256
      · rw [countEntries, if_pos hp] at hdone
        cases hdone
      · exact ⟨t, h, hm, hp, by rw [countEntries_go hp]; rfl⟩
    | ended t =>
      obtain ⟨_, -, rfl⟩ := hm
      cases hdone

theorem TablesOnly.presentBytes_eq {s t : State} (h : TablesOnly s t) : presentBytes t = presentBytes s := by
  obtain ⟨_, _, _, _, _, _, _, _, _, rfl⟩ := h
  rfl

/-- A COMPRESS that ends Done has the Codes of a tree over the bytes present, which are not all 256 (R233). -/
theorem exec_compress_coded {s t : State} (ht : exec .compress s = .next t) (hdone : t.st = .done) :
    Coded (presentBytes t) t ∧ (presentBytes t).length ≠ 256 := by
  rcases acceptCommand_cases (op := compressOp) ht with ⟨hst, rfl⟩ | ⟨-, rfl⟩
  · rw [hst] at hdone
    cases hdone
  · obtain ⟨u, ⟨hcoded, -⟩, htables, hne, he⟩ := compressOp_of_meets (encodeTables_coded _) hdone
    have hpresent : Coded (presentBytes u) u := htables.presentBytes_eq ▸ hcoded
    obtain ⟨_, _, _, _, _, _, _, _, _, hblock⟩ :=
      writeBlock_block { u with nent := BitVec.ofNat 9 (presentBytes u).length }
    rw [he, hblock]
    exact ⟨{ hpresent with }, hne⟩

/-! ## The statements -/

/-- Settles O19: the walk reaches the leaf of every byte present, and the tree has no other leaves. -/
theorem codesExistExactlyForPresentBytes : Obligations.CodesExistExactlyForPresentBytes := by
  intro s t ht hdone b
  obtain ⟨hcoded, hall⟩ := exec_encode_coded ht hdone
  rw [← mem_presentBytes]
  exact ⟨hcoded.present, hall b⟩

/-- Settles O20: a Code is the path to a leaf, and no path leads on from a leaf. -/
theorem codesArePrefixFree : Obligations.CodesArePrefixFree := by
  intro s t ht hdone b c hne hb hc
  obtain ⟨hcoded, -⟩ := exec_encode_coded ht hdone
  exact ⟨fun hpre => hne (hcoded.eq_of_prefix hb hc hpre),
    fun heq => hne (hcoded.eq_of_prefix hb hc (heq ▸ List.prefix_refl _))⟩

/-- Settles O21: a path passes internal nodes alone, and the tree has one fewer of them than leaves. -/
theorem codeLengthsAreBounded : Obligations.CodeLengthsAreBounded := by
  refine ⟨fun s t ht hdone b hb => ?_, fun s t ht hdone b hb => ?_⟩
  · obtain ⟨hcoded, -⟩ := exec_encode_coded ht hdone
    obtain ⟨hpos, hle⟩ := hcoded.length_bounds hb
    have hbytes := presentBytes_length s
    exact ⟨hpos, by omega, fun _ => by omega⟩
  · obtain ⟨hcoded, hne⟩ := exec_compress_coded ht hdone
    obtain ⟨hpos, hle⟩ := hcoded.length_bounds hb
    have hbytes := presentBytes_length t
    exact ⟨hpos, by omega⟩

end Sys2Proof.Machine
end

section
/-! SUPPORT. The statements of 44_codec_compress: what COMPRESS leaves in FREQ, NENT and the tables, when it refuses a
block, how many bytes a block takes, and what it leaves unchanged. -/

namespace Sys2Proof.Machine

/-! ## The outcomes of COMPRESS (44_codec_compress R230, R231, R233) -/

/-- A block longer than BLOCK_MAX ends the command at once (R231). -/
theorem compressOp_tooLong {s : State} (h : s.config.blockMax.toNat < s.len.toNat) :
    compressOp s = raise .inputLength s := by
  rw [compressOp, checkLen, if_pos h]
  rfl

/-- A block that fits is scanned and encoded; then COMPRESS refuses it for its 256 values or writes it: nothing else
can end it, since the counts of a block do not overflow the builder (R231 to R233). -/
theorem compressOp_fits {s : State} (hlen : s.len.toNat ≤ s.config.blockMax.toNat) :
    ∃ t, TablesOnly { scan { s with st := .scanning } with st := .building } t ∧
      encodeOp (scan { s with st := .scanning }) = finishDone t ∧
      ((presentBytes t).length = 256 ∧ compressOp s = raise .entryOverflow { t with nent := 256 } ∨
        (presentBytes t).length ≠ 256 ∧
          compressOp s = finishDone (writeBlock { t with nent := BitVec.ofNat 9 (presentBytes t).length })) := by
  have hsum : freqSum (scan { s with st := .scanning }) < 2 ^ 64 := by
    rw [freqSum_scan]
    exact s.len.isLt
  obtain ⟨t, hgo, ht⟩ := encodeTables_fits hsum
  refine ⟨t, ht, by rw [encodeOp, hgo]; rfl, ?_⟩
  rw [compressOp, checkLen, if_neg (Nat.not_lt.mpr hlen), Flow.andThen_go, hgo, Flow.andThen_go]
  by_cases hp : (presentBytes t).length = 256
  · exact .inl ⟨hp, by rw [countEntries, if_pos hp, hp]; rfl⟩
  · exact .inr ⟨hp, by rw [countEntries_go hp]; rfl⟩

/-- A COMPRESS that ends Done was given a block that fits (R231). -/
theorem compressOp_done_fits {s : State} (hdone : (compressOp s).st = .done) :
    s.len.toNat ≤ s.config.blockMax.toNat := by
  refine Nat.le_of_not_lt fun hlong => ?_
  rw [compressOp_tooLong hlong] at hdone
  cases hdone

/-! ## FREQ and NENT (R232, R233) -/

theorem BlockOnly.freq_eq {s t : State} (h : BlockOnly s t) : t.freq = s.freq := by
  obtain ⟨_, _, _, _, _, _, _, _, _, rfl⟩ := h
  rfl

/-- However a COMPRESS of a block that fits ends, FREQ and NENT are those of the scan (R232, R233). -/
theorem compressOp_counts {s : State} (hlen : s.len.toNat ≤ s.config.blockMax.toNat) :
    (compressOp s).freq = (scan s).freq ∧ (compressOp s).nent = BitVec.ofNat 9 (presentBytes (scan s)).length := by
  obtain ⟨t, ht, -, ⟨hp, he⟩ | ⟨-, he⟩⟩ := compressOp_fits hlen
  · have hpresent : (presentBytes (scan s)).length = 256 := ht.presentBytes_eq ▸ hp
    obtain ⟨_, _, _, _, _, _, _, _, _, rfl⟩ := ht
    rw [he, hpresent]
    exact ⟨rfl, rfl⟩
  · have honly := writeBlock_block { t with nent := BitVec.ofNat 9 (presentBytes t).length }
    obtain ⟨-, hnent, -⟩ := honly.sameData
    have hfreq := honly.freq_eq
    rw [he]
    generalize writeBlock { t with nent := BitVec.ofNat 9 (presentBytes t).length } = u at hnent hfreq ⊢
    obtain ⟨_, _, _, _, _, _, _, _, _, rfl⟩ := ht
    exact ⟨hfreq, hnent⟩

theorem freqAt_congr {s t : State} (h : t.freq = s.freq) (b : Byte) : freqAt t b = freqAt s b := by
  rw [freqAt, freqAt, h]

theorem freqSum_congr {s t : State} (h : t.freq = s.freq) : freqSum t = freqSum s := by
  rw [freqSum, freqSum, funext (freqAt_congr h)]

/-- Settles O28: no piece after the scan changes FREQ. -/
theorem compressCountsTheBlock : Obligations.CompressCountsTheBlock := by
  intro s hst hlen
  obtain ⟨hfreq, -⟩ := compressOp_counts (s := { s with busy := true }) hlen
  refine ⟨_, acceptCommand_run hst, fun b => ?_, ?_⟩
  · rw [freqAt_congr hfreq]
    exact freqAt_scan _ b
  · rw [freqSum_congr hfreq]
    exact freqSum_scan _

/-- Settles O29: the length is looked at first, and nothing later raises Capacity. -/
theorem compressRefusesLongBlocks : Obligations.CompressRefusesLongBlocks := by
  refine ⟨fun s hst hlong => ?_, fun s hst hlen => ⟨_, acceptCommand_run hst, fun hfault => ?_⟩⟩
  · have hop := compressOp_tooLong (s := { s with busy := true }) hlong
    exact (acceptCommand_run hst).trans (congrArg Host.Outcome.next hop)
  · obtain ⟨t, -, -, ⟨-, he⟩ | ⟨-, he⟩⟩ := compressOp_fits (s := { s with busy := true }) hlen
    · rw [he]
      exact ErrClass.noConfusion
    · rw [he] at hfault
      cases hfault

/-! ## The entries (R233) -/

theorem presentBytes_length_eq_filter (s : State) :
    (presentBytes s).length = ((List.range 256).filter fun b => freqAt s (BitVec.ofNat 8 b) ≠ 0).length := by
  simp [presentBytes, List.filter_map, Function.comp_def, Config.nsym]

/-- With no byte value missing all 256 are present (R233). -/
theorem presentBytes_length_of_all {s : State} (h : ∀ b, freqAt s b ≠ 0) : (presentBytes s).length = 256 := by
  rw [presentBytes, List.filter_eq_self.mpr fun b _ => decide_eq_true (h b)]
  simp [Config.nsym]

theorem freqAt_scan_eq_zero_iff {s : State} {b : Byte} : freqAt (scan s) b = 0 ↔ blockCount s b = 0 := by
  rw [← freqAt_scan, ← BitVec.toNat_inj]
  rfl

/-- Settles O30: the bytes present are those that occur in the block. -/
theorem compressRefusesAll256Values : Obligations.CompressRefusesAll256Values := by
  intro s hst hlen
  obtain ⟨-, hnent⟩ := compressOp_counts (s := { s with busy := true }) hlen
  obtain ⟨t, ht, -, hend⟩ := compressOp_fits (s := { s with busy := true }) hlen
  have hpresent : presentBytes t = presentBytes (scan { s with busy := true }) := ht.presentBytes_eq
  have hle := presentBytes_length t
  rw [← hpresent] at hnent
  have hnat : (compressOp { s with busy := true }).nent.toNat = (presentBytes t).length := by
    rw [hnent, BitVec.toNat_ofNat]
    omega
  refine ⟨_, acceptCommand_run hst, ?_, fun hall => ?_, fun ⟨b, hb⟩ => ?_⟩
  · rw [hnat, hpresent, presentBytes_length_eq_filter]
    simp only [ne_eq, freqAt_scan_eq_zero_iff]
    rfl
  · have hp : (presentBytes t).length = 256 := by
      rw [hpresent]
      exact presentBytes_length_of_all fun b => mt freqAt_scan_eq_zero_iff.mp (hall b)
    rcases hend with ⟨-, he⟩ | ⟨hne, -⟩
    · obtain ⟨_, _, _, _, _, _, _, _, _, rfl⟩ := ht
      rw [he]
      exact ⟨rfl, rfl, rfl, rfl, rfl, rfl, rfl, rfl, rfl⟩
    · exact absurd hp hne
  · have hp : (presentBytes t).length ≠ 256 := by
      rw [hpresent]
      exact presentBytes_length_ne (freqAt_scan_eq_zero_iff.mpr hb)
    rcases hend with ⟨heq, -⟩ | ⟨-, he⟩
    · exact absurd heq hp
    · refine ⟨fun h256 => hp ?_, by rw [he]; rfl⟩
      rw [← hnat, h256]
      rfl

/-! ## The size of a block (R238) -/

theorem entryFields_size (sym : Byte) (code : Bits) :
    (fieldBytes (entryFields sym code)).length = 2 + bytesFor code.length := by
  have hpack := Laws.EncodedSize.packBits_length code
  simp only [fieldBytes, entryFields, encodeWire, List.flatMap_cons, List.flatMap_nil, List.length_append,
    List.length_cons, List.length_nil, hpack]
  omega

/-- The bytes of a block (R101, R238): one for the number of entries, each entry, eight for the count, the body. -/
theorem blockFields_size (entries : List (Byte × Bits)) (total : Count) (codes : Bits) :
    (fieldBytes (blockFields entries total codes)).length =
      1 + (entries.map fun e => 2 + bytesFor e.2.length).sum + 8 + bytesFor codes.length := by
  have hentries : (fieldBytes (entries.flatMap fun e => entryFields e.1 e.2)).length =
      (entries.map fun e => 2 + bytesFor e.2.length).sum := by
    rw [fieldBytes, List.flatMap_assoc, List.length_flatMap]
    exact congrArg List.sum (List.map_congr_left fun e _ => entryFields_size e.1 e.2)
  have hpack := Laws.EncodedSize.packBits_length codes
  rw [fieldBytes] at hentries ⊢
  simp only [blockFields, List.cons_append, List.flatMap_cons, List.flatMap_append, List.flatMap_nil, encodeWire,
    List.length_append, List.length_cons, List.length_nil, countBytes_length, hentries, hpack]
  omega

/-- The body holds the Code of each byte present as often as the byte occurs (R236, R238). -/
theorem blockBody_length {t : State} (hcount : ∀ b, (freqAt t b).toNat = blockCount t b) :
    (blockBody t).length = ((presentBytes t).map fun b => (freqAt t b).toNat * (codeAt t b).bits.length).sum := by
  have hpresent : ∀ v ∈ blockBytes t, v ∈ (presentBytes t).toFinset := fun v hv => by
    rw [List.mem_toFinset, mem_presentBytes]
    intro h0
    have hpos : 0 < blockCount t v := List.count_pos_iff.mpr hv
    rw [← hcount, h0] at hpos
    cases hpos
  have hgroup := Finset.sum_list_map_count (blockBytes t) fun v => (codeAt t v).bits.length
  rw [blockBody, List.length_flatMap, hgroup, ← List.sum_toFinset _ (presentBytes_nodup t)]
  simp only [hcount]
  refine Finset.sum_subset (fun v hv => hpresent v (List.mem_toFinset.mp hv)) fun v _ hv => ?_
  rw [List.count_eq_zero.mpr fun h => hv (List.mem_toFinset.mpr h), zero_nsmul]

/-- A COMPRESS that ends Done was given a block that fits and misses a byte value (R231, R233). -/
theorem exec_compress_done {s t : State} (ht : exec .compress s = .next t) (hst : s.st ≠ .fault) (hdone : t.st = .done) :
    s.len.toNat ≤ s.config.blockMax.toNat ∧ ∃ b, blockCount s b = 0 := by
  have hop : compressOp { s with busy := true } = t := Host.Outcome.next.inj ((acceptCommand_run hst).symm.trans ht)
  have hlen : s.len.toNat ≤ s.config.blockMax.toNat :=
    compressOp_done_fits (s := { s with busy := true }) (hop ▸ hdone)
  refine ⟨hlen, not_forall_not.mp fun hall => ?_⟩
  obtain ⟨u, hu, -, hrefused, -⟩ := compressRefusesAll256Values s hst hlen
  obtain rfl := Host.Outcome.next.inj (hu.symm.trans ht)
  obtain ⟨-, hfault, -⟩ := hrefused hall
  cases hdone.symm.trans hfault

/-- Settles O31: a COMPRESS that ends Done has written the fields of its block, whose sizes add up. -/
theorem compressOutputSize : Obligations.CompressOutputSize := by
  intro s t hn hacc ht hst hdone
  obtain ⟨hlen, hmiss⟩ := exec_compress_done ht hst hdone
  have hclean : writerClean s := by
    rw [writerClean, hn, hacc]
    decide
  obtain ⟨u, hu, -, -, hend, -, -, -, -, hblock, -, haligned⟩ := compressWritesTheBlock s hst hlen hmiss hclean
  obtain rfl := Host.Outcome.next.inj (hu.symm.trans ht)
  obtain ⟨v, hv, hfreq, -⟩ := compressCountsTheBlock s hst hlen
  obtain rfl := Host.Outcome.next.inj (hv.symm.trans ht)
  have hcount : ∀ b, (freqAt v b).toNat = blockCount v b := fun b => by rw [hfreq, blockCount, blockCount, hblock]
  have hsnk := haligned hn
  have hentries : (tableEntries v).map (fun e => 2 + bytesFor e.2.length) =
      (presentBytes v).map fun b => 2 + bytesFor (codeAt v b).bits.length := List.map_map
  refine ⟨hend, ?_, hsnk⟩
  rw [hsnk, List.length_append, blockFields_size, hentries, blockBody_length hcount]
  omega

/-! ## The tables (R230, 42_tree_builder R188) -/

/-- Writing a block changes no table. -/
theorem BlockOnly.sameTree {s t u : State} (h : BlockOnly s t) (hu : SameTree u (finishDone s)) :
    SameTree u (finishDone t) := by
  obtain ⟨_, _, _, _, _, _, _, _, _, rfl⟩ := h
  exact { hu with }

/-- Settles O32: ENCODE on the counts left runs in step with the encoding inside COMPRESS. -/
theorem compressUsesTheTablesOfEncode : Obligations.CompressUsesTheTablesOfEncode := by
  intro s t ht hst hdone
  obtain ⟨hlen, -⟩ := exec_compress_done ht hst hdone
  obtain rfl : compressOp { s with busy := true } = t :=
    Host.Outcome.next.inj ((acceptCommand_run hst).symm.trans ht)
  obtain ⟨hfreq, -⟩ := compressOp_counts (s := { s with busy := true }) hlen
  obtain ⟨u, -, hencode, ⟨-, he⟩ | ⟨-, he⟩⟩ := compressOp_fits (s := { s with busy := true }) hlen
  · rw [he] at hdone
    cases hdone
  · have htree := encodeOp_sameTree (s := { s with busy := true, freq := (compressOp { s with busy := true }).freq })
      (s' := scan { s with busy := true, st := .scanning }) hfreq.symm
    rw [hencode] at htree
    refine ⟨_, acceptCommand_run hst, ?_⟩
    have hblock := (writeBlock_block _).sameTree (s := { u with nent := BitVec.ofNat 9 (presentBytes u).length })
      { htree with }
    rwa [← he] at hblock

/-! ## What COMPRESS leaves unchanged (R230) -/

/-- COMPRESS changes the encode-side tables, the writer, TOTAL, NENT, the loop counters and the registers of its
outcome. -/
theorem exec_compress_frame {s t : State} (ht : exec .compress s = .next t) :
    t = { s with
      freq := t.freq, node := t.node, pq := t.pq, nint := t.nint, rootValid := t.rootValid, rootId := t.rootId,
      code := t.code, wstk := t.wstk, path := t.path, encEpoch := t.encEpoch, wrAcc := t.wrAcc, wrN := t.wrN,
      snk := t.snk, total := t.total, nent := t.nent, entIx := t.entIx, byteIx := t.byteIx, pos := t.pos,
      freeTick := t.freeTick, st := t.st, err := t.err, errSub := t.errSub, errSt := t.errSt, busy := t.busy } := by
  rcases acceptCommand_cases (op := compressOp) ht with ⟨-, rfl⟩ | ⟨-, rfl⟩
  · rfl
  · rcases compressOp_cases { s with busy := true } with
      ⟨-, he⟩ | ⟨-, u, ⟨_, _, _, _, _, _, _, _, _, rfl⟩, he | ⟨-, he⟩ | ⟨-, he⟩⟩
    · rw [he]; rfl
    · rw [he]; rfl
    · rw [he]; rfl
    · obtain ⟨_, _, _, _, _, _, _, _, _, hblock⟩ := writeBlock_block _
      rw [he, hblock]
      rfl

/-- Settles O34: none of the groups named holds a register that COMPRESS changes. -/
theorem compressFrame : Obligations.CompressFrame := by
  intro s t ht
  rw [exec_compress_frame ht]
  exact ⟨⟨rfl, rfl, rfl⟩, ⟨rfl, rfl⟩, ⟨rfl, rfl, rfl, rfl, rfl⟩, ⟨rfl, rfl, rfl, rfl⟩, fun _ => rfl, fun _ => rfl⟩

end Sys2Proof.Machine
end

section
/-! SUPPORT. The lookup of a candidate (45_codec_decompress R259): the last stored entry that matches answers. -/

namespace Sys2Proof.Machine

/-- A search of 0 .. n-1 from above finds the greatest number that passes the test. -/
theorem find?_reverse_range_eq_some {q : Nat → Bool} {n e : Nat} :
    (List.range n).reverse.find? q = some e ↔ e < n ∧ q e = true ∧ ∀ e', e < e' → e' < n → ¬ q e' = true := by
  induction n with
  | zero => simp
  | succ n ih =>
    rw [List.range_succ, List.reverse_append, List.reverse_singleton, List.singleton_append, List.find?_cons]
    by_cases hn : q n = true
    · rw [hn]
      constructor
      · rintro ⟨⟩
        exact ⟨Nat.lt_succ_self _, hn, fun e' h h' => by omega⟩
      · rintro ⟨he, -, hlast⟩
        rcases Nat.lt_succ_iff_lt_or_eq.mp he with hlt | rfl
        · exact absurd hn (hlast _ hlt (Nat.lt_succ_self _))
        · rfl
    · rw [Bool.eq_false_of_not_eq_true hn]
      refine ih.trans ⟨fun ⟨he, hq, hlast⟩ => ⟨by omega, hq, fun e' h h' => ?_⟩,
        fun ⟨he, hq, hlast⟩ => ⟨?_, hq, fun e' h h' => hlast e' h (by omega)⟩⟩
      · rcases Nat.lt_succ_iff_lt_or_eq.mp h' with hlt | rfl
        · exact hlast e' h hlt
        · exact hn
      · exact Nat.lt_of_le_of_ne (Nat.le_of_lt_succ he) fun h => hn (h ▸ hq)

theorem decMatches_iff (s : State) (e : Nat) (c : Bits) :
    ((decAt s e).valid && (decAt s e).bits == c) = true ↔ decMatches s e c := by
  simp [decMatches]

/-- A miss: no stored entry matches (R259). -/
theorem lookup_eq_none_iff {s : State} {c : Bits} : lookup s c = none ↔ ∀ e < s.decN.toNat, ¬ decMatches s e c := by
  simp only [lookup, Option.map_eq_none_iff, List.find?_eq_none, List.mem_reverse, List.mem_range, decMatches_iff]

/-- A hit: the last stored entry that matches has the symbol (R259). -/
theorem lookup_eq_some_iff {s : State} {c : Bits} {v : Byte} :
    lookup s c = some v ↔
      ∃ e < s.decN.toNat, decMatches s e c ∧ (decAt s e).sym = v ∧
        ∀ e', e < e' → e' < s.decN.toNat → ¬ decMatches s e' c := by
  simp only [lookup, Option.map_eq_some_iff, find?_reverse_range_eq_some, decMatches_iff]
  exact ⟨fun ⟨e, ⟨he, hm, hlast⟩, hv⟩ => ⟨e, he, hm, hv, hlast⟩,
    fun ⟨e, he, hm, hv, hlast⟩ => ⟨e, ⟨he, hm, hlast⟩, hv⟩⟩

/-- Settles O39: the search runs from the last stored entry down. -/
theorem lookupTakesTheLastMatch : Obligations.LookupTakesTheLastMatch := by
  refine fun s c hc => ⟨lookup_eq_none_iff, fun v => lookup_eq_some_iff, fun e he hm => hc ?_⟩
  obtain ⟨-, hbits⟩ := hm
  exact hbits.symm.trans he

end Sys2Proof.Machine
end

section
/-! SUPPORT. What taking each wire field does (30_encoding R104 to R110, 45_codec_decompress R252 to R261), one equation
per outcome, and the statements about the fields one by one. -/

namespace Sys2Proof.Machine

/-! ## Equations of the fields (45_codec_decompress R252 to R261) -/

section Taking
variable {s : State}

/-- `align()` empties the buffer (40_bitreader R146). -/
theorem align_eq (s : State) : align s = { s with rdLeft := 0 } := alignOnlyEmptiesTheBuffer s

/-- The entries begin (R253). -/
theorem takeEntryCount_entries {k : Byte} (hk : k ≠ 0) (s : State) :
    takeEntryCount k s = .go { s with nent := k.setWidth 9, entIx := 0, field := .byteValue } := by
  simp only [takeEntryCount, if_neg hk]

/-- Without entries the header is left at once (R250). -/
theorem takeEntryCount_none (s : State) :
    takeEntryCount 0 s = .go (leaveHeader { s with nent := 0, entIx := 0 }) := rfl

/-- An entry before the last one is stored and the next one follows (R253). -/
theorem takeCodeBits_more {code : Bits} (h : s.entIx + 1 ≠ s.nent) :
    takeCodeBits code s = .go { storeDec code { s with rdLeft := 0 } with field := .byteValue } := by
  rw [takeCodeBits, align_eq]
  exact congrArg Flow.go (if_neg h)

/-- The last entry is stored and the header is left (R250, R253). -/
theorem takeCodeBits_last {code : Bits} (h : s.entIx + 1 = s.nent) :
    takeCodeBits code s = .go (leaveHeader (storeDec code { s with rdLeft := 0 })) := by
  rw [takeCodeBits, align_eq]
  exact congrArg Flow.go (if_pos h)

/-- The entry stored is the one at ENT_IX; every other one stays (R254). -/
theorem decAt_storeDec (code : Bits) (h : s.entIx.toNat < 255) (e : Nat) :
    decAt (storeDec code s) e = if s.entIx.toNat = e then ⟨true, code, s.symTmp⟩ else decAt s e := by
  refine (tabGet_tabSet s.dec DecEntry.blank _ _ e).trans ?_
  simp only [h, and_true]
  rfl

/-- `finish()` with no candidate begun (R261). -/
theorem finishBlock_done (h : s.cand = []) :
    finishBlock s = .ended (finishDone { s with rdLeft := 0, outLen := s.decoded }) := by
  rw [finishBlock, if_neg (not_not.mpr h), align_eq]

/-- `finish()` with a candidate begun (R261). -/
theorem finishBlock_leftover (h : s.cand ≠ []) : finishBlock s = .ended (raise .leftover s) := if_pos h

/-- `finish()` ends the operation. -/
theorem finishBlock_andThen (s : State) (f : State → Flow) : (finishBlock s).andThen f = finishBlock s := by
  unfold finishBlock
  split <;> rfl

/-- The state in which the body opens: TOTAL is set, ST is ReadingBody (R255 to R257). -/
def openBody (c : Count) (s : State) : State :=
  { releaseByteIx s with total := c, st := .readingBody, field := .body }

/-- A count above BLOCK_MAX (R257). -/
theorem takeTotalCount_large {c : Count} (h : s.config.blockMax.toNat < c.toNat) :
    takeTotalCount c s = .ended (raise .outputLength (openBody c s)) := if_pos h

/-- A count that fits, with symbols to decode (R258). -/
theorem takeTotalCount_body {c : Count} (h : c.toNat ≤ s.config.blockMax.toNat) (hd : s.decoded.toNat < c.toNat) :
    takeTotalCount c s = .go (openBody c s) := (if_neg (Nat.not_lt.mpr h)).trans (if_pos hd)

/-- A count that fits, with nothing to decode (R258, R261). -/
theorem takeTotalCount_finish {c : Count} (h : c.toNat ≤ s.config.blockMax.toNat) (hd : c.toNat ≤ s.decoded.toNat) :
    takeTotalCount c s = finishBlock (openBody c s) := (if_neg (Nat.not_lt.mpr h)).trans (if_neg (Nat.not_lt.mpr hd))

/-- A miss that leaves the candidate at another length than 255 bits (R258). -/
theorem takeBodyBit_grow {b : Bool} (h : lookup s (s.cand ++ [b]) = none) (hlen : s.cand.length ≠ 254) :
    takeBodyBit b s = .go { s with cand := s.cand ++ [b] } := by
  have hne : (s.cand ++ [b]).length ≠ Config.lenMax := by simp [Config.lenMax]; omega
  simp only [takeBodyBit, h]
  exact if_neg hne

/-- A miss at 255 bits (R258, 60_exceptions R281). -/
theorem takeBodyBit_noMatch {b : Bool} (h : lookup s (s.cand ++ [b]) = none) (hlen : s.cand.length = 254) :
    takeBodyBit b s = .ended (raise .noMatch { s with cand := s.cand ++ [b] }) := by
  have heq : (s.cand ++ [b]).length = Config.lenMax := by simp [Config.lenMax, hlen]
  simp only [takeBodyBit, h]
  exact if_pos heq

end Taking

/-! ## The statements about the fields -/

/-- What no piece of a DECOMPRESS changes. -/
theorem DecodeOnly.frame {s t : State} (h : DecodeOnly s t) :
    SameWriter s t ∧ SameBitBuffer s t ∧ SameEncodeTables s t ∧ SameHost s t ∧ SameIbuf s t ∧ t.freq = s.freq ∧
      t.pos = s.pos := by
  obtain ⟨_, _, _, _, _, _, _, _, _, _, _, _, _, _, _, _, _, _, _, _, _, _, _, rfl⟩ := h
  exact ⟨⟨rfl, rfl, rfl⟩, ⟨rfl, rfl⟩, ⟨rfl, rfl, rfl, rfl, rfl, rfl, rfl, rfl⟩, ⟨rfl, rfl, rfl, rfl⟩, fun _ => rfl,
    rfl, rfl⟩

/-- Settles O46: the four equations of the one-byte fields. -/
theorem headerBytesAreTaken : Obligations.HeaderBytesAreTaken := by
  refine ⟨fun k s hst hk => ?_, fun s hst => ⟨(Config.freeCounter s.freeTick).setWidth 9, ?_⟩,
    fun v s hst => acceptField_run hst, fun l s hst => acceptField_run hst⟩
  · exact (acceptField_run hst).trans (by rw [takeEntryCount_entries hk, Flow.state_go])
  · exact (acceptField_run hst).trans (by rw [takeEntryCount_none]; rfl)

/-- However the header goes on, the entry is stored and the buffer empty; ENT_IX, ST and the field due follow (R254). -/
theorem takeCodeBits_stores (code : Bits) (s : State) :
    ∃ ix c f k, (takeCodeBits code s).state =
      { storeDec code { s with rdLeft := 0 } with entIx := ix, st := c, field := f, freeTick := k } := by
  by_cases h : s.entIx + 1 = s.nent
  · rw [takeCodeBits_last h]
    exact ⟨_, _, _, _, rfl⟩
  · rw [takeCodeBits_more h]
    exact ⟨_, _, _, _, rfl⟩

/-- Settles O47: the entry is stored at ENT_IX, and whether it is the last one decides what follows. -/
theorem codeBitsStoreTheEntry : Obligations.CodeBitsStoreTheEntry := by
  intro code s hst hix hnent
  have hdec := decAt_storeDec (s := { s with rdLeft := 0 }) code (by show s.entIx.toNat < 255; omega)
  have hdecN : (BitVec.ofNat 8 (s.entIx.toNat + 1)).toNat = s.entIx.toNat + 1 := by
    rw [BitVec.toNat_ofNat]
    omega
  have hnext : (s.entIx + 1).toNat = s.entIx.toNat + 1 := by bv_omega
  have hlast : s.entIx + 1 = s.nent ↔ s.entIx.toNat + 1 = s.nent.toNat := by rw [← hnext, BitVec.toNat_inj]
  have hmore : s.entIx.toNat + 1 < s.nent.toNat → (takeCodeBits code s).state.entIx = s.entIx + 1 ∧
      (takeCodeBits code s).state.field = .byteValue ∧ (takeCodeBits code s).state.st = s.st := fun h => by
    rw [takeCodeBits_more (mt hlast.mp (Nat.ne_of_lt h))]
    exact ⟨rfl, rfl, rfl⟩
  have hleave : s.entIx.toNat + 1 = s.nent.toNat → (takeCodeBits code s).state.field = .totalSymbolCount ∧
      (takeCodeBits code s).state.st = .readingCount := fun h => by
    rw [takeCodeBits_last (hlast.mpr h)]
    exact ⟨rfl, rfl⟩
  obtain ⟨ix, c, f, k, hstate⟩ := takeCodeBits_stores code s
  obtain ⟨hwriter, hbuf, htables, hhost, hibuf, hfreq, hpos⟩ := (takeCodeBits_decode code s).frame
  refine ⟨_, acceptField_run hst, ?_⟩
  rw [hstate] at hmore hleave hwriter hbuf htables hhost hibuf ⊢
  exact ⟨(hdec _).trans (if_pos rfl), fun e he => (hdec e).trans (if_neg he.symm), hdecN, rfl, rfl, rfl, hmore, hleave,
    hwriter, ⟨rfl, rfl, rfl⟩, hbuf, htables, hhost, hibuf, fun _ => rfl, rfl, rfl, rfl, rfl, rfl, rfl, rfl, rfl, rfl⟩

/-- However the block goes on, TOTAL is set; beside that only RD_LEFT and the registers of the outcome change (R255 to
R261). -/
theorem takeTotalCount_opens (c : Count) (s : State) :
    ∃ k x er es et bu ol, (takeTotalCount c s).state =
      { openBody c s with rdLeft := k, st := x, err := er, errSub := es, errSt := et, busy := bu, outLen := ol } := by
  rcases Nat.lt_or_ge s.config.blockMax.toNat c.toNat with hlarge | hfits
  · rw [takeTotalCount_large hlarge]
    exact ⟨_, _, _, _, _, _, _, rfl⟩
  · rcases Nat.lt_or_ge s.decoded.toNat c.toNat with hmore | hnone
    · rw [takeTotalCount_body hfits hmore]
      exact ⟨_, _, _, _, _, _, _, rfl⟩
    · rw [takeTotalCount_finish hfits hnone]
      by_cases hcand : s.cand = []
      · rw [finishBlock_done (s := openBody c s) hcand]
        exact ⟨_, _, _, _, _, _, _, rfl⟩
      · rw [finishBlock_leftover (s := openBody c s) hcand]
        exact ⟨_, _, _, _, _, _, _, rfl⟩

/-- Settles O48: the count is too large, opens the body, or leaves nothing to decode. -/
theorem countOpensTheBody : Obligations.CountOpensTheBody := by
  intro c s hst
  obtain ⟨hwriter, hbuf, htables, hhost, hibuf, hfreq, hpos⟩ := (takeTotalCount_decode c s).frame
  have hkept : (takeTotalCount c s).state.total = c ∧ SameObuf s (takeTotalCount c s).state ∧
      (takeTotalCount c s).state.nent = s.nent ∧ (takeTotalCount c s).state.dec = s.dec ∧
      (takeTotalCount c s).state.decN = s.decN ∧ (takeTotalCount c s).state.decoded = s.decoded ∧
      (takeTotalCount c s).state.entIx = s.entIx := by
    obtain ⟨_, _, _, _, _, _, _, hstate⟩ := takeTotalCount_opens c s
    rw [hstate]
    exact ⟨rfl, fun _ => rfl, rfl, rfl, rfl, rfl, rfl⟩
  obtain ⟨htotal, hobuf, hnent, hdec, hdecN, hdecoded, hix⟩ := hkept
  refine ⟨_, acceptField_run hst, htotal, fun hlarge => ?_, fun hfits hmore => ?_, fun hfits hnone hcand => ?_,
    fun hfits hnone hcand => ?_, hwriter, hbuf, htables, hhost, hibuf, hobuf, hfreq, hnent, hdec, hdecN, hdecoded, hix,
    hpos⟩
  · rw [takeTotalCount_large hlarge]
    exact ⟨rfl, rfl, rfl, rfl, rfl, rfl, rfl, rfl, rfl⟩
  · rw [takeTotalCount_body hfits hmore]
    exact ⟨rfl, rfl, rfl, ⟨rfl, rfl, rfl⟩, ⟨rfl, rfl, rfl, rfl, rfl⟩, ⟨rfl, rfl, rfl⟩⟩
  · rw [takeTotalCount_finish hfits hnone, finishBlock_done (s := openBody c s) hcand]
    exact ⟨rfl, rfl, rfl, rfl, rfl, ⟨rfl, rfl, rfl⟩⟩
  · rw [takeTotalCount_finish hfits hnone, finishBlock_leftover (s := openBody c s) hcand]
    exact ⟨rfl, rfl, rfl, rfl, rfl, rfl, ⟨rfl, rfl, rfl⟩⟩

/-- An emitted symbol is the byte of OBUF at DECODED; every other byte stays (R258). -/
theorem obufByte_emitSymbol {s : State} {v : Byte} (h : s.decoded.toNat < s.config.blockMax.toNat) (i : Nat) :
    obufByte (emitSymbol v s) i = if s.decoded.toNat = i then v else obufByte s i := by
  rw [emitSymbol_stores h, obufByte, memFind_memStore]
  split <;> rfl

/-- Settles O50: a hit on the last symbol, a miss, and a miss at 255 bits. -/
theorem bodyBitIsTested : Obligations.BodyBitIsTested := by
  intro b s hst hlt
  have hbody : exec (.wireBody [b]) s = .next ((takeBodyBit b s).andThen (takeBody [])).state :=
    (acceptField_run hst).trans (by rw [takeBody_cons hlt])
  refine ⟨fun v hhit hlast hroom => ?_, fun hmiss hlen => ?_, fun hmiss hlen => ?_⟩
  · have htotal : s.decoded + 1 = s.total := by bv_omega
    obtain ⟨hdecoded, htot⟩ := emitSymbol_counts v s
    have hend : takeBody [] (emitSymbol v s) =
        .ended (finishDone { emitSymbol v s with rdLeft := 0, outLen := (emitSymbol v s).decoded }) := by
      refine (if_neg ?_).trans (finishBlock_done rfl)
      rw [hdecoded, htot, htotal]
      exact Nat.lt_irrefl _
    refine ⟨_, hbody, ?_⟩
    rw [takeBodyBit_hit hhit, Flow.andThen_go, hend, Flow.state_ended]
    refine ⟨?_, (obufByte_emitSymbol hroom _).trans (if_pos rfl),
      fun i hi => (obufByte_emitSymbol hroom i).trans (if_neg hi.symm)⟩
    rw [emitSymbol_stores hroom, ← htotal]
    rfl
  · rw [hbody, takeBodyBit_grow hmiss hlen, Flow.andThen_go, takeBody_nil (s := { s with cand := s.cand ++ [b] }) hlt,
      Flow.state_go]
  · rw [hbody, takeBodyBit_noMatch hmiss hlen]
    rfl

end Sys2Proof.Machine
end

section
/-! SUPPORT. DECOMPRESS on a block none of whose Codes begins with another (45_codec_decompress R250 to R261): the
header is read entry by entry, the count opens the body, and each Code of the body emits its symbol. -/

namespace Sys2Proof.Machine

/-! ## Reading whole fields (30_encoding R101, 40_bitreader R141) -/

section Reads
variable {s : State} {v : Byte} {vs : List Byte}

theorem getBits_byte (short : Bits → State → State) (h0 : s.rdLeft = 0) (hs : s.src = v :: vs) :
    getBits 8 short s = .bits (bitsOfByte v) { s with rdByte := v, rdLeft := 0, src := vs } := by
  rw [getBits, readBits_byte h0 hs]
  exact if_neg (by simp)

/-- A packed Code is read without its pad bits, which stay in the buffer (R107, R110). -/
theorem getBits_packed {code : Bits} (short : Bits → State → State) (h0 : s.rdLeft = 0)
    (hs : s.src = packBits code ++ vs) :
    ∃ v k, getBits code.length short s = .bits code { s with rdByte := v, rdLeft := k, src := vs } := by
  have hpack := Laws.EncodedSize.packBits_length code
  have hlen : bytesFor code.length ≤ s.src.length := by
    rw [hs, List.length_append, hpack]
    exact Nat.le_add_right _ _
  obtain ⟨hget, hsrc⟩ := getBits_aligned (n := code.length) short h0 hlen
  obtain ⟨v, k, ws, honly⟩ := readBits_only code.length s
  have hbits : (bitsOfBytes s.src).take code.length = code := by
    rw [hs, bitsOfBytes_append, bitsOfBytes_packBits, padToByte, List.append_assoc, List.take_left' rfl]
  rw [hs, ← hpack, List.drop_left' rfl, honly] at hsrc
  rw [hbits, honly] at hget
  exact ⟨v, k, hget.trans (by rw [← hsrc])⟩

/-- An entry is read field by field, and then taken (R254). -/
theorem readEntry_reads {sym : Byte} {code : Bits} (h0 : s.rdLeft = 0) (hlen : code.length ≤ 255)
    (hs : s.src = sym :: BitVec.ofNat 8 code.length :: (packBits code ++ vs)) :
    ∃ v k l, readEntry s = takeCodeBits code
      { s with rdByte := v, rdLeft := k, src := vs, symTmp := sym, lenTmp := l, field := .codeBits } := by
  have hnat : (BitVec.ofNat 8 code.length).toNat = code.length := by
    rw [BitVec.toNat_ofNat]
    omega
  obtain ⟨v, k, hcode⟩ := getBits_packed (s := { s with
      rdByte := BitVec.ofNat 8 code.length, rdLeft := 0, src := packBits code ++ vs, symTmp := sym,
      lenTmp := BitVec.ofNat 8 code.length, field := .codeBits }) (fun _ => raise .codeBits) rfl rfl
  refine ⟨v, k, BitVec.ofNat 8 code.length, ?_⟩
  rw [readEntry, getByteValue, getBits_byte _ h0 hs, Got.andTake, takeByteValue, Flow.andThen_go, getCodeBitLength,
    getBits_byte _ rfl rfl, Got.andTake, takeCodeBitLength, Flow.andThen_go, byteOfBits_bitsOfByte,
    byteOfBits_bitsOfByte, getCodeBits, hnat, hcode]
  rfl

/-- The bytes of the count are read one after the other (R255). -/
theorem countLoop_reads (j : Nat) (acc : Bits) (ws : List Byte) (h0 : s.rdLeft = 0) (hs : s.src = ws ++ vs) :
    ∃ v i c, countLoop ws.length j acc s =
      .bits (acc ++ bitsOfBytes ws) { s with rdByte := v, rdLeft := 0, src := vs, byteIx := i, total := c } := by
  induction ws generalizing j acc s with
  | nil =>
    obtain rfl : s.src = vs := hs
    refine ⟨s.rdByte, s.byteIx, s.total, ?_⟩
    rw [← h0, bitsOfBytes_nil, List.append_nil]
    rfl
  | cons w ws ih =>
    have hbyte := getBits_byte (s := { s with byteIx := BitVec.ofNat 4 j }) (fun _ => raise .totalCount) h0 hs
    obtain ⟨v, i, c, hrest⟩ := ih (j + 1) (acc ++ bitsOfByte w) (s := { s with
      rdByte := w, rdLeft := 0, src := ws ++ vs, byteIx := BitVec.ofNat 4 j,
      total := s.total ||| ((byteOfBits (bitsOfByte w)).setWidth 64 <<< (8 * j)) }) rfl rfl
    refine ⟨v, i, c, ?_⟩
    rw [List.length_cons, countLoop, hbyte, bitsOfBytes_cons, ← List.append_assoc]
    exact hrest

/-- The count is read and then taken (R255). -/
theorem readCount_reads {c : Count} (h0 : s.rdLeft = 0) (hs : s.src = countBytes c ++ vs) :
    ∃ v i n, readCount s =
      takeTotalCount c { s with rdByte := v, rdLeft := 0, src := vs, byteIx := i, total := n } := by
  obtain ⟨v, i, n, hloop⟩ := countLoop_reads (s := { s with total := 0 }) 0 [] (countBytes c) h0 hs
  have hbytes := bytesOfBits_bitsOfBytes (countBytes c)
  rw [countBytes_length] at hloop hbytes
  have hget : getTotalCount s = _ := hloop
  refine ⟨v, i, n, ?_⟩
  rw [readCount, hget, Got.andTake, List.nil_append, Config.cntBytes, hbytes, countOfBytes_countBytes]

/-- A read leaves at most seven bits in the buffer if it finds no more there (10_state R22). -/
theorem readBits_rdLeft_lt (n : Nat) (h : s.rdLeft.toNat < 8) : (readBits n s).2.rdLeft.toNat < 8 := by
  induction n generalizing s with
  | zero => exact h
  | succ n ih =>
    simp only [readBits]
    rcases refill_cases s with ⟨h0, hr⟩ | ⟨_, _, hr⟩ | ⟨v, vs, _, _, hr⟩ <;> rw [hr]
    · have htake : (s.rdLeft - 1).toNat < 8 := by bv_omega
      exact ih htake
    · exact h
    · exact ih (by decide : (8 - 1 : BitVec 4).toNat < 8)

/-- A body bit is the next one of the stream (R258). -/
theorem getBodyBit_reads {b : Bool} {w : Bits} (h : s.rdLeft.toNat < 8) (hs : readerStream s = b :: w) :
    ∃ u, getBodyBit s = .bits [b] u ∧ ReaderOnly s u ∧ readerStream u = w ∧ u.rdLeft.toNat < 8 := by
  have hbits : (readBits 1 s).1 = [b] := by
    rw [readBits_bits, hs]
    rfl
  have hrest : readerStream (readBits 1 s).2 = w := by
    rw [readerStream_readBits, hs]
    rfl
  refine ⟨_, ?_, readBits_only 1 s, hrest, readBits_rdLeft_lt 1 h⟩
  rw [getBodyBit, getBits, hbits]
  exact if_neg (Nat.lt_irrefl 1)

/-- Whole bytes behind fewer than eight bits are the bytes of the source. -/
theorem src_of_readerStream {bs : Bits} (h : s.rdLeft.toNat < 8) (hbs : bs.length < 8)
    (hs : readerStream s = bs ++ bitsOfBytes vs) : s.src = vs := by
  have hlen := congrArg List.length hs
  rw [readerStream_length, bitsLeft, List.length_append, bitsOfBytes_length] at hlen
  refine bitsOfBytes_injective (List.append_inj' hs ?_).2
  rw [bitsOfBytes_length, bitsOfBytes_length]
  omega

end Reads

/-! ## The bytes of a block (30_encoding R101) -/

/-- The bytes of the entries of a header. -/
def headerBytes (entries : List (Byte × Bits)) : List Byte :=
  fieldBytes (entries.flatMap fun e => entryFields e.1 e.2)

theorem headerBytes_cons (e : Byte × Bits) (entries : List (Byte × Bits)) :
    headerBytes (e :: entries) = e.1 :: BitVec.ofNat 8 e.2.length :: (packBits e.2 ++ headerBytes entries) := by
  simp [headerBytes, fieldBytes, entryFields, encodeWire]

theorem blockOf_eq (entries ps : List (Byte × Bits)) :
    blockOf entries ps = BitVec.ofNat 8 entries.length :: (headerBytes entries ++
      (countBytes (BitVec.ofNat 64 ps.length) ++ packBits (ps.flatMap Prod.snd))) := by
  simp [blockOf, headerBytes, fieldBytes, blockFields, encodeWire]

/-! ## The header (45_codec_decompress R252 to R254) -/

/-- A DECOMPRESS issued in `s` has stored `entries`, of the `n` there are, and has no candidate. -/
structure Decoding (s : State) (n : Nat) (entries : List (Byte × Bits)) (t : State) : Prop where
  config : t.config = s.config
  err : t.err = s.err ∧ t.errSub = s.errSub ∧ t.errSt = s.errSt
  nent : t.nent.toNat = n
  cand : t.cand = []
  decN : t.decN.toNat = entries.length
  dec : ∀ (i : Nat) (e : Byte × Bits), entries[i]? = some e → decAt t i = ⟨true, e.2, e.1⟩

/-- The header is read up to the bytes `vs`, on a byte boundary. -/
structure HeaderAt (s : State) (n : Nat) (entries : List (Byte × Bits)) (vs : List Byte) (t : State) : Prop
    extends Decoding s n entries t where
  rdLeft : t.rdLeft = 0
  src : t.src = vs
  decoded : t.decoded = 0
  entIx : entries.length < n → t.entIx.toNat = entries.length

section Header
variable {s t : State} {n : Nat} {entries : List (Byte × Bits)} {vs : List Byte} {e : Byte × Bits}

/-- Storing an entry lengthens the table by it (R254). -/
theorem Decoding.storeDec (h : Decoding s n entries t) (hix : t.entIx.toNat = entries.length)
    (hlen : entries.length < 255) (hsym : t.symTmp = e.1) : Decoding s n (entries ++ [e]) (storeDec e.2 t) := by
  have hat := decAt_storeDec (s := t) e.2 (by omega)
  refine { h with decN := ?_, dec := fun i p hp => ?_ }
  · show (BitVec.ofNat 8 (t.entIx.toNat + 1)).toNat = _
    rw [hix, List.length_append, List.length_singleton, BitVec.toNat_ofNat]
    omega
  · rw [hat, hix]
    by_cases hi : entries.length = i
    · subst hi
      rw [List.getElem?_concat_length] at hp
      cases hp
      rw [if_pos rfl, hsym]
    · rw [if_neg hi]
      rcases Nat.lt_or_gt_of_ne hi with hgt | hlt
      · rw [List.getElem?_eq_none (by simp; omega)] at hp
        cases hp
      · rw [List.getElem?_append_left hlt] at hp
        exact h.dec i p hp

/-- An entry is read and stored (R253, R254). -/
theorem HeaderAt.readEntry (h : HeaderAt s n entries (e.1 :: BitVec.ofNat 8 e.2.length :: (packBits e.2 ++ vs)) t)
    (hmore : entries.length < n) (hn : n ≤ 255) (hcode : e.2.length ≤ 255) :
    ∃ u, readEntry t = .go u ∧ HeaderAt s n (entries ++ [e]) vs u := by
  obtain ⟨v, k, l, hread⟩ := readEntry_reads h.rdLeft hcode h.src
  have hix := h.entIx hmore
  have hnext : (t.entIx + 1).toNat = entries.length + 1 := by bv_omega
  have hstored : Decoding s n (entries ++ [e]) (Machine.storeDec e.2
      { t with rdByte := v, rdLeft := 0, src := vs, symTmp := e.1, lenTmp := l, field := .codeBits }) :=
    Decoding.storeDec { h with } hix (by omega) rfl
  have hlen : (entries ++ [e]).length = entries.length + 1 := by simp
  by_cases hlast : t.entIx + 1 = t.nent
  · refine ⟨_, hread.trans (takeCodeBits_last hlast), { hstored with
      rdLeft := rfl, src := rfl, decoded := h.decoded, entIx := fun hlt => ?_ }⟩
    rw [hlast, h.nent] at hnext
    omega
  · refine ⟨_, hread.trans (takeCodeBits_more hlast), { hstored with
      rdLeft := rfl, src := rfl, decoded := h.decoded, entIx := fun _ => hnext.trans hlen.symm }⟩

/-- The entries still to come are read and stored one after the other (R253). -/
theorem HeaderAt.readEntriesLoop (rest : List (Byte × Bits)) (h : HeaderAt s n entries (headerBytes rest ++ vs) t)
    (hcount : entries.length + rest.length = n) (hn : n ≤ 255) (hcode : ∀ e ∈ rest, e.2.length ≤ 255) :
    ∃ u, readEntriesLoop rest.length t = .go u ∧ HeaderAt s n (entries ++ rest) vs u := by
  induction rest generalizing entries t with
  | nil => exact ⟨t, rfl, by rwa [List.append_nil]⟩
  | cons e rest ih =>
    rw [List.length_cons] at hcount
    obtain ⟨hfirst, hothers⟩ := List.forall_mem_cons.mp hcode
    rw [headerBytes_cons, List.cons_append, List.cons_append, List.append_assoc] at h
    obtain ⟨u, hgo, hu⟩ := h.readEntry (by omega) hn hfirst
    obtain ⟨w, hrest, hw⟩ := ih hu (by simp; omega) hothers
    exact ⟨w, by rw [List.length_cons, Machine.readEntriesLoop, hgo, Flow.andThen_go, hrest],
      by rwa [List.append_assoc] at hw⟩

/-- The whole header is read (R252 to R254). -/
theorem readEntryCount_header (hn : entries.length ≤ 255) (hcode : ∀ e ∈ entries, e.2.length ≤ 255)
    (h0 : s.rdLeft = 0) (hs : s.src = BitVec.ofNat 8 entries.length :: (headerBytes entries ++ vs)) :
    ∃ u, (readEntryCount (startDecompress s)).andThen readEntries = .go u ∧
      HeaderAt s entries.length entries vs u := by
  have hbyte := getBits_byte (s := startDecompress s) (fun bs s' => if bs = [] then finishCleanEOF s' else
    raise .entryCount s') h0 hs
  have hnat : ((BitVec.ofNat 8 entries.length).setWidth 9).toNat = entries.length := by
    rw [BitVec.toNat_setWidth, BitVec.toNat_ofNat]
    omega
  rw [readEntryCount, getEntryCount, hbyte, Got.andTake, byteOfBits_bitsOfByte]
  have hentries : ∀ t, HeaderAt s entries.length [] (headerBytes entries ++ vs) t →
      ∃ u, (Flow.go t).andThen readEntries = .go u ∧ HeaderAt s entries.length entries vs u := fun t ht => by
    obtain ⟨u, hgo, hu⟩ := ht.readEntriesLoop entries (Nat.zero_add _) hn hcode
    exact ⟨u, by rw [Flow.andThen_go, readEntries, ht.nent, hgo], hu⟩
  by_cases hzero : BitVec.ofNat 8 entries.length = 0
  · have hempty : entries.length = 0 := by
      rw [hzero] at hnat
      exact hnat.symm
    rw [hzero, takeEntryCount_none]
    exact hentries _
      { config := rfl, err := ⟨rfl, rfl, rfl⟩, nent := hempty.symm, cand := rfl, decN := rfl, dec := fun _ _ => nofun,
        rdLeft := rfl, src := rfl, decoded := rfl, entIx := fun hlt => by rw [hempty] at hlt; cases hlt }
  · rw [takeEntryCount_entries hzero]
    exact hentries _
      { config := rfl, err := ⟨rfl, rfl, rfl⟩, nent := hnat, cand := rfl, decN := rfl, dec := fun _ _ => nofun,
        rdLeft := rfl, src := rfl, decoded := rfl, entIx := fun _ => rfl }

end Header

/-! ## The table (R259) -/

section Table
variable {s t : State} {n : Nat} {entries : List (Byte × Bits)} {p : Byte × Bits} {c : Bits}

/-- In an unambiguous header an entry whose Code begins another's is that entry (43_code_generator R215). -/
theorem PrefixFreeHeader.index_eq {i j : Nat} {a b : Byte × Bits} (h : PrefixFreeHeader entries)
    (hi : entries[i]? = some a) (hj : entries[j]? = some b) (hpre : a.2 <+: b.2) : i = j := by
  obtain ⟨hi', rfl⟩ := List.getElem?_eq_some_iff.mp hi
  obtain ⟨hj', rfl⟩ := List.getElem?_eq_some_iff.mp hj
  have hpairs := List.pairwise_iff_getElem.mp h.noPrefix
  rcases Nat.lt_trichotomy i j with hlt | heq | hgt
  · exact absurd hpre (hpairs i j hi' hj' hlt).1
  · exact heq
  · exact absurd hpre (hpairs j i hj' hi' hgt).2

theorem Decoding.decMatches (h : Decoding s n entries t) {i : Nat} (hi : i < t.decN.toNat)
    (hm : decMatches t i c) : ∃ e, entries[i]? = some e ∧ e.2 = c := by
  obtain ⟨-, hbits⟩ := hm
  rw [h.decN] at hi
  have he := List.getElem?_eq_getElem hi
  rw [h.dec i _ he] at hbits
  exact ⟨_, he, hbits⟩

/-- The Code of an entry finds its symbol (R259). -/
theorem Decoding.lookup_code (h : Decoding s n entries t) (hfree : PrefixFreeHeader entries) (hp : p ∈ entries) :
    lookup t p.2 = some p.1 := by
  obtain ⟨i, hi⟩ := List.mem_iff_getElem?.mp hp
  obtain ⟨hlt, -⟩ := List.getElem?_eq_some_iff.mp hi
  have hat := h.dec i p hi
  refine lookup_eq_some_iff.mpr ⟨i, h.decN ▸ hlt, ⟨by rw [hat], by rw [hat]⟩, by rw [hat], fun e' hgt he' hm => ?_⟩
  obtain ⟨e, he, hbits⟩ := h.decMatches he' hm
  exact Nat.ne_of_lt hgt (hfree.index_eq hi he (hbits ▸ List.prefix_refl _))

/-- A proper beginning of a Code finds nothing (R259). -/
theorem Decoding.lookup_prefix (h : Decoding s n entries t) (hfree : PrefixFreeHeader entries) (hp : p ∈ entries)
    (hpre : c <+: p.2) (hne : c ≠ p.2) : lookup t c = none := by
  obtain ⟨i, hi⟩ := List.mem_iff_getElem?.mp hp
  refine lookup_eq_none_iff.mpr fun j hj hm => hne ?_
  obtain ⟨e, he, rfl⟩ := h.decMatches hj hm
  obtain rfl := hfree.index_eq he hi hpre
  rw [Option.some.inj (he.symm.trans hi)]

end Table

/-! ## The body (R258, R261) -/

/-- The body is read up to the Codes of `ps`, with the bits `w` behind them; the symbols `out` are in OBUF. -/
structure BodyAt (s : State) (entries ps : List (Byte × Bits)) (out : List Byte) (w : Bits) (t : State) : Prop
    extends Decoding s entries.length entries t where
  buffer : t.rdLeft.toNat < 8
  stream : readerStream t = ps.flatMap Prod.snd ++ w
  total : t.decoded.toNat + ps.length = t.total.toNat
  room : t.total.toNat ≤ t.config.blockMax.toNat
  out : (List.range t.decoded.toNat).map (obufByte t) = out

section Body
variable {s t : State} {entries ps : List (Byte × Bits)} {out : List Byte} {w : Bits} {p : Byte × Bits} {v : Byte}

/-- While symbols remain the loop reads a bit and takes it (R258). -/
theorem readBodyLoop_bit {u : State} {b : Bool} (k : Nat) (hlt : t.decoded.toNat < t.total.toNat)
    (hget : getBodyBit t = .bits [b] u) : readBodyLoop (k + 1) t = (takeBodyBit b u).andThen (readBodyLoop k) := by
  rw [readBodyLoop, if_pos hlt, hget]
  rfl

/-- The rest of a Code behind a candidate that none of its proper extensions matches emits its symbol (R258). -/
theorem readBodyLoop_code {cs : Bits} (k : Nat) (hne : cs ≠ []) (hlen : t.cand.length + cs.length ≤ 255)
    (hhit : lookup t (t.cand ++ cs) = some v)
    (hmiss : ∀ q, q <+: cs → q ≠ [] → q ≠ cs → lookup t (t.cand ++ q) = none)
    (hlt : t.decoded.toNat < t.total.toNat) (hbuf : t.rdLeft.toNat < 8) (hs : readerStream t = cs ++ w) :
    ∃ u, readBodyLoop (cs.length + k) t = readBodyLoop k (emitSymbol v u) ∧ ReaderOnly t u ∧ readerStream u = w ∧
      u.rdLeft.toNat < 8 := by
  induction cs generalizing t with
  | nil => exact absurd rfl hne
  | cons b cs ih =>
    obtain ⟨u, hget, honly, hrest, hbuf'⟩ := getBodyBit_reads hbuf hs
    have hstep := readBodyLoop_bit (cs.length + k) hlt hget
    have hcount : (b :: cs).length + k = cs.length + k + 1 := by simp; omega
    rw [hcount, hstep]
    obtain ⟨rb, rl, sr, rfl⟩ := honly
    by_cases hlast : cs = []
    · subst hlast
      refine ⟨_, ?_, ⟨rb, rl, sr, rfl⟩, hrest, hbuf'⟩
      rw [takeBodyBit_hit (s := { t with rdByte := rb, rdLeft := rl, src := sr }) hhit, Flow.andThen_go,
        List.length_nil, Nat.zero_add]
    · have hpos := List.length_pos_of_ne_nil hlast
      rw [List.length_cons] at hlen
      have hfirst := hmiss [b] ⟨cs, rfl⟩ (List.cons_ne_nil b []) fun h => hlast (List.cons.inj h).2.symm
      rw [takeBodyBit_grow (s := { t with rdByte := rb, rdLeft := rl, src := sr }) hfirst
        (by show t.cand.length ≠ 254; omega), Flow.andThen_go]
      obtain ⟨u, hloop, ⟨rb', rl', sr', rfl⟩, hstream, hleft⟩ :=
        ih (t := { t with rdByte := rb, rdLeft := rl, src := sr, cand := t.cand ++ [b] }) hlast
          (by simp; omega) (by show lookup t (t.cand ++ [b] ++ cs) = some v; rwa [List.append_assoc])
          (fun q hq h0 h1 => by
            show lookup t (t.cand ++ [b] ++ q) = none
            rw [List.append_assoc]
            exact hmiss (b :: q) (List.cons_prefix_cons.mpr ⟨rfl, hq⟩) (List.cons_ne_nil b q) fun h =>
              h1 (List.cons.inj h).2) hlt hbuf' hrest
      exact ⟨{ t with rdByte := rb', rdLeft := rl', src := sr' }, hloop.trans
        (congrArg (readBodyLoop k) (emitSymbol_cand (s := { t with rdByte := rb', rdLeft := rl', src := sr' }) _)),
        ⟨rb', rl', sr', rfl⟩, hstream, hleft⟩

/-- A Code of the body emits its symbol (R258, R259). -/
theorem BodyAt.readCode (h : BodyAt s entries (p :: ps) out w t) (hfree : PrefixFreeHeader entries) (hp : p ∈ entries)
    (k : Nat) : ∃ u, readBodyLoop (p.2.length + k) t = readBodyLoop k u ∧
      BodyAt s entries ps (out ++ [p.1]) w u := by
  obtain ⟨hpos, hlen⟩ := hfree.lengths p hp
  have htotal := h.total
  have hroom := h.room
  rw [List.length_cons] at htotal
  have hstream := h.stream
  rw [List.flatMap_cons, List.append_assoc] at hstream
  obtain ⟨u, hloop, ⟨rb, rl, sr, rfl⟩, hrest, hbuf⟩ := readBodyLoop_code (t := t) (cs := p.2) (v := p.1) k
    (List.length_pos_iff.mp hpos) (by rw [h.cand, List.length_nil]; omega)
    (by rw [h.cand]; exact h.lookup_code hfree hp)
    (fun q hq _ hne => by rw [h.cand]; exact h.lookup_prefix hfree hp hq hne) (by omega) h.buffer hstream
  have hplace : t.decoded.toNat < t.config.blockMax.toNat := by omega
  have hbyte := obufByte_emitSymbol (s := { t with rdByte := rb, rdLeft := rl, src := sr }) (v := p.1) hplace
  rw [emitSymbol_stores (s := { t with rdByte := rb, rdLeft := rl, src := sr }) hplace] at hloop hbyte
  have hnext : (t.decoded + 1).toNat = t.decoded.toNat + 1 := by bv_omega
  refine ⟨_, hloop, { h with
    cand := rfl
    buffer := hbuf
    stream := hrest
    total := by show (t.decoded + 1).toNat + ps.length = t.total.toNat; omega
    out := ?_ }⟩
  show (List.range (t.decoded + 1).toNat).map _ = _
  rw [hnext, List.range_succ, List.map_append, List.map_singleton, hbyte, if_pos rfl, ← h.out]
  refine congrArg (· ++ [p.1]) (List.map_congr_left fun i hi => ?_)
  exact (hbyte i).trans (if_neg (Nat.ne_of_gt (List.mem_range.mp hi)))

/-- With the last symbol the block ends (R261). -/
theorem BodyAt.finish (h : BodyAt s entries [] out w t) (k : Nat) :
    readBodyLoop (k + 1) t = .ended (finishDone { t with rdLeft := 0, outLen := t.decoded }) := by
  have htotal := h.total
  rw [List.length_nil] at htotal
  rw [readBodyLoop, if_neg (by omega), finishBlock_done h.cand]

/-- The Codes of the body emit their symbols, and the block ends with the last one (R258, R261). -/
theorem BodyAt.readBodyLoop (h : BodyAt s entries ps out w t) (hfree : PrefixFreeHeader entries)
    (hps : ∀ p ∈ ps, p ∈ entries) (k : Nat) :
    ∃ u, readBodyLoop ((ps.flatMap Prod.snd).length + (k + 1)) t =
        .ended (finishDone { u with rdLeft := 0, outLen := u.decoded }) ∧
      BodyAt s entries [] (out ++ ps.map Prod.fst) w u := by
  induction ps generalizing out t with
  | nil => exact ⟨t, by rw [List.flatMap_nil, List.length_nil, Nat.zero_add, h.finish], by simpa using h⟩
  | cons p ps ih =>
    obtain ⟨hp, hothers⟩ := List.forall_mem_cons.mp hps
    obtain ⟨u, hloop, hu⟩ := h.readCode hfree hp ((ps.flatMap Prod.snd).length + (k + 1))
    obtain ⟨x, hrest, hx⟩ := ih hu hothers
    refine ⟨x, ?_, by rwa [List.append_assoc] at hx⟩
    rw [List.flatMap_cons, List.length_append, Nat.add_assoc, hloop, hrest]

/-- The whole body is read: the loop's bound is the bits left (R258; Log 13). -/
theorem BodyAt.readBody (h : BodyAt s entries ps out w t) (hfree : PrefixFreeHeader entries)
    (hps : ∀ p ∈ ps, p ∈ entries) :
    ∃ u, readBody t = .ended (finishDone { u with rdLeft := 0, outLen := u.decoded }) ∧
      BodyAt s entries [] (out ++ ps.map Prod.fst) w u := by
  have hbits : bitsLeft t + 1 = (ps.flatMap Prod.snd).length + (w.length + 1) := by
    rw [← readerStream_length, h.stream, List.length_append, Nat.add_assoc]
  rw [Machine.readBody, hbits]
  exact h.readBodyLoop hfree hps w.length

/-- The count opens the body, or, with nothing to decode, ends the block as an empty body would (R255 to R258). -/
theorem takeTotalCount_readBody {c : Count} (h : c.toNat ≤ t.config.blockMax.toNat) :
    (takeTotalCount c t).andThen Machine.readBody = Machine.readBody (openBody c t) := by
  rcases Nat.lt_or_ge t.decoded.toNat c.toNat with hlt | hge
  · rw [takeTotalCount_body h hlt, Flow.andThen_go]
  · rw [takeTotalCount_finish h hge, finishBlock_andThen]
    exact (if_neg (Nat.not_lt.mpr hge)).symm

end Body

/-! ## The whole block (R250) -/

/-- Behind the header the count opens the body (R255 to R258). -/
theorem HeaderAt.openBody {s t : State} {entries ps : List (Byte × Bits)} {rest : List Byte}
    (h : HeaderAt s entries.length entries
      (countBytes (BitVec.ofNat 64 ps.length) ++ (packBits (ps.flatMap Prod.snd) ++ rest)) t)
    (hroom : ps.length ≤ s.config.blockMax.toNat) :
    ∃ u, (readCount t).andThen readBody = readBody u ∧
      BodyAt s entries ps [] (List.replicate ((8 - (ps.flatMap Prod.snd).length % 8) % 8) false ++ bitsOfBytes rest)
        u := by
  have hcount : (BitVec.ofNat 64 ps.length).toNat = ps.length := by
    have hlt := s.config.blockMax.isLt
    rw [BitVec.toNat_ofNat]
    omega
  have hfits : (BitVec.ofNat 64 ps.length).toNat ≤ t.config.blockMax.toNat := by
    rw [hcount, h.config]
    exact hroom
  have hzero : t.decoded.toNat = 0 := congrArg BitVec.toNat h.decoded
  obtain ⟨rb, i, n, hread⟩ := readCount_reads h.rdLeft h.src
  refine ⟨_, (congrArg (Flow.andThen · readBody) hread).trans (takeTotalCount_readBody hfits), { h with
    buffer := (by decide : (0 : BitVec 4).toNat < 8)
    stream := ?_
    total := (congrArg (· + ps.length) hzero).trans ((Nat.zero_add _).trans hcount.symm)
    room := hfits
    out := ?_ }⟩
  · rw [readerStream_aligned (by rfl)]
    show bitsOfBytes (packBits _ ++ rest) = _
    rw [bitsOfBytes_append, bitsOfBytes_packBits, padToByte, List.append_assoc]
  · show (List.range t.decoded.toNat).map _ = []
    rw [hzero]
    rfl

/-- A block is decoded (R250 to R261). -/
theorem decompressOp_blockOf {s : State} {entries ps : List (Byte × Bits)} {rest : List Byte} (h0 : s.rdLeft = 0)
    (hfree : PrefixFreeHeader entries) (hps : ∀ p ∈ ps, p ∈ entries) (hroom : ps.length ≤ s.config.blockMax.toNat)
    (hs : s.src = blockOf entries ps ++ rest) :
    ∃ u, decompressOp s = finishDone { u with rdLeft := 0, outLen := u.decoded } ∧
      BodyAt s entries [] (ps.map Prod.fst) (List.replicate ((8 - (ps.flatMap Prod.snd).length % 8) % 8) false ++
        bitsOfBytes rest) u := by
  rw [blockOf_eq, List.cons_append, List.append_assoc, List.append_assoc] at hs
  obtain ⟨t, hheader, ht⟩ := readEntryCount_header hfree.count (fun e he => (hfree.lengths e he).2) h0 hs
  obtain ⟨u, hcount, hbody⟩ := ht.openBody hroom
  obtain ⟨x, hloop, hx⟩ := hbody.readBody hfree hps
  exact ⟨x, by rw [decompressOp, hheader, Flow.andThen_go, hcount, hloop, Flow.state_ended], hx⟩

/-- Settles O36: header, count and body of the block are read in turn. -/
theorem decompressDecodesWellFormedBlocks : Obligations.DecompressDecodesWellFormedBlocks := by
  intro s entries ps rest hst h0 hfree hps hroom hs
  obtain ⟨u, hop, hu⟩ := decompressOp_blockOf (s := { s with busy := true }) h0 hfree hps hroom hs
  have htotal := hu.total
  obtain ⟨herr, hsub, hstate⟩ := hu.err
  have hlen := congrArg List.length hu.out
  rw [List.length_map, List.length_range, List.length_map] at hlen
  refine ⟨_, (acceptCommand_run hst).trans (congrArg Host.Outcome.next hop), rfl, rfl, hu.out, hlen,
    (BitVec.eq_of_toNat_eq htotal).symm, rfl, hu.nent, rfl, ?_, herr, hsub, hstate⟩
  refine src_of_readerStream (s := u) hu.buffer ?_ hu.stream
  rw [List.length_replicate]
  exact Nat.mod_lt _ (by decide)

end Sys2Proof.Machine
end

section
/-! SUPPORT. COMPRESS and DECOMPRESS are inverse (45_codec_decompress R264): the header COMPRESS writes is
unambiguous and holds every byte of the block, so each of its blocks is decoded, and the source then ends at a block
boundary. -/

namespace Sys2Proof.Machine

/-! ## The block COMPRESS writes (44_codec_compress R234 to R236) -/

/-- The bytes of a block with their Codes, as COMPRESS writes them (R236). -/
def codedBlock (t : State) : List (Byte × Bits) := (blockBytes t).map fun v => (v, (codeAt t v).bits)

theorem codedBlock_bytes (t : State) : (codedBlock t).map Prod.fst = blockBytes t := by
  simp [codedBlock, Function.comp_def]

theorem codedBlock_codes (t : State) : (codedBlock t).flatMap Prod.snd = blockBody t := by
  simp [codedBlock, blockBody, List.flatMap_map]

section Done
variable {s t : State}

/-- A COMPRESS that ends Done has given every byte present a Code (43_code_generator R214). -/
theorem exec_compress_codes (ht : exec .compress s = .next t) (hdone : t.st = .done) {b : Byte}
    (hb : b ∈ presentBytes t) : (codeAt t b).valid = true := by
  rcases acceptCommand_cases (op := compressOp) ht with ⟨hst, rfl⟩ | ⟨-, rfl⟩
  · rw [hst] at hdone
    cases hdone
  · obtain ⟨u, ⟨-, hall⟩, htables, -, he⟩ := compressOp_of_meets (encodeTables_coded _) hdone
    obtain ⟨_, _, _, _, _, _, _, _, _, hblock⟩ :=
      writeBlock_block { u with nent := BitVec.ofNat 9 (presentBytes u).length }
    rw [he, hblock] at hb ⊢
    exact hall b (htables.presentBytes_eq ▸ hb)

/-- The header of a COMPRESS that ends Done decodes without ambiguity (R215, R216, R233). -/
theorem tableEntries_prefixFree (ht : exec .compress s = .next t) (hdone : t.st = .done) :
    PrefixFreeHeader (tableEntries t) := by
  obtain ⟨hcoded, hne⟩ := exec_compress_coded ht hdone
  have hcode := fun b hb => exec_compress_codes ht hdone (b := b) hb
  obtain ⟨-, hbounds⟩ := codeLengthsAreBounded
  refine ⟨?_, fun e he => ?_, ?_⟩
  · have hle := presentBytes_length t
    rw [tableEntries_length]
    omega
  · obtain ⟨b, hb, rfl⟩ := List.mem_map.mp he
    obtain ⟨hpos, hle⟩ := hbounds s t ht hdone b (hcode b hb)
    exact ⟨hpos, hle.trans (by decide)⟩
  · refine List.pairwise_map.mpr ((presentBytes_nodup t).imp_of_mem fun ha hb hab => ⟨fun hpre => hab ?_, fun hpre =>
      hab ?_⟩)
    · exact hcoded.eq_of_prefix (hcode _ ha) (hcode _ hb) hpre
    · exact (hcoded.eq_of_prefix (hcode _ hb) (hcode _ ha) hpre).symm

/-- Every byte of the block has its entry in the header (R232, R234). -/
theorem codedBlock_mem (ht : exec .compress s = .next t) (hst : s.st ≠ .fault) (hdone : t.st = .done)
    (hblock : blockBytes t = blockBytes s) {p : Byte × Bits} (hp : p ∈ codedBlock t) : p ∈ tableEntries t := by
  obtain ⟨hlen, -⟩ := exec_compress_done ht hst hdone
  obtain ⟨u, hu, hfreq, -⟩ := compressCountsTheBlock s hst hlen
  obtain rfl := Host.Outcome.next.inj (hu.symm.trans ht)
  obtain ⟨v, hv, rfl⟩ := List.mem_map.mp hp
  refine List.mem_map.mpr ⟨v, mem_presentBytes.mpr fun h0 => ?_, rfl⟩
  have hpos : 0 < blockCount s v := List.count_pos_iff.mpr (hblock ▸ hv)
  rw [← hfreq, h0] at hpos
  cases hpos

/-- What a COMPRESS that ends Done on a byte boundary has written is a block with an unambiguous header. -/
theorem compressedBytes_blockOf {vs : List Byte} (hn : s.wrN = 0) (hacc : s.wrAcc = 0) (hst : s.st ≠ .fault)
    (hvs : compressedBytes s = some vs) :
    ∃ entries ps, vs = blockOf entries ps ∧ PrefixFreeHeader entries ∧ (∀ p ∈ ps, p ∈ entries) ∧
      ps.map Prod.fst = blockBytes s ∧ ps.length = s.len.toNat := by
  obtain ⟨t, ht⟩ := exec_answers .compress s
  rw [compressedBytes, ht] at hvs
  simp only [Option.ite_none_right_eq_some] at hvs
  obtain ⟨hdone, hbytes⟩ := hvs
  obtain ⟨hlen, hmiss⟩ := exec_compress_done ht hst hdone
  have hclean : writerClean s := by
    rw [writerClean, hn, hacc]
    decide
  obtain ⟨u, hu, -, -, -, -, -, -, -, hblock, -, haligned⟩ := compressWritesTheBlock s hst hlen hmiss hclean
  obtain rfl := Host.Outcome.next.inj (hu.symm.trans ht)
  have hcount : (codedBlock u).length = s.len.toNat := by
    rw [← List.length_map (f := Prod.fst), codedBlock_bytes, hblock]
    simp [blockBytes]
  refine ⟨tableEntries u, codedBlock u, ?_, tableEntries_prefixFree ht hdone,
    fun p hp => codedBlock_mem ht hst hdone hblock hp, (codedBlock_bytes u).trans hblock, hcount⟩
  rw [← Option.some.inj hbytes, haligned hn, List.drop_left' rfl, blockOf, codedBlock_codes, hcount, BitVec.ofNat_toNat,
    BitVec.setWidth_eq]

end Done

/-! ## DECOMPRESS_ALL (R264) -/

/-- Where the source ends at a block boundary DECOMPRESS ends CleanEOF and takes nothing (R252). -/
theorem decompressOp_cleanEOF {s : State} (h0 : s.rdLeft = 0) (hs : s.src = []) :
    decompressOp s = finishCleanEOF (startDecompress s) := by
  have hread := readBits_exhausted 8 (s := startDecompress s) h0 hs
  have hget : getEntryCount (startDecompress s) = .ended (finishCleanEOF (startDecompress s)) := by
    rw [getEntryCount, getBits, hread]
    rfl
  rw [decompressOp, readEntryCount, hget]
  rfl

/-- A DECOMPRESS that ends Done adds its block to those of the commands after it (R126). -/
theorem decompressAll_done {s t : State} (k : Nat) (ht : exec .decompress s = .next t) (hdone : t.st = .done) :
    decompressAll (k + 1) s = (outBlock t :: (decompressAll k t).1, (decompressAll k t).2) := by
  have hrun : execDecompress s = .next t := ht
  rw [decompressAll, hrun]
  exact if_pos hdone

/-- Settles O38, by induction on the list of blocks. -/
theorem roundTrip : Obligations.RoundTrip := by
  intro ss
  induction ss with
  | nil =>
    intro r _ hst h0 hsrc
    have hend := decompressOp_cleanEOF (s := { r with busy := true }) h0 hsrc
    have hrun : execDecompress r = .next _ := (acceptCommand_run hst).trans (congrArg Host.Outcome.next hend)
    refine ⟨finishCleanEOF (startDecompress { r with busy := true }), ?_, rfl, hsrc⟩
    rw [List.length_nil, decompressAll, hrun]
    rfl
  | cons s ss ih =>
    intro r hall hst h0 hsrc
    obtain ⟨⟨hn, hacc, hs, hsome, hroom⟩, hothers⟩ := List.forall_mem_cons.mp hall
    obtain ⟨vs, hvs⟩ := Option.isSome_iff_exists.mp hsome
    obtain ⟨entries, ps, rfl, hfree, hps, hblock, hlen⟩ := compressedBytes_blockOf hn hacc hs hvs
    rw [List.flatMap_cons, hvs] at hsrc
    obtain ⟨t, ht, hdone, -, hout, -, -, -, -, hleft, hrest, -⟩ :=
      decompressDecodesWellFormedBlocks r entries ps _ hst h0 hfree hps (hlen ▸ hroom) hsrc
    have hconfig : t.config = r.config := by
      obtain rfl : decompressOp { r with busy := true } = t :=
        Host.Outcome.next.inj ((acceptCommand_run hst).symm.trans ht)
      obtain ⟨-, -, -, hhost, -⟩ := (decompressOp_decode { r with busy := true }).frame
      exact hhost.config
    obtain ⟨u, hu, hend, hempty⟩ := ih t (hconfig ▸ hothers) (by rw [hdone]; exact CtrlState.noConfusion) hleft hrest
    refine ⟨u, ?_, hend, hempty⟩
    rw [List.length_cons, decompressAll_done _ ht hdone, hu, hout, hblock, List.map_cons]

end Sys2Proof.Machine
end

section
/-! SUPPORT. What DECOMPRESS leaves unchanged (45_codec_decompress R250, R258): every register but those of reader,
decoder and outcome, and OBUF from DECODED on, since every symbol is stored at DECODED before it is counted. -/

namespace Sys2Proof.Machine

/-- OBUF from DECODED on is as in `s`. -/
def RestUnwritten (s t : State) : Prop := ∀ i, t.decoded.toNat ≤ i → obufByte t i = obufByte s i

section RestUnwritten
variable {s t u : State}

theorem RestUnwritten.reader (h : RestUnwritten s t) (hr : ReaderOnly t u) : RestUnwritten s u := by
  obtain ⟨_, _, _, rfl⟩ := hr
  exact h

/-- A read that delivers, or ends in fault entry, stores nothing. -/
theorem getBits_rest (n : Nat) (c : Cause) (h : RestUnwritten s t) :
    (getBits n (fun _ => raise c) t).Meets (RestUnwritten s) (RestUnwritten s) :=
  have hr := h.reader (readBits_only n t)
  getBits_meets (fun _ => hr) fun _ => hr

/-! ## Before the body (R252 to R257) -/

theorem readEntryCount_rest (h : RestUnwritten s t) :
    (readEntryCount t).Meets (RestUnwritten s) (RestUnwritten s) := by
  have hr := h.reader (readBits_only 8 t)
  refine Got.Meets.andTake (Q := RestUnwritten s) (getBits_meets (fun _ => hr) fun bs => ?_) fun bs u hu => ?_
  · split <;> exact hr
  · show RestUnwritten s (if byteOfBits bs = 0 then leaveHeader _ else _)
    split <;> exact hu

theorem takeCodeBits_rest (code : Bits) (h : RestUnwritten s t) :
    (takeCodeBits code t).Meets (RestUnwritten s) (RestUnwritten s) := by
  have hr := h.reader (align_only t)
  show RestUnwritten s (if _ then leaveHeader _ else _)
  split <;> exact hr

theorem readEntry_rest (h : RestUnwritten s t) : (readEntry t).Meets (RestUnwritten s) (RestUnwritten s) :=
  Flow.Meets.andThen (Q := RestUnwritten s)
    (Flow.Meets.andThen (Q := RestUnwritten s) ((getBits_rest 8 .byteValue h).andTake fun _ _ h1 => h1)
      fun _ h1 => (getBits_rest 8 .codeLength h1).andTake fun _ _ h2 => h2)
    fun _ h2 => (getBits_rest _ .codeBits h2).andTake fun bs _ => takeCodeBits_rest bs

theorem readEntriesLoop_rest (k : Nat) (h : RestUnwritten s t) :
    (readEntriesLoop k t).Meets (RestUnwritten s) (RestUnwritten s) := by
  induction k generalizing t with
  | zero => exact h
  | succ k ih => exact (readEntry_rest h).andThen fun _ => ih

theorem countLoop_rest (k j : Nat) (acc : Bits) (h : RestUnwritten s t) :
    (countLoop k j acc t).Meets (RestUnwritten s) (RestUnwritten s) := by
  induction k generalizing j acc t with
  | zero => exact h
  | succ k ih =>
    have hread := getBits_rest 8 .totalCount (t := { t with byteIx := BitVec.ofNat 4 j }) h
    unfold countLoop
    cases hg : getBits 8 (fun _ => raise .totalCount) { t with byteIx := BitVec.ofNat 4 j } with
    | ended u =>
      rw [hg] at hread
      exact hread
    | bits bs u =>
      rw [hg] at hread
      exact ih _ _ hread

theorem finishBlock_rest (h : RestUnwritten s t) : (finishBlock t).Meets (RestUnwritten s) (RestUnwritten s) := by
  have hr := h.reader (align_only t)
  unfold finishBlock
  split
  · exact h
  · exact hr

theorem readCount_rest (h : RestUnwritten s t) : (readCount t).Meets (RestUnwritten s) (RestUnwritten s) := by
  have hget : (getTotalCount t).Meets (RestUnwritten s) (RestUnwritten s) :=
    countLoop_rest _ _ _ (t := { t with total := 0 }) h
  refine hget.andTake fun bs u hu => ?_
  generalize countOfBytes (bytesOfBits Config.cntBytes bs) = c
  have hopen : RestUnwritten s (openBody c u) := hu
  rcases Nat.lt_or_ge u.config.blockMax.toNat c.toNat with hlarge | hfits
  · rw [takeTotalCount_large hlarge]
    exact hopen
  · rcases Nat.lt_or_ge u.decoded.toNat c.toNat with hmore | hnone
    · rw [takeTotalCount_body hfits hmore]
      exact hopen
    · rw [takeTotalCount_finish hfits hnone]
      exact finishBlock_rest hopen

/-! ## The body (R258) -/

/-- Emitting a symbol leaves every other byte of OBUF as it was. -/
theorem obufByte_emitSymbol_other (v : Byte) {i : Nat} (hi : i ≠ t.decoded.toNat) :
    obufByte (emitSymbol v t) i = obufByte t i := by
  rcases Nat.lt_or_ge t.decoded.toNat t.config.blockMax.toNat with hroom | hfull
  · exact (obufByte_emitSymbol hroom i).trans (if_neg hi.symm)
  · rw [emitSymbol, obufWrite, if_neg (Nat.not_lt.mpr hfull)]
    rfl

theorem takeBodyBit_rest (b : Bool) (h : RestUnwritten s t) (hlt : t.decoded.toNat < t.total.toNat) :
    (takeBodyBit b t).Meets (RestUnwritten s) (RestUnwritten s) := by
  unfold takeBodyBit
  cases lookup t (t.cand ++ [b]) with
  | some v =>
    have hnext : (t.decoded + 1).toNat = t.decoded.toNat + 1 := by bv_omega
    intro i hi
    rw [(emitSymbol_counts v t).1, hnext] at hi
    exact (obufByte_emitSymbol_other v (by omega)).trans (h i (by omega))
  | none =>
    simp only
    split <;> exact h

theorem readBodyLoop_rest (k : Nat) (h : RestUnwritten s t) :
    (readBodyLoop k t).Meets (RestUnwritten s) (RestUnwritten s) := by
  induction k generalizing t with
  | zero => exact h
  | succ k ih =>
    unfold readBodyLoop
    split
    · rename_i hlt
      have hget : (getBodyBit t).Meets (fun u => RestUnwritten s u ∧ u.decoded.toNat < u.total.toNat)
          (RestUnwritten s) := by
        have hr := h.reader (readBits_only 1 t)
        refine getBits_meets (fun _ => ⟨hr, ?_⟩) fun _ => hr
        obtain ⟨_, _, _, hr⟩ := readBits_only 1 t
        rw [hr]
        exact hlt
      exact (hget.andTake fun _ _ ⟨hu, hlt'⟩ => takeBodyBit_rest _ hu hlt').andThen fun _ => ih
    · exact finishBlock_rest h

end RestUnwritten

/-! ## The whole operation (R250) -/

/-- A piece that meets the same condition whether it goes on or ends leaves a state with it. -/
theorem Flow.Meets.state {P : State → Prop} {x : Flow} (h : x.Meets P P) : P x.state := by
  cases x with
  | go t => exact h
  | ended t => exact h

theorem decompressOp_rest (s : State) : RestUnwritten s (decompressOp s) := by
  have hstart : RestUnwritten s (startDecompress s) := fun _ _ => rfl
  have hheader := (readEntryCount_rest hstart).andThen fun t => readEntriesLoop_rest t.nent.toNat
  exact ((hheader.andThen fun _ => readCount_rest).andThen fun t => readBodyLoop_rest (bitsLeft t + 1)).state

/-- Settles O44: DECOMPRESS changes decoder registers alone, and each symbol is stored below the new DECODED. -/
theorem decompressFrame : Obligations.DecompressFrame := by
  intro s t ht
  rcases acceptCommand_cases (op := decompressOp) ht with ⟨hst, rfl⟩ | ⟨-, rfl⟩
  · obtain ⟨hwriter, hbuf, htables, hhost, hibuf, hfreq, hpos⟩ := (DecodeOnly.refl t).frame
    exact ⟨hwriter, hbuf, htables, hhost, hibuf, hfreq, hpos, fun h => absurd hst h⟩
  · obtain ⟨hwriter, hbuf, htables, hhost, hibuf, hfreq, hpos⟩ := (decompressOp_decode { s with busy := true }).frame
    exact ⟨⟨hwriter.wrAcc, hwriter.wrN, hwriter.snk⟩, ⟨hbuf.bitbuf, hbuf.bitcnt⟩, { htables with }, { hhost with },
      hibuf, hfreq, hpos, fun _ => decompressOp_rest { s with busy := true }⟩

end Sys2Proof.Machine
end

section
/-! SUPPORT. The field steps of a DECOMPRESS reach the state of the whole operation (45_codec_decompress R250, R256;
Log 8): every piece of the operation is one field, or pieces one after the other, and between two fields the machine is
due to take the next one. -/

namespace Sys2Proof.Machine

/-! ## Runs (00_scope R14) -/

/-- A run in two parts: the second goes on where the first ended. -/
theorem run_add (M : Host.Core) (j k : Nat) {s t : M.State} (h : M.run j s = .next t) :
    M.run (j + k) s = M.run k t := by
  induction j generalizing s with
  | zero =>
    cases h
    rw [Nat.zero_add]
  | succ j ih =>
    rw [Host.Core.run] at h
    rw [Nat.add_right_comm, Host.Core.run]
    cases hs : M.step s with
    | next u =>
      rw [hs] at h
      exact ih h
    | fault r => cases hs ▸ h
    | refused r => cases hs ▸ h

/-- Steps of the machine from `s` reach the state `x` leaves, which has `P` where the operation goes on. -/
def Stepped (P : State → Prop) (s : State) (x : Flow) : Prop :=
  (∃ k, Host.Core.run Sys2Proof.core k s = .next x.state) ∧ x.Meets P fun _ => True

theorem Stepped.andThen {P Q : State → Prop} {s : State} {x : Flow} {f : State → Flow} (hx : Stepped Q s x)
    (hf : ∀ t, Q t → Stepped P t (f t)) : Stepped P s (x.andThen f) := by
  obtain ⟨⟨j, hj⟩, hq⟩ := hx
  cases x with
  | ended t => exact ⟨⟨j, hj⟩, trivial⟩
  | go t =>
    obtain ⟨⟨k, hk⟩, hp⟩ := hf t hq
    exact ⟨⟨j + k, (run_add Sys2Proof.core j k hj).trans hk⟩, hp⟩

theorem Flow.meets_trivial (x : Flow) : x.Meets (fun _ => True) fun _ => True := by
  cases x <;> trivial

/-! ## One field (R256) -/

/-- The machine is inside a DECOMPRESS, the field `f` is due, and no reset comes first. -/
structure FieldDue (f : WireField) (t : State) : Prop where
  busy : t.busy = true
  st : t.st = .readingHeader ∨ t.st = .readingCount ∨ t.st = .readingBody
  field : t.field = f
  reset : resetPending t = false

/-- A state that differs from `s` in what the read of a field changes: the reader, the source, BYTE_IX and TOTAL. -/
def FetchOnly (s t : State) : Prop :=
  ∃ v k vs i c, t = { s with rdByte := v, rdLeft := k, src := vs, byteIx := i, total := c }

section Fields
variable {f : WireField} {s t u : State} {bs : Bits} {P : State → Prop}

theorem getBits_bits {n : Nat} {short : Bits → State → State} (h : getBits n short s = .bits bs u) :
    ReaderOnly s u ∧ bs.length = n := by
  rcases getBits_cases n short s with ⟨hn, h'⟩ | ⟨-, h'⟩ <;> rw [h'] at h <;> cases h
  exact ⟨readBits_only n s, hn⟩

theorem ReaderOnly.fetch (h : ReaderOnly s t) : FetchOnly s t := by
  obtain ⟨v, k, vs, rfl⟩ := h
  exact ⟨v, k, vs, s.byteIx, s.total, rfl⟩

theorem countLoop_fetch (k j : Nat) (acc : Bits) (h : countLoop k j acc s = .bits bs u) : FetchOnly s u := by
  induction k generalizing j acc s with
  | zero =>
    cases h
    exact (ReaderOnly.refl _).fetch
  | succ k ih =>
    rw [countLoop] at h
    cases hg : getBits 8 (fun _ => raise .totalCount) { s with byteIx := BitVec.ofNat 4 j } with
    | ended t =>
      rw [hg] at h
      cases h
    | bits cs t =>
      rw [hg] at h
      obtain ⟨⟨_, _, _, rfl⟩, -⟩ := getBits_bits hg
      obtain ⟨v, k, vs, i, c, rfl⟩ := ih _ _ h
      exact ⟨v, k, vs, i, c, rfl⟩

/-- The read of a field that delivers it changes no more than reader, source, BYTE_IX and TOTAL. -/
theorem getField_fetch (h : getField s = .bits bs u) : FetchOnly s u := by
  unfold getField at h
  cases hf : s.field with
  | totalSymbolCount =>
    rw [hf] at h
    obtain ⟨v, k, vs, i, c, rfl⟩ := countLoop_fetch _ _ _ h
    exact ⟨v, k, vs, i, c, rfl⟩
  | _ =>
    rw [hf] at h
    exact (getBits_bits h).1.fetch

theorem FieldDue.fetched (h : FieldDue f t) (hu : FetchOnly t u) : FieldDue f u := by
  obtain ⟨_, _, _, _, _, rfl⟩ := hu
  exact { h with }

theorem FieldDue.running (h : FieldDue f t) : t.st ≠ .fault := by
  rcases h.st with hst | hst | hst <;> rw [hst] <;> exact CtrlState.noConfusion

/-- A step takes the field due: it is read, and what its instruction does follows (R256). -/
theorem FieldDue.step {take : Bits → State → Flow} (h : FieldDue f t)
    (htake : ∀ bs u, exec (fieldOfBits (shapeDue t) bs) u = acceptField (take bs) u) :
    step t = .next ((getField t).andTake take).state := by
  have hdue : fieldDue t = true := by
    rcases h.st with hst | hst | hst <;> rw [fieldDue, h.busy, hst] <;> rfl
  have hfetch : fetch t = fetchField t := by rw [fetch, h.reset, hdue]; rfl
  rw [Machine.step, hfetch, fetchField]
  cases hg : getField t with
  | ended u => rfl
  | bits bs u =>
    exact (htake bs u).trans (acceptField_run (h.fetched (getField_fetch hg)).running)

/-- A field read and taken is one step. -/
theorem FieldDue.stepped {take : Bits → State → Flow} {g : Got} (h : FieldDue f t) (hget : getField t = g)
    (htake : ∀ bs u, exec (fieldOfBits (shapeDue t) bs) u = acceptField (take bs) u)
    (hP : ∀ bs u, FetchOnly t u → (take bs u).Meets P fun _ => True) : Stepped P t (g.andTake take) := by
  subst hget
  refine ⟨⟨1, run_succ Sys2Proof.core (h.step htake) 0⟩, ?_⟩
  cases hg : getField t with
  | ended u => trivial
  | bits bs u => exact hP bs u (getField_fetch hg)

end Fields

/-! ## The header (R252 to R254) -/

/-- `k` entries are still to be taken, or the count is due. -/
def EntriesToTake : Nat → State → Prop
  | 0, t => FieldDue .totalSymbolCount t
  | k + 1, t => FieldDue .byteValue t ∧ t.entIx.toNat + (k + 1) = t.nent.toNat

section Header
variable {t u : State} {k : Nat}

theorem FieldDue.leaveHeader {f : WireField} (h : FieldDue f t) : FieldDue .totalSymbolCount (leaveHeader t) :=
  ⟨h.busy, .inr (.inl rfl), rfl, h.reset⟩

theorem readEntryCount_stepped (h : FieldDue .entryCount t) :
    Stepped (fun u => EntriesToTake u.nent.toNat u) t (readEntryCount t) := by
  refine h.stepped (by rw [getField, h.field]) (fun bs u => by rw [shapeDue, h.field]; rfl) fun bs u hu => ?_
  have hdue := h.fetched hu
  by_cases hk : byteOfBits bs = 0
  · rw [hk, takeEntryCount_none]
    exact FieldDue.leaveHeader (t := { u with nent := 0, entIx := 0 }) { hdue with }
  · obtain ⟨k, hn⟩ : ∃ k, ((byteOfBits bs).setWidth 9).toNat = k + 1 :=
      Nat.exists_eq_succ_of_ne_zero fun h0 => hk (by bv_omega)
    rw [takeEntryCount_entries hk]
    show EntriesToTake ((byteOfBits bs).setWidth 9).toNat _
    rw [hn]
    exact ⟨{ hdue with field := rfl }, (Nat.zero_add _).trans hn.symm⟩

/-- The entry's bits taken, one entry fewer is to come (R253). -/
theorem takeCodeBits_toTake (code : Bits) (h : FieldDue .codeBits t) (hix : t.entIx.toNat + (k + 1) = t.nent.toNat) :
    (takeCodeBits code t).Meets (EntriesToTake k) fun _ => True := by
  have hnext : (t.entIx + 1).toNat = t.entIx.toNat + 1 := by bv_omega
  have hlast : t.entIx + 1 = t.nent ↔ t.entIx.toNat + 1 = t.nent.toNat := by rw [← hnext, BitVec.toNat_inj]
  have hstored : FieldDue .codeBits (storeDec code { t with rdLeft := 0 }) := { h with }
  cases k with
  | zero =>
    rw [takeCodeBits_last (hlast.mpr hix)]
    exact hstored.leaveHeader
  | succ k =>
    rw [takeCodeBits_more (mt hlast.mp (by omega))]
    refine ⟨{ hstored with field := rfl }, ?_⟩
    show (t.entIx + 1).toNat + (k + 1) = t.nent.toNat
    omega

theorem readEntry_stepped (h : FieldDue .byteValue t) (hix : t.entIx.toNat + (k + 1) = t.nent.toNat) :
    Stepped (EntriesToTake k) t (readEntry t) := by
  have hvalue : Stepped (fun u => FieldDue .codeBitLength u ∧ u.entIx.toNat + (k + 1) = u.nent.toNat) t
      ((getByteValue t).andTake fun bs => takeByteValue (byteOfBits bs)) := by
    refine h.stepped (by rw [getField, h.field]) (fun bs u => by rw [shapeDue, h.field]; rfl) fun bs u hu => ?_
    have hdue := h.fetched hu
    obtain ⟨_, _, _, _, _, rfl⟩ := hu
    exact ⟨{ hdue with field := rfl }, hix⟩
  refine (hvalue.andThen (Q := fun u => FieldDue .codeBitLength u ∧ u.entIx.toNat + (k + 1) = u.nent.toNat)
    (P := fun u => FieldDue .codeBits u ∧ u.entIx.toNat + (k + 1) = u.nent.toNat) fun t ⟨h, hix⟩ => ?_).andThen
    fun t ⟨h, hix⟩ => ?_
  · refine h.stepped (by rw [getField, h.field]) (fun bs u => by rw [shapeDue, h.field]; rfl) fun bs u hu => ?_
    have hdue := h.fetched hu
    obtain ⟨_, _, _, _, _, rfl⟩ := hu
    exact ⟨{ hdue with field := rfl }, hix⟩
  · refine h.stepped (by rw [getField, h.field]) (fun bs u => by rw [shapeDue, h.field]; rfl) fun bs u hu => ?_
    have hdue := h.fetched hu
    obtain ⟨_, _, _, _, _, rfl⟩ := hu
    exact takeCodeBits_toTake bs hdue hix

theorem readEntriesLoop_stepped (k : Nat) (h : EntriesToTake k t) :
    Stepped (FieldDue .totalSymbolCount) t (readEntriesLoop k t) := by
  induction k generalizing t with
  | zero => exact ⟨⟨0, rfl⟩, h⟩
  | succ k ih =>
    obtain ⟨hdue, hix⟩ := h
    exact (readEntry_stepped hdue hix).andThen fun _ => ih

end Header

/-! ## The count and the body (R255 to R261) -/

section Body
variable {t u : State}

theorem readCount_stepped (h : FieldDue .totalSymbolCount t) :
    Stepped (fun u => FieldDue .body u ∧ u.decoded.toNat < u.total.toNat) t (readCount t) := by
  refine h.stepped (by rw [getField, h.field]) (fun bs u => by rw [shapeDue, h.field]; rfl) fun bs u hu => ?_
  have hdue := h.fetched hu
  generalize countOfBytes (bytesOfBits Config.cntBytes bs) = c
  rcases Nat.lt_or_ge u.config.blockMax.toNat c.toNat with hlarge | hfits
  · rw [takeTotalCount_large hlarge]
    trivial
  · rcases Nat.lt_or_ge u.decoded.toNat c.toNat with hmore | hnone
    · rw [takeTotalCount_body hfits hmore]
      exact ⟨⟨hdue.busy, .inr (.inr rfl), rfl, hdue.reset⟩, hmore⟩
    · rw [takeTotalCount_finish hfits hnone, finishBlock]
      split <;> trivial

/-- A body bit that does not end the operation leaves the next one due, and reads nothing itself. -/
theorem takeBodyBit_due (b : Bool) (h : FieldDue .body t) :
    (takeBodyBit b t).Meets (fun u => FieldDue .body u ∧ bitsLeft u = bitsLeft t) fun _ => True := by
  unfold takeBodyBit
  cases lookup t (t.cand ++ [b]) with
  | some v =>
    show FieldDue .body (emitSymbol v t) ∧ bitsLeft (emitSymbol v t) = bitsLeft t
    rcases obufWrite_cases t t.decoded.toNat v with ⟨_, hw⟩ | ⟨_, hw⟩ <;>
    · rw [emitSymbol, hw]
      exact ⟨{ h with }, rfl⟩
  | none =>
    simp only
    split
    · trivial
    · exact ⟨{ h with }, rfl⟩

/-- A body bit read and taken, as the loop of R258 does it. -/
def bodyBit (s : State) : Flow := (getBodyBit s).andTake fun bs => takeBodyBit (bs.headD false)

/-- While symbols remain the loop reads and takes a bit (R258). -/
theorem readBodyLoop_succ (k : Nat) (hlt : t.decoded.toNat < t.total.toNat) :
    readBodyLoop (k + 1) t = (bodyBit t).andThen (readBodyLoop k) := if_pos hlt

/-- The bit leaves the next one due, with fewer bits to read, unless it ends the operation. -/
theorem bodyBit_due (h : FieldDue .body t) :
    (bodyBit t).Meets (fun u => FieldDue .body u ∧ bitsLeft u < bitsLeft t) fun _ => True := by
  have hused := bitsLeft_readBits 1 t
  have hget : (getBodyBit t).Meets (fun u => FieldDue .body u ∧ bitsLeft u < bitsLeft t) fun _ => True :=
    getBits_meets (fun hone => ⟨h.fetched (readBits_only 1 t).fetch, by omega⟩) fun _ => trivial
  refine hget.andTake fun bs u ⟨hu, hlt⟩ => ?_
  exact (takeBodyBit_due _ hu).mono (fun x ⟨hx, hleft⟩ => ⟨hx, hleft ▸ hlt⟩) fun _ _ => trivial

/-- The step that takes a body bit also ends the block where the bit completes the last symbol (R258, R261). -/
theorem bodyBit_stepped (h : FieldDue .body t) (hlt : t.decoded.toNat < t.total.toNat) :
    Host.Core.run Sys2Proof.core 1 t = .next ((bodyBit t).andThen (takeBody [])).state := by
  have hstep := h.step (take := takeBody) fun bs u => by rw [shapeDue, h.field]; rfl
  have hget : getField t = getBodyBit t := by rw [getField, h.field]
  refine (run_succ Sys2Proof.core hstep 0).trans (congrArg (fun x : Flow => Host.Outcome.next x.state) ?_)
  rw [hget, bodyBit, getBodyBit]
  rcases getBits_cases 1 (fun _ => raise .bodyTruncated) t with ⟨hone, hg⟩ | ⟨-, hg⟩ <;> rw [hg]
  · obtain ⟨b, hb⟩ := List.length_eq_one_iff.mp hone
    obtain ⟨_, _, _, honly⟩ := readBits_only 1 t
    rw [hb, honly]
    exact takeBody_cons hlt
  · rfl

/-- The body bit by bit (R258, R261). -/
theorem readBodyLoop_stepped (k : Nat) (h : FieldDue .body t) (hlt : t.decoded.toNat < t.total.toNat)
    (hbits : bitsLeft t < k) : ∃ n, Host.Core.run Sys2Proof.core n t = .next (readBodyLoop k t).state := by
  induction k generalizing t with
  | zero => exact absurd hbits (Nat.not_lt_zero _)
  | succ k ih =>
    have hdue := bodyBit_due h
    have hstep := bodyBit_stepped h hlt
    rw [readBodyLoop_succ k hlt]
    generalize bodyBit t = x at hdue hstep ⊢
    cases x with
    | ended u => exact ⟨1, hstep⟩
    | go u =>
      obtain ⟨hu, hleft⟩ := hdue
      rw [Flow.andThen_go] at hstep ⊢
      by_cases hmore : u.decoded.toNat < u.total.toNat
      · rw [takeBody_nil hmore] at hstep
        obtain ⟨n, hrest⟩ := ih hu hmore (by omega)
        exact ⟨1 + n, (run_add Sys2Proof.core 1 n hstep).trans hrest⟩
      · obtain ⟨j, rfl⟩ : ∃ j, k = j + 1 := Nat.exists_eq_succ_of_ne_zero (by omega)
        have hend : readBodyLoop (j + 1) u = takeBody [] u := (if_neg hmore).trans (if_neg hmore).symm
        exact ⟨1, hstep.trans (by rw [hend])⟩

end Body

/-- Settles O45: the pieces of the operation are steps one after the other. -/
theorem fieldStepsRefineDecompress : Obligations.FieldStepsRefineDecompress := by
  intro s hst hreset
  have hstart : FieldDue .entryCount (startDecompress { s with busy := true }) := ⟨rfl, .inl rfl, rfl, hreset⟩
  have hheader := (readEntryCount_stepped hstart).andThen fun t => readEntriesLoop_stepped t.nent.toNat
  have hcount := hheader.andThen fun _ => readCount_stepped
  obtain ⟨⟨k, hrun⟩, -⟩ := hcount.andThen (P := fun _ => True) fun t ⟨hdue, hlt⟩ =>
    ⟨readBodyLoop_stepped (bitsLeft t + 1) hdue hlt (Nat.lt_succ_self _), Flow.meets_trivial _⟩
  exact ⟨k, decompressOp { s with busy := true }, acceptCommand_run hst, hrun⟩

end Sys2Proof.Machine
end

section
/-! SUPPORT. Nothing of what came before survives into a DECOMPRESS (45_codec_decompress R251): two of them with the
same capacity, reader and source run in step. What DEC and OBUF held before may differ, and no piece reads it. -/

namespace Sys2Proof.Machine

/-! ## Reading in step (40_bitreader R141) -/

/-- Two reads deliver the same bits in states related by `P`, or both have ended the operation in states related by
`E`. -/
inductive Got.Twin (P E : State → State → Prop) : Got → Got → Prop
  | bits {bs : Bits} {s s' : State} (h : P s s') : Twin P E (.bits bs s) (.bits bs s')
  | ended {s s' : State} (h : E s s') : Twin P E (.ended s) (.ended s')

section Reads
variable {P Q E : State → State → Prop} {t t' : State}

theorem Got.Twin.andTake {g g' : Got} {take take' : Bits → State → Flow} (hg : g.Twin Q E g')
    (ht : ∀ bs t t', Q t t' → (take bs t).Twin P E (take' bs t')) : (g.andTake take).Twin P E (g'.andTake take') := by
  cases hg with
  | bits h => exact ht _ _ _ h
  | ended h => exact .ended h

/-- Of two operations in step, the first of which has ended, the second has ended alike. -/
theorem Flow.Twin.state_of_ended {x x' : Flow} {F : State → Prop} (h : x.Twin P E x')
    (hended : x.Meets (fun _ => False) F) : E x.state x'.state := by
  cases h with
  | go h => exact hended.elim
  | ended h => exact h

theorem readerStream_congr (h : SameReader t t') : readerStream t' = readerStream t := by
  rw [readerStream, readerStream, bufferedBits, bufferedBits, h.rdByte, h.rdLeft, h.src]

/-- What a read leaves in the reader and the source depends on these alone. -/
theorem readBits_sameReader (n : Nat) (h : SameReader t t') : SameReader (readBits n t).2 (readBits n t').2 := by
  induction n generalizing t t' with
  | zero => exact h
  | succ n ih =>
    obtain ⟨hbyte, hleft, hsrc⟩ := h
    rcases refill_cases t with ⟨h0, hr⟩ | ⟨h0, hs, hr⟩ | ⟨v, vs, h0, hs, hr⟩
    · have hr' : refill t' = some t' := if_neg (hleft ▸ h0)
      rw [readBits, readBits, hr, hr']
      exact ih ⟨hbyte, congrArg (· - 1) hleft, hsrc⟩
    · rw [readBits_exhausted _ h0 hs, readBits_exhausted _ (hleft.trans h0) (hsrc.trans hs)]
      exact ⟨hbyte, hleft, hsrc⟩
    · rw [readBits_refilled n h0 hs, readBits_refilled n (hleft.trans h0) (hsrc.trans hs)]
      simp only [readBits]
      exact ih ⟨rfl, rfl, rfl⟩

/-- A read depends on the reader and the source alone. -/
theorem readBits_inStep (n : Nat) (h : SameReader t t') :
    ∃ bs v k vs, readBits n t = (bs, { t with rdByte := v, rdLeft := k, src := vs }) ∧
      readBits n t' = (bs, { t' with rdByte := v, rdLeft := k, src := vs }) := by
  obtain ⟨v, k, vs, honly⟩ := readBits_only n t
  obtain ⟨v', k', vs', honly'⟩ := readBits_only n t'
  have hsame := readBits_sameReader n h
  have hbits : (readBits n t').1 = (readBits n t).1 := by rw [readBits_bits, readBits_bits, readerStream_congr h]
  rw [honly, honly'] at hsame
  obtain ⟨rfl, rfl, rfl⟩ := hsame
  exact ⟨(readBits n t).1, _, _, _, Prod.ext rfl honly, Prod.ext hbits honly'⟩

end Reads

/-! ## Two DECOMPRESS in step -/

/-- Two DECOMPRESS are under way in step: the same reader and source, the same decoder's registers, the same entries
stored, and the same symbols in OBUF. -/
structure InStep (t t' : State) : Prop where
  config : t.config = t'.config
  rdByte : t.rdByte = t'.rdByte
  rdLeft : t.rdLeft = t'.rdLeft
  src : t.src = t'.src
  st : t.st = t'.st
  nent : t.nent = t'.nent
  total : t.total = t'.total
  decoded : t.decoded = t'.decoded
  cand : t.cand = t'.cand
  outLen : t.outLen = 0 ∧ t'.outLen = 0
  decN : t.decN = t'.decN
  dec : ∀ e < t.decN.toNat, decAt t e = decAt t' e
  obuf : ∀ i < t.decoded.toNat, obufByte t i = obufByte t' i

/-- Two DECOMPRESS have ended alike. -/
structure SameResult (t t' : State) : Prop where
  st : t.st = t'.st
  outLen : t.outLen = t'.outLen
  outBlock : outBlock t = outBlock t'
  nent : t.nent = t'.nent
  total : t.total = t'.total
  decoded : t.decoded = t'.decoded
  reader : SameReader t t'
  decN : t.decN = t'.decN
  dec : ∀ e < t.decN.toNat, decAt t e = decAt t' e
  err : t.st = .fault → SameError t t'

/-- Two headers are read in step, with `k` entries to come; the entry to come is stored behind the ones stored. -/
structure EntriesInStep (k : Nat) (t t' : State) : Prop extends InStep t t' where
  few : t.nent.toNat ≤ 255
  entIx : 0 < k → t.entIx = t'.entIx
  next : 0 < k → t.entIx.toNat = t.decN.toNat ∧ t.entIx.toNat + k = t.nent.toNat

section Twin
variable {R : State → State → Prop} {t t' : State} {k : Nat}

theorem InStep.sameReader (h : InStep t t') : SameReader t t' := ⟨h.rdByte.symm, h.rdLeft.symm, h.src.symm⟩

theorem InStep.reader (h : InStep t t') (v : Byte) (k : BitVec 4) (vs : List Byte) :
    InStep { t with rdByte := v, rdLeft := k, src := vs } { t' with rdByte := v, rdLeft := k, src := vs } :=
  { h with rdByte := rfl, rdLeft := rfl, src := rfl }

theorem EntriesInStep.reader (h : EntriesInStep k t t') (v : Byte) (l : BitVec 4) (vs : List Byte) :
    EntriesInStep k { t with rdByte := v, rdLeft := l, src := vs } { t' with rdByte := v, rdLeft := l, src := vs } :=
  { h with toInStep := h.toInStep.reader v l vs }

/-- Fault entry for a cause of DECOMPRESS clears OUT_LEN (60_exceptions R290). -/
theorem InStep.raise {c : Cause} (hc : c.inDecompress = true) (h : InStep t t') :
    SameResult (raise c t) (raise c t') := by
  have hzero : ∀ u, (Machine.raise c u).outLen = 0 := fun u => if_pos hc
  have hempty : ∀ u, outBlock (Machine.raise c u) = [] := fun u => by rw [outBlock, hzero]; rfl
  exact { h with
    st := rfl
    outLen := (hzero t).trans (hzero t').symm
    outBlock := (hempty t).trans (hempty t').symm
    reader := { h.sameReader with }
    err := fun _ => ⟨rfl, rfl, h.st.symm⟩ }

theorem InStep.finishCleanEOF (h : InStep t t') : SameResult (finishCleanEOF t) (finishCleanEOF t') := by
  obtain ⟨hout, hout'⟩ := h.outLen
  have hempty : ∀ u, u.outLen = 0 → outBlock (Machine.finishCleanEOF u) = [] := fun u hu => by
    rw [outBlock, finishCleanEOF_outLen, hu]
    rfl
  exact { h with
    st := rfl
    outLen := hout.trans hout'.symm
    outBlock := (hempty t hout).trans (hempty t' hout').symm
    reader := { h.sameReader with }
    err := nofun }

/-- Two reads of a field in step. -/
theorem getBits_twin {n : Nat} {c : Cause} (hc : c.inDecompress = true) (h : InStep t t')
    (hR : ∀ v k vs, R { t with rdByte := v, rdLeft := k, src := vs } { t' with rdByte := v, rdLeft := k, src := vs }) :
    (getBits n (fun _ => Machine.raise c) t).Twin R SameResult (getBits n (fun _ => Machine.raise c) t') := by
  obtain ⟨bs, v, k, vs, hr, hr'⟩ := readBits_inStep n h.sameReader
  rw [getBits, getBits, hr, hr']
  split
  · exact .ended ((h.reader v k vs).raise hc)
  · exact .bits (hR v k vs)

/-! ### The header (R252 to R254) -/

/-- Leaving the header, ENT_IX is free, and nothing reads it again. -/
theorem InStep.leaveHeader (h : InStep t t') : InStep (leaveHeader t) (leaveHeader t') := { h with st := rfl }

theorem getEntryCount_twin (h : InStep t t') : (getEntryCount t).Twin (fun u u' => InStep u u' ∧ u.decN = t.decN)
    SameResult (getEntryCount t') := by
  obtain ⟨bs, v, k, vs, hr, hr'⟩ := readBits_inStep 8 h.sameReader
  rw [getEntryCount, getEntryCount, getBits, getBits, hr, hr']
  split
  · refine .ended ?_
    simp only
    split
    · exact (h.reader v k vs).finishCleanEOF
    · exact (h.reader v k vs).raise rfl
  · exact .bits ⟨h.reader v k vs, rfl⟩

/-- NENT is taken in step, and no entry is stored yet (R251, R252). -/
theorem readEntryCount_twin (h : InStep t t') (h0 : t.decN = 0) :
    (readEntryCount t).Twin (fun u u' => EntriesInStep u.nent.toNat u u') SameResult (readEntryCount t') := by
  refine (getEntryCount_twin h).andTake fun bs u u' ⟨hu, hn⟩ => ?_
  have hnent : ((byteOfBits bs).setWidth 9).toNat = (byteOfBits bs).toNat := by
    rw [BitVec.toNat_setWidth]
    omega
  have hfew : ((byteOfBits bs).setWidth 9).toNat ≤ 255 := by omega
  by_cases hk : byteOfBits bs = 0
  · rw [hk, takeEntryCount_none, takeEntryCount_none]
    exact .go { hu with st := rfl, nent := rfl, few := Nat.zero_le 255, entIx := nofun, next := nofun }
  · rw [takeEntryCount_entries hk, takeEntryCount_entries hk]
    refine .go { hu with
      nent := rfl
      few := hfew
      entIx := fun _ => rfl
      next := fun _ => ⟨?_, Nat.zero_add _⟩ }
    show (0 : BitVec 9).toNat = u.decN.toNat
    rw [hn, h0]
    rfl

/-- An entry is stored in step (R254). -/
theorem InStep.storeDec (code : Bits) (h : InStep t t') (hsym : t.symTmp = t'.symTmp) (hix : t.entIx = t'.entIx)
    (hnext : t.entIx.toNat = t.decN.toNat) (hroom : t.entIx.toNat < 255) :
    InStep (storeDec code t) (storeDec code t') := by
  have hn : (Machine.storeDec code t).decN.toNat = t.decN.toNat + 1 := by
    show (BitVec.ofNat 8 (t.entIx.toNat + 1)).toNat = _
    rw [BitVec.toNat_ofNat]
    omega
  refine { h with decN := congrArg (fun i : BitVec 9 => BitVec.ofNat 8 (i.toNat + 1)) hix, dec := fun e he => ?_ }
  rw [hn] at he
  rw [decAt_storeDec code hroom, decAt_storeDec code (hix ▸ hroom), ← hix, ← hsym]
  split
  · rfl
  · exact h.dec e (by omega)

theorem takeCodeBits_twin (code : Bits) (h : EntriesInStep (k + 1) t t') (hsym : t.symTmp = t'.symTmp) :
    (takeCodeBits code t).Twin (EntriesInStep k) SameResult (takeCodeBits code t') := by
  have hix := h.entIx (Nat.succ_pos k)
  obtain ⟨hnext, hleft⟩ := h.next (Nat.succ_pos k)
  have hfew := h.few
  have hsucc : (t.entIx + 1).toNat = t.entIx.toNat + 1 := by bv_omega
  have hstored : InStep (storeDec code { t with rdLeft := 0 }) (storeDec code { t' with rdLeft := 0 }) :=
    InStep.storeDec (t := { t with rdLeft := 0 }) (t' := { t' with rdLeft := 0 }) code { h with rdLeft := rfl } hsym hix
      hnext (by show t.entIx.toNat < 255; omega)
  by_cases hlast : t.entIx + 1 = t.nent
  · have hzero : k = 0 := by
      rw [← hlast, hsucc] at hleft
      omega
    subst hzero
    rw [takeCodeBits_last hlast, takeCodeBits_last (hix ▸ h.nent ▸ hlast)]
    exact .go { hstored.leaveHeader with few := hfew, entIx := nofun, next := nofun }
  · rw [takeCodeBits_more hlast, takeCodeBits_more (hix ▸ h.nent ▸ hlast)]
    refine .go { hstored with
      few := hfew
      entIx := fun _ => congrArg (· + 1) hix
      next := fun _ => ⟨?_, ?_⟩ }
    · show (t.entIx + 1).toNat = (BitVec.ofNat 8 (t.entIx.toNat + 1)).toNat
      rw [hsucc, BitVec.toNat_ofNat]
      omega
    · show (t.entIx + 1).toNat + k = t.nent.toNat
      omega

theorem readEntry_twin (h : EntriesInStep (k + 1) t t') :
    (readEntry t).Twin (EntriesInStep k) SameResult (readEntry t') := by
  have hvalue : ((getByteValue t).andTake fun bs => takeByteValue (byteOfBits bs)).Twin
      (fun u u' => EntriesInStep (k + 1) u u' ∧ u.symTmp = u'.symTmp) SameResult
      ((getByteValue t').andTake fun bs => takeByteValue (byteOfBits bs)) :=
    (getBits_twin rfl h.toInStep h.reader).andTake fun _ _ _ hu => .go ⟨{ hu with }, rfl⟩
  refine (hvalue.andThen (Q := fun u u' => EntriesInStep (k + 1) u u' ∧ u.symTmp = u'.symTmp)
    (P := fun u u' => EntriesInStep (k + 1) u u' ∧ u.symTmp = u'.symTmp ∧ u.lenTmp = u'.lenTmp)
    fun u u' ⟨hu, hsym⟩ => ?_).andThen fun u u' ⟨hu, hsym, hlen⟩ => ?_
  · exact (getBits_twin (R := fun u u' => EntriesInStep (k + 1) u u' ∧ u.symTmp = u'.symTmp) rfl hu.toInStep
      fun v l vs => ⟨hu.reader v l vs, hsym⟩).andTake fun _ _ _ ⟨hu, hsym⟩ => .go ⟨{ hu with }, hsym, rfl⟩
  · rw [getCodeBits, getCodeBits, hlen]
    exact (getBits_twin (R := fun u u' => EntriesInStep (k + 1) u u' ∧ u.symTmp = u'.symTmp) rfl hu.toInStep
      fun v l vs => ⟨hu.reader v l vs, hsym⟩).andTake fun bs _ _ ⟨hu, hsym⟩ => takeCodeBits_twin bs hu hsym

theorem readEntriesLoop_twin (k : Nat) (h : EntriesInStep k t t') :
    (readEntriesLoop k t).Twin InStep SameResult (readEntriesLoop k t') := by
  induction k generalizing t t' with
  | zero => exact .go h.toInStep
  | succ k ih => exact (readEntry_twin h).andThen fun _ _ => ih

/-! ### The count (R255, R257) -/

theorem countLoop_twin (k j : Nat) (acc : Bits) (h : InStep t t') :
    (countLoop k j acc t).Twin InStep SameResult (countLoop k j acc t') := by
  induction k generalizing j acc t t' with
  | zero => exact .bits h
  | succ k ih =>
    have hbyte : InStep { t with byteIx := BitVec.ofNat 4 j } { t' with byteIx := BitVec.ofNat 4 j } := { h with }
    have hget := getBits_twin (n := 8) (c := .totalCount) rfl hbyte hbyte.reader
    rw [countLoop, countLoop]
    generalize getBits 8 (fun _ => raise .totalCount) { t with byteIx := BitVec.ofNat 4 j } = g at hget
    generalize getBits 8 (fun _ => raise .totalCount) { t' with byteIx := BitVec.ofNat 4 j } = g' at hget
    cases hget with
    | ended h => exact .ended h
    | bits h => exact ih _ _ { h with total := by rw [h.total] }

theorem InStep.finishBlock {P : State → State → Prop} (h : InStep t t') :
    (finishBlock t).Twin P SameResult (finishBlock t') := by
  by_cases hcand : t.cand = []
  · rw [finishBlock_done hcand, finishBlock_done (h.cand ▸ hcand)]
    refine .ended { h with
      st := rfl
      outLen := h.decoded
      outBlock := ?_
      reader := ⟨h.rdByte.symm, rfl, h.src.symm⟩
      err := nofun }
    show (List.range t.decoded.toNat).map (obufByte t) = (List.range t'.decoded.toNat).map (obufByte t')
    rw [← h.decoded]
    exact List.map_congr_left fun i hi => h.obuf i (List.mem_range.mp hi)
  · rw [finishBlock_leftover hcand, finishBlock_leftover (h.cand ▸ hcand)]
    exact .ended (h.raise rfl)

/-- The body opens in step, and the block fits OBUF (R257). -/
theorem readCount_twin (h : InStep t t') :
    (readCount t).Twin (fun u u' => InStep u u' ∧ u.total.toNat ≤ u.config.blockMax.toNat) SameResult
      (readCount t') := by
  have hstart : InStep { t with total := 0 } { t' with total := 0 } := { h with total := rfl }
  refine Got.Twin.andTake (countLoop_twin Config.cntBytes 0 [] hstart) fun bs u u' hu => ?_
  generalize countOfBytes (bytesOfBits Config.cntBytes bs) = c
  have hopen : InStep (openBody c u) (openBody c u') := { hu with st := rfl, total := rfl }
  rcases Nat.lt_or_ge u.config.blockMax.toNat c.toNat with hlarge | hfits
  · rw [takeTotalCount_large hlarge, takeTotalCount_large (hu.config ▸ hlarge)]
    exact .ended (hopen.raise rfl)
  · rcases Nat.lt_or_ge u.decoded.toNat c.toNat with hmore | hnone
    · rw [takeTotalCount_body hfits hmore, takeTotalCount_body (hu.config ▸ hfits) (hu.decoded ▸ hmore)]
      exact .go ⟨hopen, hfits⟩
    · rw [takeTotalCount_finish hfits hnone, takeTotalCount_finish (hu.config ▸ hfits) (hu.decoded ▸ hnone)]
      exact hopen.finishBlock

/-! ### The body (R258, R261) -/

/-- The lookup sees the stored entries alone (R259). -/
theorem InStep.lookup (h : InStep t t') (c : Bits) : lookup t c = lookup t' c := by
  have hmatch : ∀ e < t.decN.toNat, decMatches t e c ↔ decMatches t' e c := fun e he => by
    rw [decMatches, decMatches, h.dec e he]
  cases ht : Machine.lookup t c with
  | none =>
    rw [eq_comm, lookup_eq_none_iff, ← h.decN]
    exact fun e he hm => lookup_eq_none_iff.mp ht e he ((hmatch e he).mpr hm)
  | some v =>
    obtain ⟨e, he, hm, hv, hlast⟩ := lookup_eq_some_iff.mp ht
    rw [eq_comm, lookup_eq_some_iff, ← h.decN]
    exact ⟨e, he, (hmatch e he).mp hm, h.dec e he ▸ hv, fun e' hgt he' hm' =>
      hlast e' hgt he' ((hmatch e' he').mpr hm')⟩

/-- A symbol is emitted in step: the byte stored is the same in both (R258). -/
theorem InStep.emitSymbol (v : Byte) (h : InStep t t') (hroom : t.decoded.toNat < t.config.blockMax.toNat) :
    InStep (emitSymbol v t) (emitSymbol v t') := by
  have hbyte := obufByte_emitSymbol (v := v) hroom
  have hroom' : t'.decoded.toNat < t'.config.blockMax.toNat := h.decoded ▸ h.config ▸ hroom
  have hbyte' := obufByte_emitSymbol (v := v) hroom'
  rw [emitSymbol_stores hroom] at hbyte ⊢
  rw [emitSymbol_stores hroom'] at hbyte' ⊢
  refine { h with decoded := congrArg (· + 1) h.decoded, cand := rfl, obuf := fun i hi => ?_ }
  rw [hbyte, hbyte', ← h.decoded]
  split
  · rfl
  · rename_i hne
    have hlt : i < (t.decoded + 1).toNat := hi
    exact h.obuf i (by bv_omega)

theorem takeBodyBit_twin (b : Bool) (h : InStep t t') (hroom : t.total.toNat ≤ t.config.blockMax.toNat)
    (hlt : t.decoded.toNat < t.total.toNat) :
    (takeBodyBit b t).Twin (fun u u' => InStep u u' ∧ u.total.toNat ≤ u.config.blockMax.toNat) SameResult
      (takeBodyBit b t') := by
  have hlookup := h.lookup (t.cand ++ [b])
  rw [takeBodyBit, takeBodyBit, ← h.cand, ← hlookup]
  cases Machine.lookup t (t.cand ++ [b]) with
  | some v =>
    have hplace : t.decoded.toNat < t.config.blockMax.toNat := by omega
    have hemit := h.emitSymbol v hplace
    refine .go ⟨hemit, ?_⟩
    rw [emitSymbol_stores hplace]
    exact hroom
  | none =>
    have hgrow : InStep { t with cand := t.cand ++ [b] } { t' with cand := t.cand ++ [b] } := { h with cand := rfl }
    simp only
    split
    · exact .ended (hgrow.raise rfl)
    · exact .go ⟨hgrow, hroom⟩

theorem readBodyLoop_twin (k : Nat) (h : InStep t t') (hroom : t.total.toNat ≤ t.config.blockMax.toNat) :
    (readBodyLoop k t).Twin InStep SameResult (readBodyLoop k t') := by
  induction k generalizing t t' with
  | zero => exact .go h
  | succ k ih =>
    rw [readBodyLoop, readBodyLoop]
    by_cases hlt : t.decoded.toNat < t.total.toNat
    · rw [if_pos hlt, if_pos (h.decoded ▸ h.total ▸ hlt)]
      have hget : (getBodyBit t).Twin (fun u u' => InStep u u' ∧ u.total.toNat ≤ u.config.blockMax.toNat ∧
          u.decoded.toNat < u.total.toNat) SameResult (getBodyBit t') :=
        getBits_twin rfl h fun v l vs => ⟨h.reader v l vs, hroom, hlt⟩
      exact (hget.andTake fun bs u u' ⟨hu, hroom', hlt'⟩ => takeBodyBit_twin (bs.headD false) hu hroom' hlt').andThen
        fun u u' ⟨hu, hroom'⟩ => ih hu hroom'
    · rw [if_neg hlt, if_neg (h.decoded ▸ h.total ▸ hlt)]
      exact h.finishBlock

theorem readBody_twin (h : InStep t t') (hroom : t.total.toNat ≤ t.config.blockMax.toNat) :
    (readBody t).Twin InStep SameResult (readBody t') := by
  rw [readBody, readBody, bitsLeft, bitsLeft, ← h.rdLeft, ← h.src]
  exact readBodyLoop_twin _ h hroom

end Twin

/-! ## The whole operation (R250, R251) -/

/-- `init()` forgets everything but the capacity, the reader and the source (R251). -/
theorem startDecompress_inStep {s s' : State} (hconfig : s.config = s'.config) (hbyte : s.rdByte = s'.rdByte)
    (hleft : s.rdLeft = s'.rdLeft) (hsrc : s.src = s'.src) : InStep (startDecompress s) (startDecompress s') :=
  { config := hconfig, rdByte := hbyte, rdLeft := hleft, src := hsrc, st := rfl, nent := rfl, total := rfl,
    decoded := rfl, cand := rfl, outLen := ⟨rfl, rfl⟩, decN := rfl, dec := nofun, obuf := nofun }

theorem decompressOp_twin {s s' : State} (h : InStep (startDecompress s) (startDecompress s')) :
    SameResult (decompressOp s) (decompressOp s') := by
  have hheader : ((readEntryCount (startDecompress s)).andThen readEntries).Twin InStep SameResult
      ((readEntryCount (startDecompress s')).andThen readEntries) :=
    (readEntryCount_twin h rfl).andThen fun u u' hu => by
      rw [readEntries, readEntries, ← hu.nent]
      exact readEntriesLoop_twin _ hu
  have hended := (readEntryCount_meets (startDecompress_underway s)).andThen fun _ => readEntriesLoop_meets _
  exact ((hheader.andThen fun _ _ => readCount_twin).andThen fun _ _ ⟨hu, hroom⟩ =>
    readBody_twin hu hroom).state_of_ended
      ((hended.andThen fun _ => readCount_meets).andThen fun _ => readBodyLoop_meets _)

/-- Settles O43: both commands run DECOMPRESS in step. -/
theorem decompressIgnoresEarlierBlocks : Obligations.DecompressIgnoresEarlierBlocks := by
  intro s s' hst hst' hconfig hbyte hleft hsrc
  have h := decompressOp_twin (s := { s with busy := true }) (s' := { s' with busy := true })
    (startDecompress_inStep hconfig hbyte hleft hsrc)
  exact ⟨_, _, acceptCommand_run hst, acceptCommand_run hst', h.st, h.outLen, h.outBlock, h.nent, h.total, h.decoded,
    h.reader, h.decN, h.dec, h.err⟩

end Sys2Proof.Machine
end

section
/-! SUPPORT. The statements of 60_exceptions about single steps: an illegal word is fault entry and nothing else (R287),
and in ST = Fault a command is discarded, a host access is performed, and only reset leaves the state (R291, R292). -/

namespace Sys2Proof.Machine

/-! ## Illegal words (30_encoding R123, 60_exceptions R287) -/

/-- Fault entry for an illegal word records IllegalCommand, with the sub-cause that op alone decides (R287, R290). -/
theorem raise_illegalCause (op : BitVec 4) (s : State) :
    raise (illegalCause op) s = { s with
      errSt := s.st
      err := .illegalCommand
      errSub := if op = 0 ∨ 7 ≤ op.toNat then 1 else 2
      st := .fault
      busy := false } := by
  unfold illegalCause
  split <;> rfl

/-- Settles O51: a word without a row decodes to ILLEGAL with its op field, whose operation is fault entry. -/
theorem illegalWordsRaiseIllegalCommand : Obligations.IllegalWordsRaiseIllegalCommand := by
  intro w s hrows hst
  rw [decodeCommand_of_selects_none hrows]
  exact (acceptCommand_run hst).trans (congrArg Host.Outcome.next (raise_illegalCause (opField w) _))

/-! ## ST = Fault (R291, R292) -/

/-- In ST = Fault every instruction is accepted and discarded (R291, R292). -/
theorem exec_fault {i : Instr} {s : State} (h : s.st = .fault) : exec i s = .next s := by
  cases i with
  | rdbits _ | wrbits _ | flush | encode | compress | decompress | illegal _ _ _ => exact acceptCommand_fault h
  | wireEntryCount _ | wireByteValue _ | wireCodeBitLength _ | wireCodeBits _ | wireTotalSymbolCount _ | wireBody _ =>
    exact acceptField_fault h

/-- No action of the host but reset changes ST, BUSY or the fault registers (10_state R37). -/
theorem hostAction_keeps_fault {a : HostAction} (h : a ≠ .reset) (s : State) :
    (hostAction a s).st = s.st ∧ (hostAction a s).busy = s.busy ∧ SameError s (hostAction a s) := by
  cases a with
  | regWrite space index data =>
    obtain ⟨-, -, -, hframe, -⟩ := hostAccessRules
    obtain ⟨_, _, _, _, hwrite⟩ := hframe s space index data
    rw [hostAction, hwrite]
    exact ⟨rfl, rfl, rfl, rfl, rfl⟩
  | reset => exact absurd rfl h
  | command _ | commandReset _ | regRead _ _ | attachSource _ | attachSink => exact ⟨rfl, rfl, rfl, rfl, rfl⟩

/-- The actions that end in reset (70_reset_and_hazards R320, R321). -/
theorem pending_of_endsInReset {s : State} (h : endsInReset s = true) :
    (∃ rest, s.pending = .reset :: rest) ∨ ∃ w rest, s.pending = .commandReset w :: rest := by
  unfold endsInReset at h
  split at h
  · exact .inl ⟨_, ‹_›⟩
  · exact .inr ⟨_, _, ‹_›⟩
  · cases h

/-- A step in ST = Fault that does not end in reset keeps ST, BUSY and the fault registers (R291). -/
theorem step_keeps_fault {s t : State} (hst : s.st = .fault) (hb : s.busy = false) (ht : step s = .next t)
    (hreset : endsInReset s = false) : t.st = .fault ∧ t.busy = false ∧ SameError s t := by
  rcases step_boundary_cases hb with ⟨-, h⟩ | ⟨w, rest, -, h⟩ | ⟨w, rest, hp, -⟩ | ⟨a, rest, hp, -, -, h⟩
  · cases h.symm.trans ht
    exact ⟨hst, hb, rfl, rfl, rfl⟩
  · rw [exec_fault (s := { s with pending := rest }) hst] at h
    cases h.symm.trans ht
    exact ⟨hst, hb, rfl, rfl, rfl⟩
  · simp [endsInReset, hp] at hreset
  · cases h.symm.trans ht
    have ha : a ≠ .reset := fun ha => by simp [endsInReset, hp, ha] at hreset
    obtain ⟨hst', hb', herr⟩ := hostAction_keeps_fault ha { s with pending := rest }
    exact ⟨hst'.trans hst, hb'.trans hb, { herr with }⟩

/-- A step in ST = Fault that ends in reset leaves it for Idle (R292, R320, R321). -/
theorem step_endsInReset_idle {s t : State} (hst : s.st = .fault) (hb : s.busy = false)
    (hreset : endsInReset s = true) (ht : step s = .next t) : t.st = .idle := by
  rcases pending_of_endsInReset hreset with ⟨rest, hp⟩ | ⟨w, rest, hp⟩
  · cases (step_reset hp).symm.trans ht
    rfl
  · have h := step_commandReset hb hp
    rw [exec_fault (s := { s with pending := rest }) hst] at h
    cases h.symm.trans ht
    rfl

/-- Settles O52: commands and accesses by the step that takes them, what stays and what leaves by the lemmas above. -/
theorem faultIsStickyUntilReset : Obligations.FaultIsStickyUntilReset :=
  ⟨fun _ _ _ hst hb hp => (step_of_fetch_instr (fetch_command hb hp)).trans (exec_fault hst),
    fun _ _ _ _ _ hb hp => step_hostAction hb hp nofun nofun,
    fun _ _ _ _ _ _ hb hp => step_hostAction hb hp nofun nofun,
    fun _ _ => step_keeps_fault, fun _ _ => step_endsInReset_idle⟩

end Sys2Proof.Machine
end

section
/-! SUPPORT. A block cut short (60_exceptions R283, R284): a DECOMPRESS whose source lacks the last bytes does what it
does with them there, piece by piece, until a read comes up short and reports the truncation. -/

namespace Sys2Proof.Machine

/-! ## A source and its beginning (20_memory R74) -/

/-- `s` with the bytes `ws` behind those of its source. -/
def withRest (ws : List Byte) (s : State) : State := { s with src := s.src ++ ws }

/-- The flow, with the bytes `ws` behind those of the source. -/
def Flow.withRest (ws : List Byte) : Flow → Flow
  | .go s => .go (Machine.withRest ws s)
  | .ended s => .ended (Machine.withRest ws s)

theorem Flow.state_withRest (ws : List Byte) (x : Flow) : (x.withRest ws).state = Machine.withRest ws x.state := by
  cases x <;> rfl

section Reads
variable {s : State} {n : Nat} (ws : List Byte)

theorem refill_withRest {t : State} (h : refill s = some t) : refill (withRest ws s) = some (withRest ws t) := by
  rcases refill_cases s with ⟨h0, hr⟩ | ⟨_, _, hr⟩ | ⟨v, vs, h0, hs, hr⟩ <;> rw [hr] at h <;> cases h
  · exact if_neg h0
  · simp [refill, srcRead, withRest, h0, hs]

/-- A read that delivers all its bits does not see what stands behind them. -/
theorem readBits_withRest (h : (readBits n s).1.length = n) :
    readBits n (withRest ws s) = ((readBits n s).1, withRest ws (readBits n s).2) := by
  induction n generalizing s with
  | zero => rfl
  | succ n ih =>
    rw [readBits] at h ⊢
    rw [readBits]
    cases hr : refill s with
    | none => simp [hr] at h
    | some t =>
      simp only [hr, List.length_cons, Nat.add_right_cancel_iff] at h
      have hrest : readBits n (takeBit (withRest ws t)).2 = _ := ih h
      rw [refill_withRest ws hr]
      simp only [hrest]
      rfl

/-- Bits that all arrive arrive the same with more behind them. -/
theorem getBits_withRest (short : Bits → State → State) (h : (readBits n s).1.length = n) :
    getBits n short s = .bits (readBits n s).1 (readBits n s).2 ∧
      getBits n short (withRest ws s) = .bits (readBits n s).1 (withRest ws (readBits n s).2) := by
  simp [getBits, readBits_withRest ws h, h]

/-- A read that comes up short has used up everything (40_bitreader R143). -/
theorem readBits_short_exhausts (h : (readBits n s).1.length < n) :
    (readBits n s).2.rdLeft = 0 ∧ (readBits n s).2.src = [] := by
  have hlen := readBits_bits n s ▸ List.length_take (i := n) (l := readerStream s)
  rw [readerStream_length] at hlen
  have hused := bitsLeft_readBits n s
  have hleft : bitsLeft (readBits n s).2 = 0 := by omega
  rw [bitsLeft] at hleft
  exact ⟨BitVec.eq_of_toNat_eq (by show _ = 0; omega), List.eq_nil_of_length_eq_zero (by omega)⟩

end Reads

/-! ## Truncation, or the same flow -/

/-- The causes that a short read raises behind the first byte of a block (R281, R283, R284). -/
inductive ShortRead : Cause → Prop
  | byteValue : ShortRead .byteValue
  | codeLength : ShortRead .codeLength
  | codeBits : ShortRead .codeBits
  | totalCount : ShortRead .totalCount
  | bodyTruncated : ShortRead .bodyTruncated

/-- The block has been reported as truncated: a fault of its header, its count or its body, everything consumed. -/
structure Truncated (t : State) : Prop where
  st : t.st = .fault
  rdLeft : t.rdLeft = 0
  src : t.src = []
  outLen : t.outLen = 0
  cause : (t.err = .malformedStream ∧ t.errSub ≠ 1) ∨ (t.err = .inconsistentBody ∧ t.errSub = 1)

theorem ShortRead.truncated {c : Cause} {t : State} (hc : ShortRead c) (h0 : t.rdLeft = 0) (hs : t.src = []) :
    Truncated (raise c t) where
  st := rfl
  rdLeft := h0
  src := hs
  outLen := by cases hc <;> rfl
  cause := by
    rw [raise_err, raise_errSub]
    cases hc <;> decide

/-- The flow `x` has reported a truncated block, or `x'`, with `ws` behind the source, goes the same way. -/
def Cut (ws : List Byte) (x x' : Flow) : Prop := x' = x.withRest ws ∨ ∃ t, x = .ended t ∧ Truncated t

section Cut
variable {ws : List Byte} {s : State}

theorem Cut.andThen {x x' : Flow} {f f' : State → Flow} (hx : Cut ws x x')
    (hf : ∀ t, Cut ws (f t) (f' (withRest ws t))) : Cut ws (x.andThen f) (x'.andThen f') := by
  rcases hx with rfl | ⟨t, rfl, ht⟩
  · cases x with
    | go t => exact hf t
    | ended t => exact .inl rfl
  · exact .inr ⟨t, rfl, ht⟩

/-- The rule for a field: its bits all arrive and are taken, or the block is reported as truncated. -/
theorem getBits_cut {n : Nat} {c : Cause} {take : Bits → State → Flow} (hc : ShortRead c)
    (htake : ∀ bs t, Cut ws (take bs t) (take bs (withRest ws t))) :
    Cut ws ((getBits n (fun _ => raise c) s).andTake take)
      ((getBits n (fun _ => raise c) (withRest ws s)).andTake take) := by
  rcases getBits_cases n (fun _ => raise c) s with ⟨hn, -⟩ | ⟨hn, h⟩
  · obtain ⟨hget, hget'⟩ := getBits_withRest ws (fun _ => raise c) hn
    rw [hget, hget']
    exact htake _ _
  · obtain ⟨h0, hs⟩ := readBits_short_exhausts hn
    rw [h]
    exact .inr ⟨_, rfl, hc.truncated h0 hs⟩

/-! ### Taking a field reads no byte (R252 to R261) -/

theorem takeEntryCount_withRest (k : Byte) (s : State) :
    takeEntryCount k (withRest ws s) = (takeEntryCount k s).withRest ws := by
  unfold takeEntryCount
  by_cases hk : k = 0
  · simp only [if_pos hk]
    rfl
  · simp only [if_neg hk]
    rfl

theorem takeCodeBits_withRest (code : Bits) (s : State) :
    takeCodeBits code (withRest ws s) = (takeCodeBits code s).withRest ws := by
  by_cases hlast : s.entIx + 1 = s.nent
  · rw [takeCodeBits_last hlast, takeCodeBits_last (s := withRest ws s) hlast]
    rfl
  · rw [takeCodeBits_more hlast, takeCodeBits_more (s := withRest ws s) hlast]
    rfl

theorem finishBlock_withRest (s : State) : finishBlock (withRest ws s) = (finishBlock s).withRest ws := by
  by_cases hcand : s.cand = []
  · rw [finishBlock_done hcand, finishBlock_done (s := withRest ws s) hcand]
    rfl
  · rw [finishBlock_leftover hcand, finishBlock_leftover (s := withRest ws s) hcand]
    rfl

theorem takeTotalCount_withRest (c : Count) (s : State) :
    takeTotalCount c (withRest ws s) = (takeTotalCount c s).withRest ws := by
  rcases Nat.lt_or_ge s.config.blockMax.toNat c.toNat with hlarge | hfits
  · rw [takeTotalCount_large hlarge, takeTotalCount_large (s := withRest ws s) hlarge]
    rfl
  · rcases Nat.lt_or_ge s.decoded.toNat c.toNat with hmore | hnone
    · rw [takeTotalCount_body hfits hmore, takeTotalCount_body (s := withRest ws s) hfits hmore]
      rfl
    · rw [takeTotalCount_finish hfits hnone, takeTotalCount_finish (s := withRest ws s) hfits hnone]
      exact finishBlock_withRest (openBody c s)

theorem emitSymbol_withRest (v : Byte) (s : State) : emitSymbol v (withRest ws s) = withRest ws (emitSymbol v s) := by
  unfold emitSymbol obufWrite
  by_cases hroom : s.decoded.toNat < s.config.blockMax.toNat
  · rw [if_pos hroom, if_pos (by exact hroom)]
    rfl
  · rw [if_neg hroom, if_neg (by exact hroom)]
    rfl

theorem takeBodyBit_withRest (b : Bool) (s : State) :
    takeBodyBit b (withRest ws s) = (takeBodyBit b s).withRest ws := by
  cases hl : lookup s (s.cand ++ [b]) with
  | some v =>
    rw [takeBodyBit_hit hl, takeBodyBit_hit (s := withRest ws s) hl, emitSymbol_withRest]
    rfl
  | none =>
    by_cases hlen : s.cand.length = 254
    · rw [takeBodyBit_noMatch hl hlen, takeBodyBit_noMatch (s := withRest ws s) hl hlen]
      rfl
    · rw [takeBodyBit_grow hl hlen, takeBodyBit_grow (s := withRest ws s) hl hlen]
      rfl

/-! ### The pieces of a DECOMPRESS (R250 to R261) -/

/-- `read_entry_count()` with a byte there (R252). -/
theorem readEntryCount_withRest (h : 8 ≤ bitsLeft s) :
    readEntryCount (withRest ws s) = (readEntryCount s).withRest ws := by
  have hlen : (readBits 8 s).1.length = 8 := by
    rw [readBits_bits, List.length_take, readerStream_length]
    omega
  obtain ⟨hget, hget'⟩ := getBits_withRest ws (fun bs s' => if bs = [] then finishCleanEOF s' else
    raise .entryCount s') hlen
  rw [readEntryCount, readEntryCount, getEntryCount, getEntryCount, hget, hget']
  exact takeEntryCount_withRest _ _

theorem readEntry_cut (s : State) : Cut ws (readEntry s) (readEntry (withRest ws s)) :=
  ((getBits_cut .byteValue fun _ _ => .inl rfl).andThen fun _ =>
    getBits_cut .codeLength fun _ _ => .inl rfl).andThen fun _ =>
      getBits_cut .codeBits fun _ _ => .inl (takeCodeBits_withRest _ _)

theorem readEntriesLoop_cut (k : Nat) (s : State) :
    Cut ws (readEntriesLoop k s) (readEntriesLoop k (withRest ws s)) := by
  induction k generalizing s with
  | zero => exact .inl rfl
  | succ k ih => exact (readEntry_cut s).andThen ih

/-- The loop of R255, with what is done with its bits: a byte is read and the loop goes on. -/
theorem countLoop_succ_andTake (k j : Nat) (acc : Bits) (s : State) (take : Bits → State → Flow) :
    (countLoop (k + 1) j acc s).andTake take =
      (getBits 8 (fun _ => raise .totalCount) { s with byteIx := BitVec.ofNat 4 j }).andTake fun bs t =>
        (countLoop k (j + 1) (acc ++ bs)
          { t with total := t.total ||| ((byteOfBits bs).setWidth 64 <<< (8 * j)) }).andTake take := by
  rw [countLoop]
  cases getBits 8 (fun _ => raise .totalCount) { s with byteIx := BitVec.ofNat 4 j } <;> rfl

theorem countLoop_cut (k j : Nat) (acc : Bits) (s : State) {take : Bits → State → Flow}
    (htake : ∀ bs t, Cut ws (take bs t) (take bs (withRest ws t))) :
    Cut ws ((countLoop k j acc s).andTake take) ((countLoop k j acc (withRest ws s)).andTake take) := by
  induction k generalizing j acc s with
  | zero => exact htake acc s
  | succ k ih =>
    rw [countLoop_succ_andTake, countLoop_succ_andTake]
    exact getBits_cut .totalCount fun bs t => ih (j + 1) (acc ++ bs) _

theorem readCount_cut (s : State) : Cut ws (readCount s) (readCount (withRest ws s)) :=
  countLoop_cut Config.cntBytes 0 [] { s with total := 0 } fun _ _ => .inl (takeTotalCount_withRest _ _)

theorem bodyBit_cut (s : State) : Cut ws (bodyBit s) (bodyBit (withRest ws s)) :=
  getBits_cut .bodyTruncated fun _ _ => .inl (takeBodyBit_withRest _ _)

/-- Once all symbols are decoded the loop finishes the block (R258, R261). -/
theorem readBodyLoop_decoded (k : Nat) (h : ¬ s.decoded.toNat < s.total.toNat) :
    readBodyLoop (k + 1) s = finishBlock s := if_neg h

theorem readBodyLoop_cut (k : Nat) (s : State) : Cut ws (readBodyLoop k s) (readBodyLoop k (withRest ws s)) := by
  induction k generalizing s with
  | zero => exact .inl rfl
  | succ k ih =>
    by_cases hlt : s.decoded.toNat < s.total.toNat
    · rw [readBodyLoop_succ k hlt, readBodyLoop_succ (t := withRest ws s) k hlt]
      exact (bodyBit_cut s).andThen ih
    · rw [readBodyLoop_decoded k hlt, readBodyLoop_decoded (s := withRest ws s) k hlt]
      exact .inl (finishBlock_withRest s)

/-! ### The bound of the body loop (Log 13) -/

/-- Taking a body bit reads none. -/
theorem takeBodyBit_bitsLeft (b : Bool) (s : State) :
    (takeBodyBit b s).Meets (fun t => bitsLeft t = bitsLeft s) fun _ => True := by
  unfold takeBodyBit
  cases lookup s (s.cand ++ [b]) with
  | some v =>
    show bitsLeft (emitSymbol v s) = bitsLeft s
    rcases obufWrite_cases s s.decoded.toNat v with ⟨_, hw⟩ | ⟨_, hw⟩ <;>
    · rw [emitSymbol, hw]
      rfl
  | none =>
    simp only
    split
    · trivial
    · rfl

/-- A body bit uses up a bit, unless it ends the operation. -/
theorem bodyBit_uses (s : State) : (bodyBit s).Meets (fun t => bitsLeft t < bitsLeft s) fun _ => True := by
  have hused := bitsLeft_readBits 1 s
  have hget : (getBodyBit s).Meets (fun t => bitsLeft t < bitsLeft s) fun _ => True :=
    getBits_meets (fun _ => by omega) fun _ => trivial
  exact hget.andTake fun bs t ht =>
    (takeBodyBit_bitsLeft (bs.headD false) t).mono (fun u (hu : bitsLeft u = bitsLeft t) => hu ▸ ht) fun _ _ => trivial

/-- A bound above the bits left changes nothing: every pass reads a bit. -/
theorem readBodyLoop_bound {k k' : Nat} (h : bitsLeft s < k) (hk : k ≤ k') :
    readBodyLoop k' s = readBodyLoop k s := by
  induction k generalizing k' s with
  | zero => exact absurd h (Nat.not_lt_zero _)
  | succ k ih =>
    obtain ⟨j, rfl⟩ := Nat.exists_eq_add_of_le' hk
    rw [← Nat.add_assoc]
    by_cases hlt : s.decoded.toNat < s.total.toNat
    · have huses := bodyBit_uses s
      rw [readBodyLoop_succ _ hlt, readBodyLoop_succ k hlt]
      cases hb : bodyBit s with
      | go t =>
        rw [hb] at huses
        exact ih (Nat.lt_of_lt_of_le huses (Nat.le_of_lt_succ h)) (Nat.le_add_left k j)
      | ended t => rfl
    · rw [readBodyLoop_decoded _ hlt, readBodyLoop_decoded k hlt]

theorem readBody_cut (s : State) : Cut ws (readBody s) (readBody (withRest ws s)) := by
  have hle : bitsLeft s ≤ bitsLeft (withRest ws s) := by
    simp [bitsLeft, withRest]
  rw [readBody, ← readBodyLoop_bound (Nat.lt_succ_self (bitsLeft s)) (Nat.succ_le_succ hle)]
  exact readBodyLoop_cut _ s

end Cut

/-! ## The whole operation (R250) -/

/-- A DECOMPRESS that finds a byte reports a truncated block, or leaves what it leaves with `ws` behind its source. -/
theorem decompressOp_cut {s : State} (ws : List Byte) (h : 8 ≤ bitsLeft s) :
    Truncated (decompressOp s) ∨ decompressOp (withRest ws s) = withRest ws (decompressOp s) := by
  have hcount : Cut ws (readEntryCount (startDecompress s)) (readEntryCount (startDecompress (withRest ws s))) :=
    .inl (readEntryCount_withRest (s := startDecompress s) h)
  have hentries := hcount.andThen (f := readEntries) (f' := readEntries) fun t => readEntriesLoop_cut t.nent.toNat t
  rcases (hentries.andThen readCount_cut).andThen readBody_cut with hsame | ⟨t, hended, ht⟩
  · exact .inr ((congrArg Flow.state hsame).trans (Flow.state_withRest ws _))
  · refine .inl ?_
    rw [decompressOp, hended]
    exact ht

/-- Settles O37: with the bytes cut off the DECOMPRESS would consume them all, so without them it cannot go the same
way. -/
theorem truncatedBlocksAreReported : Obligations.TruncatedBlocksAreReported := by
  intro s entries ps vs ws hst h0 hfree hps hroom hblock hws hs
  refine ⟨decompressOp { s with busy := true }, acceptCommand_run hst, ?_⟩
  cases vs with
  | nil =>
    rw [decompressOp_cleanEOF (s := { s with busy := true }) h0 hs]
    exact ⟨h0, hs, rfl, fun _ => rfl, fun hne => absurd rfl hne⟩
  | cons v vs =>
    have hbyte : 8 ≤ bitsLeft { s with busy := true } := by
      simp [bitsLeft, hs]
      omega
    rcases decompressOp_cut ws hbyte with ht | hsame
    · exact ⟨ht.rdLeft, ht.src, ht.outLen, nofun, fun _ => ⟨ht.st, ht.cause⟩⟩
    · have hsrc : (withRest ws s).src = blockOf entries ps ++ [] := by
        rw [List.append_nil, hblock, ← hs]
        rfl
      obtain ⟨t, ht, -, -, -, -, -, -, -, -, hempty, -⟩ :=
        decompressDecodesWellFormedBlocks (withRest ws s) entries ps [] hst h0 hfree hps hroom hsrc
      obtain rfl : withRest ws (decompressOp { s with busy := true }) = t :=
        hsame.symm.trans (Host.Outcome.next.inj ((acceptCommand_run (s := withRest ws s) hst).symm.trans ht))
      exact absurd (List.append_eq_nil_iff.mp hempty).2 hws

end Sys2Proof.Machine
end

section
/-! SUPPORT. A clean end (60_exceptions R282): CleanEOF leaves a state in which every command is executed. -/

namespace Sys2Proof.Machine

/-- Every command but DECOMPRESS comes to its own end: Done, or a fault (30_encoding R121, 60_exceptions R281). -/
theorem exec_command_ends {i : Instr} {s : State} (hi : i.isCommand = true) (hne : i ≠ .decompress)
    (hst : s.st ≠ .fault) : ∃ t, exec i s = .next t ∧ (t.st = .done ∨ t.st = .fault) := by
  cases i with
  | rdbits _ | wrbits _ | flush => exact ⟨_, acceptCommand_run hst, .inl rfl⟩
  | encode =>
    refine ⟨_, acceptCommand_run hst, ?_⟩
    obtain ⟨_, -, h | h⟩ := encodeOp_cases { s with busy := true } <;> rw [h]
    · exact .inl rfl
    · exact .inr rfl
  | compress =>
    refine ⟨_, acceptCommand_run hst, ?_⟩
    rcases compressOp_cases { s with busy := true } with ⟨-, h⟩ | ⟨-, _, -, h | ⟨-, h⟩ | ⟨-, h⟩⟩ <;> rw [h]
    · exact .inr rfl
    · exact .inr rfl
    · exact .inr rfl
    · exact .inl rfl
  | illegal _ _ _ => exact ⟨_, acceptCommand_run hst, .inr rfl⟩
  | decompress => exact absurd rfl hne
  | wireEntryCount _ | wireByteValue _ | wireCodeBitLength _ | wireCodeBits _ | wireTotalSymbolCount _ | wireBody _ =>
    cases hi

theorem Delivery.src {s t : State} (h : Delivery s t) : t.src <:+ s.src := by
  cases h with
  | done hk _ _ => exact hk.src
  | cleanEOF hk _ _ => exact hk.src
  | fault hk _ => exact hk.src

/-- On a byte boundary a DECOMPRESS takes the byte that is there as entry_count, and never gives it back (R252, R74). -/
theorem decompressOp_takes_byte {s : State} {v : Byte} {vs : List Byte} (h0 : s.rdLeft = 0) (hs : s.src = v :: vs) :
    (decompressOp s).src <:+ vs := by
  have hread : readEntryCount (startDecompress s) = takeEntryCount v
      { startDecompress s with rdByte := v, rdLeft := 0, src := vs } := by
    rw [readEntryCount, getEntryCount, getBits_byte (s := startDecompress s) _ h0 hs, Got.andTake,
      byteOfBits_bitsOfByte]
  have hstart : BeforeBody { startDecompress s with rdByte := v, rdLeft := 0, src := vs }
      { startDecompress s with rdByte := v, rdLeft := 0, src := vs } := ⟨.refl _, rfl, rfl, rfl⟩
  have hentries := (takeEntryCount_beforeBody v hstart).andThen fun t => readEntriesLoop_beforeBody t.nent.toNat
  have hmeets := (hentries.andThen fun _ => readCount_inBody).andThen fun t => readBodyLoop_inBody (bitsLeft t + 1)
  rw [decompressOp, hread]
  exact (hmeets.mono (fun _ h => h.keeps.src) fun _ h => h.src).state

/-- A DECOMPRESS at the source's end ends CleanEOF (R252). -/
theorem exec_decompress_cleanEOF {s : State} (hst : s.st ≠ .fault) (h0 : s.rdLeft = 0) (hs : s.src = []) :
    exec .decompress s = .next (finishCleanEOF (startDecompress { s with busy := true })) :=
  (acceptCommand_run hst).trans (congrArg Host.Outcome.next (decompressOp_cleanEOF h0 hs))

/-- Settles O35: CleanEOF changes nothing of reader and fault registers, and it is no fault, so the next command runs. -/
theorem cleanEndIsNoError : Obligations.CleanEndIsNoError := by
  intro s hst h0 hs
  have hnext : (finishCleanEOF (startDecompress { s with busy := true })).st ≠ .fault := nofun
  exact ⟨_, exec_decompress_cleanEOF hst h0 hs, rfl, rfl, rfl, ⟨rfl, rfl, rfl⟩, ⟨rfl, rfl, rfl⟩,
    fun _ hi hne => exec_command_ends hi hne hnext,
    fun _ _ => ⟨_, acceptCommand_run hnext, decompressOp_takes_byte h0 rfl⟩,
    _, exec_decompress_cleanEOF hnext h0 hs, rfl⟩

end Sys2Proof.Machine
end

section
/-! SUPPORT. The statement of 70_reset_and_hazards about when an action of the host is taken (R320, R325; 10_state R37):
a step between operations with nothing to do, a step of a DECOMPRESS under way, and a step that takes reset. -/

namespace Sys2Proof.Machine

/-- What DECOMPRESS changes does not include the host's actions to come (R325). -/
theorem DecodeOnly.pending {s t : State} (h : DecodeOnly s t) : t.pending = s.pending := by
  obtain ⟨-, -, -, hhost, -⟩ := h.frame
  exact hhost.pending

/-- Between operations and with no action of the host to take, a step changes nothing. -/
theorem step_idle {s : State} (hb : s.busy = false) (hp : s.pending = []) : step s = .next s := by
  rcases step_boundary_cases hb with ⟨-, h⟩ | ⟨w, rest, h, -⟩ | ⟨w, rest, h, -⟩ | ⟨a, rest, h, -⟩
  · exact h
  all_goals cases hp.symm.trans h

/-- Settles O7: with BUSY = 1 a step is the decoder's work, which leaves the host's actions where they are. -/
theorem hostActionsWaitWhileBusy : Obligations.HostActionsWaitWhileBusy :=
  ⟨fun _ hb hp => step_idle hb hp, fun _ _ hb hr ht => (step_busy_decode hb hr ht).pending, fun _ _ hp => step_reset hp⟩

end Sys2Proof.Machine
end
